-- ==== Sys2Proof/Word.lean ====
section
/-! DEFINITION. The word types of the block (00_scope.md R9, R13) and their plainest arithmetic. -/

namespace Sys2Proof

/-- A byte: 8 bits, bit 7 the most significant (R9, decision D25). -/
abbrev Byte := BitVec 8

/-- A nibble: the address of a frame, 4 bits (R39, R82). -/
abbrev Nibble := BitVec 4

/-- A 16-bit value: a channel, the checksum accumulator, a short response value (R11, R39). -/
abbrev Half := BitVec 16

/-- A 32-bit value: the long response value (R39). -/
abbrev Word := BitVec 32

/-- One element of a ring buffer: a `W`-bit value, held as the number below `2 ^ W` that it is (R21). The width `W` is a
parameter of the instance (R7, decision D6) and no ring-buffer operation adds, shifts or masks an element
(40_ringbuffer.md R110 (d): "nothing inspects it"), so the type does not carry it (log entry 19). -/
abbrev Elem := Nat

/-- The byte an element of a byte instance (`W = 8`) is, as the codec sees it (R7: "`W = 8` for every instance the codec or
encoder touches"). -/
abbrev byteOf (v : Elem) : Byte := BitVec.ofNat 8 v

/-- A byte as an element of a byte instance. -/
abbrev elemOf (b : Byte) : Elem := b.toNat

end Sys2Proof
end

