-- ==== Sys2Proof/Config.lean ====
section
/-! DEFINITION. The implementation parameters of an instance (00_scope.md R7), the protocol constants (R8), and the one
uninterpreted source of free values (the draws of R14 and 93_implementation_defined.md U1, U8). -/

namespace Sys2Proof

/-- `CURSOR_VIEW` (R7, decision D3): what a read of the other agent's cursor may return. -/
inductive CursorView where
  | current
  | delayed
  deriving DecidableEq, Repr

/-- `POP_EMPTY_POLICY` (R7, decision D7): what `pop` does on an empty buffer, `abort` or `none` (R113, R115). -/
inductive PopEmptyPolicy where
  | abort
  | noElement
  deriving DecidableEq, Repr

/-- The parameters of one ring-buffer instance, "fixed at construction of an instance and never changed" (R7). `N`, `W` and `CW`
are OPEN (decisions D4, D5, D6); the three policies have decided values and modelled alternatives (D2, D3, D7). They are data of
the state, so every claim about a state is a claim about every choice of them. -/
structure Params where
  N              : Nat
  W              : Nat
  CW             : Nat
  orderedHandoff : Bool
  cursorView     : CursorView
  popEmptyPolicy : PopEmptyPolicy
  deriving DecidableEq, Repr

/-- The domains of the open parameters (92_eei_decisions.md, last table): `N >= 2`, `W >= 1`, `CW >= max(1, ceil(log2 N))`. -/
abbrev Params.Legal (p : Params) : Prop :=
  2 ≤ p.N ∧ 1 ≤ p.W ∧ 1 ≤ p.CW ∧ p.N ≤ 2 ^ p.CW

/-- The further constraints of a receive instance read by the codec (R7, R255): `W = 8`, `N >= 33`. -/
abbrev Params.LegalReceive (p : Params) : Prop := p.Legal ∧ p.W = 8 ∧ 33 ≤ p.N

/-- The further constraints of an instance written by the encoder (R7, R255): `W = 8`, `N >= 9`. -/
abbrev Params.LegalTarget (p : Params) : Prop := p.Legal ∧ p.W = 8 ∧ 9 ≤ p.N

namespace Config

/-- `MIN_LENGTH = 4` (R8). -/
def minLength : Nat := 4

/-- `MAX_LENGTH = 32` (R8). -/
def maxLength : Nat := 32

/-- `NCHAN = 14` (R8). -/
def nchan : Nat := 14

/-- `CK_INIT = 0xFFFF` (R8). -/
def ckInit : Half := 0xFFFF

/-- Command code `SET = 0x40` (R8, R85). -/
def cmdSet : Byte := 0x40

/-- Command code `DISCOVER = 0x80` (R8, R85). -/
def cmdDiscover : Byte := 0x80

/-- Command code `TYPE = 0x90` (R8, R85). -/
def cmdType : Byte := 0x90

/-- Command code `VALUE = 0xA0` (R8, R85). -/
def cmdValue : Byte := 0xA0

/-- DESIGN CHOICE (log entry 2): the parameters `State.reset` constructs the receive instance with. `N = 33` is the least legal
value of an instance read by the codec (R255) and the one Program 3 of 95_test_vectors.md uses; `CW = ceil(log2 33) = 6`; the
policies have the values the spec decides (D2, D3, D7). -/
def rxParams : Params := ⟨33, 8, 6, true, .delayed, .abort⟩

/-- DESIGN CHOICE (log entry 2): the parameters `State.reset` constructs the transmit instance with: `N = 16` as in Program 3 of
95_test_vectors.md, `CW = 4`. -/
def txParams : Params := ⟨16, 8, 4, true, .delayed, .abort⟩

/-- The free values of the spec (R14 "draw", R36): the choice that draw number `k` makes, once the environment's own listed
choices are used up. It has no body: nothing can be proved about a value of it (log entry 3). -/
opaque freeChoice : Nat → Nat

end Config

end Sys2Proof
end

