-- ==== Sys2Proof/Syntax.lean ====
section
/-! DEFINITION. The operations and frames of the block: `Instr`, one constructor per row of opcode_table.json, with the ports an
operation is invoked through (60_exceptions.md R233) and the messages it carries (10_state.md R39). -/

namespace Sys2Proof

/-- The ring-buffer instances of the system of R235: the receive instance the codec reads and the transmit instance the encoder
writes (decision D32: "Instances are independent"; log entry 18). -/
inductive InstId where
  | rx
  | tx
  deriving DecidableEq, Repr

/-- The role of an agent on an instance (R15, R233): the block's only "mode". -/
inductive Role where
  | producer
  | consumer
  deriving DecidableEq, Repr

/-- An abstract command port (decision D19: "Each instance has two abstract command ports, one per role"). -/
structure Port where
  inst : InstId
  role : Role
  deriving DecidableEq, Repr

/-- A message (R39), "a closed tagged union". The fields are those of R39; `channels` of `setMsg` is the fixed array of 14 16-bit
values, oldest first (its length is checked by `Message.wf`). -/
inductive Message where
  | discoveryRequest   (address : Nibble)
  | discoveryResponse  (address : Nibble)
  | setMsg             (channels : List Half)
  | typeRequest        (address : Nibble)
  | typeResponse       (address : Nibble) (sensorKind sensorWidth : Byte)
  | valueRequest       (address : Nibble)
  | valueResponseShort (address : Nibble) (value : Half)
  | valueResponseLong  (address : Nibble) (value : Word)
  deriving DecidableEq, Repr

/-- One constructor per row of opcode_table.json: four inbound frames (R92), four outbound frames (R93), sixteen operations (R99).
The port an operation is invoked through is not a field: it is the state's `port` (R233), as a processor's mode is. -/
inductive Instr where
  /-- `F.SET` (R181, R182): `length` is byte 0, `address` the ignored low nibble of byte 1, `payload` bytes `2 .. L-3`. -/
  | fSet (length : Byte) (address : Nibble) (payload : List Byte)
  /-- `F.DISCOVER` (R178). -/
  | fDiscover (address : Nibble)
  /-- `F.TYPE` (R179). -/
  | fType (address : Nibble)
  /-- `F.VALUE` (R180). -/
  | fValue (address : Nibble)
  /-- `E.DISCOVER_RESP` (R198). -/
  | eDiscoverResp (address : Nibble)
  /-- `E.TYPE_RESP` (R199). -/
  | eTypeResp (address : Nibble) (sensorKind sensorWidth : Byte)
  /-- `E.VALUE_RESP_S` (R200). -/
  | eValueRespS (address : Nibble) (value : Half)
  /-- `E.VALUE_RESP_L` (R201). -/
  | eValueRespL (address : Nibble) (value : Word)
  /-- `push(v)` (R110). -/
  | push (v : Elem)
  /-- `pop()` (R113). -/
  | pop
  /-- `len()` (R116). -/
  | len
  /-- `is_full()` (R118). -/
  | isFull
  /-- `is_empty()` (R119). -/
  | isEmpty
  /-- `space()` (R120). -/
  | space
  /-- `peek(i)` (R121): `i` is a logical offset, 0 the oldest element. -/
  | peek (i : Nat)
  /-- `clear()` (R123). -/
  | clear
  /-- `load(s)` (R124). -/
  | load (s : List Elem)
  /-- `iter_new()` (R125). -/
  | iterNew
  /-- `iter_next()` (R126). -/
  | iterNext
  /-- `checksum(s)` (R150). -/
  | checksum (s : List Byte)
  /-- `needsResync()` (R160). -/
  | needsResync
  /-- `decodeNext()` (R175). -/
  | decodeNext
  /-- `service()` (R187). -/
  | service
  /-- `encode(m, target)` (R195). -/
  | encode (m : Message) (target : InstId)
  deriving DecidableEq, Repr

end Sys2Proof
end

