-- ==== Sys2Proof/Machine/Operands.lean ====
section
/-! DEFINITION. Bit fields, byte order, the checksum and the assembly of frames and channel values: every operand form of
30_encoding.md R82 to R93, 41_checksum.md and 43_framedecoder.md R182, as pure functions. -/

namespace Sys2Proof.Machine

/-- `lo8(v) = v[7:0]` (R12). -/
def lo8 (v : Half) : Byte := v.setWidth 8

/-- `hi8(v) = v[15:8]` (R12). -/
def hi8 (v : Half) : Byte := (v >>> 8).setWidth 8

/-- `le16(b0, b1) = b0 + 256 * b1`, `b0` the byte at the lower offset (R12, R67). -/
def le16 (b0 b1 : Byte) : Half := b1 ++ b0

/-- `sub16(a, b) = (a - b) mod 65536` for a byte `b` (R11). -/
def sub16 (a : Half) (b : Byte) : Half := a - b.setWidth 16

/-- The command of byte 1: `b1 & 0xF0` (R82, R88). -/
def commandOf (b1 : Byte) : Byte := b1 &&& 0xF0

/-- The address nibble of byte 1: `b1[3:0]` (R82, R88). -/
def addressOf (b1 : Byte) : Nibble := b1.setWidth 4

/-- Byte 1 from a command code and an address: `code | address` (R88). -/
def byte1Of (code : Byte) (a : Nibble) : Byte := code ||| a.setWidth 8

/-- The declared length `L` is outside `[MIN_LENGTH, MAX_LENGTH]` (R94, R162). -/
def badLength (L : Byte) : Bool := L.toNat < Config.minLength || Config.maxLength < L.toNat

/-- The command is none of the four command codes (R95, R164). -/
def badCommand (b1 : Byte) : Bool :=
  commandOf b1 != Config.cmdSet && commandOf b1 != Config.cmdDiscover &&
    commandOf b1 != Config.cmdType && commandOf b1 != Config.cmdValue

/-- A non-SET command whose declared length is not `MIN_LENGTH` (R86, R96, R164). -/
def badFixedLength (L b1 : Byte) : Bool :=
  commandOf b1 != Config.cmdSet && L.toNat != Config.minLength

/-- `checksum(s)` (R150): the running subtraction from `0xFFFF`. -/
def checksumOf (bytes : List Byte) : Half := bytes.foldl sub16 Config.ckInit

/-- The trailing bytes agree with the accumulator (R90, R152): both bytes must match. -/
def trailerMatches (acc : Half) (lo hi : Byte) : Bool := lo8 acc == lo && hi8 acc == hi

/-- The number of channel values of a SET frame: `min(floor(L / 2) - 2, 14)` (R182, decision D14). -/
def setCount (L : Byte) : Nat := min (L.toNat / 2 - 2) Config.nchan

/-- The channel array before any value is written: "any slot beyond the decoded count remains zero" (R181). -/
def zeroChannels : List Half := List.replicate Config.nchan 0

/-- Little-endian 16-bit values of a payload, two bytes each; an odd last byte belongs to none (R89, R182). -/
def le16s : List Byte → List Half
  | lo :: hi :: rest => le16 lo hi :: le16s rest
  | _ => []

/-- The channels of a SET frame (R182): the first `setCount L` values of the payload, then zeros up to 14. -/
def setChannels (L : Byte) (payload : List Byte) : List Half :=
  let vals := le16s (payload.take (2 * setCount L))
  vals ++ List.replicate (Config.nchan - vals.length) 0

/-- The bytes of a 16-bit value, least significant first (R91). -/
def bytes16 (v : Half) : List Byte := [lo8 v, hi8 v]

/-- The bytes of a 32-bit value, least significant first (R91). -/
def bytes32 (v : Word) : List Byte :=
  [v.setWidth 8, (v >>> 8).setWidth 8, (v >>> 16).setWidth 8, (v >>> 24).setWidth 8]

/-- The bytes a checksum covers: length byte, byte 1 and payload (R151, R203). -/
def frameBody (elen code : Byte) (a : Nibble) (payload : List Byte) : List Byte :=
  elen :: byte1Of code a :: payload

/-- A frame from its body: the two trailer bytes, low then high (R84, R153). -/
def withTrailer (body : List Byte) : List Byte :=
  body ++ [lo8 (checksumOf body), hi8 (checksumOf body)]

/-- The frame the encoder composes: `elen = P + 4` (R196); outside `[4, 32]` nothing is written (R197), answered as no bytes. -/
def composeFrame (code : Byte) (a : Nibble) (payload : List Byte) : List Byte :=
  let elen := payload.length + 4
  if elen < Config.minLength ∨ Config.maxLength < elen then []
  else withTrailer (frameBody (BitVec.ofNat 8 elen) code a payload)

/-- `DiscoveryResponse(a)` on the wire (R198). -/
def discoverRespFrame (a : Nibble) : List Byte := composeFrame Config.cmdDiscover a []

/-- `TypeResponse(a, k, w)` on the wire (R199). -/
def typeRespFrame (a : Nibble) (k w : Byte) : List Byte := composeFrame Config.cmdType a [k, w]

/-- `ValueResponseShort(a, v)` on the wire (R200). -/
def valueRespShortFrame (a : Nibble) (v : Half) : List Byte := composeFrame Config.cmdValue a (bytes16 v)

/-- `ValueResponseLong(a, v)` on the wire (R201). -/
def valueRespLongFrame (a : Nibble) (v : Word) : List Byte := composeFrame Config.cmdValue a (bytes32 v)

/-- The frame of a message the encoder can emit; `none` for the variants with no outward form: the requests and `SetMsg`
(R195, R202, decision D36). -/
def outboundFrame : Message → Option (List Byte)
  | .discoveryResponse a    => some (discoverRespFrame a)
  | .typeResponse a k w     => some (typeRespFrame a k w)
  | .valueResponseShort a v => some (valueRespShortFrame a v)
  | .valueResponseLong a v  => some (valueRespLongFrame a v)
  | .discoveryRequest _     => none
  | .setMsg _               => none
  | .typeRequest _          => none
  | .valueRequest _         => none

/-- The tag of a message (R39, decision D18): 0 to 7 in the order of R39's list. -/
def tagOf : Message → Byte
  | .discoveryRequest _     => 0
  | .discoveryResponse _    => 1
  | .setMsg _               => 2
  | .typeRequest _          => 3
  | .typeResponse _ _ _     => 4
  | .valueRequest _         => 5
  | .valueResponseShort _ _ => 6
  | .valueResponseLong _ _  => 7

/-- What the decoder delivers for a frame (R178 to R181): the message and the number of bytes to discard, `L` (R184). -/
def discoverResult (a : Nibble) : Message × Nat := (.discoveryRequest a, Config.minLength)

/-- R179. -/
def typeResult (a : Nibble) : Message × Nat := (.typeRequest a, Config.minLength)

/-- R180. -/
def valueResult (a : Nibble) : Message × Nat := (.valueRequest a, Config.minLength)

/-- R181, R182: `SetMsg` has no address field. -/
def setResult (L : Byte) (payload : List Byte) : Message × Nat := (.setMsg (setChannels L payload), L.toNat)

end Sys2Proof.Machine
end

