-- ==== Sys2Proof/WellFormed.lean ====
section
/-! DEFINITION. Which terms of the syntax stand for something the hardware has: the shape of a SET frame (30_encoding.md R81, R83),
the fixed channel array (10_state.md R39). The width of an element or an offset is a parameter of the instance (R7), so it is tested when
an operation is invoked. -/

namespace Sys2Proof

/-- `SetMsg` holds a fixed array of 14 values (R39). -/
def Message.wf : Message → Bool
  | .setMsg ch => ch.length == Config.nchan
  | _ => true

/-- The check of an instruction: a SET frame declares a legal length and has `L - 4` payload bytes (R81, R83); the other frames
and the operations are well formed by their types. -/
def Instr.wf : Instr → Bool
  | .fSet L _ payload    => !Machine.badLength L && payload.length == L.toNat - 4
  | .fDiscover _         => true
  | .fType _             => true
  | .fValue _            => true
  | .eDiscoverResp _     => true
  | .eTypeResp _ _ _     => true
  | .eValueRespS _ _     => true
  | .eValueRespL _ _     => true
  | .push _              => true
  | .pop                 => true
  | .len                 => true
  | .isFull              => true
  | .isEmpty             => true
  | .space               => true
  | .peek _              => true
  | .clear               => true
  | .load _              => true
  | .iterNew             => true
  | .iterNext            => true
  | .checksum _          => true
  | .needsResync         => true
  | .decodeNext          => true
  | .service             => true
  | .encode m _          => m.wf

end Sys2Proof
end

