-- ==== Sys2Proof/Decode.lean ====
section
/-! DEFINITION. Decoding, total on any bytes and rejecting by name, and after it the encoder. Three forms have an encoding: an
operation at a command port (30_encoding.md R99; the layout of its arguments is log entry 6), an inbound frame (R80 to R92) and an
outbound frame (R93). Inbound and outbound frames are two forms because one word stands in both tables: `E.DISCOVER_RESP` is
"byte-for-byte the same frame as an inbound `F.DISCOVER`" (R93). -/

namespace Sys2Proof

open Machine

/-- Why bytes are no instruction. -/
inductive DecodeError where
  /-- No byte at all, or a frame's first byte alone. -/
  | noBytes
  /-- Op codes `0x0B..0x0F` and `0x15..0x1F` are unassigned (R99). -/
  | unassignedOp
  /-- The byte that holds the 5-bit op code has a bit set above bit 4 (log entry 6). -/
  | notAnOpCode
  /-- The command ends inside its arguments, or a number ends in a needless group of zeros (log entry 6). -/
  | badArgument
  /-- A message tag above 7 (decision D18 numbers 0 to 7). -/
  | unknownTag
  /-- A target number above 1: there are two instances (R235). -/
  | unknownTarget
  /-- An address byte whose high nibble is not 0: an address has 4 bits (R39). -/
  | wideAddress
  /-- Bytes after the last argument of a command. -/
  | trailingBytes
  /-- R94. -/
  | badLength
  /-- R95, and for an outbound frame a header that is in no row of R93. -/
  | badCommand
  /-- R96. -/
  | badFixedLength
  /-- Fewer bytes than the declared length (R163). -/
  | incompleteFrame
  /-- R97. -/
  | badChecksum
  deriving DecidableEq, Repr

/-- The answer of a decoder: the instruction and the bytes after it, or the reason there is none. -/
inductive Decoded where
  | ok (i : Instr) (rest : List Byte)
  | reject (e : DecodeError)
  deriving DecidableEq, Repr

/-- The three forms. -/
inductive Form where
  | op
  | inbound
  | outbound
  deriving DecidableEq, Repr

/-! ### Arguments of a command -/

/-- The first `n` bytes and the rest, if there are that many. -/
def takeBytes : Nat → List Byte → Option (List Byte × List Byte)
  | 0, bs => some ([], bs)
  | _ + 1, [] => none
  | n + 1, b :: bs => (takeBytes n bs).map fun r => (b :: r.1, r.2)

/-- A number operand of any size: groups of 7 bits, least significant first, bit 7 set on every byte but the last. A last group of 0
after others is no number, so each number is written in one way. -/
def takeNat : List Byte → Option (Nat × List Byte)
  | [] => none
  | b :: bs =>
    if b.toNat < 128 then some (b.toNat, bs)
    else
      match takeNat bs with
      | none => none
      | some (v, rest) => if v = 0 then none else some (b.toNat - 128 + 128 * v, rest)

/-- At most `n + 1` groups of a number. -/
def natGroups : Nat → Nat → List Byte
  | 0, v => [BitVec.ofNat 8 v]
  | n + 1, v =>
    if v < 128 then [BitVec.ofNat 8 v] else BitVec.ofNat 8 (128 + v % 128) :: natGroups n (v / 128)

/-- The groups of a number: never more than its value. -/
def natBytes (v : Nat) : List Byte := natGroups v v

/-- `m` number operands. -/
def takeElems : Nat → List Byte → Option (List Elem × List Byte)
  | 0, bs => some ([], bs)
  | m + 1, bs =>
    match takeNat bs with
    | none => none
    | some (v, bs1) => (takeElems m bs1).map fun r => (v :: r.1, r.2)

/-- A 16-bit value, low byte first (R67). -/
def takeHalf : List Byte → Option (Half × List Byte)
  | lo :: hi :: bs => some (le16 lo hi, bs)
  | _ => none

/-- `m` 16-bit values. -/
def takeHalves : Nat → List Byte → Option (List Half × List Byte)
  | 0, bs => some ([], bs)
  | m + 1, bs =>
    match takeHalf bs with
    | none => none
    | some (v, bs1) => (takeHalves m bs1).map fun r => (v :: r.1, r.2)

/-- Two bytes as one 16-bit word and four as one 32-bit word, least significant first (R91). -/
def wordOf (b0 b1 b2 b3 : Byte) : Word := (b3 ++ b2) ++ (b1 ++ b0)

/-- The target number of `encode`: 0 the receive instance, 1 the transmit instance (log entry 6). -/
def targetOf (b : Byte) : Option InstId :=
  if b = 0 then some .rx else if b = 1 then some .tx else none

/-- See `targetOf`. -/
def targetByte : InstId → Byte
  | .rx => 0
  | .tx => 1

/-- The fields of the message whose tag is `tag`, its address first (decision D18 numbers the tags; the layout is log entry 6). -/
def takeFields (tag : Byte) (a : Nibble) (bs : List Byte) : Option (Message × List Byte) :=
  match tag.toNat, bs with
  | 0, bs => some (.discoveryRequest a, bs)
  | 1, bs => some (.discoveryResponse a, bs)
  | 3, bs => some (.typeRequest a, bs)
  | 4, k :: w :: bs => some (.typeResponse a k w, bs)
  | 5, bs => some (.valueRequest a, bs)
  | 6, b0 :: b1 :: bs => some (.valueResponseShort a (le16 b0 b1), bs)
  | 7, b0 :: b1 :: b2 :: b3 :: bs => some (.valueResponseLong a (wordOf b0 b1 b2 b3), bs)
  | _, _ => none

/-- The argument of `encode`: target, tag, then for `SetMsg` its 14 channels, for any other variant its address and fields. -/
def decodeEncode : List Byte → Decoded
  | tgt :: tag :: bs =>
    match targetOf tgt with
    | none => .reject .unknownTarget
    | some target =>
      if 7 < tag.toNat then .reject .unknownTag
      else if tag = 2 then
        match takeHalves Config.nchan bs with
        | none => .reject .badArgument
        | some (ch, rest) => .ok (.encode (.setMsg ch) target) rest
      else
        match bs with
        | [] => .reject .badArgument
        | a :: bs =>
          if a &&& 0xF0 ≠ 0 then .reject .wideAddress
          else
            match takeFields tag (addressOf a) bs with
            | none => .reject .badArgument
            | some (m, rest) => .ok (.encode m target) rest
  | _ => .reject .badArgument

/-- An instruction made from its argument, or `badArgument`. -/
def withArg {α : Type} (arg : Option (α × List Byte)) (mk : α → Instr) : Decoded :=
  match arg with
  | some (a, rest) => .ok (mk a) rest
  | none => .reject .badArgument

/-- A count, then what it counts. -/
def counted {α : Type} (take : Nat → List Byte → Option (α × List Byte)) (bs : List Byte) : Option (α × List Byte) :=
  match takeNat bs with
  | none => none
  | some (m, bs1) => take m bs1

/-- An operation at a command port (R99): the byte of the op code, then the arguments. -/
def decodeOp : List Byte → Decoded
  | [] => .reject .noBytes
  | op :: bs =>
    match op.toNat with
    | 0x00 => withArg (takeNat bs) .push
    | 0x01 => .ok .pop bs
    | 0x02 => .ok .len bs
    | 0x03 => .ok .isFull bs
    | 0x04 => .ok .isEmpty bs
    | 0x05 => .ok .space bs
    | 0x06 => withArg (takeNat bs) .peek
    | 0x07 => .ok .clear bs
    | 0x08 => withArg (counted takeElems bs) .load
    | 0x09 => .ok .iterNew bs
    | 0x0A => .ok .iterNext bs
    | 0x10 => withArg (counted takeBytes bs) .checksum
    | 0x11 => .ok .needsResync bs
    | 0x12 => .ok .decodeNext bs
    | 0x13 => .ok .service bs
    | 0x14 => decodeEncode bs
    | n => if 0x1F < n then .reject .notAnOpCode else .reject .unassignedOp

/-! ### Frames -/

/-- The rows of R92, for a frame whose length, command, fixed length and checksum have been judged. -/
def inboundInstr (L b1 : Byte) (payload : List Byte) : Instr :=
  if commandOf b1 = Config.cmdDiscover then .fDiscover (addressOf b1)
  else if commandOf b1 = Config.cmdType then .fType (addressOf b1)
  else if commandOf b1 = Config.cmdValue then .fValue (addressOf b1)
  else .fSet L (addressOf b1) payload

/-- The trailer of a frame of `bytes.length` bytes agrees with the checksum of what is before it (R84, R152). -/
def trailerOk (frame : List Byte) : Bool :=
  match frame.drop (frame.length - 2) with
  | [lo, hi] => trailerMatches (checksumOf (frame.take (frame.length - 2))) lo hi
  | _ => false

/-- The payload of a frame: offsets `2 .. L-3` (R83). -/
def payloadOf (frame : List Byte) : List Byte := (frame.take (frame.length - 2)).drop 2

/-- An inbound frame at the front of `bytes`, judged in the order of R229: length, completeness, command, fixed length, checksum. -/
def decodeInbound (bytes : List Byte) : Decoded :=
  match bytes with
  | [] => .reject .noBytes
  | L :: more =>
    if badLength L then .reject .badLength
    else if bytes.length < L.toNat then .reject .incompleteFrame
    else
      match more with
      | [] => .reject .incompleteFrame
      | b1 :: _ =>
        if badCommand b1 then .reject .badCommand
        else if badFixedLength L b1 then .reject .badFixedLength
        else if !trailerOk (bytes.take L.toNat) then .reject .badChecksum
        else .ok (inboundInstr L b1 (payloadOf (bytes.take L.toNat))) (bytes.drop L.toNat)

/-- The rows of R93: length, command and the payload's shape. -/
def outboundInstr (L b1 : Byte) (payload : List Byte) : Option Instr :=
  match L.toNat, payload with
  | 4, [] => if commandOf b1 = Config.cmdDiscover then some (.eDiscoverResp (addressOf b1)) else none
  | 6, [x, y] =>
    if commandOf b1 = Config.cmdType then some (.eTypeResp (addressOf b1) x y)
    else if commandOf b1 = Config.cmdValue then some (.eValueRespS (addressOf b1) (le16 x y))
    else none
  | 8, [b0, b1', b2, b3] =>
    if commandOf b1 = Config.cmdValue then some (.eValueRespL (addressOf b1) (wordOf b0 b1' b2 b3)) else none
  | _, _ => none

/-- An outbound frame at the front of `bytes` (R93). -/
def decodeOutbound (bytes : List Byte) : Decoded :=
  match bytes with
  | [] => .reject .noBytes
  | L :: more =>
    if badLength L then .reject .badLength
    else if bytes.length < L.toNat then .reject .incompleteFrame
    else
      match more with
      | [] => .reject .incompleteFrame
      | b1 :: _ =>
        match outboundInstr L b1 (payloadOf (bytes.take L.toNat)) with
        | none => .reject .badCommand
        | some i =>
          if !trailerOk (bytes.take L.toNat) then .reject .badChecksum
          else .ok i (bytes.drop L.toNat)

/-- Decoding in one of the three forms. -/
def decode : Form → List Byte → Decoded
  | .op => decodeOp
  | .inbound => decodeInbound
  | .outbound => decodeOutbound

/-- A command at a port is one operation and nothing after it. -/
def decodeCommand (bytes : List Byte) : Decoded :=
  match decodeOp bytes with
  | .ok i [] => .ok i []
  | .ok _ (_ :: _) => .reject .trailingBytes
  | .reject e => .reject e

/-! ### The encoder -/

/-- The form an instruction is encoded in. -/
def formOf : Instr → Form
  | .fSet _ _ _ | .fDiscover _ | .fType _ | .fValue _ => .inbound
  | .eDiscoverResp _ | .eTypeResp _ _ _ | .eValueRespS _ _ | .eValueRespL _ _ => .outbound
  | .push _ | .pop | .len | .isFull | .isEmpty | .space | .peek _ | .clear | .load _ | .iterNew | .iterNext
  | .checksum _ | .needsResync | .decodeNext | .service | .encode _ _ => .op

/-- The address and fields of a message as argument bytes (see `takeFields`). -/
def messageBytes : Message → List Byte
  | .discoveryRequest a     => [a.setWidth 8]
  | .discoveryResponse a    => [a.setWidth 8]
  | .setMsg ch              => ch.flatMap bytes16
  | .typeRequest a          => [a.setWidth 8]
  | .typeResponse a k w     => [a.setWidth 8, k, w]
  | .valueRequest a         => [a.setWidth 8]
  | .valueResponseShort a v => a.setWidth 8 :: bytes16 v
  | .valueResponseLong a v  => a.setWidth 8 :: bytes32 v

/-- The bytes of an instruction: a frame for a frame row (R80, R92, R93), op code and arguments for an operation (R99). -/
def encode : Instr → List Byte
  | .fSet L a payload    => withTrailer (L :: byte1Of Config.cmdSet a :: payload)
  | .fDiscover a         => withTrailer [4, byte1Of Config.cmdDiscover a]
  | .fType a             => withTrailer [4, byte1Of Config.cmdType a]
  | .fValue a            => withTrailer [4, byte1Of Config.cmdValue a]
  | .eDiscoverResp a     => withTrailer [4, byte1Of Config.cmdDiscover a]
  | .eTypeResp a k w     => withTrailer [6, byte1Of Config.cmdType a, k, w]
  | .eValueRespS a v     => withTrailer (6 :: byte1Of Config.cmdValue a :: bytes16 v)
  | .eValueRespL a v     => withTrailer (8 :: byte1Of Config.cmdValue a :: bytes32 v)
  | .push v              => 0x00 :: natBytes v
  | .pop                 => [0x01]
  | .len                 => [0x02]
  | .isFull              => [0x03]
  | .isEmpty             => [0x04]
  | .space               => [0x05]
  | .peek i              => 0x06 :: natBytes i
  | .clear               => [0x07]
  | .load s              => 0x08 :: natBytes s.length ++ s.flatMap natBytes
  | .iterNew             => [0x09]
  | .iterNext            => [0x0A]
  | .checksum s          => 0x10 :: natBytes s.length ++ s
  | .needsResync         => [0x11]
  | .decodeNext          => [0x12]
  | .service             => [0x13]
  | .encode m target     => 0x14 :: targetByte target :: tagOf m :: messageBytes m

/-! ### Words of the opcode table -/

/-- The bytes of the longest command this encoder writes for operands of zeros: `encode` of a `SetMsg` (31 bytes), rounded up. -/
def zeroTail : List Byte := List.replicate 40 0

/-- A table word of an operation row as the port sees it: the op code's byte, then operand bytes of zeros. -/
def opBytes (w : Nat) : List Byte := BitVec.ofNat 8 w :: zeroTail

/-- A table word of a frame row as the receive path sees it: `hw = byte0 << 8 | byte1`, so byte 0 is `hw[15:8]`; the payload is
zeros, and the two trailer bytes are the checksum of what is before them, since R92 and R93 make them a function of the rest and
no operand (log entry 7). A byte 0 that is no legal length has no trailer to complete: its bytes are followed by zeros. -/
def frameBytes (w : Nat) : List Byte :=
  let b0 := BitVec.ofNat 8 (w / 256)
  let b1 := BitVec.ofNat 8 w
  if badLength b0 then b0 :: b1 :: zeroTail
  else withTrailer (b0 :: b1 :: List.replicate (b0.toNat - 4) 0)

/-- The instruction a decoder answers, if any. -/
def Decoded.instr? : Decoded → Option Instr
  | .ok i _ => some i
  | .reject _ => none

/-- The instruction the decoder reads from a table word (30_encoding.md R92, R93, R99): an operation row has 5 bits, one byte; a
frame row has the 16 bits of the header word, read as an inbound frame, and where it is none as an outbound one. -/
def decodeTableWord (nbits w : Nat) : Option Instr :=
  if nbits ≤ 8 then (decodeOp (opBytes w)).instr?
  else
    match decodeInbound (frameBytes w) with
    | .ok i _ => some i
    | .reject _ => (decodeOutbound (frameBytes w)).instr?

end Sys2Proof
end

