-- ==== Sys2Proof/Machine/State.lean ====
section
/-! DEFINITION. The state of the block (10_state.md): two ring-buffer instances, each with its slots, cursors, fault register,
cursor views and the operation-local registers of its two agents, and the pending inputs of the surroundings (00_scope.md R5, R36).
Plain data throughout. -/

namespace Sys2Proof.Machine

/-! ### Outcomes -/

/-- Why the machine stops with a fault. Neither is a behaviour of the block (its own faults are states, 60_exceptions.md R224): both
are reached only from states the invariant `Inv` of Safety.lean excludes. -/
inductive Fault where
  /-- Raised by `memRead` and `memWrite` at a physical index `>= N`, which does not exist (20_memory.md R51). Safe: the model stops. -/
  | slotOutOfRange
  /-- Raised by `memRead` of a slot that was not written since reset: it holds no value (10_state.md R37, log
  entry 14). Safe: the model stops. -/
  | unwrittenSlot
  deriving DecidableEq, Repr

/-- Why an invocation has no step (00_scope.md R14 (c): "the model gives such an invocation no step at all"). -/
inductive Refusal where
  /-- Answered by an arm of `exec` whose instruction has no meaning yet. Safe. -/
  | notModelled (mnemonic : String)
  /-- RoleViolation (60_exceptions.md R215 code 7, R222): the wrong role's port, or a second operation by a busy agent. Answered by
  `refusalOf`. Safe: no step. -/
  | roleViolation
  /-- ClearWhileActive (R215 code 8, R223): `clear` overlapping another operation. Answered by `refusalOf` and `execClear`. Safe. -/
  | clearWhileActive
  /-- An invocation on an instance whose `fault` is not 0 (R226). Answered by `refusalOf`. Safe. -/
  | instanceFaulted
  /-- `iter_next` when no iteration exists (40_ringbuffer.md R126). Answered by `execIterNext`. Safe. -/
  | noIteration
  /-- An operand that does not have the width the operation's rule gives it: an element of more than `W` bits, an offset of more
  than `CW` bits (R99, R110, R121). Answered by `push`, `load` and `peek`. Safe: the spec has no such invocation (log
  entry 15). -/
  | operandWidth
  /-- A codec or encoder operation on an instance whose elements are not bytes (R7: "`W = 8` for every instance the codec or
  encoder touches"). Answered by `invokedOnBytes`. Safe: the spec has no such invocation (log
  entry 16). -/
  | notByteInstance
  /-- A frame row of R92 run where that frame is not at the front of the receive instance: it exists only as a "transient view into
  buffer bytes" (R38). Answered by `acceptFrame`. Safe (log entry 13). -/
  | frameNotAtFront
  /-- A command that decodes to no operation, the unassigned op codes of R99 among them. Answered by `step`. Safe. -/
  | undecodable (e : DecodeError)
  deriving DecidableEq, Repr

/-! ### What an operation returns -/

/-- The result of an operation (30_encoding.md R99, column "result"). -/
inductive Result where
  /-- No value: `push`, `load`, `clear`, `iter_new`, `encode`. -/
  | nothing
  /-- An element: `pop`, `peek`, `iter_next`. -/
  | elem (v : Elem)
  /-- `NoElement`: `pop` on an empty buffer under `POP_EMPTY_POLICY = none` (R115). -/
  | noElement
  /-- A length or a space: `len`, `space`. -/
  | num (n : Nat)
  /-- One bit: `is_full`, `is_empty`, `needsResync`. -/
  | bit (b : Bool)
  /-- `End` of an iteration (R126). -/
  | endOfIter
  /-- 16 bits: `checksum`. -/
  | half (v : Half)
  /-- `(Message?, consumed)`: `decodeNext`, `service`. `none` is the rule's `absent`. -/
  | decoded (m : Option Message) (consumed : Nat)
  deriving DecidableEq, Repr

/-! ### The PRODUCER of an instance -/

/-- The micro-step counter `ppc` (R29, R111). `L1`, `L2` are the two reads of `len` (R116), which either agent may invoke (log
entry 9). -/
inductive PPc where
  | idle
  | P1
  | P2
  | P3
  | P4
  | P5
  | L1
  | L2
  deriving DecidableEq, Repr

/-- The operation a producer has in progress. `push`, `load` and `encode` are all series of pushes (R124, R204). -/
inductive PTask where
  | push
  | len
  | isFull
  | isEmpty
  | space
  deriving DecidableEq, Repr

/-- The operation-local registers of a producer (R29, R34). "Between operations `ppc = idle` and the other registers hold no
value": they are then those of `PRegs.idle` (log entry 4). -/
structure PRegs where
  ppc  : PPc
  task : PTask
  /-- The value being pushed. -/
  p_v  : Elem
  /-- Its read of `head`. -/
  p_h  : Nat
  /-- Its read of `tail`. -/
  p_t  : Nat
  /-- What of the input sequence of a `load` (or of the frame of an `encode`) is still to be pushed: "the position in the input
  sequence" (R29). -/
  src  : List Elem
  /-- The composed length of an `encode` (R34). -/
  elen : Byte
  /-- The composed frame of an `encode`, of which R34 gives 8 registers. -/
  ebuf : List Byte
  /-- The checksum accumulator of an `encode` (R34). -/
  acc  : Half
  deriving DecidableEq, Repr

/-- No operation in progress (R37, log entry 4). -/
def PRegs.idle : PRegs := ⟨.idle, .push, 0, 0, 0, [], 0, List.replicate 8 0, 0⟩

/-- A producer: its registers and the result port of its last operation (the model's own field, log entry 5): `none` while an
operation is in progress and after one that faulted. -/
structure Producer where
  regs : PRegs
  ret  : Option Result
  deriving DecidableEq, Repr

/-! ### The CONSUMER of an instance -/

/-- The micro-step counter `cpc` (R30, R114, R116, R122). `CL` is the one step of `clear` (log entry 9); at `X` the consumer
computes on its own registers and the register `phase` says what (R32, R167). -/
inductive CPc where
  | idle
  | C1
  | C2
  | C3
  | C4
  | C5
  | K1
  | K2
  | K3
  | L1
  | L2
  | CL
  | X
  deriving DecidableEq, Repr

/-- The operation a consumer has in progress. -/
inductive CTask where
  | pop
  | len
  | isFull
  | isEmpty
  | space
  | peek
  | clear
  | iterNext
  | needsResync
  | decodeNext
  | service
  deriving DecidableEq, Repr

/-- The phase register of the codec (R32, R167, R189). -/
inductive Phase where
  | S0
  | S1
  | S2
  | S3
  | S4
  | S5
  | DEC
  | DONE
  deriving DecidableEq, Repr

/-- The operation-local registers of a consumer (R30, R33), and what a codec operation carries between its parts (log entry 8). -/
structure CRegs where
  cpc  : CPc
  task : CTask
  /-- Its read of `tail`. -/
  c_t  : Nat
  /-- Its read of `head`. -/
  c_h  : Nat
  /-- The peek offset. -/
  c_i  : Nat
  /-- The slot value read. -/
  c_v  : Elem
  phase : Phase
  /-- The length snapshot (decision D13). -/
  n    : Nat
  /-- The declared length, byte 0 of the front. -/
  L    : Byte
  /-- Byte 1 of the front. -/
  b1   : Byte
  /-- The checksum accumulator. -/
  acc  : Half
  /-- The byte index. -/
  ci   : Nat
  /-- The trailing bytes read. -/
  ck_lo : Byte
  ck_hi : Byte
  /-- The SET channel count. -/
  cnt  : Nat
  /-- `chan[0..13]`. -/
  chan : List Half
  /-- The answer of the synchroniser, carried from `S1 .. S5` to `DONE` (log entry 8). -/
  resync : Bool
  /-- The pair of `service`, and how many of its pops are still to come (log entry 8). -/
  msg  : Option Message
  consumed : Nat
  left : Nat
  deriving DecidableEq, Repr

/-- No operation in progress (R37, log entry 4). -/
def CRegs.idle : CRegs :=
  ⟨.idle, .pop, 0, 0, 0, 0, .S0, 0, 0, 0, 0, 0, 0, 0, 0, List.replicate Config.nchan 0, false, none, 0, 0⟩

/-- A consumer: its registers, the iteration cursor `k` (R31; `none`: no iteration exists), the result port (log entry 5), and the
message last handed to the message sink by a `service` (R187, log entry 5). -/
structure Consumer where
  regs : CRegs
  k    : Option Nat
  ret  : Option Result
  sink : Option Message
  deriving DecidableEq, Repr

/-! ### One instance -/

/-- The slots that hold a value: pairs of physical index and element, indices strictly rising (`Memory.wf`, Ops.lean). A slot that
is not listed was not written since reset and holds no value (R37, 93_implementation_defined.md U7). -/
abbrev Memory := List (Nat × Elem)

/-- One ring-buffer instance (R20): the tuple `(slot[0..N-1], head, tail, fault, head_view, tail_view)`, its parameters (R7) and its
two agents (R15). -/
structure Inst where
  params   : Params
  slots    : Memory
  head     : Nat
  tail     : Nat
  /-- 4 bits, sticky (R27). -/
  fault    : BitVec 4
  /-- The most recent value of `head` the CONSUMER has obtained (R28). -/
  headView : Nat
  /-- The most recent value of `tail` the PRODUCER has obtained (R28). -/
  tailView : Nat
  prod     : Producer
  cons     : Consumer
  deriving DecidableEq, Repr

/-- An instance constructed with its parameters; reset and construction are one event (R37, R250, R251). DESIGN CHOICE: the result
ports and the message at the sink, the model's own fields, are then none (log entry 5), and the operation-local registers those of
`PRegs.idle` and `CRegs.idle` (log entry 4). -/
def Inst.construct (p : Params) : Inst where
  params   := p
  slots    := []
  head     := 0
  tail     := 0
  fault    := 0
  headView := 0
  tailView := 0
  prod     := ⟨PRegs.idle, none⟩
  cons     := ⟨CRegs.idle, none, none, none⟩

/-! ### The machine -/

/-- An input of the surroundings (R5, R36): which agent steps next and what it is asked to do. -/
inductive Event where
  /-- An operation is invoked through a port and runs to its end before anything else happens (R128; log entry 20). -/
  | invoke (p : Port) (cmd : List Byte)
  /-- An operation is invoked through a port; its micro-steps are scheduled one by one (R15, decision D1). -/
  | start (p : Port) (cmd : List Byte)
  /-- The agent of the port makes its next micro-step. -/
  | tick (p : Port)
  /-- The reset event of an instance (R250). -/
  | reset (inst : InstId)
  deriving DecidableEq, Repr

/-- The state of the block and its pending inputs. `queue`, `choices`, `draws` and `port` are the model's own fields (log entries
1, 3, 5): the inputs still to come, oldest first; the environment's listed choices for the draws to come (R36); the number of draws
made after those are used up; and the port the current invocation comes through, which stands where a processor's mode stands. -/
structure State where
  rx      : Inst
  tx      : Inst
  queue   : List Event
  choices : List Nat
  draws   : Nat
  port    : Port
  deriving DecidableEq, Repr

/-- The system of R235 right after reset, for any parameters of its two instances. -/
def State.construct (prx ptx : Params) : State where
  rx      := Inst.construct prx
  tx      := Inst.construct ptx
  queue   := []
  choices := []
  draws   := 0
  port    := ⟨.rx, .producer⟩

/-- The machine right after reset (R37, R251). The open parameters are those of `Config` (log entry 2). -/
def State.reset : State := State.construct Config.rxParams Config.txParams

/-- The outcomes of one step of this machine. -/
abbrev Out := Host.Outcome State Fault Refusal

end Sys2Proof.Machine
end

