-- ==== Sys2Proof/Machine/Flags.lean ====
section
/-! DEFINITION. Index arithmetic modulo `N` (00_scope.md R10), the predicates derived from a length (10_state.md R25, R26, R35: the
block has no condition codes, these are recomputed on demand), and the code numbers of the error classes (60_exceptions.md R215). -/

namespace Sys2Proof.Machine

/-- `inc(c) = (c + 1) mod N` (R10). -/
def inc (N c : Nat) : Nat := (c + 1) % N

/-- The forward distance from `a` to `b` modulo `N`, computed as `(b + N - a) mod N` (R10, R25, decision D34). -/
def forward (N a b : Nat) : Nat := (b + N - a) % N

/-- The logical length from one value of `head` and one of `tail` (R25, R116). -/
def lengthOf (N head tail : Nat) : Nat := forward N tail head

/-- The physical index of logical offset `i` (20_memory.md R52). -/
def slotIndex (N tail i : Nat) : Nat := (tail + i) % N

/-- "full is `length == N-1`" (R26, R118). -/
def fullAt (N n : Nat) : Bool := n == N - 1

/-- "empty is `len() == 0`" (R26, R119). -/
def emptyAt (n : Nat) : Bool := n == 0

/-- `space() = N - len()` (R120): it counts the reserved slot (90_conflicts.md C1). -/
def spaceAt (N n : Nat) : Nat := N - n

/-- The error classes of R215. -/
inductive ErrorClass where
  | malformedFrame
  | incompleteFrame
  | bufferOverflowOnWrite
  | bufferUnderflowOnRead
  | indexOutOfRange
  | unsupportedEncodeVariant
  | roleViolation
  | clearWhileActive
  deriving DecidableEq, Repr

/-- The code numbers of R215 (decision D9). Only 4, 5 and 6 are ever stored in `fault`. -/
def errorCode : ErrorClass → BitVec 4
  | .malformedFrame           => 1
  | .incompleteFrame          => 2
  | .bufferOverflowOnWrite    => 3
  | .bufferUnderflowOnRead    => 4
  | .indexOutOfRange          => 5
  | .unsupportedEncodeVariant => 6
  | .roleViolation            => 7
  | .clearWhileActive         => 8

end Sys2Proof.Machine
end

