-- ==== Sys2Proof/Machine/Ops.lean ====
section
/-! DEFINITION. The operations every meaning is made of: the slots (20_memory.md R50 to R57), the cursor reads and writes (R58 to
R61), taking a fault (60_exceptions.md R224) and returning a result (00_scope.md R14), the tests before an operation begins
(R222, R223, R226), and reset (70_reset_and_hazards.md R250), the only return from a fault. -/

namespace Sys2Proof.Machine

/-! ### Instances and agents -/

/-- The instance of a name. -/
def State.inst (s : State) : InstId → Inst
  | .rx => s.rx
  | .tx => s.tx

/-- The state with one instance replaced; the other one is untouched (decision D32). -/
def State.setInst (s : State) (id : InstId) (I : Inst) : State :=
  match id with
  | .rx => { s with rx := I }
  | .tx => { s with tx := I }

/-- The instance the current invocation is made on. -/
def State.here (s : State) : Inst := s.inst s.port.inst

/-- A producer's registers replaced. -/
def State.setPRegs (s : State) (id : InstId) (R : PRegs) : State :=
  s.setInst id { s.inst id with prod := { (s.inst id).prod with regs := R } }

/-- A consumer's registers replaced. -/
def State.setCRegs (s : State) (id : InstId) (R : CRegs) : State :=
  s.setInst id { s.inst id with cons := { (s.inst id).cons with regs := R } }

/-- The result port of an agent written. -/
def State.setRet (s : State) (p : Port) (r : Option Result) : State :=
  let I := s.inst p.inst
  match p.role with
  | .producer => s.setInst p.inst { I with prod := { I.prod with ret := r } }
  | .consumer => s.setInst p.inst { I with cons := { I.cons with ret := r } }

/-- The iteration cursor written (R31). -/
def State.setIter (s : State) (id : InstId) (k : Option Nat) : State :=
  s.setInst id { s.inst id with cons := { (s.inst id).cons with k := k } }

/-- A message handed to the message sink (R5, R187). -/
def State.setSink (s : State) (id : InstId) (m : Option Message) : State :=
  s.setInst id { s.inst id with cons := { (s.inst id).cons with sink := m } }

/-! ### Parts of an operation -/

/-- How a part of an operation ends: with a value, with a fault of the block already recorded in the state (R224), or, in states
the invariant excludes, with a fault of the model. -/
inductive Run (α : Type) where
  | ok (a : α) (s : State)
  | raised (s : State)
  | stop (f : Fault)
  deriving DecidableEq, Repr

/-- One part after another. -/
def Run.bind {α β : Type} (r : Run α) (f : α → State → Run β) : Run β :=
  match r with
  | .ok a s => f a s
  | .raised s => .raised s
  | .stop e => .stop e

/-! ### Draws -/

/-- One draw of the environment (R14, R36): its next listed choice, or a free value (log entry 3). -/
def draw (s : State) : Nat × State :=
  match s.choices with
  | c :: cs => (c, { s with choices := cs })
  | [] => (Config.freeChoice s.draws, { s with draws := s.draws + 1 })

/-! ### Slots -/

/-- The value a slot holds, if it was written since reset. -/
def Memory.read (m : Memory) (p : Nat) : Option Elem :=
  match m with
  | [] => none
  | (q, v) :: rest => if q = p then some v else Memory.read rest p

/-- One slot written, the indices still strictly rising. -/
def Memory.write (m : Memory) (p : Nat) (v : Elem) : Memory :=
  match m with
  | [] => [(p, v)]
  | (q, w) :: rest =>
    if q < p then (q, w) :: Memory.write rest p v
    else if q = p then (p, v) :: rest
    else (p, v) :: (q, w) :: rest

/-- The canonical form: indices strictly rising. (An unlisted slot holds no value, so no entry equals what it reads as.) -/
def Memory.wf : Memory → Bool
  | [] => true
  | [_] => true
  | (p, _) :: (q, w) :: rest => decide (p < q) && Memory.wf ((q, w) :: rest)

/-- `MemRead(p, 1)` (R13, R57). With `ORDERED_HANDOFF = false` the value of a published element is any `W`-bit value, drawn anew at
each read (R64 (b), 93_implementation_defined.md U1; log entry 21). -/
def memRead (id : InstId) (p : Nat) (s : State) : Run Elem :=
  let I := s.inst id
  if ¬ p < I.params.N then .stop .slotOutOfRange
  else if I.params.orderedHandoff then
    match I.slots.read p with
    | some v => .ok v s
    | none => .stop .unwrittenSlot
  else .ok ((draw s).1 % 2 ^ I.params.W) (draw s).2

/-- `MemWrite(p, 1, v)` (R13, R57). -/
def memWrite (id : InstId) (p : Nat) (v : Elem) (s : State) : Run Unit :=
  let I := s.inst id
  if ¬ p < I.params.N then .stop .slotOutOfRange
  else .ok () (s.setInst id { I with slots := I.slots.write p v })

/-! ### Cursors -/

/-- A read of the other agent's cursor, whose value now is `cur` and which this agent last saw as `view` (R58). Under `delayed` it
is one of the values the cursor held since: the cursor moves only by `inc`, so these are `view`, `inc view`, ..., `cur` (log entry
10); which one is a draw, unless there is only one. -/
def observe (p : Params) (view cur : Nat) (s : State) : Nat × State :=
  match p.cursorView with
  | .current => (cur, s)
  | .delayed =>
    if forward p.N view cur = 0 then (cur, s)
    else ((view + (draw s).1 % (forward p.N view cur + 1)) % p.N, (draw s).2)

/-- `RdOther(head)` by the CONSUMER; its view register takes the value (R28, R58). -/
def rdHead (id : InstId) (s : State) : Nat × State :=
  let o := observe (s.inst id).params (s.inst id).headView (s.inst id).head s
  (o.1, o.2.setInst id { s.inst id with headView := o.1 })

/-- `RdOther(tail)` by the PRODUCER (R28, R58). -/
def rdTail (id : InstId) (s : State) : Nat × State :=
  let o := observe (s.inst id).params (s.inst id).tailView (s.inst id).tail s
  (o.1, o.2.setInst id { s.inst id with tailView := o.1 })

/-- `Publish(head, v)` (R13, R60). -/
def publishHead (id : InstId) (v : Nat) (s : State) : State :=
  s.setInst id { s.inst id with head := v }

/-- `Publish(tail, v)` (R13, R61). -/
def publishTail (id : InstId) (v : Nat) (s : State) : State :=
  s.setInst id { s.inst id with tail := v }

/-- `head <- 0; tail <- 0; head_view <- 0; tail_view <- 0` (R123, decision D38). No slot is written (decision D11). -/
def clearCursors (id : InstId) (s : State) : State :=
  s.setInst id { s.inst id with head := 0, tail := 0, headView := 0, tailView := 0 }

/-! ### The end of an operation -/

/-- The agent of a port is idle again, its operation-local registers without value (R29, R30, R37). -/
def goIdle (p : Port) (s : State) : State :=
  match p.role with
  | .producer => s.setPRegs p.inst PRegs.idle
  | .consumer => s.setCRegs p.inst CRegs.idle

/-- `raise F(info)` (R224): the operation ends at once and returns no result; `fault` of the instance takes the code if it holds 0;
the invoking agent becomes idle; nothing else is written, and control goes nowhere. -/
def raise (p : Port) (e : ErrorClass) (s : State) : State :=
  let s1 := (goIdle p s).setRet p none
  if (s1.inst p.inst).fault = 0 then s1.setInst p.inst { s1.inst p.inst with fault := errorCode e } else s1

/-- `return v` (R13, R14 (a)): the operation ends with a result, the agent becomes idle. -/
def returnWith (p : Port) (r : Result) (s : State) : State := (goIdle p s).setRet p (some r)

/-- The outcome of an operation from the end of its last part. -/
def finish {α : Type} (r : Run α) (result : α → Result) : Out :=
  match r with
  | .ok a s => .next (returnWith s.port (result a) s)
  | .raised s => .next s
  | .stop f => .fault f

/-! ### Before an operation begins -/

/-- Who may invoke an operation (R99, R233). `codec` is the CONSUMER of the receive instance (R160, R175, R187). -/
inductive Who where
  | producer
  | consumer
  | either
  | codec
  deriving DecidableEq, Repr

/-- The table of R233. -/
def permits : Who → Port → Bool
  | .producer, p => p.role == .producer
  | .consumer, p => p.role == .consumer
  | .either, _ => true
  | .codec, p => p == ⟨.rx, .consumer⟩

/-- The PRODUCER has an operation in progress. -/
def prodBusy (I : Inst) : Bool := I.prod.regs.ppc != .idle

/-- The CONSUMER has an operation in progress. -/
def consBusy (I : Inst) : Bool := I.cons.regs.cpc != .idle

/-- `clear` is in progress. -/
def clearing (I : Inst) : Bool := I.cons.regs.cpc == .CL

/-- The agent of a role has an operation in progress. -/
def agentBusy (I : Inst) : Role → Bool
  | .producer => prodBusy I
  | .consumer => consBusy I

/-- Refusals, "tested before the operation begins" (R231): a dead instance (R226), the wrong role (R222), a busy agent (R15, R215
code 7), a `clear` in progress (R223). Their order is log entry 11; each of them means no step. -/
def refusalOf (w : Who) (s : State) : Option Refusal :=
  if s.here.fault ≠ 0 then some .instanceFaulted
  else if !permits w s.port then some .roleViolation
  else if agentBusy s.here s.port.role then some .roleViolation
  else if clearing s.here then some .clearWhileActive
  else none

/-- An invocation: refused, or begun with its result port empty (log entry 5). -/
def invoked (w : Who) (s : State) (body : State → Out) : Out :=
  match refusalOf w s with
  | some r => .refused r
  | none => body (s.setRet s.port none)

/-- An invocation that needs an instance of bytes (R7). -/
def invokedOnBytes (w : Who) (s : State) (body : State → Out) : Out :=
  invoked w s fun s1 => if s1.here.params.W ≠ 8 then .refused .notByteInstance else body s1

/-! ### Reset -/

/-- The reset event of one instance (R250, R251): everything as constructed, operations in progress aborted, no slot holding a
value, the parameters kept (R7). -/
def resetInst (id : InstId) (s : State) : State :=
  s.setInst id (Inst.construct (s.inst id).params)

end Sys2Proof.Machine
end

