-- ==== Sys2Proof/Machine/Checksum.lean ====
section
/-! DEFINITION. ChecksumEngine (41_checksum.md). -/

namespace Sys2Proof.Machine

/-- `checksum(s)` (R150): a pure function of its bytes, invoked by either agent; it touches no buffer state. Like every operation of
the table of R233 it is refused on a dead instance (R226) and to a busy agent (R15; log entry 17). -/
def execChecksum (bytes : List Byte) (s : State) : Out :=
  invoked .either s fun s1 => .next (returnWith s1.port (.half (checksumOf bytes)) s1)

end Sys2Proof.Machine
end

