-- ==== Sys2Proof/Machine/RingBuffer.lean ====
section
/-! DEFINITION. The ring-buffer operations (40_ringbuffer.md), each as the pseudocode of its rule gives it: an invocation no step of
the other agent interrupts (R128). Their micro-steps are in Micro.lean. -/

namespace Sys2Proof.Machine

/-! ### The operations as parts of others -/

/-- `len()` by the PRODUCER: L1 reads its own `head`, L2 the other agent's `tail` (R116). -/
def lenByProducer (id : InstId) (s : State) : Nat × State :=
  (lengthOf (s.inst id).params.N (s.inst id).head (rdTail id s).1, (rdTail id s).2)

/-- `len()` by the CONSUMER: L1 reads its own `tail`, L2 the other agent's `head` (R116). -/
def lenByConsumer (id : InstId) (s : State) : Nat × State :=
  (lengthOf (s.inst id).params.N (rdHead id s).1 (s.inst id).tail, (rdHead id s).2)

/-- `len()` by the agent of a port. -/
def lenBy (p : Port) (s : State) : Nat × State :=
  match p.role with
  | .producer => lenByProducer p.inst s
  | .consumer => lenByConsumer p.inst s

/-- `push(v)` (R110): a full buffer drops `v` and changes nothing; otherwise `slot[head] <- v`, `head <- inc(head)`. -/
def pushRun (id : InstId) (v : Elem) (s : State) : Run Unit :=
  let N := (s.inst id).params.N
  let h := (s.inst id).head
  let n := lenByProducer id s
  if fullAt N n.1 then .ok () n.2
  else (memWrite id h v n.2).bind fun _ s2 => .ok () (publishHead id (inc N h) s2)

/-- `load(s)` (R124): one push after another. -/
def loadRun (id : InstId) : List Elem → State → Run Unit
  | [], s => .ok () s
  | v :: vs, s => (pushRun id v s).bind fun _ s1 => loadRun id vs s1

/-- `pop()` (R113, R115): `none` is `NoElement`, the answer on an empty buffer under `POP_EMPTY_POLICY = none`. -/
def popRun (id : InstId) (s : State) : Run (Option Elem) :=
  let N := (s.inst id).params.N
  let t := (s.inst id).tail
  let h := rdHead id s
  if h.1 = t then
    match (s.inst id).params.popEmptyPolicy with
    | .abort => .raised (raise ⟨id, .consumer⟩ .bufferUnderflowOnRead h.2)
    | .noElement => .ok none h.2
  else (memRead id t h.2).bind fun v s2 => .ok (some v) (publishTail id (inc N t) s2)

/-- `peek(i)` (R121): the length is evaluated afresh (decision D31). -/
def peekRun (id : InstId) (i : Nat) (s : State) : Run Elem :=
  let N := (s.inst id).params.N
  let t := (s.inst id).tail
  let n := lenByConsumer id s
  if n.1 ≤ i then .raised (raise ⟨id, .consumer⟩ .indexOutOfRange n.2)
  else memRead id (slotIndex N t i) n.2

/-- `discard(j)` (R130): `j` pops whose results are thrown away. -/
def discardRun (id : InstId) : Nat → State → Run Unit
  | 0, s => .ok () s
  | j + 1, s => (popRun id s).bind fun _ s1 => discardRun id j s1

/-- The result of a `pop`. -/
def popResult : Option Elem → Result
  | some v => .elem v
  | none => .noElement

/-! ### The meanings -/

/-- `push(v)` (R110). PRODUCER only; no result; never faults. -/
def execPush (v : Elem) (s : State) : Out :=
  invoked .producer s fun s1 =>
    if ¬ v < 2 ^ s1.here.params.W then .refused .operandWidth
    else finish (pushRun s1.port.inst v s1) fun _ => .nothing

/-- `pop()` (R113, R115). CONSUMER only. -/
def execPop (s : State) : Out :=
  invoked .consumer s fun s1 => finish (popRun s1.port.inst s1) popResult

/-- An operation whose result is a function of `len()` (R101). -/
def lengthQuery (result : Nat → Result) (s : State) : Out :=
  invoked .either s fun s1 =>
    .next (returnWith s1.port (result (lenBy s1.port s1).1) (lenBy s1.port s1).2)

/-- `len()` (R116). Either agent. -/
def execLen (s : State) : Out := lengthQuery .num s

/-- `is_full()` (R118). Either agent. -/
def execIsFull (s : State) : Out := lengthQuery (fun n => .bit (fullAt s.here.params.N n)) s

/-- `is_empty()` (R119). Either agent. -/
def execIsEmpty (s : State) : Out := lengthQuery (fun n => .bit (emptyAt n)) s

/-- `space()` (R120). Either agent. -/
def execSpace (s : State) : Out := lengthQuery (fun n => .num (spaceAt s.here.params.N n)) s

/-- `peek(i)` (R121). CONSUMER only. -/
def execPeek (i : Nat) (s : State) : Out :=
  invoked .consumer s fun s1 =>
    if ¬ i < 2 ^ s1.here.params.CW then .refused .operandWidth
    else finish (peekRun s1.port.inst i s1) .elem

/-- `clear()` (R123). The CONSUMER's port, and only when the PRODUCER has no operation in progress (R223; log entry 22). -/
def execClear (s : State) : Out :=
  invoked .consumer s fun s1 =>
    if prodBusy s1.here then .refused .clearWhileActive
    else .next (returnWith s1.port .nothing (clearCursors s1.port.inst s1))

/-- `load(s)` (R124). PRODUCER only. -/
def execLoad (vs : List Elem) (s : State) : Out :=
  invoked .producer s fun s1 =>
    if ¬ ∀ v ∈ vs, v < 2 ^ s1.here.params.W then .refused .operandWidth
    else finish (loadRun s1.port.inst vs s1) fun _ => .nothing

/-- `iter_new()` (R125). CONSUMER only: `k <- 0`, any earlier iteration discarded. -/
def execIterNew (s : State) : Out :=
  invoked .consumer s fun s1 => .next (returnWith s1.port .nothing (s1.setIter s1.port.inst (some 0)))

/-- `iter_next()` (R126) with iteration cursor `k`: a fresh length, then `End` or the element at offset `k`; `none` is `End`. -/
def iterRun (id : InstId) (k : Nat) (s : State) : Run (Option Elem) :=
  let n := lenByConsumer id s
  if n.1 ≤ k then .ok none n.2
  else (peekRun id k n.2).bind fun v s2 => .ok (some v) (s2.setIter id (some (k + 1)))

/-- The result of an `iter_next`. -/
def iterResult : Option Elem → Result
  | some v => .elem v
  | none => .endOfIter

/-- `iter_next()` (R126). CONSUMER only; refused when no iteration exists. -/
def execIterNext (s : State) : Out :=
  invoked .consumer s fun s1 =>
    match s1.here.cons.k with
    | none => .refused .noIteration
    | some k => finish (iterRun s1.port.inst k s1) iterResult

end Sys2Proof.Machine
end

