-- ==== Sys2Proof/Machine/Encoder.lean ====
section
/-! DEFINITION. MessageEncoder (44_encoder.md). The four outbound frames of R93 are the arms of `encode`. -/

namespace Sys2Proof.Machine

/-- Emission (R204): the frame's bytes by `load` into the target; no look at its free space (decision D23). -/
def emitRun (target : InstId) (frame : List Byte) (s : State) : Run Unit :=
  loadRun target (frame.map elemOf) s

/-- The PRODUCER of the port's instance emits a frame. -/
def emitFrame (frame : List Byte) (s : State) : Out :=
  invokedOnBytes .producer s fun s1 => finish (emitRun s1.port.inst frame s1) fun _ => .nothing

/-- `E.DISCOVER_RESP` (R198). -/
def execEDiscoverResp (a : Nibble) (s : State) : Out := emitFrame (discoverRespFrame a) s

/-- `E.TYPE_RESP` (R199). -/
def execETypeResp (a : Nibble) (k w : Byte) (s : State) : Out := emitFrame (typeRespFrame a k w) s

/-- `E.VALUE_RESP_S` (R200). -/
def execEValueRespS (a : Nibble) (v : Half) (s : State) : Out := emitFrame (valueRespShortFrame a v) s

/-- `E.VALUE_RESP_L` (R201). -/
def execEValueRespL (a : Nibble) (v : Word) (s : State) : Out := emitFrame (valueRespLongFrame a v) s

/-- `encode(m, target)` (R195): a variant with no outward form faults the target (R202); the others are emitted. Invoked by an agent
that is not the target's PRODUCER it is refused. -/
def execEncode (m : Message) (target : InstId) (s : State) : Out :=
  invokedOnBytes .producer s fun s1 =>
    if s1.port.inst ≠ target then .refused .roleViolation
    else
      match outboundFrame m with
      | none => .next (raise s1.port .unsupportedEncodeVariant s1)
      | some frame => finish (emitRun target frame s1) fun _ => .nothing

end Sys2Proof.Machine
end

