-- ==== Sys2Proof/Machine/FrameSync.lean ====
section
/-! DEFINITION. FrameSync (42_framesync.md): the decision procedure S0 to S5 over `len` and `peek`. -/

namespace Sys2Proof.Machine

/-- Why a front is malformed (R94 to R97); no output carries it (decision D27, 93_implementation_defined.md U17). -/
inductive Malformation where
  | badLength
  | badCommand
  | badFixedLength
  | badChecksum
  deriving DecidableEq, Repr

/-- The rows of the case table of R168: what the synchroniser found, with the bytes it has already read and the checksum it
verified. -/
inductive Verdict where
  | empty
  | malformed (why : Malformation)
  | incomplete (L : Byte)
  | good (L b1 : Byte) (acc : Half)
  deriving DecidableEq, Repr

/-- The one-bit answer (R160, R168): "`true` means exactly: the front byte must be discarded". -/
def Verdict.resync : Verdict → Bool
  | .malformed _ => true
  | .empty => false
  | .incomplete _ => false
  | .good _ _ _ => false

/-- A peek of a byte (R121, R167). -/
def peekByte (id : InstId) (j : Nat) (s : State) : Run Byte :=
  (peekRun id j s).bind fun v s1 => .ok (byteOf v) s1

/-- `m` byte peeks at offsets `j, j+1, ...`, subtracted from the accumulator one by one (R160 step S4, R165). -/
def sumPeeks (id : InstId) : Nat → Nat → Half → State → Run Half
  | 0, _, acc, s => .ok acc s
  | m + 1, j, acc, s => (peekByte id j s).bind fun b s1 => sumPeeks id m (j + 1) (sub16 acc b) s1

/-- Step S4 (R165): the checksum of offsets `0 .. L-3`, if the bytes at `L-2` (low) and `L-1` (high) agree with it. -/
def checkTrailer (id : InstId) (L : Byte) (s : State) : Run (Option Half) :=
  (sumPeeks id (L.toNat - 2) 0 Config.ckInit s).bind fun acc s1 =>
  (peekByte id (L.toNat - 2) s1).bind fun lo s2 =>
  (peekByte id (L.toNat - 1) s2).bind fun hi s3 => .ok (if trailerMatches acc lo hi then some acc else none) s3

/-- Steps S3 to S5 (R164 to R166). -/
def judgeFrame (id : InstId) (L : Byte) (s : State) : Run Verdict :=
  (peekByte id 1 s).bind fun b1 s1 =>
    if badCommand b1 then .ok (.malformed .badCommand) s1
    else if badFixedLength L b1 then .ok (.malformed .badFixedLength) s1
    else
      (checkTrailer id L s1).bind fun ck s2 =>
        match ck with
        | some acc => .ok (.good L b1 acc) s2
        | none => .ok (.malformed .badChecksum) s2

/-- Steps S0 to S5 on the length snapshot `n` (R160 to R166, decision D13). -/
def syncRun (id : InstId) (n : Nat) (s : State) : Run Verdict :=
  if n = 0 then .ok .empty s
  else
    (peekByte id 0 s).bind fun L s1 =>
      if badLength L then .ok (.malformed .badLength) s1
      else if n < L.toNat then .ok (.incomplete L) s1
      else judgeFrame id L s1

/-- `needsResync()` as a part of other operations: one length snapshot, then the procedure. -/
def resyncRun (id : InstId) (s : State) : Run Bool :=
  (syncRun id (lenByConsumer id s).1 (lenByConsumer id s).2).bind fun v s1 => .ok v.resync s1

/-- `needsResync()` (R160). CONSUMER of the receive instance only. -/
def execNeedsResync (s : State) : Out :=
  invokedOnBytes .codec s fun s1 => finish (resyncRun s1.port.inst s1) .bit

end Sys2Proof.Machine
end

