-- ==== Sys2Proof/Machine/FrameDecoder.lean ====
section
/-! DEFINITION. FrameDecoder and the consumer service step (43_framedecoder.md). The four inbound frames of R92 are the arms of
`decodeNext`: an accepted frame at the front of the receive instance is the instruction the decoder runs. -/

namespace Sys2Proof.Machine

/-- `m` byte peeks at offsets `j, j+1, ...` (R182). -/
def peekBytes (id : InstId) : Nat → Nat → State → Run (List Byte)
  | 0, _, s => .ok [] s
  | m + 1, j, s =>
    (peekByte id j s).bind fun b s1 => (peekBytes id m (j + 1) s1).bind fun bs s2 => .ok (b :: bs) s2

/-- The `case` of R175 on an accepted frame whose first bytes are `L` and `b1`: the message and `L` (R178 to R182, R184). Only a SET
frame reads further bytes, `2 * cnt` of them from frame offset 2. -/
def acceptRun (id : InstId) (L b1 : Byte) (s : State) : Run (Message × Nat) :=
  if commandOf b1 = Config.cmdDiscover then .ok (discoverResult (addressOf b1)) s
  else if commandOf b1 = Config.cmdType then .ok (typeResult (addressOf b1)) s
  else if commandOf b1 = Config.cmdValue then .ok (valueResult (addressOf b1)) s
  else (peekBytes id (2 * setCount L) 2 s).bind fun payload s1 => .ok (setResult L payload) s1

/-- `decodeNext()` as a part of `service` (R175): the message, if any, and the number of bytes to discard. The synchroniser's `L` and
`b1` are reused, as R189 allows (log entry 12). A verdict `good` implies `n >= L >= 4`, so the wait branch (R177) is exactly the
verdicts `empty` and `incomplete`. Nothing is kept between calls: a front left after too few pops, or after a resync pop, is judged
anew from S0, as a frame start of its own (43_framedecoder.md R188, 70_reset_and_hazards.md R263: "re-check `needsResync` after any
retry"). -/
def decodeRun (id : InstId) (s : State) : Run (Option Message × Nat) :=
  (syncRun id (lenByConsumer id s).1 (lenByConsumer id s).2).bind fun v s1 =>
    match v with
    | .malformed _ => .ok (none, 1) s1
    | .empty => .ok (none, 0) s1
    | .incomplete _ => .ok (none, 0) s1
    | .good L b1 _ => (acceptRun id L b1 s1).bind fun r s2 => .ok (some r.1, r.2) s2

/-- The result of `decodeNext` and `service`. -/
def decodedResult (r : Option Message × Nat) : Result := .decoded r.1 r.2

/-- A present message is handed to the message sink (R187). -/
def handOver (id : InstId) (m : Option Message) (s : State) : State :=
  match m with
  | some _ => s.setSink id m
  | none => s

/-- How many elements a consumer loop must discard after a decode: exactly the count that came with it, "1" after a malformed front,
the frame's length after a message, none after a wait, and never a count it made itself (43_framedecoder.md R188,
70_reset_and_hazards.md R263). -/
def owed (r : Option Message × Nat) : Nat := r.2

/-- `service()` (R187): decode, hand the message over, then exactly `consumed` pops. One pass of the consumer loop with the duties of
R188 kept; a caller that uses `decodeNext` and `pop` itself may break them, and what then stands at the front is what the next
`decodeRun` judges. -/
def serviceRun (id : InstId) (s : State) : Run (Option Message × Nat) :=
  (decodeRun id s).bind fun r s1 =>
    (discardRun id (owed r) (handOver id r.1 s1)).bind fun _ s2 => .ok r s2

/-- `decodeNext()` (R175). CONSUMER of the receive instance only. -/
def execDecodeNext (s : State) : Out :=
  invokedOnBytes .codec s fun s1 => finish (decodeRun s1.port.inst s1) decodedResult

/-- `service()` (R187). CONSUMER of the receive instance only. -/
def execService (s : State) : Out :=
  invokedOnBytes .codec s fun s1 => finish (serviceRun s1.port.inst s1) decodedResult

/-- An inbound frame as an instruction: if the frame at the front of the receive instance is the one with first bytes `L`, `b1` and
checksum `ck`, and delivers `r`, the decoder accepts it, exactly as `decodeNext` does. (Header, checksum and delivered values fix
every byte, an odd last payload byte of a SET frame through the checksum.) A frame exists only as a "transient view into buffer bytes"
(R38); where it is not at the front there is nothing to run (log entry 13). -/
def frameRun (id : InstId) (L b1 : Byte) (ck : Half) (r : Message × Nat) (s : State) : Run Bool :=
  (syncRun id (lenByConsumer id s).1 (lenByConsumer id s).2).bind fun v s1 =>
    if v = .good L b1 ck then (acceptRun id L b1 s1).bind fun r' s2 => .ok (decide (r' = r)) s2
    else .ok false s1

/-- The codec returns the frame's message and its length; the buffer is unchanged (R184, R186). -/
def acceptFrame (L b1 : Byte) (payload : List Byte) (r : Message × Nat) (s : State) : Out :=
  invokedOnBytes .codec s fun s1 =>
    match frameRun s1.port.inst L b1 (checksumOf (L :: b1 :: payload)) r s1 with
    | .ok true s2 => .next (returnWith s2.port (decodedResult (some r.1, r.2)) s2)
    | .ok false _ => .refused .frameNotAtFront
    | .raised s2 => .next s2
    | .stop f => .fault f

/-- `F.DISCOVER` (R178): frame `L = 4`, `b1 = 0x80 | a`; result `(DiscoveryRequest(a), 4)`. -/
def execFDiscover (a : Nibble) (s : State) : Out := acceptFrame 4 (byte1Of Config.cmdDiscover a) [] (discoverResult a) s

/-- `F.TYPE` (R179): frame `L = 4`, `b1 = 0x90 | a`; result `(TypeRequest(a), 4)`. -/
def execFType (a : Nibble) (s : State) : Out := acceptFrame 4 (byte1Of Config.cmdType a) [] (typeResult a) s

/-- `F.VALUE` (R180): frame `L = 4`, `b1 = 0xA0 | a`; result `(ValueRequest(a), 4)`. -/
def execFValue (a : Nibble) (s : State) : Out := acceptFrame 4 (byte1Of Config.cmdValue a) [] (valueResult a) s

/-- `F.SET` (R181, R182): frame `4 <= L <= 32`, `b1 = 0x40 | a`; result `(SetMsg(chan), L)`, the address not reported. -/
def execFSet (L : Byte) (a : Nibble) (payload : List Byte) (s : State) : Out :=
  acceptFrame L (byte1Of Config.cmdSet a) payload (setResult L payload) s

end Sys2Proof.Machine
end

