-- ==== Sys2Proof/Machine/Dispatch.lean ====
section
/-! DEFINITION. One arm per row of opcode_table.json. -/

namespace Sys2Proof.Machine

def exec (i : Instr) (s : State) : Host.Outcome State Fault Refusal :=
  match i with
  | .fSet length address payload => Sys2Proof.Machine.execFSet length address payload s
  | .fDiscover address => Sys2Proof.Machine.execFDiscover address s
  | .fType address => Sys2Proof.Machine.execFType address s
  | .fValue address => Sys2Proof.Machine.execFValue address s
  | .eDiscoverResp address => Sys2Proof.Machine.execEDiscoverResp address s
  | .eTypeResp address sensorKind sensorWidth => Sys2Proof.Machine.execETypeResp address sensorKind sensorWidth s
  | .eValueRespS address value => Sys2Proof.Machine.execEValueRespS address value s
  | .eValueRespL address value => Sys2Proof.Machine.execEValueRespL address value s
  | .push v => Sys2Proof.Machine.execPush v s
  | .pop => Sys2Proof.Machine.execPop s
  | .len => Sys2Proof.Machine.execLen s
  | .isFull => Sys2Proof.Machine.execIsFull s
  | .isEmpty => Sys2Proof.Machine.execIsEmpty s
  | .space => Sys2Proof.Machine.execSpace s
  | .peek offset => Sys2Proof.Machine.execPeek offset s
  | .clear => Sys2Proof.Machine.execClear s
  | .load vs => Sys2Proof.Machine.execLoad vs s
  | .iterNew => Sys2Proof.Machine.execIterNew s
  | .iterNext => Sys2Proof.Machine.execIterNext s
  | .checksum bytes => Sys2Proof.Machine.execChecksum bytes s
  | .needsResync => Sys2Proof.Machine.execNeedsResync s
  | .decodeNext => Sys2Proof.Machine.execDecodeNext s
  | .service => Sys2Proof.Machine.execService s
  | .encode m target => Sys2Proof.Machine.execEncode m target s

end Sys2Proof.Machine
end

