-- ==== Sys2Proof/Machine/Micro.lean ====
section
/-! DEFINITION. The operations as series of micro-steps, "the normative form under concurrency" (40_ringbuffer.md R111, R114, R116,
R122; 42_framesync.md R167; 43_framedecoder.md R189): `begin` starts an operation and `tick` makes one micro-step of the agent that
has one in progress. Local computation on an agent's own registers that follows an access directly is part of the step that makes
the access, except where a rule lists it as a step of its own (log entry 9). -/

namespace Sys2Proof.Machine

/-! ### PRODUCER -/

/-- The pushes still to come (R124), or the end of the operation. DESIGN CHOICE (log entry 23): a `load` or an `encode` in progress
when the CONSUMER faults the instance makes all its remaining pushes: R225 lets operations in progress "run to completion" and R29
calls a `load` one operation, while D35 calls its pushes "separate operations" and D8 refuses every later operation. -/
def nextPush (id : InstId) (vs : List Elem) (s : State) : Out :=
  match vs with
  | [] => .next (returnWith ⟨id, .producer⟩ .nothing s)
  | v :: rest => .next (s.setPRegs id { (s.inst id).prod.regs with ppc := .P1, task := .push, p_v := v, src := rest })

/-- The result of a length query (R101). -/
def queryResultP (task : PTask) (N n : Nat) : Result :=
  match task with
  | .push | .len => .num n
  | .isFull => .bit (fullAt N n)
  | .isEmpty => .bit (emptyAt n)
  | .space => .num (spaceAt N n)

/-- One micro-step of the PRODUCER of an instance (R111, R116); an idle agent has none and nothing changes (log entry 9). -/
def tickProducer (id : InstId) (s : State) : Out :=
  let I := s.inst id
  let R := I.prod.regs
  let N := I.params.N
  match R.ppc with
  | .idle => .next s
  | .P1 => .next (s.setPRegs id { R with p_h := I.head, ppc := .P2 })
  | .P2 => .next ((rdTail id s).2.setPRegs id { R with p_t := (rdTail id s).1, ppc := .P3 })
  | .P3 =>
    if fullAt N (lengthOf N R.p_h R.p_t) then nextPush id R.src s
    else .next (s.setPRegs id { R with ppc := .P4 })
  | .P4 =>
    match memWrite id R.p_h R.p_v s with
    | .ok _ s1 => .next (s1.setPRegs id { R with ppc := .P5 })
    | .raised s1 => .next s1
    | .stop f => .fault f
  | .P5 => nextPush id R.src (publishHead id (inc N R.p_h) s)
  | .L1 => .next (s.setPRegs id { R with p_h := I.head, ppc := .L2 })
  | .L2 =>
    .next (returnWith ⟨id, .producer⟩ (queryResultP R.task N (lengthOf N R.p_h (rdTail id s).1)) (rdTail id s).2)

/-! ### CONSUMER -/

/-- The consumer's registers replaced, as an outcome. -/
def goC (id : InstId) (R : CRegs) (s : State) : Out := .next (s.setCRegs id R)

/-- The consumer returns. -/
def returnC (id : InstId) (r : Result) (s : State) : Out := .next (returnWith ⟨id, .consumer⟩ r s)

/-- A peek of offset `i` begins (R122). -/
def CRegs.peekAt (R : CRegs) (i : Nat) : CRegs := { R with cpc := .K1, c_i := i }

/-- The decoder has its answer (R175, R176, R177, R184); `service` goes on to its pops (R187). -/
def decided (id : InstId) (R : CRegs) (m : Option Message) (c : Nat) (s : State) : Out :=
  match R.task with
  | .service =>
    if c = 0 then returnC id (.decoded m c) (handOver id m s)
    else goC id { R with msg := m, consumed := c, left := c, cpc := .C1 } (handOver id m s)
  | .decodeNext | .pop | .len | .isFull | .isEmpty | .space | .peek | .clear | .iterNext | .needsResync =>
    returnC id (.decoded m c) s

/-- The synchroniser has its answer: phase `DONE` (R167). -/
def CRegs.judged (R : CRegs) (resync : Bool) : CRegs := { R with resync := resync, phase := .DONE, cpc := .X }

/-- A `len()` of the CONSUMER is complete with value `n`. -/
def lenDone (id : InstId) (R : CRegs) (n : Nat) (s : State) : Out :=
  let N := (s.inst id).params.N
  match R.task with
  | .len | .pop | .peek | .clear => returnC id (.num n) s
  | .isFull => returnC id (.bit (fullAt N n)) s
  | .isEmpty => returnC id (.bit (emptyAt n)) s
  | .space => returnC id (.num (spaceAt N n)) s
  | .iterNext =>
    match (s.inst id).cons.k with
    | none => returnC id .endOfIter s
    | some k => if n ≤ k then returnC id .endOfIter s else goC id (R.peekAt k) s
  | .needsResync | .decodeNext | .service =>
    if n = 0 then goC id ({ R with n := n }.judged false) s
    else goC id ({ R with n := n, phase := .S1 }.peekAt 0) s

/-- A peek inside the codec is complete with byte `b` (R160, R182). In S4 `ci` is the offset being peeked and summed, `0 .. L-3`; it
stays at `L-3` while the two trailing bytes are read. DESIGN CHOICE (log entry 24), as R33 and R182 name no register for them: in DEC
`ci` counts the channel bytes, and the low byte of channel `ci / 2` stands in `chan` with a high byte of 0 until the high byte is
there. -/
def codecByte (id : InstId) (R : CRegs) (b : Byte) (s : State) : Out :=
  match R.phase with
  | .S1 =>
    if badLength b then goC id ({ R with L := b }.judged true) s
    else goC id { R with L := b, phase := .S2, cpc := .X } s
  | .S3 =>
    if badCommand b || badFixedLength R.L b then goC id ({ R with b1 := b }.judged true) s
    else goC id ({ R with b1 := b, acc := Config.ckInit, ci := 0, phase := .S4 }.peekAt 0) s
  | .S4 =>
    if R.c_i + 1 < R.L.toNat - 2 then goC id ({ R with acc := sub16 R.acc b, ci := R.ci + 1 }.peekAt (R.c_i + 1)) s
    else if R.c_i < R.L.toNat - 2 then goC id ({ R with acc := sub16 R.acc b }.peekAt (R.c_i + 1)) s
    else if R.c_i = R.L.toNat - 2 then goC id ({ R with ck_lo := b }.peekAt (R.c_i + 1)) s
    else if trailerMatches R.acc R.ck_lo b then goC id { R with ck_hi := b, phase := .S5, cpc := .X } s
    else goC id ({ R with ck_hi := b }.judged true) s
  | .DEC =>
    let q := R.ci / 2
    let chan := if R.ci % 2 = 0 then R.chan.set q (le16 b 0) else R.chan.set q (le16 (lo8 (R.chan.getD q 0)) b)
    if R.ci + 1 < 2 * R.cnt then goC id ({ R with chan := chan, ci := R.ci + 1 }.peekAt (R.c_i + 1)) s
    else decided id { R with chan := chan } (some (.setMsg chan)) R.L.toNat s
  | .S0 | .S2 | .S5 | .DONE => goC id { R with cpc := .X } s

/-- A peek is complete with element `v` (R121, R126). -/
def peekDone (id : InstId) (R : CRegs) (v : Elem) (s : State) : Out :=
  match R.task with
  | .peek | .pop | .len | .isFull | .isEmpty | .space | .clear => returnC id (.elem v) s
  | .iterNext => returnC id (.elem v) (s.setIter id (some (R.c_i + 1)))
  | .needsResync | .decodeNext | .service => codecByte id { R with c_v := v } (byteOf v) s

/-- A pop is complete (R113, R187). The pops of a `service` in progress go on when the PRODUCER faults the instance meanwhile, as the
pushes of `nextPush` do (log entry 23). -/
def popDone (id : InstId) (R : CRegs) (v : Option Elem) (s : State) : Out :=
  match R.task with
  | .service =>
    if R.left ≤ 1 then returnC id (.decoded R.msg R.consumed) s
    else goC id { R with left := R.left - 1, cpc := .C1 } s
  | .pop | .len | .isFull | .isEmpty | .space | .peek | .clear | .iterNext | .needsResync | .decodeNext =>
    returnC id (popResult v) s

/-- A computation on the codec's own registers (R160 steps S2 and S5, R175). After `DONE` with `false` the decoder goes to `DEC`, which
"performs the completeness tests" (R189): fewer than 2 bytes, or fewer than `L` (R177). -/
def localStep (id : InstId) (R : CRegs) (s : State) : Out :=
  match R.phase with
  | .S2 => if R.n < R.L.toNat then goC id (R.judged false) s else goC id ({ R with phase := .S3 }.peekAt 1) s
  | .S5 => goC id (R.judged false) s
  | .DONE =>
    match R.task with
    | .decodeNext | .service =>
      if R.resync then decided id R none 1 s else goC id { R with phase := .DEC } s
    | .needsResync | .pop | .len | .isFull | .isEmpty | .space | .peek | .clear | .iterNext =>
      returnC id (.bit R.resync) s
  | .DEC =>
    if R.n < 2 || R.n < R.L.toNat then decided id R none 0 s
    else if commandOf R.b1 = Config.cmdDiscover then
      decided id R (some (discoverResult (addressOf R.b1)).1) (discoverResult (addressOf R.b1)).2 s
    else if commandOf R.b1 = Config.cmdType then
      decided id R (some (typeResult (addressOf R.b1)).1) (typeResult (addressOf R.b1)).2 s
    else if commandOf R.b1 = Config.cmdValue then
      decided id R (some (valueResult (addressOf R.b1)).1) (valueResult (addressOf R.b1)).2 s
    else if setCount R.L = 0 then decided id R (some (.setMsg zeroChannels)) R.L.toNat s
    else goC id ({ R with chan := zeroChannels, cnt := setCount R.L, ci := 0 }.peekAt 2) s
  | .S0 | .S1 | .S3 | .S4 => goC id (R.judged false) s

/-- One micro-step of the CONSUMER of an instance (R114, R116, R122, R123, R167, R189). -/
def tickConsumer (id : InstId) (s : State) : Out :=
  let I := s.inst id
  let R := I.cons.regs
  let N := I.params.N
  match R.cpc with
  | .idle => .next s
  | .C1 => goC id { R with c_t := I.tail, cpc := .C2 } s
  | .C2 => goC id { R with c_h := (rdHead id s).1, cpc := .C3 } (rdHead id s).2
  | .C3 =>
    if R.c_h = R.c_t then
      match I.params.popEmptyPolicy with
      | .abort => .next (raise ⟨id, .consumer⟩ .bufferUnderflowOnRead s)
      | .noElement => popDone id R none s
    else goC id { R with cpc := .C4 } s
  | .C4 =>
    match memRead id R.c_t s with
    | .ok v s1 => goC id { R with c_v := v, cpc := .C5 } s1
    | .raised s1 => .next s1
    | .stop f => .fault f
  | .C5 => popDone id R (some R.c_v) (publishTail id (inc N R.c_t) s)
  | .K1 => goC id { R with c_t := I.tail, c_h := (rdHead id s).1, cpc := .K2 } (rdHead id s).2
  | .K2 =>
    if lengthOf N R.c_h R.c_t ≤ R.c_i then .next (raise ⟨id, .consumer⟩ .indexOutOfRange s)
    else goC id { R with cpc := .K3 } s
  | .K3 =>
    match memRead id (slotIndex N R.c_t R.c_i) s with
    | .ok v s1 => peekDone id R v s1
    | .raised s1 => .next s1
    | .stop f => .fault f
  | .L1 => goC id { R with c_t := I.tail, cpc := .L2 } s
  | .L2 => lenDone id R (lengthOf N (rdHead id s).1 R.c_t) (rdHead id s).2
  | .CL => returnC id .nothing (clearCursors id s)
  | .X => localStep id R s

/-- One micro-step of the agent of a port. -/
def tick (p : Port) (s : State) : Out :=
  match p.role with
  | .producer => tickProducer p.inst s
  | .consumer => tickConsumer p.inst s

/-! ### The start of an operation -/

/-- A consumer operation begins at its first access. -/
def beginC (id : InstId) (task : CTask) (cpc : CPc) (s : State) : Out :=
  goC id { CRegs.idle with task := task, cpc := cpc } s

/-- A series of pushes begins. -/
def beginPushes (id : InstId) (vs : List Elem) (s : State) : Out :=
  nextPush id vs (s.setPRegs id PRegs.idle)

/-- A length query begins, for the agent of the port (R116). -/
def beginQuery (pt : PTask) (ct : CTask) (s : State) : Out :=
  invoked .either s fun s1 =>
    match s1.port.role with
    | .producer => .next (s1.setPRegs s1.port.inst { PRegs.idle with task := pt, ppc := .L1 })
    | .consumer => beginC s1.port.inst ct .L1 s1

/-- The encoder's registers while it emits (R34): the composed length and frame, and the checksum. -/
def beginFrame (id : InstId) (frame : List Byte) (s : State) : Out :=
  match frame.map elemOf with
  | [] => .next (returnWith ⟨id, .producer⟩ .nothing s)
  | v :: rest =>
    .next (s.setPRegs id
      { PRegs.idle with
        ppc := .P1, p_v := v, src := rest
        elen := BitVec.ofNat 8 frame.length
        ebuf := frame ++ List.replicate (8 - frame.length) 0
        acc := checksumOf (frame.take (frame.length - 2)) })

/-- The start of an operation: the tests of `refusalOf`, then its first micro-step is due. The operations without an access (`checksum`,
`iter_new`) and the inbound frame rows, which are `decodeNext` seen from the frame, are complete at once. DESIGN CHOICE (log entry 9),
since no rule names the micro-step: `encode` makes its variant test and takes the fault of R202 here, and composes its frame (R196)
here; a `load` of nothing ends here. -/
def begin (i : Instr) (s : State) : Out :=
  match i with
  | .fSet L a payload => execFSet L a payload s
  | .fDiscover a => execFDiscover a s
  | .fType a => execFType a s
  | .fValue a => execFValue a s
  | .eDiscoverResp a => invokedOnBytes .producer s fun s1 => beginFrame s1.port.inst (discoverRespFrame a) s1
  | .eTypeResp a k w => invokedOnBytes .producer s fun s1 => beginFrame s1.port.inst (typeRespFrame a k w) s1
  | .eValueRespS a v => invokedOnBytes .producer s fun s1 => beginFrame s1.port.inst (valueRespShortFrame a v) s1
  | .eValueRespL a v => invokedOnBytes .producer s fun s1 => beginFrame s1.port.inst (valueRespLongFrame a v) s1
  | .push v =>
    invoked .producer s fun s1 =>
      if ¬ v < 2 ^ s1.here.params.W then .refused .operandWidth else beginPushes s1.port.inst [v] s1
  | .pop => invoked .consumer s fun s1 => beginC s1.port.inst .pop .C1 s1
  | .len => beginQuery .len .len s
  | .isFull => beginQuery .isFull .isFull s
  | .isEmpty => beginQuery .isEmpty .isEmpty s
  | .space => beginQuery .space .space s
  | .peek i =>
    invoked .consumer s fun s1 =>
      if ¬ i < 2 ^ s1.here.params.CW then .refused .operandWidth
      else goC s1.port.inst (({ CRegs.idle with task := .peek } : CRegs).peekAt i) s1
  | .clear =>
    invoked .consumer s fun s1 =>
      if prodBusy s1.here then .refused .clearWhileActive else beginC s1.port.inst .clear .CL s1
  | .load vs =>
    invoked .producer s fun s1 =>
      if ¬ ∀ v ∈ vs, v < 2 ^ s1.here.params.W then .refused .operandWidth else beginPushes s1.port.inst vs s1
  | .iterNew => execIterNew s
  | .iterNext =>
    invoked .consumer s fun s1 =>
      match s1.here.cons.k with
      | none => .refused .noIteration
      | some _ => beginC s1.port.inst .iterNext .L1 s1
  | .checksum bytes => execChecksum bytes s
  | .needsResync => invokedOnBytes .codec s fun s1 => beginC s1.port.inst .needsResync .L1 s1
  | .decodeNext => invokedOnBytes .codec s fun s1 => beginC s1.port.inst .decodeNext .L1 s1
  | .service => invokedOnBytes .codec s fun s1 => beginC s1.port.inst .service .L1 s1
  | .encode m target =>
    invokedOnBytes .producer s fun s1 =>
      if s1.port.inst ≠ target then .refused .roleViolation
      else
        match outboundFrame m with
        | none => .next (raise s1.port .unsupportedEncodeVariant s1)
        | some frame => beginFrame target frame s1

end Sys2Proof.Machine
end

