-- ==== Sys2Proof/Machine/Events.lean ====
section
/-! DEFINITION. What one input of the surroundings does (00_scope.md R5, R15, R36), and where the next instruction is fetched from:
the command at the head of the input queue, and for an inbound frame the front of the receive instance (20_memory.md R54). -/

namespace Sys2Proof.Machine

/-- A command of a port, decoded and handed to `run`. DESIGN CHOICE (log entry 11): a command that is no operation (an unassigned op code
of R99, or bytes that are none) is refused as undecodable whatever the state and the port, before any other refusal is tested. -/
def runCommand (cmd : List Byte) (run : Instr → State → Out) (s : State) : Out :=
  match decodeCommand cmd with
  | .ok i _ => run i s
  | .reject e => .refused (.undecodable e)

/-- One input (R15, R250). -/
def runEvent (e : Event) (s : State) : Out :=
  match e with
  | .invoke p cmd => runCommand cmd exec { s with port := p }
  | .start p cmd => runCommand cmd begin { s with port := p }
  | .tick p => tick p s
  | .reset id => .next (resetInst id s)

/-! ### Placing an instruction where the next step fetches it -/

/-- Bytes as the contents of slots `p, p+1, ...`. -/
def slotsFrom (p : Nat) : List Byte → Memory
  | [] => []
  | b :: bs => (p, elemOf b) :: slotsFrom (p + 1) bs

/-- The receive instance holding exactly these bytes, visible to its CONSUMER, oldest in slot 0 (at most the usable capacity). -/
def placeFront (bytes : List Byte) (s : State) : State :=
  let held := bytes.take (s.rx.params.N - 1)
  { s with rx := { s.rx with slots := slotsFrom 0 held, head := held.length, tail := 0, headView := held.length, tailView := 0 } }

/-- An invocation put before the other inputs. -/
def placeCommand (p : Port) (cmd : List Byte) (s : State) : State := { s with queue := .invoke p cmd :: s.queue }

/-- A port through which R233 lets the operation be invoked. -/
def fetchPort : Instr → Port
  | .push _ | .load _ => ⟨.rx, .producer⟩
  | .encode _ target => ⟨target, .producer⟩
  | .eDiscoverResp _ | .eTypeResp _ _ _ | .eValueRespS _ _ | .eValueRespL _ _ => ⟨.tx, .producer⟩
  | .fSet _ _ _ | .fDiscover _ | .fType _ | .fValue _ | .pop | .len | .isFull | .isEmpty | .space | .peek _ | .clear
  | .iterNew | .iterNext | .checksum _ | .needsResync | .decodeNext | .service => ⟨.rx, .consumer⟩

/-- The message an outbound frame is the frame of (R93). -/
def messageOf : Instr → Option Message
  | .eDiscoverResp a => some (.discoveryResponse a)
  | .eTypeResp a k w => some (.typeResponse a k w)
  | .eValueRespS a v => some (.valueResponseShort a v)
  | .eValueRespL a v => some (.valueResponseLong a v)
  | .fSet _ _ _ | .fDiscover _ | .fType _ | .fValue _ | .push _ | .pop | .len | .isFull | .isEmpty | .space | .peek _ | .clear
  | .load _ | .iterNew | .iterNext | .checksum _ | .needsResync | .decodeNext | .service | .encode _ _ => none

/-- An operation's table word as the next input: its bytes, without the zeros after its last argument. -/
def placeOp (w : Nat) (s : State) : State :=
  match decodeOp (opBytes w) with
  | .ok i rest => placeCommand (fetchPort i) ((opBytes w).take ((opBytes w).length - rest.length)) s
  | .reject _ => placeCommand ⟨.rx, .consumer⟩ [BitVec.ofNat 8 w] s

/-- A frame's table word: an outbound frame (that is no inbound one) as the `encode` of its message into the transmit instance; any
other bytes at the front of the receive instance, with a `decodeNext` as the next input (log entry 7). -/
def placeFrame (w : Nat) (s : State) : State :=
  let receive := placeCommand ⟨.rx, .consumer⟩ (encode .decodeNext) (placeFront (frameBytes w) s)
  match decodeInbound (frameBytes w), decodeOutbound (frameBytes w) with
  | .reject _, .ok i _ =>
    match messageOf i with
    | some m => placeCommand ⟨.tx, .producer⟩ (encode (.encode m .tx)) s
    | none => receive
  | _, _ => receive

end Sys2Proof.Machine
end

