-- ==== Sys2Proof/Machine/Step.lean ====
section
/-! DEFINITION. One step: the oldest pending input (00_scope.md R15, R36). With no input the block does nothing of its own accord
(70_reset_and_hazards.md R272). -/

namespace Sys2Proof.Machine

def step (s : State) : Host.Outcome State Fault Refusal :=
  match s.queue with
  | [] => .next s
  | e :: rest => runEvent e { s with queue := rest }

/-- `s` with a table word placed where `step` fetches its next instruction: a row of 5 bits is an operation, a row of 16 bits the
header word of a frame (30_encoding.md R92, R93, R99; log entry 7). -/
def State.withFetchWord (s : State) (nbits w : Nat) : State :=
  if nbits ≤ 8 then placeOp w s else placeFrame w s

end Sys2Proof.Machine
end

