-- ==== Sys2Proof/Safety.lean ====
section
/-! DEFINITION. What claims are made of: what a buffer holds, the states a run can reach (the invariant `Inv`), when an invocation is
admitted, and when a run of micro-steps is over. -/

namespace Sys2Proof.Machine

/-! ### What a buffer holds -/

/-- The true logical length `LEN = (head - tail) mod N` (10_state.md R25). -/
def Inst.LEN (I : Inst) : Nat := lengthOf I.params.N I.head I.tail

/-- What the CONSUMER has seen published: the length from its own `tail` and its view of `head` (20_memory.md R62). -/
def Inst.visible (I : Inst) : Nat := lengthOf I.params.N I.headView I.tail

/-- What the PRODUCER takes the length to be from its view of `tail` (20_memory.md R63). -/
def Inst.producerLength (I : Inst) : Nat := lengthOf I.params.N I.head I.tailView

/-- The value at logical offset `i` (R52), if the slot was written. -/
def Inst.heldAt (I : Inst) (i : Nat) : Option Elem := I.slots.read (slotIndex I.params.N I.tail i)

/-- The elements held, oldest first (R25). -/
def Inst.held (I : Inst) : List (Option Elem) := (List.range I.LEN).map I.heldAt

/-- The bytes the CONSUMER of a byte instance sees at the front: offsets `0 .. n-1` (R54). -/
def Inst.frontBytes (I : Inst) (n : Nat) : List Byte := (List.range n).map fun i => byteOf ((I.heldAt i).getD 0)

/-! ### The invariant -/

/-- "In every reachable state `0 <= head < N` and `0 <= tail < N`" (R24), and the views are values the cursors had. -/
abbrev Inst.CursorsInRange (I : Inst) : Prop :=
  I.head < I.params.N ∧ I.tail < I.params.N ∧ I.headView < I.params.N ∧ I.tailView < I.params.N

/-- In the order of progress: `tail_view`, `tail`, `head_view`, `head`, within one turn of the array (R58, R62, R63). -/
abbrev Inst.ViewsOrdered (I : Inst) : Prop :=
  forward I.params.N I.tailView I.tail ≤ forward I.params.N I.tailView I.headView ∧
    forward I.params.N I.tailView I.headView ≤ forward I.params.N I.tailView I.head

/-- Every slot between `tail` and `head` was written since reset (R56). -/
abbrev Inst.HeldWritten (I : Inst) : Prop := ∀ i < I.LEN, (I.heldAt i).isSome = true

/-- The slots are in canonical form, at indices below `N`, with values of `W` bits (R21, R51). -/
abbrev Inst.SlotsLegal (I : Inst) : Prop :=
  I.slots.wf = true ∧ ∀ e ∈ I.slots, e.1 < I.params.N ∧ e.2 < 2 ^ I.params.W

/-- What the PRODUCER has read and done so far in a push (R111). -/
def Inst.producerOk (I : Inst) : Bool :=
  let R := I.prod.regs
  let N := I.params.N
  decide (R.p_v < 2 ^ I.params.W) && R.src.all (fun v => decide (v < 2 ^ I.params.W)) &&
    match R.ppc with
    | .idle | .P1 | .L1 => true
    | .P2 | .L2 => R.p_h == I.head
    | .P3 => R.p_h == I.head && R.p_t == I.tailView
    | .P4 => R.p_h == I.head && R.p_t == I.tailView && !fullAt N (lengthOf N R.p_h R.p_t)
    | .P5 =>
      R.p_h == I.head && R.p_t == I.tailView && !fullAt N (lengthOf N R.p_h R.p_t) && I.slots.read R.p_h == some R.p_v

/-- What the CONSUMER has read so far in a pop, a peek or a len (R114, R116, R122), and that a `clear` in progress is alone (R123). -/
def Inst.consumerOk (I : Inst) : Bool :=
  let R := I.cons.regs
  match R.cpc with
  | .idle | .C1 | .K1 | .L1 | .X => true
  | .C2 | .L2 => R.c_t == I.tail
  | .C3 | .K2 => R.c_t == I.tail && R.c_h == I.headView
  | .C4 | .C5 => R.c_t == I.tail && R.c_h == I.headView && R.c_h != R.c_t
  | .K3 => R.c_t == I.tail && R.c_h == I.headView && decide (R.c_i < I.visible)
  | .CL => I.prod.regs.ppc == .idle

/-- "`k <= N-1` always" (R126). -/
def Inst.iterOk (I : Inst) : Bool :=
  match I.cons.k with
  | none => true
  | some k => decide (k ≤ I.params.N - 1)

/-- The fault register holds a code that is ever stored (R27, R215). -/
def Inst.faultOk (I : Inst) : Bool := I.fault == 0 || I.fault == 4 || I.fault == 5 || I.fault == 6

/-- The invariant of one instance. -/
abbrev Inst.Inv (I : Inst) : Prop :=
  I.params.Legal ∧ I.CursorsInRange ∧ I.ViewsOrdered ∧ I.HeldWritten ∧ I.SlotsLegal ∧
    I.producerOk = true ∧ I.consumerOk = true ∧ I.iterOk = true ∧ I.faultOk = true

/-- The invariant of the machine: it holds at reset, every step keeps it, and in such a state no step ends in a fault of the model
(`Fault`), so no operation returns a slot that was not written (R56). -/
abbrev State.Inv (s : State) : Prop := s.rx.Inv ∧ s.tx.Inv

/-- Length, command and fixed length of the frame at the front have been judged good (R162, R164). -/
def CRegs.headerOk (R : CRegs) : Bool := !badLength R.L && !badCommand R.b1 && !badFixedLength R.L R.b1

/-- Which steps an operation of the CONSUMER takes, and what the codec and an iteration have read so far: every peek they make is below
a length the CONSUMER has seen, the codec comes to an answer only on a header it judged good or on a wait, and every pop `service`
still has to make is covered by it (R114, R116, R122, R123, R160, R167, R187, R189, R220; what `ci` holds in DEC and while the trailer
is read is log entry 24). -/
def Inst.codecOk (I : Inst) : Bool :=
  let R := I.cons.regs
  let peeking := R.cpc == .K1 || R.cpc == .K2 || R.cpc == .K3
  let popping := R.cpc == .C1 || R.cpc == .C2 || R.cpc == .C3 || R.cpc == .C4 || R.cpc == .C5
  let measuring := R.cpc == .L1 || R.cpc == .L2
  let judging := decide (1 ≤ R.n) && decide (R.n ≤ I.visible)
  let whole := decide (R.L.toNat ≤ R.n)
  R.cpc == .idle ||
    match R.task with
    | .pop => popping
    | .peek => peeking
    | .clear => R.cpc == .CL
    | .len | .isFull | .isEmpty | .space => measuring
    | .iterNext => measuring || peeking && decide (R.c_i < I.visible)
    | .needsResync | .decodeNext | .service =>
      if measuring then true
      else if popping then R.task == .service && decide (1 ≤ R.left) && decide (R.left ≤ I.visible)
      else
        match R.phase with
        | .S1 => peeking && R.c_i == 0 && judging
        | .S2 => R.cpc == .X && judging && !badLength R.L
        | .S3 => peeking && R.c_i == 1 && judging && !badLength R.L && whole
        | .S4 =>
          peeking && judging && R.headerOk && whole && decide (R.c_i < R.L.toNat) && R.ci == min R.c_i (R.L.toNat - 3)
        | .S5 => R.cpc == .X && judging && R.headerOk && whole
        | .DONE =>
          R.cpc == .X && decide (R.n ≤ I.visible) &&
            if R.resync then decide (1 ≤ R.n) else R.n == 0 || !badLength R.L && !whole || R.headerOk && whole
        | .DEC =>
          decide (R.n ≤ I.visible) &&
            (R.cpc == .X && (decide (R.n < 2) || !whole || R.headerOk) ||
              peeking && R.headerOk && whole && R.cnt == setCount R.L && R.c_i == 2 + R.ci && decide (R.ci < 2 * R.cnt))
        | .S0 => false

/-- The invariant with the codec's own registers. -/
abbrev State.CodecInv (s : State) : Prop := s.Inv ∧ s.rx.codecOk = true ∧ s.tx.codecOk = true

/-! ### Invocations -/

/-- Nothing of R222, R223, R226 refuses an invocation by such an agent through the state's port. -/
abbrev Admitted (w : Who) (s : State) : Prop := refusalOf w s = none

/-- Both agents of the instance of the port are idle (decision D21). -/
abbrev Quiescent (s : State) : Prop := prodBusy s.here = false ∧ consBusy s.here = false

/-- The elements of the instance of the port are bytes (R7). -/
abbrev OnBytes (s : State) : Prop := s.here.params.W = 8

/-- Who may invoke an operation, row by row of R99 and R233; the frame rows belong to the codec (R92) and to the encoder (R93). -/
def whoMay : Instr → Who
  | .fSet _ _ _ | .fDiscover _ | .fType _ | .fValue _ => .codec
  | .eDiscoverResp _ | .eTypeResp _ _ _ | .eValueRespS _ _ | .eValueRespL _ _ => .producer
  | .push _ | .load _ | .encode _ _ => .producer
  | .pop | .peek _ | .clear | .iterNew | .iterNext => .consumer
  | .len | .isFull | .isEmpty | .space | .checksum _ => .either
  | .needsResync | .decodeNext | .service => .codec

/-- The result port of an agent. -/
def State.result (s : State) (p : Port) : Option Result :=
  match p.role with
  | .producer => (s.inst p.inst).prod.ret
  | .consumer => (s.inst p.inst).cons.ret

/-- The pending inputs, the port and the other instance are as before. -/
abbrev SameElsewhere (s t : State) : Prop :=
  t.queue = s.queue ∧ t.port = s.port ∧ ∀ id, id ≠ s.port.inst → t.inst id = s.inst id

/-- An operation of the PRODUCER: parameters, `tail`, `fault`, `head_view` and the CONSUMER are as before (R59, R233). -/
abbrev ProducerFrame (I J : Inst) : Prop :=
  J.params = I.params ∧ J.tail = I.tail ∧ J.fault = I.fault ∧ J.headView = I.headView ∧ J.cons = I.cons

/-- An operation of the CONSUMER: parameters, slots, `head`, `fault`, `tail_view` and the PRODUCER are as before (R59, R233). -/
abbrev ConsumerFrame (I J : Inst) : Prop :=
  J.params = I.params ∧ J.slots = I.slots ∧ J.head = I.head ∧ J.fault = I.fault ∧ J.tailView = I.tailView ∧ J.prod = I.prod

/-- Parameters, slots, cursors and `fault` are as before: a read has no side effect on storage (R57). -/
abbrev SameStorage (I J : Inst) : Prop :=
  J.params = I.params ∧ J.slots = I.slots ∧ J.head = I.head ∧ J.tail = I.tail ∧ J.fault = I.fault

/-- The case table of R168 on the bytes at the front, `n = front.length` of them visible. -/
def resyncTable (front : List Byte) : Bool :=
  let n := front.length
  let L := front.getD 0 0
  let b1 := front.getD 1 0
  if n = 0 then false
  else if L.toNat < 4 ∨ 32 < L.toNat then true
  else if n < L.toNat then false
  else if b1 &&& 0xF0 ≠ 0x40 ∧ b1 &&& 0xF0 ≠ 0x80 ∧ b1 &&& 0xF0 ≠ 0x90 ∧ b1 &&& 0xF0 ≠ 0xA0 then true
  else if b1 &&& 0xF0 ≠ 0x40 ∧ L.toNat ≠ 4 then true
  else
    let sum := ((front.take (L.toNat - 2)).map BitVec.toNat).sum
    let ck := front.getD (L.toNat - 2) 0 |>.toNat
    let ck' := front.getD (L.toNat - 1) 0 |>.toNat
    decide (0xFFFF - sum ≠ ck + 256 * ck')

/-- `k` pops by the CONSUMER of an instance, one after another, and what each returned. -/
def popTimes (id : InstId) : Nat → State → Option (List (Option Result) × State)
  | 0, s => some ([], s)
  | k + 1, s =>
    match exec .pop { s with port := ⟨id, .consumer⟩ } with
    | .next t => (popTimes id k t).map fun r => (t.result ⟨id, .consumer⟩ :: r.1, r.2)
    | .fault _ => none
    | .refused _ => none

/-- Pushes (`some v`) and pops (`none`) of one instance, in any order, each a whole operation: the values of the pushes that were not
dropped, the values the pops returned, and the state at the end. No run is answered where one of them does not return. -/
def queueRun (id : InstId) : List (Option Elem) → State → Option (List Elem × List Elem × State)
  | [], s => some ([], [], s)
  | some v :: ops, s =>
    match exec (.push v) { s with port := ⟨id, .producer⟩ } with
    | .next t =>
      (queueRun id ops t).map fun r => (if (t.inst id).LEN = (s.inst id).LEN then r.1 else v :: r.1, r.2)
    | .fault _ => none
    | .refused _ => none
  | none :: ops, s =>
    match exec .pop { s with port := ⟨id, .consumer⟩ } with
    | .next t =>
      match t.result ⟨id, .consumer⟩ with
      | some (.elem v) => (queueRun id ops t).map fun r => (r.1, v :: r.2.1, r.2.2)
      | _ => none
    | .fault _ => none
    | .refused _ => none

/-- `k` passes of `service`, each of them a resync pass: answering `(absent, 1)`. -/
def resyncPasses : Nat → State → Option State
  | 0, s => some s
  | k + 1, s =>
    match exec .service s with
    | .next t => if t.result t.port = some (.decoded none 1) then resyncPasses k t else none
    | .fault _ => none
    | .refused _ => none

/-! ### Runs of micro-steps -/

/-- `k` micro-steps of one agent, nothing else happening. -/
def ticks (p : Port) : Nat → State → Out
  | 0, s => .next s
  | k + 1, s =>
    match tick p s with
    | .next s1 => ticks p k s1
    | .fault f => .fault f
    | .refused r => .refused r

/-- An operation started and given `k` micro-steps. -/
def startThenTicks (i : Instr) (k : Nat) (s : State) : Out :=
  match begin i s with
  | .next s1 => ticks s.port k s1
  | .fault f => .fault f
  | .refused r => .refused r

end Sys2Proof.Machine
end

