-- ==== Sys2Proof/Certificates/Slice0/Obligations.lean ====
section
/-! DEFINITION. The statements about the model, for the provers. -/

open Sys2Proof Sys2Proof.Machine

/-! ### Encoding -/

/-- Decoding an encoded well-formed instruction, in its own form and with any bytes after it, gives it back with every operand
(30_encoding.md R92, R93, R99; the layout of an operation's arguments is the model's choice, log entry 6). -/
def Obligations.DecodeOfEncodeIsIdentity : Prop :=
  ∀ (i : Instr) (rest : List Byte), i.wf = true → decode (formOf i) (encode i ++ rest) = .ok i rest

/-- Every word has one meaning: bytes a decoder accepts are the encoding of what it answers, which is well formed and of that form
(30_encoding.md R92 to R97, R99; for an operation the layout of its arguments is the model's choice, log entry 6). -/
def Obligations.AcceptedBytesAreTheEncoding : Prop :=
  ∀ (f : Form) (bytes rest : List Byte) (i : Instr),
    decode f bytes = .ok i rest → bytes = encode i ++ rest ∧ i.wf = true ∧ formOf i = f

/-- R99: the unassigned op codes are refused, as a command run whole and as one started, whatever the state and the port. That
this refusal is named before any other that applies is the model's choice (log entry 11). -/
def Obligations.UnassignedOpCodesAreRefused : Prop :=
  ∀ (op : Byte) (args : List Byte) (p : Port) (q : List Event) (s : State),
    (0x0B ≤ op.toNat ∧ op.toNat ≤ 0x0F ∨ 0x15 ≤ op.toNat ∧ op.toNat ≤ 0x1F) →
      (s.queue = .invoke p (op :: args) :: q ∨ s.queue = .start p (op :: args) :: q) →
        step s = .refused (.undecodable .unassignedOp)

/-- Words written out from R92, R93 and R99 (the examples of R178 to R180, R198 to R201 and 95_test_vectors.md). -/
def Obligations.WrittenOutWordsDecode : Prop :=
  decodeInbound [0x04, 0x81, 0x7A, 0xFF] = .ok (.fDiscover 0x1) [] ∧
  decodeInbound [0x04, 0x92, 0x69, 0xFF] = .ok (.fType 0x2) [] ∧
  decodeInbound [0x04, 0xA3, 0x58, 0xFF] = .ok (.fValue 0x3) [] ∧
  decodeInbound [0x07, 0x40, 0xDC, 0x05, 0x99, 0x3E, 0xFE] = .ok (.fSet 7 0 [0xDC, 0x05, 0x99]) [] ∧
  decodeOutbound [0x06, 0x92, 0x00, 0x02, 0x65, 0xFF] = .ok (.eTypeResp 0x2 0x00 0x02) [] ∧
  decodeOutbound [0x08, 0xA3, 0x78, 0x56, 0x34, 0x12, 0x40, 0xFE] = .ok (.eValueRespL 0x3 0x12345678) [] ∧
  decodeOp [0x01] = .ok .pop [] ∧ decodeOp [0x13] = .ok .service []

/-! ### Steps -/

/-- A step takes the oldest input: a command that decodes to `i` runs `exec i` (or `begin i`) at the state with the input taken and
the port set; a micro-step and a reset act on the agent or instance they name; with no input nothing happens (R15, R250, R272). -/
def Obligations.StepRunsTheDecodedInstruction : Prop :=
  ∀ (s : State) (q : List Event) (p : Port) (id : InstId) (cmd : List Byte) (i : Instr),
    (decodeOp cmd = .ok i [] →
      (s.queue = .invoke p cmd :: q → step s = exec i { s with queue := q, port := p }) ∧
      (s.queue = .start p cmd :: q → step s = begin i { s with queue := q, port := p })) ∧
    (s.queue = .tick p :: q → step s = tick p { s with queue := q }) ∧
    (s.queue = .reset id :: q → step s = .next (resetInst id { s with queue := q })) ∧
    (s.queue = [] → step s = .next s)

/-- An inbound frame at the front of the receive instance is the instruction `decodeNext` runs: if the visible front bytes decode to
`i`, then `decodeNext` is `exec i` (R54, R92, R175). -/
def Obligations.DecodeNextRunsTheFrameAtTheFront : Prop :=
  ∀ (s : State) (i : Instr) (rest : List Byte),
    s.Inv → Admitted .codec s → OnBytes s → s.here.params.orderedHandoff = true →
      decodeInbound (s.here.frontBytes (lenByConsumer s.port.inst s).1) = .ok i rest →
        exec .decodeNext s = exec i s

/-- R59, R233, decision D32: an operation and a micro-step leave the other instance, the pending inputs and the port alone. -/
def Obligations.OperationsLeaveTheOtherInstanceAlone : Prop :=
  (∀ (i : Instr) (s t : State), exec i s = .next t ∨ begin i s = .next t → SameElsewhere s t) ∧
  (∀ (p : Port) (s t : State), tick p s = .next t →
    t.queue = s.queue ∧ t.port = s.port ∧ ∀ id, id ≠ p.inst → t.inst id = s.inst id)

/-- R7: the parameters are "fixed at construction of an instance and never changed", whatever happens. -/
def Obligations.ParametersNeverChange : Prop :=
  ∀ (s t : State) (id : InstId), step s = .next t → (t.inst id).params = (s.inst id).params

/-! ### The invariant -/

/-- The system right after construction, for any legal parameters, satisfies the invariants (R24, R37, R251). -/
def Obligations.ConstructedSystemSatisfiesTheInvariants : Prop :=
  ∀ (prx ptx : Params), prx.Legal → ptx.Legal → (State.construct prx ptx).CodecInv

/-- R24, R56, R58, R62, R63: every step keeps the invariant. -/
def Obligations.EveryStepKeepsTheInvariant : Prop :=
  ∀ (s t : State), s.Inv → step s = .next t → t.Inv

/-- R56: in a state of the invariant no step ends in a fault of the model (log entry 14): no index outside the array is read or
written, and under ordered handoff no slot that was not written since reset is read. (With `ORDERED_HANDOFF = false` a slot read is a
draw whatever the slot holds, log entry 21.) -/
def Obligations.NoStepReadsAnUnwrittenSlot : Prop :=
  ∀ (s : State) (f : Fault), s.Inv → step s ≠ .fault f

/-- R160, R167, R187, R189, R220: every step keeps the codec's invariant too: the CONSUMER is at a step of the operation it has in
progress, the codec reaches an answer only on a header it judged good or on a wait, every peek is below a length already seen and
every pop of `service` is covered by it. What `ci` holds in DEC and while the trailer is read is the model's choice (log entry 24). -/
def Obligations.EveryStepKeepsTheCodecInvariant : Prop :=
  ∀ (s t : State), s.CodecInv → step s = .next t → t.CodecInv

/-- R236, R220: a corrupt byte stream can never fault the block. An operation that leaves its instance faulted is a `pop` (code 4), a
`peek` (code 5) or an `encode` of a variant with no outward form (code 6); the start of one is such an `encode`; and a micro-step that
changes the fault register is the CONSUMER's, of a `pop` (code 4) or of a `peek` (code 5), never of the codec, of an iteration or of a
length query. That the `encode` faults at its start, so that no micro-step of the PRODUCER changes the fault register, is the model's
choice (log entry 9), and so is what the premise says of `ci` in DEC and beside the trailer (log entry 24). -/
def Obligations.OnlyCallerErrorsFaultTheBlock : Prop :=
  (∀ (s t : State) (i : Instr), s.Inv → exec i s = .next t → t.here.fault ≠ 0 →
    i = .pop ∧ t.here.fault = 4 ∨ (∃ k, i = .peek k ∧ t.here.fault = 5) ∨
      ∃ m target, i = .encode m target ∧ outboundFrame m = none ∧ t.here.fault = 6) ∧
  (∀ (s t : State) (i : Instr), s.Inv → begin i s = .next t → t.here.fault ≠ 0 →
    ∃ m target, i = .encode m target ∧ outboundFrame m = none ∧ t.here.fault = 6) ∧
  (∀ (s t : State) (p : Port), s.CodecInv → tick p s = .next t → (t.inst p.inst).fault ≠ (s.inst p.inst).fault →
    p.role = .consumer ∧
      ((s.inst p.inst).cons.regs.task = .pop ∧ (t.inst p.inst).fault = 4 ∨
        (s.inst p.inst).cons.regs.task = .peek ∧ (t.inst p.inst).fault = 5))

/-! ### Roles, refusals, faults -/

/-- R226: a faulted instance refuses every invocation, run whole or started. That this refusal is named where others apply too is the
model's choice (log entry 11). -/
def Obligations.FaultedInstanceRefusesEverything : Prop :=
  ∀ (i : Instr) (s : State), s.here.fault ≠ 0 →
    exec i s = .refused .instanceFaulted ∧ begin i s = .refused .instanceFaulted

/-- R222, R233, R215 code 7: an operation invoked through the wrong role's port, or by a busy agent, is refused and has no step; so is an
`encode` by the PRODUCER of an instance that is not the target (R195). The other stops by name: an operand wider than the instance
(R99, R121; log entry 15), a codec or encoder operation on an instance that does not hold bytes (R7; log entry 16), and an inbound
frame's row where no frame, or another one, is at the front (R38; log entry 13). Which refusal is named where several apply is the
model's choice (log entry 11). -/
def Obligations.InvocationsOutsideTheContractAreRefused : Prop :=
  (∀ (i : Instr) (s : State), s.here.fault = 0 →
    (permits (whoMay i) s.port = false ∨ agentBusy s.here s.port.role = true) →
      exec i s = .refused .roleViolation ∧ begin i s = .refused .roleViolation) ∧
  (∀ (m : Message) (target : InstId) (s : State), Admitted .producer s → OnBytes s → target ≠ s.port.inst →
    exec (.encode m target) s = .refused .roleViolation ∧ begin (.encode m target) s = .refused .roleViolation) ∧
  (∀ (vs : List Elem) (v : Elem) (s : State), Admitted .producer s → v ∈ vs → 2 ^ s.here.params.W ≤ v →
    exec (.push v) s = .refused .operandWidth ∧ begin (.push v) s = .refused .operandWidth ∧
      exec (.load vs) s = .refused .operandWidth ∧ begin (.load vs) s = .refused .operandWidth) ∧
  (∀ (i : Nat) (s : State), Admitted .consumer s → 2 ^ s.here.params.CW ≤ i →
    exec (.peek i) s = .refused .operandWidth ∧ begin (.peek i) s = .refused .operandWidth) ∧
  (∀ (i : Instr) (s : State), Admitted (whoMay i) s → s.here.params.W ≠ 8 →
    (whoMay i = .codec ∨ formOf i = .outbound ∨ ∃ m target, i = .encode m target) →
      exec i s = .refused .notByteInstance ∧ begin i s = .refused .notByteInstance) ∧
  (∀ (i : Instr) (s : State), s.Inv → Admitted .codec s → OnBytes s →
    s.here.params.orderedHandoff = true → formOf i = .inbound →
      (let d := decodeInbound (s.here.frontBytes (lenByConsumer s.port.inst s).1)
       (∃ e, d = .reject e) ∨ i.wf = true ∧ ∀ rest, d ≠ .ok i rest) →
        exec i s = .refused .frameNotAtFront ∧ begin i s = .refused .frameNotAtFront)

/-- R223: `clear` while the PRODUCER has an operation in progress is refused, and so is every operation of the PRODUCER while a
`clear` is in progress. Which refusal is named where several apply is the model's choice (log entry 11). -/
def Obligations.ClearIsRefusedWhileActive : Prop :=
  (∀ (s : State), Admitted .consumer s → prodBusy s.here = true →
    exec .clear s = .refused .clearWhileActive ∧ begin .clear s = .refused .clearWhileActive) ∧
  (∀ (i : Instr) (s : State), s.here.fault = 0 → permits (whoMay i) s.port = true → s.port.role = .producer →
    prodBusy s.here = false → clearing s.here = true →
    exec i s = .refused .clearWhileActive ∧ begin i s = .refused .clearWhileActive)

/-- R27: the fault register keeps its code through every step but a reset of its instance, takes only the codes 4, 5 and 6, and only
reset clears it. -/
def Obligations.FaultRegisterIsSticky : Prop :=
  ∀ (s t : State) (id : InstId), step s = .next t →
    ((s.inst id).fault ≠ 0 → (∀ q, s.queue ≠ .reset id :: q) → (t.inst id).fault = (s.inst id).fault) ∧
    ((s.inst id).fault = 0 →
      (t.inst id).fault = 0 ∨ (t.inst id).fault = 4 ∨ (t.inst id).fault = 5 ∨ (t.inst id).fault = 6) ∧
    ((∃ q, s.queue = .reset id :: q) → (t.inst id).fault = 0) ∧
    ((s.inst id).fault ≠ 0 → ∀ p cmd q, p.inst = id → s.queue ≠ .invoke p cmd :: q ∧ s.queue ≠ .start p cmd :: q)

/-- R59: a micro-step of the CONSUMER that is not `clear`'s writes neither `head` nor a slot, and one of the PRODUCER does not write
`tail`. -/
def Obligations.EachCursorHasOneWriter : Prop :=
  ∀ (s t : State) (id : InstId),
    (tick ⟨id, .consumer⟩ s = .next t → (s.inst id).cons.regs.cpc ≠ .CL →
      (t.inst id).head = (s.inst id).head ∧ (t.inst id).slots = (s.inst id).slots) ∧
    (tick ⟨id, .producer⟩ s = .next t → (t.inst id).tail = (s.inst id).tail)

/-- R66: no micro-step of the PRODUCER changes an element that is held, and it publishes at most one more. -/
def Obligations.ProducerNeverOverwritesAHeldElement : Prop :=
  ∀ (s t : State) (id : InstId), s.Inv → tick ⟨id, .producer⟩ s = .next t →
    ((t.inst id).LEN = (s.inst id).LEN ∨ (t.inst id).LEN = (s.inst id).LEN + 1) ∧
    ∀ i < (s.inst id).LEN, (t.inst id).heldAt i = (s.inst id).heldAt i

/-- R224, R225: what taking a fault writes. The state after is the state before with the code in `fault`, the agent idle and no
result; the cursors, slots, views and the other agent are as before. -/
def Obligations.TakingAFaultWritesOnlyTheFaultRegister : Prop :=
  ∀ (s : State) (p : Port) (e : ErrorClass),
    let I := s.inst p.inst
    let t := raise p e s
    (t.inst p.inst).fault = (if I.fault = 0 then errorCode e else I.fault) ∧
    agentBusy (t.inst p.inst) p.role = false ∧ t.result p = none ∧
    SameStorage { I with fault := (t.inst p.inst).fault } (t.inst p.inst) ∧
    (t.inst p.inst).headView = I.headView ∧ (t.inst p.inst).tailView = I.tailView ∧ (t.inst p.inst).cons.k = I.cons.k ∧
    (p.role = .producer → (t.inst p.inst).cons = I.cons) ∧ (p.role = .consumer → (t.inst p.inst).prod = I.prod) ∧
    t.queue = s.queue ∧ t.choices = s.choices ∧ t.draws = s.draws ∧ t.port = s.port ∧
    (∀ id, id ≠ p.inst → t.inst id = s.inst id)

/-- R250, R251: the reset event, in any state: cursors, views and fault 0, both agents idle, no iteration, no slot holding a value,
the parameters kept and the other instance untouched. -/
def Obligations.ResetLeavesTheInstanceEmptyAndIdle : Prop :=
  ∀ (s : State) (id : InstId) (q : List Event), s.queue = .reset id :: q →
    ∃ t, step s = .next t ∧
      (t.inst id).head = 0 ∧ (t.inst id).tail = 0 ∧ (t.inst id).fault = 0 ∧
      (t.inst id).headView = 0 ∧ (t.inst id).tailView = 0 ∧
      prodBusy (t.inst id) = false ∧ consBusy (t.inst id) = false ∧ (t.inst id).cons.k = none ∧
      (∀ p, (t.inst id).slots.read p = none) ∧ (t.inst id).params = (s.inst id).params ∧
      ∀ id', id' ≠ id → t.inst id' = s.inst id'

/-! ### Cursor reads and lengths -/

/-- R58: a read of the other agent's cursor returns a value between the reader's view and the cursor's present value, in the order of
the cursor's progress (exactly the present value under `current`), becomes the view, and changes nothing else of the instance. -/
def Obligations.CursorReadStaysInTheEnvelope : Prop :=
  ∀ (s : State) (id : InstId), (s.inst id).Inv →
    let I := s.inst id
    let N := I.params.N
    (∃ j ≤ forward N I.headView I.head, (rdHead id s).1 = (I.headView + j) % N) ∧
    (I.params.cursorView = .current → (rdHead id s).1 = I.head) ∧
    (rdHead id s).2.inst id = { I with headView := (rdHead id s).1 } ∧
    (∃ j ≤ forward N I.tailView I.tail, (rdTail id s).1 = (I.tailView + j) % N) ∧
    (I.params.cursorView = .current → (rdTail id s).1 = I.tail) ∧
    (rdTail id s).2.inst id = { I with tailView := (rdTail id s).1 }

/-- R58, U8: under `delayed` every value of that envelope can be returned, to the CONSUMER reading `head` and to the PRODUCER reading
`tail`: some choice of the environment (log entry 3) makes the read return it. -/
def Obligations.EveryDelayedViewIsPossible : Prop :=
  ∀ (s : State) (id : InstId) (j : Nat), (s.inst id).Inv → (s.inst id).params.cursorView = .delayed →
    let I := s.inst id
    let N := I.params.N
    (j ≤ forward N I.headView I.head →
      ∃ c, (rdHead id { s with choices := c :: s.choices }).1 = (I.headView + j) % N) ∧
    (j ≤ forward N I.tailView I.tail →
      ∃ c, (rdTail id { s with choices := c :: s.choices }).1 = (I.tailView + j) % N)

/-- R62, R63: the CONSUMER's length is at least what it had seen and at most the true length; the PRODUCER's is at least the true
length and at most `N-1`, and no more than what it had taken it for. -/
def Obligations.LengthsBoundTheTrueLength : Prop :=
  ∀ (s : State) (id : InstId), (s.inst id).Inv →
    let I := s.inst id
    (I.visible ≤ (lenByConsumer id s).1 ∧ (lenByConsumer id s).1 ≤ I.LEN) ∧
    (I.LEN ≤ (lenByProducer id s).1 ∧ (lenByProducer id s).1 ≤ I.params.N - 1) ∧
    (lenByProducer id s).1 ≤ I.producerLength

/-- R57, R116, R118, R119, R120: the four length queries complete for either agent with their function of the length the agent reads;
only the agent's view and result port change. -/
def Obligations.LengthQueriesComplete : Prop :=
  ∀ (s : State), Admitted .either s →
    let n := (lenBy s.port s).1
    let N := s.here.params.N
    ∀ (i : Instr) (r : Result),
      (i = .len ∧ r = .num n ∨ i = .isFull ∧ r = .bit (n == N - 1) ∨ i = .isEmpty ∧ r = .bit (n == 0) ∨
        i = .space ∧ r = .num (N - n)) →
      ∃ t, exec i s = .next t ∧ t.result s.port = some r ∧ SameElsewhere s t ∧ SameStorage s.here t.here ∧
        t.here.cons.k = s.here.cons.k ∧ t.here.cons.sink = s.here.cons.sink ∧
        (s.port.role = .producer → t.here.headView = s.here.headView ∧ t.here.cons = s.here.cons) ∧
        (s.port.role = .consumer → t.here.tailView = s.here.tailView ∧ t.here.prod = s.here.prod)

/-! ### push, pop, peek, clear, load, iteration -/

/-- R110, R112: `push` completes; if the PRODUCER finds the buffer full the value is dropped and cursors and slots are unchanged,
otherwise `slot[head]` takes it and `head` advances, every other slot unchanged. That the idle PRODUCER's registers are those of
`PRegs.idle` is the model's choice (log entry 4). -/
def Obligations.PushStoresUnlessFull : Prop :=
  ∀ (v : Elem) (s : State), Admitted .producer s → s.here.head < s.here.params.N → v < 2 ^ s.here.params.W →
    let N := s.here.params.N
    let h := s.here.head
    ∃ t, exec (.push v) s = .next t ∧ t.result s.port = some .nothing ∧ SameElsewhere s t ∧
      ProducerFrame s.here t.here ∧ t.here.prod.regs = PRegs.idle ∧
      (lengthOf N h (rdTail s.port.inst s).1 = N - 1 → t.here.head = h ∧ ∀ p, t.here.slots.read p = s.here.slots.read p) ∧
      (lengthOf N h (rdTail s.port.inst s).1 ≠ N - 1 →
        t.here.head = (h + 1) % N ∧ t.here.slots.read h = some v ∧
        ∀ p, p ≠ h → t.here.slots.read p = s.here.slots.read p)

/-- R218, R110 (a): a push on a full buffer is silent. The result is that of every push, and cursors, slots, `fault` and the CONSUMER
are as before; only the PRODUCER's view of `tail` may move. -/
def Obligations.PushOnAFullBufferIsSilent : Prop :=
  ∀ (v : Elem) (s t : State), s.Inv → s.here.LEN = s.here.params.N - 1 → exec (.push v) s = .next t →
    t.result s.port = some .nothing ∧ SameStorage s.here t.here ∧ t.here.headView = s.here.headView ∧
      t.here.cons = s.here.cons ∧ SameElsewhere s t

/-- R110, R65: seen as a queue, a push that is not dropped appends its value, and a dropped one changes nothing. -/
def Obligations.PushAppendsToTheQueue : Prop :=
  ∀ (v : Elem) (s t : State), s.Inv → exec (.push v) s = .next t →
    t.here.held =
      if lengthOf s.here.params.N s.here.head (rdTail s.port.inst s).1 = s.here.params.N - 1 then s.here.held
      else s.here.held ++ [some v]

/-- R113, R65: a pop that finds the buffer non-empty completes, returns the oldest element and takes it from the queue; no slot is
written. -/
def Obligations.PopReturnsTheOldestElement : Prop :=
  ∀ (s : State), s.Inv → Admitted .consumer s → (rdHead s.port.inst s).1 ≠ s.here.tail →
    ∃ t v, exec .pop s = .next t ∧ t.result s.port = some (.elem v) ∧ SameElsewhere s t ∧
      ConsumerFrame s.here t.here ∧ t.here.cons.k = s.here.cons.k ∧ t.here.tail = (s.here.tail + 1) % s.here.params.N ∧
      s.here.LEN = t.here.LEN + 1 ∧ t.here.held = s.here.held.tail ∧ v < 2 ^ s.here.params.W ∧
      (s.here.params.orderedHandoff = true → s.here.heldAt 0 = some v)

/-- R113, R115, R219: a pop that finds the buffer empty. Under `abort` it faults with code 4 and returns nothing; under `none` it
returns `NoElement`; in both cases no cursor and no slot changes. -/
def Obligations.PopOfAnEmptyBuffer : Prop :=
  ∀ (s : State), Admitted .consumer s → (rdHead s.port.inst s).1 = s.here.tail →
    ∃ t, exec .pop s = .next t ∧ SameElsewhere s t ∧ SameStorage { s.here with fault := t.here.fault } t.here ∧
      t.here.tailView = s.here.tailView ∧ t.here.prod = s.here.prod ∧ t.here.cons.k = s.here.cons.k ∧
      (s.here.params.popEmptyPolicy = .abort → t.here.fault = 4 ∧ t.result s.port = none) ∧
      (s.here.params.popEmptyPolicy = .noElement → t.here.fault = 0 ∧ t.result s.port = some .noElement)

/-- R52, R121: `peek(i)` with `i` below the length the CONSUMER reads completes with the element at logical offset `i` and changes
neither storage nor the producer. -/
def Obligations.PeekReturnsTheElementAtAnOffset : Prop :=
  ∀ (i : Nat) (s : State), s.Inv → Admitted .consumer s → i < (lenByConsumer s.port.inst s).1 →
    ∃ t v, exec (.peek i) s = .next t ∧ t.result s.port = some (.elem v) ∧ SameElsewhere s t ∧
      SameStorage s.here t.here ∧ ConsumerFrame s.here t.here ∧ t.here.cons.k = s.here.cons.k ∧
      (s.here.params.orderedHandoff = true → s.here.slots.read ((s.here.tail + i) % s.here.params.N) = some v)

/-- R53, R121, R220: `peek(i)` with `i >= len()` faults with code 5; no state but `fault` (and the reader's view) changes. -/
def Obligations.PeekBeyondTheLengthFaults : Prop :=
  ∀ (i : Nat) (s : State), Admitted .consumer s → i < 2 ^ s.here.params.CW → (lenByConsumer s.port.inst s).1 ≤ i →
    ∃ t, exec (.peek i) s = .next t ∧ t.here.fault = 5 ∧ t.result s.port = none ∧ SameElsewhere s t ∧
      SameStorage { s.here with fault := 5 } t.here ∧ t.here.tailView = s.here.tailView ∧ t.here.prod = s.here.prod ∧
      t.here.cons.k = s.here.cons.k

/-- R123: `clear` in a quiescent state completes: cursors and views 0, no slot written, `fault` and the iteration cursor kept. -/
def Obligations.ClearEmptiesTheBuffer : Prop :=
  ∀ (s : State), Admitted .consumer s → Quiescent s →
    ∃ t, exec .clear s = .next t ∧ t.result s.port = some .nothing ∧ SameElsewhere s t ∧
      t.here.head = 0 ∧ t.here.tail = 0 ∧ t.here.headView = 0 ∧ t.here.tailView = 0 ∧
      t.here.slots = s.here.slots ∧ t.here.params = s.here.params ∧ t.here.fault = s.here.fault ∧
      t.here.prod = s.here.prod ∧ t.here.cons.k = s.here.cons.k

/-- R124, R65: `load` completes; what it stores is a subsequence of its input, in order, after what was held. -/
def Obligations.LoadAppendsASubsequence : Prop :=
  ∀ (vs : List Elem) (s : State), s.Inv → Admitted .producer s → (∀ v ∈ vs, v < 2 ^ s.here.params.W) →
    ∃ t kept, exec (.load vs) s = .next t ∧ t.result s.port = some .nothing ∧ SameElsewhere s t ∧
      ProducerFrame s.here t.here ∧ List.Sublist kept vs ∧ t.here.held = s.here.held ++ kept.map some

/-- R124 (b), R258, R261: `load` after the PRODUCER's view of `tail` is up to date stores exactly the first `min(m, f)` elements,
`f = N-1-len()` the free places. -/
def Obligations.LoadStoresWhatFits : Prop :=
  ∀ (vs : List Elem) (s t : State), s.Inv → s.here.tailView = s.here.tail → exec (.load vs) s = .next t →
    t.here.held = s.here.held ++ (vs.take (s.here.params.N - 1 - s.here.LEN)).map some

/-- R258, R261: a sequence one shorter than the `space()` the PRODUCER saw is stored whole, whatever its view of `tail`. -/
def Obligations.LoadWithinSpaceLosesNothing : Prop :=
  ∀ (vs : List Elem) (s t u : State) (space : Nat), s.Inv → s.port.role = .producer →
    exec .space s = .next t → t.result s.port = some (.num space) → vs.length + 1 ≤ space →
    exec (.load vs) t = .next u → u.here.held = s.here.held ++ vs.map some

/-- R129, R65: the FIFO law. On an empty buffer whose agents are idle, at most `N-1` elements loaded are popped in order, under the
`current` view of cursors, and the buffer is empty again. -/
def Obligations.LoadedElementsArePoppedInOrder : Prop :=
  ∀ (id : InstId) (vs : List Elem) (s : State), s.Inv → s.port = ⟨id, .producer⟩ → Admitted .producer s → Quiescent s →
    s.here.params.cursorView = .current → s.here.params.orderedHandoff = true → s.here.LEN = 0 →
    vs.length ≤ s.here.params.N - 1 → (∀ v ∈ vs, v < 2 ^ s.here.params.W) →
    ∃ t u, exec (.load vs) s = .next t ∧
      popTimes id vs.length t = some (vs.map fun v => some (Result.elem v), u) ∧ (u.inst id).LEN = 0

/-- R65: every interleaving of whole pushes and pops in which each pop returns an element is a queue, under stale views too: what was
held and what was accepted is what was returned and what is still held, in order. (Of a run in which an operation is refused or a pop
finds the buffer empty, so that it faults or returns `NoElement`, `queueRun` answers nothing, and nothing is said.) -/
def Obligations.EveryRunOfPushesAndPopsIsAQueue : Prop :=
  ∀ (id : InstId) (ops : List (Option Elem)) (s t : State) (accepted returned : List Elem),
    s.Inv → (s.inst id).params.orderedHandoff = true → queueRun id ops s = some (accepted, returned, t) →
      (s.inst id).held ++ accepted.map some = returned.map some ++ (t.inst id).held

/-- R64 (b), 93_implementation_defined.md U1: with `ORDERED_HANDOFF = false` a peek below the length can return any `W`-bit value, by
some choice of the environment. -/
def Obligations.WeakHandoffReadsAnyValue : Prop :=
  ∀ (s : State) (i w : Nat), s.Inv → Admitted .consumer s → s.here.params.orderedHandoff = false →
    s.here.params.cursorView = .current → i < s.here.LEN → w < 2 ^ s.here.params.W →
      ∃ c t, exec (.peek i) { s with choices := c :: s.choices } = .next t ∧ t.result s.port = some (.elem w)

/-- R125: `iter_new` completes with `k = 0` and changes nothing else. -/
def Obligations.IterNewStartsAtTheOldest : Prop :=
  ∀ (s : State), Admitted .consumer s →
    ∃ t, exec .iterNew s = .next t ∧ t.result s.port = some .nothing ∧ t.here.cons.k = some 0 ∧ SameElsewhere s t ∧
      SameStorage s.here t.here ∧ t.here.headView = s.here.headView ∧ t.here.tailView = s.here.tailView ∧
      t.here.prod = s.here.prod ∧ t.here.cons.sink = s.here.cons.sink

/-- R126, R127: `iter_next` with cursor `k` completes: `End` and `k` kept if `k` is at or beyond the length it reads, otherwise the
element at offset `k` and `k + 1`; storage is unchanged. Without an iteration it is refused. -/
def Obligations.IterNextYieldsTheElementOrEnd : Prop :=
  ∀ (s : State), s.Inv → Admitted .consumer s →
    (s.here.cons.k = none → exec .iterNext s = .refused .noIteration) ∧
    ∀ k, s.here.cons.k = some k →
      ∃ t, exec .iterNext s = .next t ∧ SameElsewhere s t ∧ SameStorage s.here t.here ∧ ConsumerFrame s.here t.here ∧
        ((lenByConsumer s.port.inst s).1 ≤ k → t.result s.port = some .endOfIter ∧ t.here.cons.k = some k) ∧
        (k < (lenByConsumer s.port.inst s).1 → t.here.cons.k = some (k + 1) ∧
          ∃ v, t.result s.port = some (.elem v) ∧ (s.here.params.orderedHandoff = true → s.here.heldAt k = some v))

/-! ### Micro-steps -/

/-- R111, R116, R128, R204: the PRODUCER's operations, started and then given their micro-steps with nothing in between, come to the
outcome of the whole operation. -/
def Obligations.ProducerMicroStepsEqualTheOperation : Prop :=
  ∀ (i : Instr) (s : State), s.port.role = .producer → ∃ k, ∀ j ≥ k, startThenTicks i j s = exec i s

/-- R114, R116, R122, R123, R126, R128: the same for the CONSUMER's buffer operations. -/
def Obligations.ConsumerMicroStepsEqualTheOperation : Prop :=
  ∀ (i : Instr) (s : State), s.port.role = .consumer → i ≠ .needsResync → i ≠ .decodeNext → i ≠ .service →
    ∃ k, ∀ j ≥ k, startThenTicks i j s = exec i s

/-- R167, R189, R187: the same for the codec's state machine. -/
def Obligations.CodecMicroStepsEqualTheOperation : Prop :=
  ∀ (i : Instr) (s : State), (i = .needsResync ∨ i = .decodeNext ∨ i = .service) →
    ∃ k, ∀ j ≥ k, startThenTicks i j s = exec i s

/-! ### Checksum -/

/-- R150: the closed form of the checksum, and that `checksum` completes for either agent with it, changing nothing but the result port
of the agent that invoked it: storage, views, the iteration cursor, the sink, the draws, the other agent and everything elsewhere are
as before. That it needs an instance that is not faulted and an idle agent is deduced (log entry 17). -/
def Obligations.ChecksumIsTheRunningSubtraction : Prop :=
  ∀ (bytes : List Byte) (s : State), Admitted .either s →
    ∃ t, exec (.checksum bytes) s = .next t ∧
      t.result s.port =
        some (.half (BitVec.ofInt 16 (0xFFFF - (((bytes.map BitVec.toNat).sum : Nat) : Int)))) ∧
      SameElsewhere s t ∧ SameStorage s.here t.here ∧ t.here.headView = s.here.headView ∧ t.here.tailView = s.here.tailView ∧
      t.here.cons.k = s.here.cons.k ∧ t.here.cons.sink = s.here.cons.sink ∧ t.choices = s.choices ∧ t.draws = s.draws ∧
      agentBusy t.here s.port.role = false ∧
      (s.port.role = .producer → t.here.cons = s.here.cons) ∧ (s.port.role = .consumer → t.here.prod = s.here.prod)

/-- R154: inside a frame the accumulator never wraps: at most 30 covered bytes, the first at least 4, leave it in
`[0xE21D, 0xFFFB]`, the high byte in `[0xE2, 0xFF]`. -/
def Obligations.FrameChecksumNeverWraps : Prop :=
  ∀ (b0 : Byte) (more : List Byte), 4 ≤ b0.toNat → more.length ≤ 29 →
    (checksumOf (b0 :: more)).toNat = 0xFFFF - ((b0 :: more).map BitVec.toNat).sum ∧
    0xE21D ≤ (checksumOf (b0 :: more)).toNat ∧ (checksumOf (b0 :: more)).toNat ≤ 0xFFFB ∧
    0xE2 ≤ (hi8 (checksumOf (b0 :: more))).toNat

/-! ### FrameSync, FrameDecoder, service -/

/-- R160 to R166, R168: `needsResync` completes with the bit of the case table for the bytes the CONSUMER sees; storage is
unchanged. -/
def Obligations.NeedsResyncAnswersTheCaseTable : Prop :=
  ∀ (s : State), s.Inv → Admitted .codec s → OnBytes s → s.here.params.orderedHandoff = true →
    ∃ t, exec .needsResync s = .next t ∧
      t.result s.port = some (.bit (resyncTable (s.here.frontBytes (lenByConsumer s.port.inst s).1))) ∧
      SameElsewhere s t ∧ SameStorage s.here t.here ∧ ConsumerFrame s.here t.here ∧ t.here.cons.k = s.here.cons.k

/-- R176, R177, R184, R186: `decodeNext` completes for every front: `(absent, 1)` where the case table says resync; `(absent, 0)` where
it does not and the frame is not there whole; a message and `L` otherwise; the buffer is left untouched. -/
def Obligations.DecodeNextAnswersByTheFront : Prop :=
  ∀ (s : State), s.Inv → Admitted .codec s → OnBytes s → s.here.params.orderedHandoff = true →
    let front := s.here.frontBytes (lenByConsumer s.port.inst s).1
    let L := (front.getD 0 0).toNat
    ∃ t, exec .decodeNext s = .next t ∧
      SameElsewhere s t ∧ SameStorage s.here t.here ∧ ConsumerFrame s.here t.here ∧ t.here.cons.k = s.here.cons.k ∧
      (resyncTable front = true → t.result s.port = some (.decoded none 1)) ∧
      (resyncTable front = false → (front.length < 2 ∨ front.length < L) → t.result s.port = some (.decoded none 0)) ∧
      (resyncTable front = false → 2 ≤ front.length → L ≤ front.length → ∃ m, t.result s.port = some (.decoded (some m) L))

/-- R178, R179, R180, R184: a DISCOVER, TYPE or VALUE frame at the front makes `decodeNext` complete with its request, the address of
its low nibble and 4 bytes to discard, the buffer untouched. The frame's own row is the same step; that the row is an instruction is
the model's choice (log entry 13). -/
def Obligations.RequestFramesDeliverTheirRequest : Prop :=
  ∀ (s : State) (a : Nibble) (i : Instr) (m : Message) (code : Byte) (rest : List Byte),
    s.Inv → Admitted .codec s → OnBytes s → s.here.params.orderedHandoff = true →
    (i = .fDiscover a ∧ m = .discoveryRequest a ∧ code = 0x80 ∨ i = .fType a ∧ m = .typeRequest a ∧ code = 0x90 ∨
      i = .fValue a ∧ m = .valueRequest a ∧ code = 0xA0) →
    (let ck := 0xFFFF - 0x04 - (code.toNat + a.toNat)
     s.here.frontBytes (lenByConsumer s.port.inst s).1 =
       0x04 :: (code ||| a.setWidth 8) :: BitVec.ofNat 8 ck :: BitVec.ofNat 8 (ck / 256) :: rest) →
    ∃ t, exec i s = .next t ∧ exec .decodeNext s = .next t ∧ t.result s.port = some (.decoded (some m) 4) ∧
      SameElsewhere s t ∧ SameStorage s.here t.here ∧ ConsumerFrame s.here t.here ∧ t.here.cons.k = s.here.cons.k

/-- R181, R182, R184: a SET frame at the front makes `decodeNext` complete with `SetMsg` of 14 channels: the `floor(L/2) - 2`
little-endian values of its payload, then zeros; the address nibble and an odd last payload byte do not matter. The frame's own row
is the same step; that the row is an instruction is the model's choice (log entry 13). -/
def Obligations.SetFramesDeliverTheirChannels : Prop :=
  ∀ (s : State) (L : Byte) (a : Nibble) (payload rest : List Byte),
    s.Inv → Admitted .codec s → OnBytes s → s.here.params.orderedHandoff = true → (Instr.fSet L a payload).wf = true →
    s.here.frontBytes (lenByConsumer s.port.inst s).1 = encode (.fSet L a payload) ++ rest →
    ∃ t ch, exec (.fSet L a payload) s = .next t ∧ exec .decodeNext s = .next t ∧
      t.result s.port = some (.decoded (some (.setMsg ch)) L.toNat) ∧ ch.length = 14 ∧
      (∀ k < 14, ch.getD k 0 =
        if k < L.toNat / 2 - 2 then
          BitVec.ofNat 16 ((payload.getD (2 * k) 0).toNat + 256 * (payload.getD (2 * k + 1) 0).toNat)
        else 0) ∧
      SameElsewhere s t ∧ SameStorage s.here t.here ∧ ConsumerFrame s.here t.here ∧ t.here.cons.k = s.here.cons.k

/-- R185: what `decodeNext` can return, in every state, whatever is read. -/
def Obligations.DecodeNextReturnsOnlyTheseResults : Prop :=
  ∀ (s t : State), exec .decodeNext s = .next t → t.here.fault = 0 →
    t.result s.port = some (.decoded none 0) ∨ t.result s.port = some (.decoded none 1) ∨
    (∃ a, t.result s.port = some (.decoded (some (.discoveryRequest a)) 4) ∨
      t.result s.port = some (.decoded (some (.typeRequest a)) 4) ∨
      t.result s.port = some (.decoded (some (.valueRequest a)) 4)) ∨
    ∃ ch L, t.result s.port = some (.decoded (some (.setMsg ch)) L) ∧ 4 ≤ L ∧ L ≤ 32 ∧ ch.length = 14 ∧
      ∀ k, L / 2 - 2 ≤ k → ch.getD k 0 = 0

/-- R216, R217: a malformed front makes `needsResync` answer true and `decodeNext` `(absent, 1)`; an incomplete one, and an empty one
(R177), false and `(absent, 0)`. Both complete for every front; of the state nothing changes but the CONSUMER's view of `head` and its
result port, and nothing is recorded. -/
def Obligations.MalformedAndIncompleteFrontsAreRecoverable : Prop :=
  ∀ (s : State), s.Inv → Admitted .codec s → OnBytes s → s.here.params.orderedHandoff = true →
    let front := s.here.frontBytes (lenByConsumer s.port.inst s).1
    ∃ t u, exec .needsResync s = .next t ∧ exec .decodeNext s = .next u ∧
      (resyncTable front = true →
        t.result s.port = some (.bit true) ∧ u.result s.port = some (.decoded none 1)) ∧
      (front = [] ∨ front.length < (front.getD 0 0).toNat ∧ badLength (front.getD 0 0) = false →
        t.result s.port = some (.bit false) ∧ u.result s.port = some (.decoded none 0)) ∧
      ∀ v, v = t ∨ v = u →
        SameElsewhere s v ∧ SameStorage s.here v.here ∧ ConsumerFrame s.here v.here ∧ v.here.fault = 0 ∧
          v.here.cons.k = s.here.cons.k ∧ v.here.cons.sink = s.here.cons.sink

/-- R187, R130: `service` completes with what `decodeNext` would return, hands a present message to the sink, and takes exactly
`consumed` elements from the front; nothing else of the instance but the CONSUMER's view and `tail` changes. -/
def Obligations.ServiceDiscardsExactlyWhatIsConsumed : Prop :=
  ∀ (s : State), s.Inv → Admitted .codec s → OnBytes s →
    ∃ t d m c, exec .decodeNext s = .next d ∧ d.result s.port = some (.decoded m c) ∧
      exec .service s = .next t ∧ t.result s.port = some (.decoded m c) ∧ SameElsewhere s t ∧ ConsumerFrame s.here t.here ∧
      t.here.cons.k = s.here.cons.k ∧ t.here.cons.sink = (if m.isSome then m else s.here.cons.sink) ∧
      t.here.held = s.here.held.drop c ∧ s.here.LEN = t.here.LEN + c

/-- R227: "Each pass removes exactly one byte, so after at most `LEN` passes either a frame verifies at the front, or the front is an
incomplete candidate (wait), or the buffer is empty", the PRODUCER doing nothing meanwhile: the next `service` answers a wait, or a
message with a count of at least 4. -/
def Obligations.ResyncLoopEndsWithinLenPasses : Prop :=
  ∀ (s : State), s.Inv → Admitted .codec s → OnBytes s →
    ∃ k t u r, k ≤ s.here.LEN ∧ resyncPasses k s = some t ∧ t.here.held = s.here.held.drop k ∧
      exec .service t = .next u ∧ u.result s.port = some r ∧ r ≠ .decoded none 1 ∧
      (r = .decoded none 0 ∨ ∃ m c, r = .decoded (some m) c ∧ 4 ≤ c)

/-- R265: a front byte that declares a legal length the buffer can never hold makes every `service` answer `(absent, 0)` and discard
nothing. -/
def Obligations.OversizeFrameStallsDecoding : Prop :=
  ∀ (s : State), s.Inv → Admitted .codec s → OnBytes s → s.here.params.orderedHandoff = true →
    0 < (lenByConsumer s.port.inst s).1 →
    (let L := ((s.here.frontBytes 1).getD 0 0).toNat
     4 ≤ L ∧ L ≤ 32 ∧ s.here.params.N - 1 < L) →
    ∃ t, exec .service s = .next t ∧ t.result s.port = some (.decoded none 0) ∧ t.here.held = s.here.held ∧
      SameStorage s.here t.here

/-! ### Encoder -/

/-- R196, R198 to R201, R203: the bytes of the four outbound frames. -/
def Obligations.OutboundFramesAreAsWritten : Prop :=
  ∀ (a : Nibble) (k w : Byte) (v : Half) (x : Word),
    let a8 : Byte := a.setWidth 8
    let ck (s : Nat) (n : Nat) : Byte := BitVec.ofNat 8 ((0xFFFF - s) / 256 ^ n)
    (let s := 0x04 + (0x80 + a.toNat)
     discoverRespFrame a = [0x04, 0x80 ||| a8, ck s 0, ck s 1] ∧ discoverRespFrame a = encode (.fDiscover a)) ∧
    (let s := 0x06 + (0x90 + a.toNat) + k.toNat + w.toNat
     typeRespFrame a k w = [0x06, 0x90 ||| a8, k, w, ck s 0, ck s 1]) ∧
    (let v0 : Byte := v.extractLsb' 0 8
     let v1 : Byte := v.extractLsb' 8 8
     let s := 0x06 + (0xA0 + a.toNat) + v0.toNat + v1.toNat
     valueRespShortFrame a v = [0x06, 0xA0 ||| a8, v0, v1, ck s 0, ck s 1]) ∧
    (let x0 : Byte := x.extractLsb' 0 8
     let x1 : Byte := x.extractLsb' 8 8
     let x2 : Byte := x.extractLsb' 16 8
     let x3 : Byte := x.extractLsb' 24 8
     let s := 0x08 + (0xA0 + a.toNat) + x0.toNat + x1.toNat + x2.toNat + x3.toNat
     valueRespLongFrame a x = [0x08, 0xA0 ||| a8, x0, x1, x2, x3, ck s 0, ck s 1])

/-- R203, R84: the two trailer bytes of every frame the encoder emits are the checksum, low byte then high byte, of everything before
them: the length byte, the command and address byte and the payload; so every emitted frame passes the verifier's comparison. -/
def Obligations.EmittedFramesCarryTheirChecksum : Prop :=
  ∀ (m : Message) (frame : List Byte), outboundFrame m = some frame →
    ∃ body : List Byte,
      let ck := 0xFFFF - (body.map BitVec.toNat).sum
      frame = body ++ [BitVec.ofNat 8 ck, BitVec.ofNat 8 (ck / 256)] ∧
      (body.headD 0).toNat = frame.length ∧ trailerOk frame = true

/-- R195, R204, R262: `encode` of an outbound-capable variant by the PRODUCER of its target completes, and so does the frame's own row;
they are the same step (that the row is an instruction is the model's choice, log entry 13). What is appended is a subsequence of the
frame in its order, whatever the PRODUCER's view of `tail`; with that view up to date it is as much of the frame as fits. -/
def Obligations.EncodeAppendsTheFrame : Prop :=
  ∀ (m : Message) (i : Instr) (frame : List Byte) (s : State),
    s.Inv → Admitted .producer s → OnBytes s →
    ((∃ a, m = .discoveryResponse a ∧ i = .eDiscoverResp a ∧ frame = discoverRespFrame a) ∨
      (∃ a k w, m = .typeResponse a k w ∧ i = .eTypeResp a k w ∧ frame = typeRespFrame a k w) ∨
      (∃ a v, m = .valueResponseShort a v ∧ i = .eValueRespS a v ∧ frame = valueRespShortFrame a v) ∨
      (∃ a v, m = .valueResponseLong a v ∧ i = .eValueRespL a v ∧ frame = valueRespLongFrame a v)) →
    ∃ t kept, exec (.encode m s.port.inst) s = .next t ∧ exec i s = .next t ∧ t.result s.port = some .nothing ∧
      SameElsewhere s t ∧ ProducerFrame s.here t.here ∧
      List.Sublist kept frame ∧ t.here.held = s.here.held ++ kept.map (fun b => some (b.toNat)) ∧
      (s.here.tailView = s.here.tail → kept = frame.take (s.here.params.N - 1 - s.here.LEN))

/-- R202, R221: `encode` of a request or of `SetMsg` faults the target with code 6 and pushes nothing. -/
def Obligations.EncodeOfARequestFaults : Prop :=
  ∀ (m : Message) (s : State), Admitted .producer s → OnBytes s →
    ((∃ a, m = .discoveryRequest a ∨ m = .typeRequest a ∨ m = .valueRequest a) ∨ ∃ ch, m = .setMsg ch) →
    ∃ t, exec (.encode m s.port.inst) s = .next t ∧ t.here.fault = 6 ∧ t.result s.port = none ∧ SameElsewhere s t ∧
      SameStorage { s.here with fault := 6 } t.here ∧ t.here.headView = s.here.headView ∧
      t.here.tailView = s.here.tailView ∧ t.here.cons = s.here.cons

/-- R205: the round trip as far as it holds: a discovery response decodes to the request of the same address, the other three
responses are malformed for this block's own decoder (R86, R96), and all four carry the checksum of what is before it. -/
def Obligations.ResponsesThroughTheOwnDecoder : Prop :=
  ∀ (a : Nibble) (k w : Byte) (v : Half) (x : Word),
    decodeInbound (discoverRespFrame a) = .ok (.fDiscover a) [] ∧
    decodeInbound (typeRespFrame a k w) = .reject .badFixedLength ∧
    decodeInbound (valueRespShortFrame a v) = .reject .badFixedLength ∧
    decodeInbound (valueRespLongFrame a x) = .reject .badFixedLength ∧
    ∀ frame ∈ [discoverRespFrame a, typeRespFrame a k w, valueRespShortFrame a v, valueRespLongFrame a x],
      trailerOk frame = true
end

