-- ==== Sys2Proof/Laws/Cursors.lean ====
section
/-! SUPPORT. Arithmetic of cursors modulo `N`: `inc`, the forward distance, and physical indices. -/

namespace Sys2Proof.Machine

theorem forward_lt {N : Nat} (hN : 0 < N) (a b : Nat) : forward N a b < N := Nat.mod_lt _ hN

/-- The forward distance of two cursors in range, without the modulus. -/
theorem forward_eq {N a b : Nat} (ha : a < N) (hb : b < N) :
    forward N a b = if a ≤ b then b - a else b + N - a := by
  unfold forward
  split
  · rw [show b + N - a = (b - a) + N by omega, Nat.add_mod_right, Nat.mod_eq_of_lt (by omega)]
  · exact Nat.mod_eq_of_lt (by omega)

@[simp] theorem forward_self {N a : Nat} (ha : a < N) : forward N a a = 0 := by
  simp [forward_eq ha ha]

/-- A cursor plus a distance, without the modulus. -/
theorem add_mod_eq {N a j : Nat} (ha : a < N) (hj : j < N) :
    (a + j) % N = if a + j < N then a + j else a + j - N := by
  split
  · exact Nat.mod_eq_of_lt ‹_›
  · rw [Nat.mod_eq_sub_mod (by omega), Nat.mod_eq_of_lt (by omega)]

theorem inc_lt {N : Nat} (hN : 0 < N) (c : Nat) : inc N c < N := Nat.mod_lt _ hN

theorem inc_eq {N c : Nat} (hc : c < N) : inc N c = if c + 1 < N then c + 1 else 0 := by
  unfold inc
  split
  · exact Nat.mod_eq_of_lt ‹_›
  · rw [show c + 1 = N by omega, Nat.mod_self]

/-- Walking the distance arrives. -/
theorem add_forward {N a b : Nat} (ha : a < N) (hb : b < N) : (a + forward N a b) % N = b := by
  have hN : 0 < N := by omega
  rw [add_mod_eq ha (forward_lt hN a b), forward_eq ha hb]
  split <;> split <;> omega

/-- The distance to a cursor `j` steps on is `j`. -/
theorem forward_add {N a j : Nat} (ha : a < N) (hj : j < N) : forward N a ((a + j) % N) = j := by
  have hN : 0 < N := by omega
  rw [forward_eq ha (Nat.mod_lt _ hN), add_mod_eq ha hj]
  split <;> split <;> omega

theorem forward_eq_zero {N a b : Nat} (ha : a < N) (hb : b < N) : forward N a b = 0 ↔ a = b := by
  rw [forward_eq ha hb]; split <;> omega

/-- One more element when the writing cursor advances in a buffer that is not full. -/
theorem forward_inc_right {N a b : Nat} (ha : a < N) (hb : b < N) (h : forward N a b ≠ N - 1) :
    forward N a (inc N b) = forward N a b + 1 := by
  have hN : 0 < N := by omega
  rw [forward_eq ha (inc_lt hN b)]
  rw [forward_eq ha hb] at h ⊢
  rw [inc_eq hb]
  split at h <;> split <;> split <;> omega

/-- One element fewer when the reading cursor advances in a buffer that is not empty. -/
theorem forward_inc_left {N a b : Nat} (ha : a < N) (hb : b < N) (h : a ≠ b) :
    forward N (inc N a) b + 1 = forward N a b := by
  have hN : 0 < N := by omega
  rw [forward_eq (inc_lt hN a) hb, forward_eq ha hb, inc_eq ha]
  split <;> split <;> split <;> omega

theorem slotIndex_lt {N : Nat} (hN : 0 < N) (t i : Nat) : slotIndex N t i < N := Nat.mod_lt _ hN

@[simp] theorem slotIndex_zero {N t : Nat} (ht : t < N) : slotIndex N t 0 = t := Nat.mod_eq_of_lt ht

/-- Offset `i` after a pop is offset `i + 1` before it. -/
theorem slotIndex_inc (N t i : Nat) : slotIndex N (inc N t) i = slotIndex N t (i + 1) := by
  simp only [slotIndex, inc]
  rw [Nat.mod_add_mod]
  congr 1
  omega

/-- Different offsets below `N` are different slots. -/
theorem slotIndex_inj {N t i j : Nat} (ht : t < N) (hi : i < N) (hj : j < N) (h : slotIndex N t i = slotIndex N t j) :
    i = j := by
  have := forward_add ht hi
  rw [show (t + i) % N = (t + j) % N from h, forward_add ht hj] at this
  exact this.symm

/-- The slot at offset `LEN` is the one `head` names. -/
theorem slotIndex_length {N h t : Nat} (hh : h < N) (ht : t < N) : slotIndex N t (lengthOf N h t) = h :=
  add_forward ht hh

/-- No held element stands in the slot `head` names: there the PRODUCER may write. -/
theorem slotIndex_ne_head {N h t i : Nat} (hh : h < N) (ht : t < N) (hi : i < lengthOf N h t) :
    slotIndex N t i ≠ h := by
  have hN : 0 < N := by omega
  have hl : lengthOf N h t < N := forward_lt hN t h
  intro he
  have := slotIndex_inj ht (Nat.lt_trans hi hl) hl (he.trans (slotIndex_length hh ht).symm)
  omega

/-- A cursor between `a` and `b` splits their distance. -/
theorem forward_split {N a b j : Nat} (ha : a < N) (hb : b < N) (hj : j ≤ forward N a b) :
    forward N ((a + j) % N) b = forward N a b - j := by
  have hN : 0 < N := by omega
  have hl := forward_lt hN a b
  rw [forward_eq (Nat.mod_lt _ hN) hb, add_mod_eq ha (by omega)]
  rw [forward_eq ha hb] at hj ⊢
  split at hj <;> split <;> split <;> omega

end Sys2Proof.Machine
end

