-- ==== Sys2Proof/Laws/Memory.lean ====
section
/-! SUPPORT. The laws of the slots: a read after a write, and that the canonical form is kept. -/

namespace Sys2Proof.Machine

@[simp] theorem Memory.read_write_same (m : Memory) (p : Nat) (v : Elem) : (m.write p v).read p = some v := by
  induction m with
  | nil => simp [Memory.write, Memory.read]
  | cons e rest ih =>
    obtain ⟨q, w⟩ := e
    simp only [Memory.write]
    split
    · rename_i h
      simp only [Memory.read, if_neg (Nat.ne_of_lt h)]
      exact ih
    · split <;> simp [Memory.read]

theorem Memory.read_write_ne (m : Memory) {p q : Nat} (v : Elem) (h : q ≠ p) : (m.write p v).read q = m.read q := by
  induction m with
  | nil => simp [Memory.write, Memory.read, Ne.symm h]
  | cons e rest ih =>
    obtain ⟨r, w⟩ := e
    simp only [Memory.write]
    split
    · simp only [Memory.read, ih]
    · split
      · rename_i hr
        subst hr
        simp [Memory.read, Ne.symm h]
      · simp [Memory.read, Ne.symm h]

/-- The head of a canonical list and its rest. -/
theorem Memory.wf_cons (p : Nat) (v : Elem) (rest : Memory) :
    Memory.wf ((p, v) :: rest) = true ↔ (∀ e ∈ rest.head?, p < e.1) ∧ rest.wf = true := by
  cases rest with
  | nil => simp [Memory.wf]
  | cons e rest => simp [Memory.wf]

/-- The first index after a write. -/
theorem Memory.head_write (m : Memory) (p : Nat) (v : Elem) :
    ∀ e ∈ (m.write p v).head?, e.1 = p ∨ ∃ e' ∈ m.head?, e.1 = e'.1 := by
  cases m with
  | nil => simp [Memory.write]
  | cons e rest =>
    obtain ⟨q, w⟩ := e
    simp only [Memory.write]
    split
    · simp
    · split <;> simp

theorem Memory.wf_write (m : Memory) (p : Nat) (v : Elem) (h : m.wf = true) : (m.write p v).wf = true := by
  induction m with
  | nil => rfl
  | cons e rest ih =>
    obtain ⟨q, w⟩ := e
    rw [Memory.wf_cons] at h
    simp only [Memory.write]
    split
    · rename_i hq
      rw [Memory.wf_cons]
      refine ⟨fun e he => ?_, ih h.2⟩
      obtain h1 | ⟨e', he', h1⟩ := Memory.head_write rest p v e he
      · omega
      · have := h.1 e' he'; omega
    · split
      · rename_i hq
        subst hq
        rw [Memory.wf_cons]
        exact h
      · rw [Memory.wf_cons, Memory.wf_cons]
        refine ⟨fun e he => ?_, h⟩
        simp only [List.head?_cons, Option.mem_def, Option.some.injEq] at he
        subst he
        omega

/-- An entry after a write is the one written or one that was there. -/
theorem Memory.mem_write (m : Memory) (p : Nat) (v : Elem) :
    ∀ e ∈ m.write p v, e = (p, v) ∨ e ∈ m := by
  induction m with
  | nil => simp [Memory.write]
  | cons a rest ih =>
    obtain ⟨q, w⟩ := a
    intro e
    simp only [Memory.write]
    split
    · rintro (_ | ⟨_, h⟩)
      · simp
      · exact (ih e h).imp id (List.mem_cons_of_mem _)
    · split
      · rintro (_ | ⟨_, h⟩)
        · simp
        · exact .inr (List.mem_cons_of_mem _ h)
      · rintro (_ | ⟨_, h⟩)
        · simp
        · exact .inr h

theorem Memory.reset_wf : State.reset.rx.slots.wf = true ∧ State.reset.tx.slots.wf = true := ⟨rfl, rfl⟩

/-- No entry of a canonical list stands below its first index. -/
theorem Memory.read_lt_head (m : Memory) (h : m.wf = true) (p : Nat) (hp : ∀ e ∈ m.head?, p < e.1) : m.read p = none := by
  induction m with
  | nil => rfl
  | cons e rest ih =>
    obtain ⟨q, w⟩ := e
    have hq : p < q := hp (q, w) (by simp)
    rw [Memory.wf_cons] at h
    simp only [Memory.read, if_neg (Nat.ne_of_gt hq)]
    exact ih h.2 fun e he => Nat.lt_trans hq (h.1 e he)

/-- A canonical list is determined by what it reads as. -/
theorem Memory.eq_of_read (m m' : Memory) (h : m.wf = true) (h' : m'.wf = true) (hr : ∀ p, m.read p = m'.read p) :
    m = m' := by
  induction m generalizing m' with
  | nil =>
    cases m' with
    | nil => rfl
    | cons e rest => have := hr e.1; simp [Memory.read] at this
  | cons e rest ih =>
    obtain ⟨q, w⟩ := e
    cases m' with
    | nil => have := hr q; simp [Memory.read] at this
    | cons e' rest' =>
      obtain ⟨q', w'⟩ := e'
      have h1 := hr q
      have h2 := hr q'
      have low : ∀ {a b : Nat} {x : Elem} {l : Memory}, Memory.wf ((b, x) :: l) = true → a < b →
          Memory.read ((b, x) :: l) a = none := fun hw hab => Memory.read_lt_head _ hw _ (by simpa using hab)
      obtain hq | rfl | hq := Nat.lt_trichotomy q q'
      · rw [low h' hq] at h1; simp [Memory.read] at h1
      · simp only [Memory.read, if_true, Option.some.injEq] at h1
        subst h1
        rw [Memory.wf_cons] at h h'
        have : rest = rest' := by
          refine ih rest' h.2 h'.2 fun p => ?_
          by_cases hp : q = p
          · subst hp
            rw [Memory.read_lt_head rest h.2 _ h.1, Memory.read_lt_head rest' h'.2 _ h'.1]
          · simpa [Memory.read, hp] using hr p
        rw [this]
      · rw [low h hq] at h2; simp [Memory.read] at h2

end Sys2Proof.Machine
end

