-- ==== Sys2Proof/Laws/Numbers.lean ====
section
/-! SUPPORT. Laws of the number operands of a command: reading undoes writing, and a number is written in one way (log entry 6). -/

namespace Sys2Proof

theorem takeNat_small {b : Byte} (h : b.toNat < 128) (bs : List Byte) : takeNat (b :: bs) = some (b.toNat, bs) := by
  simp [takeNat, h]

theorem toNat_ofNat_small {v : Nat} (h : v < 128) : (BitVec.ofNat 8 v : Byte).toNat = v := by
  simp; omega

theorem toNat_ofNat_group (v : Nat) : (BitVec.ofNat 8 (128 + v % 128) : Byte).toNat = 128 + v % 128 := by
  simp; omega

/-- Reading a number written with enough groups gives it back. -/
theorem takeNat_natGroups (n v : Nat) (h : v ≤ n) (rest : List Byte) : takeNat (natGroups n v ++ rest) = some (v, rest) := by
  induction n generalizing v with
  | zero => obtain rfl : v = 0 := by omega
            rfl
  | succ n ih =>
    by_cases hv : v < 128
    · simp [natGroups, hv, takeNat_small (by rw [toNat_ofNat_small hv]; exact hv), toNat_ofNat_small hv]
    · have hq := ih (v / 128) (by omega)
      have h0 : v / 128 ≠ 0 := by omega
      simp only [natGroups, hv, if_false, List.cons_append, takeNat, toNat_ofNat_group, hq, h0]
      rw [if_neg (by omega)]
      congr 2
      omega

theorem takeNat_natBytes (v : Nat) (rest : List Byte) : takeNat (natBytes v ++ rest) = some (v, rest) :=
  takeNat_natGroups v v (Nat.le_refl v) rest

/-- More groups than needed are not written. -/
theorem natGroups_eq (n m v : Nat) (hn : v ≤ n) (hm : v ≤ m) : natGroups n v = natGroups m v := by
  induction n generalizing m v with
  | zero => obtain rfl : v = 0 := by omega
            cases m <;> rfl
  | succ n ih =>
    cases m with
    | zero => obtain rfl : v = 0 := by omega
              rfl
    | succ m =>
      by_cases hv : v < 128
      · simp [natGroups, hv]
      · simp [natGroups, hv, ih m (v / 128) (by omega) (by omega)]

theorem natBytes_small {v : Nat} (h : v < 128) : natBytes v = [BitVec.ofNat 8 v] := by
  cases v <;> simp [natBytes, natGroups, h]

theorem natBytes_group {v : Nat} (h : 128 ≤ v) : natBytes v = BitVec.ofNat 8 (128 + v % 128) :: natBytes (v / 128) := by
  obtain ⟨n, rfl⟩ : ∃ n, v = n + 1 := ⟨v - 1, by omega⟩
  rw [natBytes, natGroups, if_neg (by omega), natBytes, natGroups_eq n ((n + 1) / 128) _ (by omega) (Nat.le_refl _)]

/-- What reads as a number is that number written, then the rest. -/
theorem natBytes_of_takeNat {bs rest : List Byte} {v : Nat} (h : takeNat bs = some (v, rest)) : bs = natBytes v ++ rest := by
  induction bs generalizing v rest with
  | nil => simp [takeNat] at h
  | cons b bs ih =>
    have hb : b.toNat < 256 := b.isLt
    rw [takeNat] at h
    split at h
    · rename_i hs
      obtain ⟨rfl, rfl⟩ : b.toNat = v ∧ bs = rest := by simpa using h
      simp [natBytes_small hs]
    · split at h
      · simp at h
      · rename_i w r hw
        split at h
        · simp at h
        · obtain ⟨rfl, rfl⟩ : b.toNat - 128 + 128 * w = v ∧ r = rest := by simpa using h
          rw [natBytes_group (by omega), show (b.toNat - 128 + 128 * w) / 128 = w by omega,
            show 128 + (b.toNat - 128 + 128 * w) % 128 = b.toNat by omega, ih hw]
          simp

theorem takeElems_flatMap (vs : List Elem) (rest : List Byte) :
    takeElems vs.length (vs.flatMap natBytes ++ rest) = some (vs, rest) := by
  induction vs with
  | nil => rfl
  | cons v vs ih => simp [takeElems, takeNat_natBytes, ih]

theorem flatMap_of_takeElems {m : Nat} {bs rest : List Byte} {vs : List Elem} (h : takeElems m bs = some (vs, rest)) :
    bs = vs.flatMap natBytes ++ rest ∧ vs.length = m := by
  induction m generalizing bs vs with
  | zero => obtain ⟨rfl, rfl⟩ : [] = vs ∧ bs = rest := by simpa [takeElems] using h
            simp
  | succ m ih =>
    rw [takeElems] at h
    split at h
    · simp at h
    · rename_i v bs1 hv
      simp only [Option.map_eq_some_iff, Prod.mk.injEq, Prod.exists] at h
      obtain ⟨ws, r, hw, rfl, rfl⟩ := h
      obtain ⟨rfl, rfl⟩ := ih hw
      simp [natBytes_of_takeNat hv]

end Sys2Proof
end

