-- ==== Sys2Proof/Laws/State.lean ====
section
/-! SUPPORT. What each update of the state leaves in each field. -/

namespace Sys2Proof.Machine

/-! ### One whole instance replaced -/

@[simp] theorem State.inst_setInst (s : State) (id : InstId) (I : Inst) : (s.setInst id I).inst id = I := by
  cases id <;> rfl

theorem State.inst_setInst_ne (s : State) {id id' : InstId} (I : Inst) (h : id' ≠ id) :
    (s.setInst id I).inst id' = s.inst id' := by
  cases id <;> cases id' <;> first | rfl | exact absurd rfl h

@[simp] theorem State.setInst_queue (s : State) (id : InstId) (I : Inst) : (s.setInst id I).queue = s.queue := by
  cases id <;> rfl

@[simp] theorem State.setInst_choices (s : State) (id : InstId) (I : Inst) : (s.setInst id I).choices = s.choices := by
  cases id <;> rfl

@[simp] theorem State.setInst_draws (s : State) (id : InstId) (I : Inst) : (s.setInst id I).draws = s.draws := by
  cases id <;> rfl

@[simp] theorem State.setInst_port (s : State) (id : InstId) (I : Inst) : (s.setInst id I).port = s.port := by
  cases id <;> rfl

@[simp] theorem State.setInst_here (s : State) (I : Inst) : (s.setInst s.port.inst I).here = I := by
  simp [State.here]

@[simp] theorem State.setInst_setInst (s : State) (id : InstId) (I J : Inst) :
    (s.setInst id I).setInst id J = s.setInst id J := by
  cases id <;> rfl

@[simp] theorem State.setInst_inst (s : State) (id : InstId) : s.setInst id (s.inst id) = s := by
  cases id <;> rfl

/-! ### The model's own fields replaced -/

@[simp] theorem State.inst_queue (s : State) (q : List Event) (id : InstId) :
    ({ s with queue := q } : State).inst id = s.inst id := by
  cases id <;> rfl

@[simp] theorem State.inst_choices (s : State) (c : List Nat) (id : InstId) :
    ({ s with choices := c } : State).inst id = s.inst id := by
  cases id <;> rfl

@[simp] theorem State.inst_draws (s : State) (d : Nat) (id : InstId) :
    ({ s with draws := d } : State).inst id = s.inst id := by
  cases id <;> rfl

@[simp] theorem State.inst_port (s : State) (p : Port) (id : InstId) :
    ({ s with port := p } : State).inst id = s.inst id := by
  cases id <;> rfl

/-! ### The result port of an agent -/

@[simp] theorem State.setRet_queue (s : State) (p : Port) (r : Option Result) : (s.setRet p r).queue = s.queue := by
  unfold State.setRet; cases p.role <;> simp

@[simp] theorem State.setRet_choices (s : State) (p : Port) (r : Option Result) : (s.setRet p r).choices = s.choices := by
  unfold State.setRet; cases p.role <;> simp

@[simp] theorem State.setRet_draws (s : State) (p : Port) (r : Option Result) : (s.setRet p r).draws = s.draws := by
  unfold State.setRet; cases p.role <;> simp

@[simp] theorem State.setRet_port (s : State) (p : Port) (r : Option Result) : (s.setRet p r).port = s.port := by
  unfold State.setRet; cases p.role <;> simp

theorem State.inst_setRet_ne (s : State) (p : Port) (r : Option Result) {id : InstId} (h : id ≠ p.inst) :
    (s.setRet p r).inst id = s.inst id := by
  unfold State.setRet; cases p.role <;> simp [State.inst_setInst_ne _ _ h]

/-- The instance of the port after its result port is written: only that result port differs. -/
theorem State.inst_setRet (s : State) (p : Port) (r : Option Result) :
    (s.setRet p r).inst p.inst =
      match p.role with
      | .producer => { s.inst p.inst with prod := { (s.inst p.inst).prod with ret := r } }
      | .consumer => { s.inst p.inst with cons := { (s.inst p.inst).cons with ret := r } } := by
  unfold State.setRet; cases p.role <;> simp

@[simp] theorem State.setRet_params (s : State) (p : Port) (r : Option Result) :
    ((s.setRet p r).inst p.inst).params = (s.inst p.inst).params := by
  rw [State.inst_setRet]; cases p.role <;> rfl

@[simp] theorem State.setRet_slots (s : State) (p : Port) (r : Option Result) :
    ((s.setRet p r).inst p.inst).slots = (s.inst p.inst).slots := by
  rw [State.inst_setRet]; cases p.role <;> rfl

@[simp] theorem State.setRet_head (s : State) (p : Port) (r : Option Result) :
    ((s.setRet p r).inst p.inst).head = (s.inst p.inst).head := by
  rw [State.inst_setRet]; cases p.role <;> rfl

@[simp] theorem State.setRet_tail (s : State) (p : Port) (r : Option Result) :
    ((s.setRet p r).inst p.inst).tail = (s.inst p.inst).tail := by
  rw [State.inst_setRet]; cases p.role <;> rfl

@[simp] theorem State.setRet_fault (s : State) (p : Port) (r : Option Result) :
    ((s.setRet p r).inst p.inst).fault = (s.inst p.inst).fault := by
  rw [State.inst_setRet]; cases p.role <;> rfl

@[simp] theorem State.setRet_headView (s : State) (p : Port) (r : Option Result) :
    ((s.setRet p r).inst p.inst).headView = (s.inst p.inst).headView := by
  rw [State.inst_setRet]; cases p.role <;> rfl

@[simp] theorem State.setRet_tailView (s : State) (p : Port) (r : Option Result) :
    ((s.setRet p r).inst p.inst).tailView = (s.inst p.inst).tailView := by
  rw [State.inst_setRet]; cases p.role <;> rfl

@[simp] theorem State.setRet_prodRegs (s : State) (p : Port) (r : Option Result) :
    ((s.setRet p r).inst p.inst).prod.regs = (s.inst p.inst).prod.regs := by
  rw [State.inst_setRet]; cases p.role <;> rfl

@[simp] theorem State.setRet_consRegs (s : State) (p : Port) (r : Option Result) :
    ((s.setRet p r).inst p.inst).cons.regs = (s.inst p.inst).cons.regs := by
  rw [State.inst_setRet]; cases p.role <;> rfl

@[simp] theorem State.setRet_k (s : State) (p : Port) (r : Option Result) :
    ((s.setRet p r).inst p.inst).cons.k = (s.inst p.inst).cons.k := by
  rw [State.inst_setRet]; cases p.role <;> rfl

/-! ### Reset of one instance -/

@[simp] theorem inst_resetInst (id : InstId) (s : State) :
    (resetInst id s).inst id = Inst.construct (s.inst id).params := by
  simp [resetInst]

theorem inst_resetInst_ne (s : State) {id id' : InstId} (h : id' ≠ id) : (resetInst id s).inst id' = s.inst id' :=
  State.inst_setInst_ne _ _ h

end Sys2Proof.Machine
end

