-- ==== Sys2Proof/Laws/Ops.lean ====
section
/-! SUPPORT. One lemma per shared operation: everything it can do. -/

namespace Sys2Proof.Machine

/-! ### Sequencing -/

@[simp] theorem Run.bind_ok {α β : Type} (a : α) (s : State) (f : α → State → Run β) : (Run.ok a s).bind f = f a s := rfl

@[simp] theorem Run.bind_raised {α β : Type} (s : State) (f : α → State → Run β) :
    (Run.raised s : Run α).bind f = .raised s := rfl

@[simp] theorem Run.bind_stop {α β : Type} (e : Fault) (f : α → State → Run β) : (Run.stop e : Run α).bind f = .stop e := rfl

theorem Run.bind_eq_ok {α β : Type} {r : Run α} {f : α → State → Run β} {b : β} {t : State} :
    r.bind f = .ok b t ↔ ∃ a s, r = .ok a s ∧ f a s = .ok b t := by
  cases r <;> simp [Run.bind]

theorem Run.bind_assoc {α β γ : Type} (r : Run α) (f : α → State → Run β) (g : β → State → Run γ) :
    (r.bind f).bind g = r.bind fun a s => (f a s).bind g := by
  cases r <;> rfl

/-! ### Draws and cursor reads -/

/-- A draw changes nothing but the list of choices and the count of draws. -/
theorem draw_frame (s : State) : ∃ c d, (draw s).2 = { s with choices := c, draws := d } := by
  unfold draw
  split
  · exact ⟨_, s.draws, rfl⟩
  · exact ⟨s.choices, s.draws + 1, rfl⟩

@[simp] theorem draw_inst (s : State) (id : InstId) : (draw s).2.inst id = s.inst id := by
  obtain ⟨c, d, h⟩ := draw_frame s
  rw [h]; cases id <;> rfl

@[simp] theorem draw_queue (s : State) : (draw s).2.queue = s.queue := by
  obtain ⟨c, d, h⟩ := draw_frame s
  rw [h]

@[simp] theorem draw_port (s : State) : (draw s).2.port = s.port := by
  obtain ⟨c, d, h⟩ := draw_frame s
  rw [h]

/-- A listed choice is the draw. -/
theorem draw_listed (s : State) (c : Nat) (cs : List Nat) :
    draw { s with choices := c :: cs } = (c, { s with choices := cs }) := rfl

@[simp] theorem observe_inst (p : Params) (view cur : Nat) (s : State) (id : InstId) :
    (observe p view cur s).2.inst id = s.inst id := by
  unfold observe
  split
  · rfl
  · split <;> simp

@[simp] theorem observe_queue (p : Params) (view cur : Nat) (s : State) : (observe p view cur s).2.queue = s.queue := by
  unfold observe
  split
  · rfl
  · split <;> simp

@[simp] theorem observe_port (p : Params) (view cur : Nat) (s : State) : (observe p view cur s).2.port = s.port := by
  unfold observe
  split
  · rfl
  · split <;> simp

/-- What a read of the other agent's cursor answers: a value on the way from the view to the cursor. -/
theorem observe_between (p : Params) (view cur : Nat) (s : State) (hv : view < p.N) (hc : cur < p.N) :
    ∃ j ≤ forward p.N view cur, (observe p view cur s).1 = (view + j) % p.N := by
  unfold observe
  split
  · exact ⟨_, le_refl _, (add_forward hv hc).symm⟩
  · split
    · exact ⟨_, le_refl _, (add_forward hv hc).symm⟩
    · exact ⟨_, Nat.lt_succ_iff.mp (Nat.mod_lt _ (Nat.succ_pos _)), rfl⟩

/-- A read of the other agent's cursor changes, of the reader's instance, the view alone, and of the other one nothing. -/
theorem rdHead_inst (id : InstId) (s : State) :
    (rdHead id s).2.inst id = { s.inst id with headView := (rdHead id s).1 } := by
  simp [rdHead]

theorem rdHead_inst_ne {id id' : InstId} (s : State) (h : id' ≠ id) : (rdHead id s).2.inst id' = s.inst id' := by
  simp [rdHead, State.inst_setInst_ne _ _ h]

@[simp] theorem rdHead_queue (id : InstId) (s : State) : (rdHead id s).2.queue = s.queue := by simp [rdHead]

@[simp] theorem rdHead_port (id : InstId) (s : State) : (rdHead id s).2.port = s.port := by simp [rdHead]

theorem rdTail_inst (id : InstId) (s : State) :
    (rdTail id s).2.inst id = { s.inst id with tailView := (rdTail id s).1 } := by
  simp [rdTail]

theorem rdTail_inst_ne {id id' : InstId} (s : State) (h : id' ≠ id) : (rdTail id s).2.inst id' = s.inst id' := by
  simp [rdTail, State.inst_setInst_ne _ _ h]

@[simp] theorem rdTail_queue (id : InstId) (s : State) : (rdTail id s).2.queue = s.queue := by simp [rdTail]

@[simp] theorem rdTail_port (id : InstId) (s : State) : (rdTail id s).2.port = s.port := by simp [rdTail]

/-! ### Slots -/

/-- Everything a read of a slot can do. -/
theorem memRead_cases (id : InstId) (p : Nat) (s : State) :
    (¬ p < (s.inst id).params.N ∧ memRead id p s = .stop .slotOutOfRange) ∨
    (p < (s.inst id).params.N ∧ (s.inst id).params.orderedHandoff = true ∧
      ((∃ v, (s.inst id).slots.read p = some v ∧ memRead id p s = .ok v s) ∨
        (s.inst id).slots.read p = none ∧ memRead id p s = .stop .unwrittenSlot)) ∨
    (p < (s.inst id).params.N ∧ (s.inst id).params.orderedHandoff = false ∧
      memRead id p s = .ok ((draw s).1 % 2 ^ (s.inst id).params.W) (draw s).2) := by
  unfold memRead
  by_cases hp : p < (s.inst id).params.N
  · by_cases ho : (s.inst id).params.orderedHandoff = true
    · cases hr : (s.inst id).slots.read p <;> simp [hp, ho, hr]
    · simp [hp, ho]
  · simp [hp]

/-- Everything a write of a slot can do. -/
theorem memWrite_cases (id : InstId) (p : Nat) (v : Elem) (s : State) :
    (¬ p < (s.inst id).params.N ∧ memWrite id p v s = .stop .slotOutOfRange) ∨
    (p < (s.inst id).params.N ∧
      memWrite id p v s = .ok () (s.setInst id { s.inst id with slots := (s.inst id).slots.write p v })) := by
  unfold memWrite
  by_cases hp : p < (s.inst id).params.N <;> simp [hp]

/-! ### The end of an operation -/

@[simp] theorem goIdle_queue (p : Port) (s : State) : (goIdle p s).queue = s.queue := by
  unfold goIdle; cases p.role <;> simp [State.setPRegs, State.setCRegs]

@[simp] theorem goIdle_choices (p : Port) (s : State) : (goIdle p s).choices = s.choices := by
  unfold goIdle; cases p.role <;> simp [State.setPRegs, State.setCRegs]

@[simp] theorem goIdle_draws (p : Port) (s : State) : (goIdle p s).draws = s.draws := by
  unfold goIdle; cases p.role <;> simp [State.setPRegs, State.setCRegs]

@[simp] theorem goIdle_port (p : Port) (s : State) : (goIdle p s).port = s.port := by
  unfold goIdle; cases p.role <;> simp [State.setPRegs, State.setCRegs]

/-- The instance of the port with that agent idle. -/
theorem goIdle_inst (p : Port) (s : State) :
    (goIdle p s).inst p.inst =
      match p.role with
      | .producer => { s.inst p.inst with prod := { (s.inst p.inst).prod with regs := PRegs.idle } }
      | .consumer => { s.inst p.inst with cons := { (s.inst p.inst).cons with regs := CRegs.idle } } := by
  unfold goIdle; cases p.role <;> simp [State.setPRegs, State.setCRegs]

theorem goIdle_inst_ne (p : Port) (s : State) {id : InstId} (h : id ≠ p.inst) : (goIdle p s).inst id = s.inst id := by
  unfold goIdle; cases p.role <;> simp [State.setPRegs, State.setCRegs, State.inst_setInst_ne _ _ h]

/-- The instance of the port after an operation returns: the agent idle, its result port written. -/
theorem returnWith_inst (p : Port) (r : Result) (s : State) :
    (returnWith p r s).inst p.inst =
      match p.role with
      | .producer => { s.inst p.inst with prod := ⟨PRegs.idle, some r⟩ }
      | .consumer =>
        { s.inst p.inst with cons := { (s.inst p.inst).cons with regs := CRegs.idle, ret := some r } } := by
  rw [returnWith, State.inst_setRet, goIdle_inst]; cases p.role <;> rfl

theorem returnWith_inst_ne (p : Port) (r : Result) (s : State) {id : InstId} (h : id ≠ p.inst) :
    (returnWith p r s).inst id = s.inst id := by
  rw [returnWith, State.inst_setRet_ne _ _ _ h, goIdle_inst_ne _ _ h]

@[simp] theorem returnWith_queue (p : Port) (r : Result) (s : State) : (returnWith p r s).queue = s.queue := by
  simp [returnWith]

@[simp] theorem returnWith_choices (p : Port) (r : Result) (s : State) : (returnWith p r s).choices = s.choices := by
  simp [returnWith]

@[simp] theorem returnWith_draws (p : Port) (r : Result) (s : State) : (returnWith p r s).draws = s.draws := by
  simp [returnWith]

@[simp] theorem returnWith_port (p : Port) (r : Result) (s : State) : (returnWith p r s).port = s.port := by
  simp [returnWith]

/-- The result of an operation that returned is on the port's result port. -/
@[simp] theorem result_returnWith (p : Port) (r : Result) (s : State) : (returnWith p r s).result p = some r := by
  unfold State.result; rw [returnWith_inst]; cases p.role <;> rfl

/-- The instance of the port after a fault is taken: the agent idle, no result, the code in a `fault` that held 0. -/
theorem raise_inst (p : Port) (e : ErrorClass) (s : State) :
    (raise p e s).inst p.inst =
      match p.role with
      | .producer =>
        { s.inst p.inst with
          fault := if (s.inst p.inst).fault = 0 then errorCode e else (s.inst p.inst).fault, prod := ⟨PRegs.idle, none⟩ }
      | .consumer =>
        { s.inst p.inst with
          fault := if (s.inst p.inst).fault = 0 then errorCode e else (s.inst p.inst).fault,
          cons := { (s.inst p.inst).cons with regs := CRegs.idle, ret := none } } := by
  obtain ⟨id, role⟩ := p
  cases role <;> simp [raise, goIdle, State.setRet, State.setPRegs, State.setCRegs] <;> split <;> simp [*]

theorem raise_inst_ne (p : Port) (e : ErrorClass) (s : State) {id : InstId} (h : id ≠ p.inst) :
    (raise p e s).inst id = s.inst id := by
  unfold raise
  simp only
  split
  · rw [State.inst_setInst_ne _ _ h, State.inst_setRet_ne _ _ _ h, goIdle_inst_ne _ _ h]
  · rw [State.inst_setRet_ne _ _ _ h, goIdle_inst_ne _ _ h]

/-- An operation that ends in a next state: its last part ended with a value, which is returned, or the fault is recorded. -/
theorem finish_eq_next {α : Type} {r : Run α} {result : α → Result} {t : State} :
    finish r result = .next t ↔ (∃ a s, r = .ok a s ∧ t = returnWith s.port (result a) s) ∨ r = .raised t := by
  cases r <;> simp [finish, eq_comm]

/-! ### Before an operation begins -/

/-- Exactly when nothing refuses an invocation. -/
theorem refusalOf_eq_none {w : Who} {s : State} :
    refusalOf w s = none ↔
      s.here.fault = 0 ∧ permits w s.port = true ∧ agentBusy s.here s.port.role = false ∧ clearing s.here = false := by
  unfold refusalOf
  by_cases h1 : s.here.fault = 0 <;> by_cases h2 : permits w s.port = true <;>
    by_cases h3 : agentBusy s.here s.port.role = true <;> by_cases h4 : clearing s.here = true <;> simp_all

theorem invoked_admitted {w : Who} {s : State} (h : refusalOf w s = none) (body : State → Out) :
    invoked w s body = body (s.setRet s.port none) := by
  simp [invoked, h]

theorem invoked_eq_next {w : Who} {s t : State} {body : State → Out} :
    invoked w s body = .next t ↔ refusalOf w s = none ∧ body (s.setRet s.port none) = .next t := by
  unfold invoked
  cases h : refusalOf w s <;> simp

theorem invokedOnBytes_eq_next {w : Who} {s t : State} {body : State → Out} :
    invokedOnBytes w s body = .next t ↔
      refusalOf w s = none ∧ s.here.params.W = 8 ∧ body (s.setRet s.port none) = .next t := by
  have hp : (s.setRet s.port none).here.params = s.here.params := by simp [State.here]
  rw [invokedOnBytes, invoked_eq_next, hp]
  by_cases hW : s.here.params.W = 8 <;> simp [hW]

/-! ### Parts of the ring-buffer operations -/

/-- Everything a push can do: drop its value in a buffer it finds full, or store it and advance `head`. -/
theorem pushRun_cases (id : InstId) (v : Elem) (s : State) (hh : (s.inst id).head < (s.inst id).params.N) :
    (fullAt (s.inst id).params.N (lenByProducer id s).1 = true ∧ pushRun id v s = .ok () (rdTail id s).2) ∨
    (fullAt (s.inst id).params.N (lenByProducer id s).1 = false ∧
      pushRun id v s = .ok ()
        ((rdTail id s).2.setInst id
          { s.inst id with
            slots := (s.inst id).slots.write (s.inst id).head v
            head := inc (s.inst id).params.N (s.inst id).head
            tailView := (rdTail id s).1 })) := by
  unfold pushRun
  cases hf : fullAt (s.inst id).params.N (lenByProducer id s).1
  · right
    simp [lenByProducer] at hf
    simp [lenByProducer, memWrite, publishHead, rdTail_inst, hh, hf]
  · left
    simp [lenByProducer] at hf
    simp [lenByProducer, hf]

/-- Everything a pop can do. -/
theorem popRun_cases (id : InstId) (s : State) :
    ((rdHead id s).1 = (s.inst id).tail ∧ (s.inst id).params.popEmptyPolicy = .abort ∧
      popRun id s = .raised (raise ⟨id, .consumer⟩ .bufferUnderflowOnRead (rdHead id s).2)) ∨
    ((rdHead id s).1 = (s.inst id).tail ∧ (s.inst id).params.popEmptyPolicy = .noElement ∧
      popRun id s = .ok none (rdHead id s).2) ∨
    ((rdHead id s).1 ≠ (s.inst id).tail ∧
      popRun id s = (memRead id (s.inst id).tail (rdHead id s).2).bind fun v s2 =>
        .ok (some v) (publishTail id (inc (s.inst id).params.N (s.inst id).tail) s2)) := by
  unfold popRun
  by_cases h : (rdHead id s).1 = (s.inst id).tail
  · cases hp : (s.inst id).params.popEmptyPolicy <;> simp [h]
  · simp [h]

/-- Everything a peek can do. -/
theorem peekRun_cases (id : InstId) (i : Nat) (s : State) :
    ((lenByConsumer id s).1 ≤ i ∧ peekRun id i s = .raised (raise ⟨id, .consumer⟩ .indexOutOfRange (rdHead id s).2)) ∨
    (i < (lenByConsumer id s).1 ∧
      peekRun id i s = memRead id (slotIndex (s.inst id).params.N (s.inst id).tail i) (rdHead id s).2) := by
  unfold peekRun
  by_cases h : (lenByConsumer id s).1 ≤ i
  · exact .inl ⟨h, by simp only [h, if_true]; rfl⟩
  · exact .inr ⟨by omega, by simp only [h, if_false]; rfl⟩

/-- One element of a `load`. -/
@[simp] theorem loadRun_cons (id : InstId) (v : Elem) (vs : List Elem) (s : State) :
    loadRun id (v :: vs) s = (pushRun id v s).bind fun _ s1 => loadRun id vs s1 := rfl

@[simp] theorem loadRun_nil (id : InstId) (s : State) : loadRun id [] s = .ok () s := rfl

/-! ### Checksums -/

/-- The running subtraction is a subtraction of the sum. -/
theorem foldl_sub16 (bytes : List Byte) (acc : Half) :
    bytes.foldl sub16 acc = acc - BitVec.ofNat 16 (bytes.map BitVec.toNat).sum := by
  induction bytes generalizing acc with
  | nil => simp
  | cons b bs ih =>
    rw [List.foldl_cons, ih, List.map_cons, List.sum_cons]
    apply BitVec.eq_of_toNat_eq
    simp only [sub16, BitVec.toNat_sub, BitVec.toNat_setWidth, BitVec.toNat_ofNat]
    have := b.isLt
    have := acc.isLt
    omega

@[simp] theorem le16_lo8_hi8 (v : Half) : le16 (lo8 v) (hi8 v) = v := by
  unfold le16 lo8 hi8
  ext i hi
  simp only [BitVec.getElem_append, BitVec.getElem_setWidth, BitVec.getLsbD_ushiftRight]
  split
  · rename_i h; simp [BitVec.getLsbD_eq_getElem hi]
  · rename_i h; simp [show 8 + (i - 8) = i by omega, BitVec.getLsbD_eq_getElem hi]

end Sys2Proof.Machine
end

