-- ==== Sys2Proof/Laws/PerInstr.lean ====
section
/-! SUPPORT. Statements about every instruction as syntax, one lemma per constructor. -/

namespace Sys2Proof.Laws

/-- The first byte of an encoding (30_encoding.md R80, R81, R99): for an operation its assigned op code, for a frame its own length in
bytes, a legal one. -/
def FirstByte.Statement (i : Instr) : Prop :=
  i.wf = true →
    match formOf i with
    | .op => ((encode i).headD 0).toNat ≤ 0x0A ∨ 0x10 ≤ ((encode i).headD 0).toNat ∧ ((encode i).headD 0).toNat ≤ 0x14
    | .inbound | .outbound =>
      ((encode i).headD 0).toNat = (encode i).length ∧ 4 ≤ (encode i).length ∧ (encode i).length ≤ 32

theorem FirstByte.fSet (L : Byte) (a : Nibble) (payload : List Byte) : FirstByte.Statement (.fSet L a payload) := by
  intro h
  simp [Instr.wf, Machine.badLength, Config.minLength, Config.maxLength] at h
  have h1 := of_decide_eq_false h.1.1
  have h2 := of_decide_eq_false h.1.2
  simp [formOf, encode, Machine.withTrailer]
  omega

theorem FirstByte.fDiscover (a : Nibble) : FirstByte.Statement (.fDiscover a) := by
  simp [FirstByte.Statement, formOf, encode, Machine.withTrailer]

theorem FirstByte.fType (a : Nibble) : FirstByte.Statement (.fType a) := by
  simp [FirstByte.Statement, formOf, encode, Machine.withTrailer]

theorem FirstByte.fValue (a : Nibble) : FirstByte.Statement (.fValue a) := by
  simp [FirstByte.Statement, formOf, encode, Machine.withTrailer]

theorem FirstByte.eDiscoverResp (a : Nibble) : FirstByte.Statement (.eDiscoverResp a) := by
  simp [FirstByte.Statement, formOf, encode, Machine.withTrailer]

theorem FirstByte.eTypeResp (a : Nibble) (k w : Byte) : FirstByte.Statement (.eTypeResp a k w) := by
  simp [FirstByte.Statement, formOf, encode, Machine.withTrailer]

theorem FirstByte.eValueRespS (a : Nibble) (v : Half) : FirstByte.Statement (.eValueRespS a v) := by
  simp [FirstByte.Statement, formOf, encode, Machine.withTrailer, Machine.bytes16]

theorem FirstByte.eValueRespL (a : Nibble) (v : Word) : FirstByte.Statement (.eValueRespL a v) := by
  simp [FirstByte.Statement, formOf, encode, Machine.withTrailer, Machine.bytes32]

theorem FirstByte.push (v : Elem) : FirstByte.Statement (.push v) := by
  simp [FirstByte.Statement, formOf, encode]

theorem FirstByte.pop : FirstByte.Statement .pop := by simp [FirstByte.Statement, formOf, encode]

theorem FirstByte.len : FirstByte.Statement .len := by simp [FirstByte.Statement, formOf, encode]

theorem FirstByte.isFull : FirstByte.Statement .isFull := by simp [FirstByte.Statement, formOf, encode]

theorem FirstByte.isEmpty : FirstByte.Statement .isEmpty := by simp [FirstByte.Statement, formOf, encode]

theorem FirstByte.space : FirstByte.Statement .space := by simp [FirstByte.Statement, formOf, encode]

theorem FirstByte.peek (i : Nat) : FirstByte.Statement (.peek i) := by
  simp [FirstByte.Statement, formOf, encode]

theorem FirstByte.clear : FirstByte.Statement .clear := by simp [FirstByte.Statement, formOf, encode]

theorem FirstByte.load (s : List Elem) : FirstByte.Statement (.load s) := by
  simp [FirstByte.Statement, formOf, encode]

theorem FirstByte.iterNew : FirstByte.Statement .iterNew := by simp [FirstByte.Statement, formOf, encode]

theorem FirstByte.iterNext : FirstByte.Statement .iterNext := by simp [FirstByte.Statement, formOf, encode]

theorem FirstByte.checksum (s : List Byte) : FirstByte.Statement (.checksum s) := by
  simp [FirstByte.Statement, formOf, encode]

theorem FirstByte.needsResync : FirstByte.Statement .needsResync := by simp [FirstByte.Statement, formOf, encode]

theorem FirstByte.decodeNext : FirstByte.Statement .decodeNext := by simp [FirstByte.Statement, formOf, encode]

theorem FirstByte.service : FirstByte.Statement .service := by simp [FirstByte.Statement, formOf, encode]

theorem FirstByte.encode (m : Message) (target : InstId) : FirstByte.Statement (.encode m target) := by
  simp [FirstByte.Statement, formOf, Sys2Proof.encode]

end Sys2Proof.Laws
end

