-- ==== Sys2Proof/Tests/Slice0.lean ====
section
/-! SUPPORT. Tests. Expected results are those of the spec's own vectors (95_test_vectors.md), named at each test, or written out from
the rule named. Each runs one step on a small state. -/

namespace Sys2Proof.Tests

open Sys2Proof.Machine

/-! ### Small states -/

/-- The parameters of the vectors: bytes, the `current` view, ordered handoff, `abort`. -/
def par (N : Nat) : Params := ⟨N, 8, 6, true, .current, .abort⟩

/-- An instance with these slots and cursors, both views up to date. -/
def inst (N : Nat) (slots : Memory) (head tail : Nat) : Inst :=
  { Inst.construct (par N) with slots := slots, head := head, tail := tail, headView := head, tailView := tail }

/-- That instance as the receive instance, invoked by an agent of it. -/
def onRx (I : Inst) (role : Role) : State := { State.reset with rx := I, port := ⟨.rx, role⟩ }

/-- That instance as the transmit instance, invoked by an agent of it. -/
def onTx (I : Inst) (role : Role) : State := { State.reset with tx := I, port := ⟨.tx, role⟩ }

/-- A receive instance of 33 slots with these bytes at its front, invoked by its CONSUMER. -/
def front (bytes : List Byte) : State :=
  onRx (inst 33 (slotsFrom 0 bytes) bytes.length 0) .consumer

/-- The state after, if there is one. -/
def after : Out → Option State
  | .next t => some t
  | .fault _ => none
  | .refused _ => none

/-- Why an invocation was refused, if it was. -/
def refusal : Out → Option Refusal
  | .next _ => none
  | .fault _ => none
  | .refused r => some r

/-- Cursors, slots and fault register of the invoked instance, and the result. -/
structure Seen where
  head   : Nat
  tail   : Nat
  slots  : Memory
  fault  : BitVec 4
  result : Option Result
  deriving DecidableEq, Repr

/-- See `Seen`. -/
def seen (o : Out) : Option Seen :=
  (after o).map fun t => ⟨t.here.head, t.here.tail, t.here.slots, t.here.fault, t.result t.port⟩

/-- The result alone. -/
def answer (o : Out) : Option Result := (after o).bind fun t => t.result t.port

/-! ### WellFormed: an ill-formed term for each check -/

theorem test_wf_set_length_low : (Instr.fSet 3 0 []).wf = false := by decide

theorem test_wf_set_length_high : (Instr.fSet 33 0 (List.replicate 29 0)).wf = false := by decide

theorem test_wf_set_payload : (Instr.fSet 6 0 [1]).wf = false ∧ (Instr.fSet 6 0 [1, 2]).wf = true := by decide

theorem test_wf_channels : (Instr.encode (.setMsg (List.replicate 13 0)) .tx).wf = false ∧
    (Instr.encode (.setMsg (List.replicate 14 0)) .tx).wf = true := by decide

/-! ### Decoding: words written out from R92, R93 and R99 -/

/-- D4, D6, D8 and D10: the four rows of R92. -/
theorem test_decode_inbound :
    decodeInbound [0x04, 0x80, 0x7B, 0xFF] = .ok (.fDiscover 0) [] ∧
    decodeInbound [0x04, 0x9F, 0x5C, 0xFF] = .ok (.fType 0xF) [] ∧
    decodeInbound [0x04, 0xAF, 0x4C, 0xFF, 0x04] = .ok (.fValue 0xF) [0x04] ∧
    decodeInbound [0x08, 0x45, 0xE8, 0x03, 0xD0, 0x07, 0xF0, 0xFD] = .ok (.fSet 8 5 [0xE8, 0x03, 0xD0, 0x07]) [] := by
  decide

/-- G1, G2a, G3a and G4a: the four rows of R93. -/
theorem test_decode_outbound :
    decodeOutbound [0x04, 0x81, 0x7A, 0xFF] = .ok (.eDiscoverResp 1) [] ∧
    decodeOutbound [0x06, 0x91, 0x03, 0x02, 0x63, 0xFF] = .ok (.eTypeResp 1 3 2) [] ∧
    decodeOutbound [0x06, 0xA3, 0x34, 0x12, 0x10, 0xFF] = .ok (.eValueRespS 3 0x1234) [] ∧
    decodeOutbound [0x08, 0xA0, 0, 0, 0, 0, 0x57, 0xFF] = .ok (.eValueRespL 0 0) [] := by decide

/-- S3, S4, S13, S16 and S18: each malformation has its name (R94 to R97). -/
theorem test_decode_malformed :
    decodeInbound [0x00] = .reject .badLength ∧ decodeInbound [0x21] = .reject .badLength ∧
    decodeInbound [0x04, 0x51, 0xAA, 0xFF] = .reject .badCommand ∧
    decodeInbound [0x06, 0x91, 0x00, 0x02, 0x66, 0xFF] = .reject .badFixedLength ∧
    decodeInbound [0x04, 0x81, 0x7A, 0xFE] = .reject .badChecksum ∧
    decodeInbound [0x04, 0x81, 0x7A] = .reject .incompleteFrame := by decide

/-- The op codes of R99, the argument layout that of log entry 6. -/
theorem test_decode_ring_buffer_ops :
    decodeOp [0x00, 0x11] = .ok (.push 0x11) [] ∧ decodeOp [0x01] = .ok .pop [] ∧
    decodeOp [0x02] = .ok .len [] ∧ decodeOp [0x03] = .ok .isFull [] ∧ decodeOp [0x04] = .ok .isEmpty [] ∧
    decodeOp [0x05] = .ok .space [] ∧ decodeOp [0x06, 2] = .ok (.peek 2) [] ∧ decodeOp [0x07] = .ok .clear [] ∧
    decodeOp [0x08, 2, 1, 0x80, 2] = .ok (.load [1, 256]) [] ∧ decodeOp [0x09] = .ok .iterNew [] ∧
    decodeOp [0x0A] = .ok .iterNext [] := by decide

/-- R99, the codec's op codes. -/
theorem test_decode_codec_ops :
    decodeOp [0x10, 2, 0x04, 0x81] = .ok (.checksum [0x04, 0x81]) [] ∧ decodeOp [0x11] = .ok .needsResync [] ∧
    decodeOp [0x12] = .ok .decodeNext [] ∧ decodeOp [0x13] = .ok .service [] ∧
    decodeOp [0x14, 1, 4, 2, 0, 2] = .ok (.encode (.typeResponse 2 0 2) .tx) [] ∧
    decodeOp [0x14, 0, 7, 3, 0x78, 0x56, 0x34, 0x12] = .ok (.encode (.valueResponseLong 3 0x12345678) .rx) [] := by decide

/-- Log entry 6: a number is as long as it has to be, in groups of 7 bits, and not longer. 2^32 has its one bit in the fifth group, at
place 4. -/
theorem test_decode_numbers :
    decodeOp [0x00, 0x7F] = .ok (.push 127) [] ∧ decodeOp [0x00, 0x80, 0x01] = .ok (.push 128) [] ∧
    decodeOp [0x00, 0x80, 0x80, 0x80, 0x80, 0x10] = .ok (.push 0x100000000) [] ∧
    encode (.peek 0x100000000) = [0x06, 0x80, 0x80, 0x80, 0x80, 0x10] ∧ encode (.push 0) = [0x00, 0x00] ∧
    decodeOp [0x00, 0x80, 0x00] = .reject .badArgument ∧ decodeOp [0x06, 0x80] = .reject .badArgument := by decide

/-- B27: op codes `0x0B` and `0x1F`; and a byte that holds no 5-bit op code. -/
theorem test_decode_unassigned :
    decodeOp [0x0B] = .reject .unassignedOp ∧ decodeOp [0x1F] = .reject .unassignedOp ∧
    decodeOp [0x15] = .reject .unassignedOp ∧ decodeOp [0x21] = .reject .notAnOpCode := by decide

/-- Words of the opcode table (R92, R93, R99). -/
theorem test_table_words :
    decodeTableWord 8 0x13 = some .service ∧ decodeTableWord 16 0x0480 = some (.fDiscover 0) ∧
    decodeTableWord 16 0x0490 = some (.fType 0) ∧ decodeTableWord 16 0x04A0 = some (.fValue 0) ∧
    decodeTableWord 16 0x0440 = some (.fSet 4 0 []) ∧ decodeTableWord 16 0x0690 = some (.eTypeResp 0 0 0) ∧
    decodeTableWord 16 0x06A0 = some (.eValueRespS 0 0) ∧ decodeTableWord 16 0x08A0 = some (.eValueRespL 0 0) := by decide

/-! ### push, pop, len and its queries -/

/-- B4. -/
theorem test_push_wraps :
    seen (exec (.push 0xAB) (onRx (inst 4 [(0, 1), (1, 2), (2, 3)] 3 1) .producer)) =
      some ⟨0, 1, [(0, 1), (1, 2), (2, 3), (3, 0xAB)], 0, some .nothing⟩ := by decide

/-- B3. -/
theorem test_push_full_is_dropped :
    seen (exec (.push 0x99) (onRx (inst 4 [(0, 1), (1, 2), (2, 3)] 3 0) .producer)) =
      some ⟨3, 0, [(0, 1), (1, 2), (2, 3)], 0, some .nothing⟩ := by decide

/-- B5, the last of its pops: `tail` wraps. -/
theorem test_pop_wraps :
    seen (exec .pop (onRx (inst 4 [(0, 1), (1, 2), (2, 3), (3, 0xAB)] 0 3) .consumer)) =
      some ⟨0, 0, [(0, 1), (1, 2), (2, 3), (3, 0xAB)], 0, some (.elem 0xAB)⟩ := by decide

/-- B9. -/
theorem test_pop_empty_faults : seen (exec .pop (onRx (inst 4 [] 0 0) .consumer)) = some ⟨0, 0, [], 4, none⟩ := by decide

/-- B8: `(1 - 3) mod 4`, for both agents. -/
theorem test_len_wrapped :
    answer (exec .len (onRx (inst 4 [(0, 7), (3, 6)] 1 3) .consumer)) = some (.num 2) ∧
    answer (exec .len (onRx (inst 4 [(0, 7), (3, 6)] 1 3) .producer)) = some (.num 2) := by decide

/-- B7 and B6. -/
theorem test_isFull :
    answer (exec .isFull (onRx (inst 4 [(0, 1), (1, 2), (2, 3)] 3 0) .producer)) = some (.bit true) ∧
    answer (exec .isFull (onRx (inst 4 [] 0 0) .producer)) = some (.bit false) := by decide

/-- B7 and B6. -/
theorem test_isEmpty :
    answer (exec .isEmpty (onRx (inst 4 [(0, 1), (1, 2), (2, 3)] 3 0) .consumer)) = some (.bit false) ∧
    answer (exec .isEmpty (onRx (inst 4 [] 0 0) .consumer)) = some (.bit true) := by decide

/-- B7 and B6: `space` counts the reserved slot. -/
theorem test_space :
    answer (exec .space (onRx (inst 4 [(0, 1), (1, 2), (2, 3)] 3 0) .producer)) = some (.num 1) ∧
    answer (exec .space (onRx (inst 4 [] 0 0) .producer)) = some (.num 4) := by decide

/-! ### peek, clear, load, iteration -/

/-- B12 to B16: the instance of these vectors. -/
def wrapped : Inst := inst 8 [(0, 0x50), (1, 0x51), (6, 0x46), (7, 0x47)] 2 6

/-- B12: `peek(2)` is slot 0. -/
theorem test_peek_wraps :
    seen (exec (.peek 2) (onRx wrapped .consumer)) = some ⟨2, 6, wrapped.slots, 0, some (.elem 0x50)⟩ := by decide

/-- B13. -/
theorem test_peek_beyond_faults :
    seen (exec (.peek 4) (onRx wrapped .consumer)) = some ⟨2, 6, wrapped.slots, 5, none⟩ := by decide

/-- B15. -/
theorem test_clear :
    seen (exec .clear (onRx wrapped .consumer)) = some ⟨0, 0, wrapped.slots, 0, some .nothing⟩ := by decide

/-- B17: the PRODUCER stands at P4 of a push. -/
theorem test_clear_refused :
    refusal (exec .clear (onRx { wrapped with prod.regs := { PRegs.idle with ppc := .P4 } } .consumer)) =
      some .clearWhileActive := by decide

/-- B18. -/
theorem test_load_drops_what_does_not_fit :
    seen (exec (.load [1, 2, 3, 4, 5]) (onRx (inst 4 [] 0 0) .producer)) =
      some ⟨3, 0, [(0, 1), (1, 2), (2, 3)], 0, some .nothing⟩ := by decide

/-- B19. -/
theorem test_load_nothing :
    seen (exec (.load []) (onRx (inst 4 [] 0 0) .producer)) = some ⟨0, 0, [], 0, some .nothing⟩ := by decide

/-- B21. -/
theorem test_iterNew :
    (after (exec .iterNew (onRx (inst 4 [(0, 7), (1, 8)] 2 0) .consumer))).map (fun t => t.rx.cons.k) = some (some 0) := by
  decide

/-- B21, the second element, and R126 without an iteration (B24). -/
theorem test_iterNext_element :
    (after (exec .iterNext (onRx { inst 4 [(0, 7), (1, 8)] 2 0 with cons.k := some 1 } .consumer))).map
      (fun t => (t.rx.cons.k, t.rx.cons.ret)) = some (some 2, some (.elem 8)) ∧
    refusal (exec .iterNext (onRx (inst 4 [] 0 0) .consumer)) = some .noIteration := by decide

/-- B21, the end. -/
theorem test_iterNext_end :
    (after (exec .iterNext (onRx { inst 4 [(0, 7), (1, 8)] 2 0 with cons.k := some 2 } .consumer))).map
      (fun t => (t.rx.cons.k, t.rx.cons.ret)) = some (some 2, some .endOfIter) := by decide

/-! ### checksum, needsResync, decodeNext, service -/

/-- K7. -/
theorem test_checksum :
    answer (exec (.checksum [0x08, 0xA3, 0x78, 0x56, 0x34, 0x12]) (front [])) = some (.half 0xFE40) := by decide

/-- K11: the pure function wraps. -/
theorem test_checksum_wraps : checksumOf (List.replicate 258 0xFF) = 0xFF01 := by
  rw [checksumOf, foldl_sub16, List.map_replicate, List.sum_replicate]; decide

/-- S18, S11. -/
theorem test_needsResync_checksum :
    answer (exec .needsResync (front [0x04, 0x81, 0x7A, 0xFE])) = some (.bit true) ∧
    answer (exec .needsResync (front [0x04, 0x81, 0x7A, 0xFF])) = some (.bit false) := by decide

/-- S8: the command is not looked at before the frame is there. S16: a fixed length violated. -/
theorem test_needsResync_waits :
    answer (exec .needsResync (front [0x04, 0xF0])) = some (.bit false) ∧
    answer (exec .needsResync (front [0x06, 0x91, 0x00, 0x02, 0x66, 0xFF])) = some (.bit true) := by decide

/-- D13. -/
theorem test_decodeNext_set :
    answer (exec .decodeNext (front [0x07, 0x40, 0xDC, 0x05, 0x99, 0x3E, 0xFE])) =
      some (.decoded (some (.setMsg (0x05DC :: List.replicate 13 0))) 7) := by decide

/-- D3, D2. -/
theorem test_decodeNext_absent :
    answer (exec .decodeNext (front [0x00])) = some (.decoded none 1) ∧
    answer (exec .decodeNext (front [0x04])) = some (.decoded none 0) := by decide

/-- Program 1, step 7: the frame is wrapped round the end of the array. -/
theorem test_service_wrapped_frame :
    (after (exec .service (onRx (inst 8 [(0, 0x81), (1, 0x7A), (2, 0xFF), (7, 0x04)] 3 7) .consumer))).map
      (fun t => (t.rx.head, t.rx.tail, t.rx.cons.ret, t.rx.cons.sink)) =
      some (3, 3, some (.decoded (some (.discoveryRequest 1)) 4), some (.discoveryRequest 1)) := by decide

/-- D21, R187: one byte is discarded. -/
theorem test_service_resync :
    (after (exec .service (front [0x06, 0x92, 0x00, 0x02, 0x65, 0xFF]))).map (fun t => (t.rx.tail, t.rx.cons.ret)) =
      some (1, some (.decoded none 1)) := by decide

/-! ### The inbound frames -/

/-- E5, second call. -/
theorem test_fDiscover :
    answer (exec (.fDiscover 1) (front [0x04, 0x81, 0x7A, 0xFF])) = some (.decoded (some (.discoveryRequest 1)) 4) := by
  decide

/-- E6, and R38: a frame that is not at the front. -/
theorem test_fType :
    answer (exec (.fType 2) (front [0x04, 0x92, 0x69, 0xFF])) = some (.decoded (some (.typeRequest 2)) 4) ∧
    refusal (exec (.fType 2) (front [0x04, 0x93, 0x68, 0xFF])) = some .frameNotAtFront := by decide

/-- E7. -/
theorem test_fValue :
    answer (exec (.fValue 3) (front [0x04, 0xA3, 0x58, 0xFF])) = some (.decoded (some (.valueRequest 3)) 4) := by decide

/-- D14. -/
theorem test_fSet :
    answer (exec (.fSet 8 5 [0xE8, 0x03, 0xD0, 0x07]) (front [0x08, 0x45, 0xE8, 0x03, 0xD0, 0x07, 0xF0, 0xFD])) =
      some (.decoded (some (.setMsg (0x03E8 :: 0x07D0 :: List.replicate 12 0))) 8) := by decide

/-! ### encode and the outbound frames -/

/-- An empty transmit instance of 9 slots, its PRODUCER. -/
def target : State := onTx (inst 9 [] 0 0) .producer

/-- G1. -/
theorem test_eDiscoverResp :
    seen (exec (.eDiscoverResp 1) target) = some ⟨4, 0, slotsFrom 0 [0x04, 0x81, 0x7A, 0xFF], 0, some .nothing⟩ := by decide

/-- G2. -/
theorem test_eTypeResp :
    seen (exec (.eTypeResp 2 0 2) target) =
      some ⟨6, 0, slotsFrom 0 [0x06, 0x92, 0x00, 0x02, 0x65, 0xFF], 0, some .nothing⟩ := by decide

/-- G3a. -/
theorem test_eValueRespS :
    seen (exec (.eValueRespS 1 0xFFFF) target) =
      some ⟨6, 0, slotsFrom 0 [0x06, 0xA1, 0xFF, 0xFF, 0x5A, 0xFD], 0, some .nothing⟩ := by decide

/-- G4. -/
theorem test_eValueRespL :
    seen (exec (.eValueRespL 3 0x12345678) target) =
      some ⟨8, 0, slotsFrom 0 [0x08, 0xA3, 0x78, 0x56, 0x34, 0x12, 0x40, 0xFE], 0, some .nothing⟩ := by decide

/-- G9: five free places for eight bytes. -/
theorem test_encode_partial :
    (after (exec (.encode (.valueResponseLong 3 0x12345678) .tx) (onTx (inst 8 [(0, 1), (1, 2)] 2 0) .producer))).map
      (fun t => (t.tx.head, t.tx.slots, t.tx.fault)) =
      some (7, slotsFrom 0 [1, 2, 0x08, 0xA3, 0x78, 0x56, 0x34], 0) := by decide

/-- G8. -/
theorem test_encode_setMsg_faults :
    seen (exec (.encode (.setMsg (List.replicate 14 0)) .tx) target) = some ⟨0, 0, [], 6, none⟩ := by decide

/-! ### Refusals, reset, micro-steps -/

/-- B26 and B10. -/
theorem test_refusals :
    refusal (exec (.push 1) (onRx (inst 4 [] 0 0) .consumer)) = some .roleViolation ∧
    refusal (exec .len (onRx { inst 4 [] 0 0 with fault := 4 } .consumer)) = some .instanceFaulted := by decide

/-- Program 6, the reset. -/
theorem test_reset :
    seen (step { onRx { inst 8 [(0, 0x77)] 1 0 with fault := 5 } .consumer with queue := [.reset .rx] }) =
      some ⟨0, 0, [], 0, none⟩ := by decide

/-- B30, P2 and after: the PRODUCER reads `tail = 1`. -/
theorem test_tick_reads_tail :
    (after (tick ⟨.rx, .producer⟩
      (onRx { inst 4 [(0, 1), (1, 2), (2, 3)] 3 1 with
        tailView := 0, prod.regs := { PRegs.idle with ppc := .P2, p_v := 4, p_h := 3 } } .producer))).map
      (fun t => (t.rx.prod.regs.ppc, t.rx.prod.regs.p_t, t.rx.tailView)) = some (.P3, 1, 1) := by decide

/-- B31, P3: with `p_t = 0` the push returns without writing. -/
theorem test_tick_drops :
    seen (tick ⟨.rx, .producer⟩
      (onRx { inst 4 [(0, 1), (1, 2), (2, 3)] 3 1 with
        tailView := 0, prod.regs := { PRegs.idle with ppc := .P3, p_v := 4, p_h := 3, p_t := 0 } } .producer)) =
      some ⟨3, 1, [(0, 1), (1, 2), (2, 3)], 0, some .nothing⟩ := by decide

/-- B32, P4: the slot is written and `head` is not published yet. -/
theorem test_tick_writes_slot :
    seen (tick ⟨.rx, .producer⟩
      (onRx { inst 4 [] 0 0 with prod.regs := { PRegs.idle with ppc := .P4, p_v := 9 } } .producer)) =
      some ⟨0, 0, [(0, 9)], 0, none⟩ := by decide

/-- R189 and D2: with one byte visible the wait is answered in `DEC`, after `DONE` with `false`. -/
theorem test_tick_completeness :
    (after (tick ⟨.rx, .consumer⟩ (onRx { (front [0x04]).rx with
      cons.regs := { CRegs.idle with cpc := .X, task := .decodeNext, phase := .DONE, n := 1, L := 4 } } .consumer))).map
      (fun t => (t.rx.cons.regs.phase, t.rx.cons.ret)) = some (.DEC, none) ∧
    answer (tick ⟨.rx, .consumer⟩ (onRx { (front [0x04]).rx with
      cons.regs := { CRegs.idle with cpc := .X, task := .decodeNext, phase := .DEC, n := 1, L := 4 } } .consumer)) =
      some (.decoded none 0) := by decide

/-- B33: under `delayed` the CONSUMER may read 0 or 1. -/
theorem test_delayed_view :
    (rdHead .rx { onRx { inst 4 [(0, 9)] 1 0 with params.cursorView := .delayed, headView := 0 } .consumer with
      choices := [0] }).1 = 0 ∧
    (rdHead .rx { onRx { inst 4 [(0, 9)] 1 0 with params.cursorView := .delayed, headView := 0 } .consumer with
      choices := [1] }).1 = 1 := by decide

/-- The host's probe, one row of each kind: the very next step runs the word. -/
theorem test_fetch_word :
    answer (step (State.reset.withFetchWord 16 0x0490)) = some (.decoded (some (.typeRequest 0)) 4) ∧
    answer (step (State.reset.withFetchWord 8 0x05)) = some (.num 33) ∧
    answer (step (State.reset.withFetchWord 16 0x06A0)) = some .nothing := by decide

/-! ### Witnesses: states and operands that meet the hypotheses of the statements, clause by clause -/

/-- A PRODUCER at its step `c` of a push of `v`, having read what it has read by then. -/
def pushing (I : Inst) (c : PPc) (v : Elem) : Inst :=
  { I with prod.regs := { PRegs.idle with ppc := c, p_v := v, p_h := I.head, p_t := I.tailView } }

/-- A CONSUMER at its step `c` of a task, having read what it has read by then. -/
def reading (I : Inst) (c : CPc) (task : CTask) : Inst :=
  { I with cons.regs := { CRegs.idle with cpc := c, task := task, c_t := I.tail, c_h := I.headView } }

/-- A pending input. -/
def pending (e : Event) (s : State) : State := { s with queue := [e] }

/-- An instance whose CONSUMER has not yet seen the last element and whose PRODUCER has not yet seen the last pop, under `delayed`. -/
def stale : Inst := { inst 4 [(0, 7), (1, 8), (2, 9)] 3 1 with params.cursorView := .delayed, headView := 2, tailView := 0 }

theorem witness_DecodeOfEncodeIsIdentity :
    (Instr.fSet 32 15 (List.replicate 28 0xFF)).wf = true ∧ (Instr.fSet 4 0 []).wf = true ∧
    (Instr.push 0x100000000).wf = true ∧ (Instr.encode (.setMsg (List.replicate 14 1)) .rx).wf = true ∧
    (Instr.load [0, 0x100000000]).wf = true ∧ (Instr.eValueRespL 15 0xFFFFFFFF).wf = true := by decide

theorem witness_AcceptedBytesAreTheEncoding :
    decode .op [0x06, 0xFF, 0x01, 7] = .ok (.peek 255) [7] ∧
    decode .inbound [0x05, 0x40, 0xAA, 0x10, 0xFF] = .ok (.fSet 5 0 [0xAA]) [] ∧
    decode .outbound [0x06, 0x92, 0x00, 0x02, 0x65, 0xFF] = .ok (.eTypeResp 2 0 2) [] := by decide

theorem witness_UnassignedOpCodesAreRefused :
    (pending (.invoke ⟨.rx, .consumer⟩ [0x0B]) State.reset).queue = .invoke ⟨.rx, .consumer⟩ [0x0B] :: [] ∧
    (pending (.start ⟨.tx, .producer⟩ [0x1F, 1]) State.reset).queue = .start ⟨.tx, .producer⟩ [0x1F, 1] :: [] ∧
    (0x0B ≤ (0x0B : Byte).toNat ∧ (0x0B : Byte).toNat ≤ 0x0F) ∧ (0x0B ≤ (0x0F : Byte).toNat ∧ (0x0F : Byte).toNat ≤ 0x0F) ∧
    (0x15 ≤ (0x15 : Byte).toNat ∧ (0x15 : Byte).toNat ≤ 0x1F) ∧
    (0x15 ≤ (0x1F : Byte).toNat ∧ (0x1F : Byte).toNat ≤ 0x1F) := by decide

theorem witness_StepRunsTheDecodedInstruction :
    decodeOp [0x06, 2] = .ok (.peek 2) [] ∧
    (pending (.invoke ⟨.rx, .consumer⟩ [0x06, 2]) State.reset).queue =
      .invoke ⟨.rx, .consumer⟩ [0x06, 2] :: [] ∧
    (pending (.start ⟨.rx, .consumer⟩ [0x06, 2]) State.reset).queue =
      .start ⟨.rx, .consumer⟩ [0x06, 2] :: [] ∧
    (pending (.tick ⟨.tx, .producer⟩) State.reset).queue = .tick ⟨.tx, .producer⟩ :: [] ∧
    (pending (.reset .tx) State.reset).queue = .reset .tx :: [] ∧ State.reset.queue = [] := by decide

/-- A VALUE frame and two more bytes at the front. -/
def fronted : State := front [0x04, 0xAF, 0x4C, 0xFF, 0x20, 0x40]

theorem witness_DecodeNextRunsTheFrameAtTheFront :
    fronted.Inv ∧ Admitted .codec fronted ∧ OnBytes fronted ∧ fronted.here.params.orderedHandoff = true ∧
    decodeInbound (fronted.here.frontBytes (lenByConsumer fronted.port.inst fronted).1) = .ok (.fValue 15) [0x20, 0x40] := by
  decide

theorem witness_OperationsLeaveTheOtherInstanceAlone :
    (∃ t, exec (.push 9) (onRx (inst 4 [] 0 0) .producer) = .next t) ∧
    (∃ t, begin (.push 9) (onRx (inst 4 [] 0 0) .producer) = .next t) ∧
    (∃ t, tick ⟨.rx, .producer⟩ (onRx (pushing (inst 4 [] 0 0) .P4 9) .producer) = .next t) ∧
    InstId.tx ≠ (⟨.rx, .producer⟩ : Port).inst :=
  ⟨⟨_, rfl⟩, ⟨_, rfl⟩, ⟨_, rfl⟩, by decide⟩

theorem witness_ParametersNeverChange :
    ∃ t, step (pending (.reset .rx) (onRx (inst 4 [(0, 1)] 1 0) .producer)) = .next t := ⟨_, rfl⟩

theorem witness_ConstructedSystemSatisfiesTheInvariants :
    (⟨2, 1, 1, false, .delayed, .noElement⟩ : Params).Legal ∧ (⟨64, 8, 6, true, .current, .abort⟩ : Params).Legal := by decide

/-- A full buffer whose PRODUCER is about to write nothing, whose CONSUMER is about to return. -/
def busy : State :=
  onRx (reading (pushing (inst 4 [(0, 1), (1, 2), (2, 3)] 3 0) .P3 9) .C4 .pop) .consumer

theorem witness_EveryStepKeepsTheInvariant :
    busy.Inv ∧ (∃ t, step (pending (.tick ⟨.rx, .consumer⟩) busy) = .next t) ∧
    (pending (.tick ⟨.rx, .consumer⟩) busy).Inv := ⟨by decide, ⟨_, rfl⟩, by decide⟩

theorem witness_NoStepReadsAnUnwrittenSlot : (pending (.invoke ⟨.rx, .consumer⟩ [0x01]) fronted).Inv := by decide

/-- A codec in the middle of a frame: three bytes of four read; and one whose `service` has a pop to come. -/
def summing : Inst :=
  { inst 33 (slotsFrom 0 [0x04, 0x81, 0x7A, 0xFF]) 4 0 with
    cons.regs := { CRegs.idle with
      cpc := .K3, task := .decodeNext, c_h := 4, c_i := 3, phase := .S4, n := 4, L := 4, b1 := 0x81, acc := 0xFF7A, ci := 1,
      ck_lo := 0x7A } }

/-- See `summing`. -/
def discarding : Inst :=
  { inst 33 (slotsFrom 0 [0x00]) 1 0 with
    cons.regs := { CRegs.idle with cpc := .C1, task := .service, phase := .DONE, n := 1, consumed := 1, left := 1, resync := true } }

theorem witness_EveryStepKeepsTheCodecInvariant :
    (pending (.tick ⟨.rx, .consumer⟩) (onRx summing .consumer)).CodecInv ∧
    (∃ t, step (pending (.tick ⟨.rx, .consumer⟩) (onRx summing .consumer)) = .next t) ∧
    (pending (.tick ⟨.rx, .consumer⟩) (onRx discarding .consumer)).CodecInv ∧
    (∃ t, step (pending (.tick ⟨.rx, .consumer⟩) (onRx discarding .consumer)) = .next t) :=
  ⟨by decide, ⟨_, rfl⟩, by decide, ⟨_, rfl⟩⟩

/-- An empty receive instance whose CONSUMER stands at C3 of a pop. -/
def underflow : State := onRx (reading (inst 4 [] 0 0) .C3 .pop) .consumer

/-- A receive instance of one element whose CONSUMER stands at K2 of `peek(1)`. -/
def beyond : State :=
  let I := reading (inst 4 [(0, 1)] 1 0) .K2 .peek
  onRx { I with cons.regs := { I.cons.regs with c_i := 1 } } .consumer

theorem witness_OnlyCallerErrorsFaultTheBlock :
    (onRx (inst 4 [] 0 0) .consumer).Inv ∧
    (after (exec .pop (onRx (inst 4 [] 0 0) .consumer))).map (fun t => t.here.fault) = some 4 ∧
    (after (exec (.peek 0) (onRx (inst 4 [] 0 0) .consumer))).map (fun t => t.here.fault) = some 5 ∧ target.Inv ∧
    (after (exec (.encode (.typeRequest 2) .tx) target)).map (fun t => t.here.fault) = some 6 ∧ underflow.CodecInv ∧
    (after (tick ⟨.rx, .consumer⟩ underflow)).map (fun t => t.rx.fault) = some 4 ∧ underflow.rx.fault = 0 ∧
    (after (begin (.encode (.typeRequest 2) .tx) target)).map (fun t => t.here.fault) = some 6 ∧ beyond.CodecInv ∧
    (after (tick ⟨.rx, .consumer⟩ beyond)).map (fun t => t.rx.fault) = some 5 ∧ beyond.rx.fault = 0 := by
  refine ⟨?_, ?_, ?_, ?_, ?_, ?_, ?_, ?_, ?_, ?_, ?_, ?_⟩ <;> decide

theorem witness_FaultedInstanceRefusesEverything :
    (onRx { inst 4 [] 0 0 with fault := 4 } .consumer).here.fault ≠ 0 := by decide

theorem witness_InvocationsOutsideTheContractAreRefused :
    ((onRx (inst 4 [] 0 0) .consumer).here.fault = 0 ∧
      permits (whoMay (.push 1)) (onRx (inst 4 [] 0 0) .consumer).port = false ∧
      permits (whoMay .service) (onTx (inst 4 [] 0 0) .consumer).port = false ∧
      busy.here.fault = 0 ∧ agentBusy busy.here busy.port.role = true) ∧
    (Admitted .producer target ∧ OnBytes target ∧ InstId.rx ≠ target.port.inst) ∧
    (256 ∈ [255, 256] ∧ 2 ^ target.here.params.W ≤ 256) ∧
    (Admitted .consumer fronted ∧ 2 ^ fronted.here.params.CW ≤ 64) ∧
    (Admitted (whoMay .service) (onRx { inst 4 [] 0 0 with params.W := 9 } .consumer) ∧
      (onRx { inst 4 [] 0 0 with params.W := 9 } .consumer).here.params.W ≠ 8) ∧
    ((front [0x04, 0x81, 0x7A]).Inv ∧ Admitted .codec (front [0x04, 0x81, 0x7A]) ∧ OnBytes (front [0x04, 0x81, 0x7A]) ∧
      decodeInbound ((front [0x04, 0x81, 0x7A]).here.frontBytes
        (lenByConsumer .rx (front [0x04, 0x81, 0x7A])).1) = .reject .incompleteFrame) ∧
    (fronted.Inv ∧ Admitted .codec fronted ∧ OnBytes fronted ∧ formOf (.fValue 14) = .inbound ∧ (Instr.fValue 14).wf = true ∧
      decodeInbound (fronted.here.frontBytes (lenByConsumer .rx fronted).1) = .ok (.fValue 15) [0x20, 0x40]) := by
  refine ⟨?_, ?_, ?_, ?_, ?_, ?_, ?_⟩ <;> decide

/-- The CONSUMER's port of an instance whose PRODUCER is at work, and the PRODUCER's port of one whose CONSUMER clears. -/
def overlapped : State := onRx (pushing (inst 4 [] 0 0) .P4 9) .consumer

/-- See `overlapped`. -/
def clearingNow : State := onRx (reading (inst 4 [(0, 1)] 1 0) .CL .clear) .producer

theorem witness_ClearIsRefusedWhileActive :
    Admitted .consumer overlapped ∧ prodBusy overlapped.here = true ∧ overlapped.Inv ∧
    clearingNow.here.fault = 0 ∧ permits (whoMay .len) clearingNow.port = true ∧ clearingNow.port.role = .producer ∧
    prodBusy clearingNow.here = false ∧ clearing clearingNow.here = true ∧ clearingNow.Inv := by
  refine ⟨?_, ?_, ?_, ?_, ?_, ?_, ?_, ?_, ?_⟩ <;> decide

theorem witness_FaultRegisterIsSticky :
    (∃ t, step (pending (.tick ⟨.rx, .producer⟩) (onRx { pushing (inst 4 [] 0 0) .P4 9 with fault := 5 } .consumer)) = .next t) ∧
    (onRx { pushing (inst 4 [] 0 0) .P4 9 with fault := 5 } .consumer).rx.fault ≠ 0 ∧
    (∃ t, step (pending (.tick ⟨.rx, .consumer⟩) underflow) = .next t) ∧ underflow.rx.fault = 0 ∧
    (∃ t, step (pending (.reset .rx) (onRx { inst 4 [] 0 0 with fault := 4 } .consumer)) = .next t) :=
  ⟨⟨_, rfl⟩, by decide, ⟨_, rfl⟩, by decide, ⟨_, rfl⟩⟩

theorem witness_EachCursorHasOneWriter :
    (∃ t, tick ⟨.rx, .consumer⟩ busy = .next t) ∧ busy.rx.cons.regs.cpc ≠ .CL ∧
    ∃ t, tick ⟨.rx, .producer⟩ (onRx (pushing (inst 4 [(0, 9)] 0 0) .P5 9) .producer) = .next t :=
  ⟨⟨_, rfl⟩, by decide, ⟨_, rfl⟩⟩

theorem witness_ProducerNeverOverwritesAHeldElement :
    (onRx (pushing (inst 4 [(0, 1), (1, 2), (2, 9)] 2 0) .P5 9) .producer).Inv ∧
    (∃ t, tick ⟨.rx, .producer⟩ (onRx (pushing (inst 4 [(0, 1), (1, 2), (2, 9)] 2 0) .P5 9) .producer) = .next t) ∧
    0 < (onRx (pushing (inst 4 [(0, 1), (1, 2), (2, 9)] 2 0) .P5 9) .producer).rx.LEN :=
  ⟨by decide, ⟨_, rfl⟩, by decide⟩

theorem witness_ResetLeavesTheInstanceEmptyAndIdle : (pending (.reset .rx) busy).queue = .reset .rx :: [] := by decide

theorem witness_CursorReadStaysInTheEnvelope :
    stale.Inv ∧ 1 ≤ forward stale.params.N stale.headView stale.head ∧ (inst 4 [(0, 1)] 1 0).Inv ∧
    (inst 4 [(0, 1)] 1 0).params.cursorView = .current := by decide

theorem witness_EveryDelayedViewIsPossible :
    ((onRx stale .consumer).inst .rx).Inv ∧ ((onRx stale .consumer).inst .rx).params.cursorView = .delayed ∧
    1 ≤ forward stale.params.N stale.headView stale.head ∧ 1 ≤ forward stale.params.N stale.tailView stale.tail := by decide

theorem witness_LengthsBoundTheTrueLength : ((onRx stale .consumer).inst .rx).Inv := by decide

theorem witness_LengthQueriesComplete :
    Admitted .either (onRx stale .producer) ∧ Admitted .either (onRx stale .consumer) := by decide

theorem witness_PushStoresUnlessFull :
    (let s := onRx (inst 4 [(0, 1), (1, 2), (2, 3)] 3 1) .producer
     Admitted .producer s ∧ s.here.head < s.here.params.N ∧ 255 < 2 ^ s.here.params.W ∧
       lengthOf s.here.params.N s.here.head (rdTail s.port.inst s).1 ≠ s.here.params.N - 1) ∧
    (let s := onRx (inst 4 [(0, 1), (1, 2), (2, 3)] 3 0) .producer
     Admitted .producer s ∧ s.here.head < s.here.params.N ∧ 255 < 2 ^ s.here.params.W ∧
       lengthOf s.here.params.N s.here.head (rdTail s.port.inst s).1 = s.here.params.N - 1) := by decide

/-- A full buffer. -/
def full : State := onRx (inst 4 [(0, 1), (1, 2), (2, 3)] 3 0) .producer

theorem witness_PushOnAFullBufferIsSilent :
    full.Inv ∧ full.here.LEN = full.here.params.N - 1 ∧ ∃ t, exec (.push 9) full = .next t :=
  ⟨by decide, by decide, _, rfl⟩

theorem witness_PushAppendsToTheQueue :
    (onRx (inst 4 [(0, 1), (1, 2), (2, 3)] 3 1) .producer).Inv ∧
    (∃ t, exec (.push 9) (onRx (inst 4 [(0, 1), (1, 2), (2, 3)] 3 1) .producer) = .next t) ∧
    full.Inv ∧ ∃ t, exec (.push 9) full = .next t := ⟨by decide, ⟨_, rfl⟩, by decide, _, rfl⟩

theorem witness_PopReturnsTheOldestElement :
    let s := onRx (inst 4 [(0, 1), (1, 2), (2, 3), (3, 4)] 0 3) .consumer
    s.Inv ∧ Admitted .consumer s ∧ (rdHead s.port.inst s).1 ≠ s.here.tail ∧ s.here.params.orderedHandoff = true := by decide

theorem witness_PopOfAnEmptyBuffer :
    (let s := onRx (inst 4 [] 0 0) .consumer
     Admitted .consumer s ∧ (rdHead s.port.inst s).1 = s.here.tail ∧ s.here.params.popEmptyPolicy = .abort) ∧
    (let s := onRx { inst 4 [] 0 0 with params.popEmptyPolicy := .noElement } .consumer
     Admitted .consumer s ∧ (rdHead s.port.inst s).1 = s.here.tail ∧ s.here.params.popEmptyPolicy = .noElement) := by decide

theorem witness_PeekReturnsTheElementAtAnOffset :
    let s := onRx wrapped .consumer
    s.Inv ∧ Admitted .consumer s ∧ 3 < (lenByConsumer s.port.inst s).1 := by decide

theorem witness_PeekBeyondTheLengthFaults :
    let s := onRx wrapped .consumer
    Admitted .consumer s ∧ 4 < 2 ^ s.here.params.CW ∧ (lenByConsumer s.port.inst s).1 ≤ 4 := by decide

theorem witness_ClearEmptiesTheBuffer :
    Admitted .consumer (onRx wrapped .consumer) ∧ Quiescent (onRx wrapped .consumer) := by decide

theorem witness_LoadAppendsASubsequence :
    full.Inv ∧ Admitted .producer full ∧ ∀ v ∈ [1, 255], v < 2 ^ full.here.params.W := by decide

theorem witness_LoadStoresWhatFits :
    (onRx (inst 4 [(0, 1)] 1 0) .producer).Inv ∧
    (onRx (inst 4 [(0, 1)] 1 0) .producer).here.tailView = (onRx (inst 4 [(0, 1)] 1 0) .producer).here.tail ∧
    ∃ t, exec (.load [2, 3, 4]) (onRx (inst 4 [(0, 1)] 1 0) .producer) = .next t := ⟨by decide, by decide, _, rfl⟩

theorem witness_LoadWithinSpaceLosesNothing :
    let s := onRx (inst 4 [(0, 1)] 1 0) .producer
    s.Inv ∧ s.port.role = .producer ∧
    ∃ t u, exec .space s = .next t ∧ t.result s.port = some (.num 3) ∧ [2, 3].length + 1 ≤ 3 ∧
      exec (.load [2, 3]) t = .next u := ⟨by decide, by decide, _, _, rfl, by decide, by decide, rfl⟩

theorem witness_LoadedElementsArePoppedInOrder :
    let s := onRx (inst 4 [(0, 1), (1, 2), (2, 3)] 3 3) .producer
    s.Inv ∧ s.port = ⟨.rx, .producer⟩ ∧ Admitted .producer s ∧ Quiescent s ∧ s.here.params.cursorView = .current ∧
    s.here.params.orderedHandoff = true ∧ s.here.LEN = 0 ∧ [7, 8, 9].length ≤ s.here.params.N - 1 ∧
    ∀ v ∈ [7, 8, 9], v < 2 ^ s.here.params.W := by decide

theorem witness_EveryRunOfPushesAndPopsIsAQueue :
    let s := onRx (inst 4 [(0, 1), (1, 2)] 2 0) .producer
    s.Inv ∧ (s.inst .rx).params.orderedHandoff = true ∧
    (queueRun .rx [some 3, some 4, none] s).map (fun r => (r.1, r.2.1)) = some ([3], [1]) := by decide

theorem witness_WeakHandoffReadsAnyValue :
    let s := onRx { inst 4 [(0, 9)] 1 0 with params.orderedHandoff := false } .consumer
    s.Inv ∧ Admitted .consumer s ∧ s.here.params.orderedHandoff = false ∧ s.here.params.cursorView = .current ∧
    0 < s.here.LEN ∧ 255 < 2 ^ s.here.params.W := by decide

theorem witness_IterNewStartsAtTheOldest : Admitted .consumer (onRx wrapped .consumer) := by decide

theorem witness_IterNextYieldsTheElementOrEnd :
    (let s := onRx wrapped .consumer
     s.Inv ∧ Admitted .consumer s ∧ s.here.cons.k = none) ∧
    (let s := onRx { wrapped with cons.k := some 3 } .consumer
     s.Inv ∧ Admitted .consumer s ∧ s.here.cons.k = some 3 ∧ 3 < (lenByConsumer s.port.inst s).1) ∧
    (let s := onRx { wrapped with cons.k := some 4 } .consumer
     s.Inv ∧ Admitted .consumer s ∧ s.here.cons.k = some 4 ∧ (lenByConsumer s.port.inst s).1 ≤ 4) := by
  refine ⟨?_, ?_, ?_⟩ <;> decide

/-- The three statements `ProducerMicroSteps…`, `ConsumerMicroSteps…` and `CodecMicroSteps…`. -/
theorem witness_MicroStepsEqualTheOperation :
    full.port.role = .producer ∧ fronted.port.role = .consumer ∧ Instr.pop ≠ .needsResync ∧ Instr.pop ≠ .decodeNext ∧
    Instr.pop ≠ .service := by decide

theorem witness_ChecksumIsTheRunningSubtraction : Admitted .either full ∧ Admitted .either fronted := by decide

theorem witness_FrameChecksumNeverWraps :
    4 ≤ (0x04 : Byte).toNat ∧ ([] : List Byte).length ≤ 29 ∧ 4 ≤ (0xFF : Byte).toNat ∧
    (List.replicate 29 (0xFF : Byte)).length ≤ 29 := by decide

/-- S1, S2, S6, S10, S13, S16, S18 and S11: each row of the case table. -/
theorem witness_NeedsResyncAnswersTheCaseTable :
    let fronts : List (List Byte) := [[], [0x03], [0x04], [0x20, 0, 0, 0, 0, 0], [0x04, 0x51, 0xAA, 0xFF],
      [0x06, 0x91, 0x00, 0x02, 0x66, 0xFF], [0x04, 0x81, 0x7A, 0xFE], [0x04, 0x81, 0x7A, 0xFF]]
    ∀ f ∈ fronts,
      (front f).Inv ∧ Admitted .codec (front f) ∧ OnBytes (front f) ∧ (front f).here.params.orderedHandoff = true := by decide

theorem witness_DecodeNextAnswersByTheFront :
    (let s := front [0x00]
     s.Inv ∧ resyncTable (s.here.frontBytes (lenByConsumer s.port.inst s).1) = true) ∧
    (let s := front [0x04, 0x81, 0x7A]
     s.Inv ∧ resyncTable (s.here.frontBytes (lenByConsumer s.port.inst s).1) = false ∧
       (s.here.frontBytes (lenByConsumer s.port.inst s).1).length < 4) ∧
    (let s := front [0x04, 0x81, 0x7A, 0xFF]
     s.Inv ∧ resyncTable (s.here.frontBytes (lenByConsumer s.port.inst s).1) = false ∧
       4 ≤ (s.here.frontBytes (lenByConsumer s.port.inst s).1).length) := by
  refine ⟨?_, ?_, ?_⟩ <;> decide

theorem witness_RequestFramesDeliverTheirRequest :
    (let s := front [0x04, 0x81, 0x7A, 0xFF]
     s.Inv ∧ Admitted .codec s ∧ OnBytes s ∧ s.here.frontBytes (lenByConsumer s.port.inst s).1 =
       0x04 :: (0x80 ||| (1 : Nibble).setWidth 8) :: BitVec.ofNat 8 (0xFFFF - 0x04 - (0x80 + 1)) ::
         BitVec.ofNat 8 ((0xFFFF - 0x04 - (0x80 + 1)) / 256) :: []) ∧
    (let s := front [0x04, 0x9F, 0x5C, 0xFF]
     s.Inv ∧ Admitted .codec s ∧ OnBytes s ∧ s.here.frontBytes (lenByConsumer s.port.inst s).1 =
       0x04 :: (0x90 ||| (15 : Nibble).setWidth 8) :: BitVec.ofNat 8 (0xFFFF - 0x04 - (0x90 + 15)) ::
         BitVec.ofNat 8 ((0xFFFF - 0x04 - (0x90 + 15)) / 256) :: []) ∧
    (let s := fronted
     s.Inv ∧ Admitted .codec s ∧ OnBytes s ∧ s.here.frontBytes (lenByConsumer s.port.inst s).1 =
       0x04 :: (0xA0 ||| (15 : Nibble).setWidth 8) :: BitVec.ofNat 8 (0xFFFF - 0x04 - (0xA0 + 15)) ::
         BitVec.ofNat 8 ((0xFFFF - 0x04 - (0xA0 + 15)) / 256) :: [0x20, 0x40]) := by
  refine ⟨?_, ?_, ?_⟩ <;> decide

/-- D10 and D13: no payload at all, and an odd payload byte. -/
theorem witness_SetFramesDeliverTheirChannels :
    (let s := front [0x04, 0x40, 0xBB, 0xFF]
     s.Inv ∧ Admitted .codec s ∧ OnBytes s ∧ (Instr.fSet 4 0 []).wf = true ∧
       s.here.frontBytes (lenByConsumer s.port.inst s).1 = encode (.fSet 4 0 []) ++ []) ∧
    (let s := front [0x07, 0x40, 0xDC, 0x05, 0x99, 0x3E, 0xFE]
     s.Inv ∧ Admitted .codec s ∧ OnBytes s ∧ (Instr.fSet 7 0 [0xDC, 0x05, 0x99]).wf = true ∧
       s.here.frontBytes (lenByConsumer s.port.inst s).1 = encode (.fSet 7 0 [0xDC, 0x05, 0x99]) ++ []) := by
  refine ⟨?_, ?_⟩ <;> decide

theorem witness_DecodeNextReturnsOnlyTheseResults :
    (∃ t, exec .decodeNext fronted = .next t) ∧
    (after (exec .decodeNext fronted)).map (fun t => t.here.fault) = some 0 := ⟨⟨_, rfl⟩, by decide⟩

/-- S4; the first byte of S10, and S9; S1; and S11: malformed, incomplete, empty, and none of these. -/
theorem witness_MalformedAndIncompleteFrontsAreRecoverable :
    let seen (f : List Byte) := (front f).here.frontBytes (lenByConsumer .rx (front f)).1
    resyncTable (seen [0x21]) = true ∧
    (∀ f ∈ [[0x20], [0x04, 0x81, 0x7A]],
      (seen f).length < ((seen f).getD 0 0).toNat ∧ badLength ((seen f).getD 0 0) = false) ∧
    seen [] = [] ∧
    ∀ f ∈ [[0x21], [0x20], [0x04, 0x81, 0x7A], [], [0x04, 0x81, 0x7A, 0xFF]],
      (front f).Inv ∧ Admitted .codec (front f) ∧ OnBytes (front f) ∧ (front f).here.params.orderedHandoff = true := by decide

theorem witness_ServiceDiscardsExactlyWhatIsConsumed : fronted.Inv ∧ Admitted .codec fronted ∧ OnBytes fronted := by decide

/-- A front that needs a resync pass. -/
theorem witness_ResyncLoopEndsWithinLenPasses :
    (front [0x00, 0x04]).Inv ∧ Admitted .codec (front [0x00, 0x04]) ∧ OnBytes (front [0x00, 0x04]) ∧
    answer (exec .service (front [0x00, 0x04])) = some (.decoded none 1) := by decide

theorem witness_OversizeFrameStallsDecoding :
    let s := onRx (inst 8 (slotsFrom 0 [0x08, 0x40, 0, 0, 0, 0, 0]) 7 0) .consumer
    s.Inv ∧ Admitted .codec s ∧ OnBytes s ∧ s.here.params.orderedHandoff = true ∧ 0 < (lenByConsumer s.port.inst s).1 ∧
    4 ≤ ((s.here.frontBytes 1).getD 0 0).toNat ∧ ((s.here.frontBytes 1).getD 0 0).toNat ≤ 32 ∧
    s.here.params.N - 1 < ((s.here.frontBytes 1).getD 0 0).toNat := by decide

theorem witness_EmittedFramesCarryTheirChecksum :
    outboundFrame (.valueResponseLong 3 0x12345678) = some [0x08, 0xA3, 0x78, 0x56, 0x34, 0x12, 0x40, 0xFE] ∧
    outboundFrame (.discoveryResponse 0) = some [0x04, 0x80, 0x7B, 0xFF] := by decide

theorem witness_EncodeAppendsTheFrame :
    (target.Inv ∧ Admitted .producer target ∧ OnBytes target ∧ target.here.tailView = target.here.tail) ∧
    (let s := onTx stale .producer
     s.Inv ∧ Admitted .producer s ∧ OnBytes s ∧ s.here.tailView ≠ s.here.tail) := by
  refine ⟨?_, ?_⟩ <;> decide

theorem witness_EncodeOfARequestFaults : Admitted .producer target ∧ OnBytes target := by decide

end Sys2Proof.Tests
end

/-! ## The scope of an operation: one instance, its parameters kept

An operation, a micro-step and a reset act on one instance. `ChangesOnly id s t` says so for two states (decision D32), with the
parameters of that instance kept (R7); the lemmas below prove it once for each update of the state and each part of an operation. -/

namespace Sys2Proof.Machine

/-- From `s` to `t` nothing but the instance `id` and the environment's draws may have changed, and `id` has the parameters it had. -/
structure State.ChangesOnly (id : InstId) (s t : State) : Prop where
  queue  : t.queue = s.queue
  port   : t.port = s.port
  others : ∀ id', id' ≠ id → t.inst id' = s.inst id'
  params : (t.inst id).params = (s.inst id).params

/-- The state in which a part of an operation ends, if any, has changed from `s` at `id` only. -/
def Run.ChangesOnly {α : Type} (id : InstId) (s : State) : Run α → Prop
  | .ok _ t => s.ChangesOnly id t
  | .raised t => s.ChangesOnly id t
  | .stop _ => True

/-- The next state of an outcome, if any, has changed from `s` at `id` only. -/
def Out.ChangesOnly (id : InstId) (s : State) : Out → Prop
  | .next t => s.ChangesOnly id t
  | .fault _ => True
  | .refused _ => True

namespace State.ChangesOnly

theorem refl (id : InstId) (s : State) : s.ChangesOnly id s := ⟨rfl, rfl, fun _ _ => rfl, rfl⟩

theorem trans {id : InstId} {s t u : State} (h : s.ChangesOnly id t) (h' : t.ChangesOnly id u) : s.ChangesOnly id u :=
  ⟨h'.queue.trans h.queue, h'.port.trans h.port, fun id' hne => (h'.others id' hne).trans (h.others id' hne),
    h'.params.trans h.params⟩

/-- No instance has other parameters than before. -/
theorem params_inst {id : InstId} {s t : State} (h : s.ChangesOnly id t) (id' : InstId) :
    (t.inst id').params = (s.inst id').params := by
  by_cases hid : id' = id
  · exact hid ▸ h.params
  · rw [h.others id' hid]

/-- The update every other one is made of. -/
theorem setInst {id : InstId} {s : State} {J : Inst} (hJ : J.params = (s.inst id).params) :
    s.ChangesOnly id (s.setInst id J) :=
  ⟨State.setInst_queue s id J, State.setInst_port s id J, fun _ hne => State.inst_setInst_ne s J hne,
    by rw [State.inst_setInst, hJ]⟩

/-- An instance is replaced after the environment has made its draws. -/
theorem setInst_after {id : InstId} {s t : State} {J : Inst} (h : s.ChangesOnly id t) (hJ : J.params = (s.inst id).params) :
    s.ChangesOnly id (t.setInst id J) :=
  h.trans (setInst (hJ.trans h.params.symm))

theorem of_draw (id : InstId) (s : State) : s.ChangesOnly id (draw s).2 :=
  ⟨draw_queue s, draw_port s, fun id' _ => draw_inst s id', by rw [draw_inst]⟩

theorem of_observe (id : InstId) (p : Params) (view cur : Nat) (s : State) : s.ChangesOnly id (observe p view cur s).2 :=
  ⟨observe_queue p view cur s, observe_port p view cur s, fun id' _ => observe_inst p view cur s id', by rw [observe_inst]⟩

theorem of_rdHead (id : InstId) (s : State) : s.ChangesOnly id (rdHead id s).2 := (of_observe id _ _ _ s).setInst_after rfl

theorem of_rdTail (id : InstId) (s : State) : s.ChangesOnly id (rdTail id s).2 := (of_observe id _ _ _ s).setInst_after rfl

theorem of_lenByProducer (id : InstId) (s : State) : s.ChangesOnly id (lenByProducer id s).2 := of_rdTail id s

theorem of_lenByConsumer (id : InstId) (s : State) : s.ChangesOnly id (lenByConsumer id s).2 := of_rdHead id s

theorem of_lenBy (p : Port) (s : State) : s.ChangesOnly p.inst (lenBy p s).2 := by
  unfold lenBy
  cases p.role with
  | producer => exact of_lenByProducer p.inst s
  | consumer => exact of_lenByConsumer p.inst s

theorem of_setPRegs (id : InstId) (s : State) (R : PRegs) : s.ChangesOnly id (s.setPRegs id R) := setInst rfl

theorem of_setCRegs (id : InstId) (s : State) (R : CRegs) : s.ChangesOnly id (s.setCRegs id R) := setInst rfl

theorem of_setIter (id : InstId) (s : State) (k : Option Nat) : s.ChangesOnly id (s.setIter id k) := setInst rfl

theorem of_publishHead (id : InstId) (v : Nat) (s : State) : s.ChangesOnly id (publishHead id v s) := setInst rfl

theorem of_publishTail (id : InstId) (v : Nat) (s : State) : s.ChangesOnly id (publishTail id v s) := setInst rfl

theorem of_clearCursors (id : InstId) (s : State) : s.ChangesOnly id (clearCursors id s) := setInst rfl

theorem of_resetInst (id : InstId) (s : State) : s.ChangesOnly id (resetInst id s) := setInst rfl

theorem of_handOver (id : InstId) (m : Option Message) (s : State) : s.ChangesOnly id (handOver id m s) := by
  cases m with
  | none => exact refl id s
  | some _ => exact setInst rfl

theorem of_setRet (p : Port) (s : State) (r : Option Result) : s.ChangesOnly p.inst (s.setRet p r) :=
  ⟨State.setRet_queue s p r, State.setRet_port s p r, fun _ hne => State.inst_setRet_ne s p r hne, State.setRet_params s p r⟩

theorem of_returnWith (p : Port) (r : Result) (s : State) : s.ChangesOnly p.inst (returnWith p r s) :=
  ⟨returnWith_queue p r s, returnWith_port p r s, fun _ hne => returnWith_inst_ne p r s hne,
    by rw [returnWith_inst]; cases p.role <;> rfl⟩

/-- An operation that changed the instance of its port returns through that port. -/
theorem then_returnWith {s t : State} (h : s.ChangesOnly s.port.inst t) (r : Result) :
    s.ChangesOnly s.port.inst (returnWith t.port r t) := by
  rw [h.port]
  exact h.trans (of_returnWith s.port r t)

theorem of_goIdle (p : Port) (s : State) : s.ChangesOnly p.inst (goIdle p s) :=
  ⟨goIdle_queue p s, goIdle_port p s, fun _ hne => goIdle_inst_ne p s hne, by rw [goIdle_inst]; cases p.role <;> rfl⟩

theorem of_raise (p : Port) (e : ErrorClass) (s : State) : s.ChangesOnly p.inst (raise p e s) := by
  have hidle := (of_goIdle p s).trans (of_setRet p (goIdle p s) none)
  simp only [raise]
  split
  · exact hidle.trans (setInst rfl)
  · exact hidle

end State.ChangesOnly

open State.ChangesOnly

/-! ### Parts of operations -/

namespace Run.ChangesOnly

/-- A part that begins where another one ended. -/
theorem after {α : Type} {id : InstId} {s t : State} {r : Run α} (h : s.ChangesOnly id t) (hr : r.ChangesOnly id t) :
    r.ChangesOnly id s := by
  cases r with
  | ok a u => exact State.ChangesOnly.trans h hr
  | raised u => exact State.ChangesOnly.trans h hr
  | stop f => trivial

theorem bind {α β : Type} {id : InstId} {s : State} {r : Run α} {f : α → State → Run β}
    (hr : r.ChangesOnly id s) (hf : ∀ a t, (f a t).ChangesOnly id t) : (r.bind f).ChangesOnly id s := by
  cases r with
  | ok a t => exact after hr (hf a t)
  | raised t => exact hr
  | stop e => trivial

theorem ok {α : Type} (id : InstId) (a : α) (s : State) : (Run.ok a s).ChangesOnly id s := State.ChangesOnly.refl id s

theorem of_memRead (id : InstId) (p : Nat) (s : State) : (memRead id p s).ChangesOnly id s := by
  obtain ⟨-, h⟩ | ⟨-, -, ⟨v, -, h⟩ | ⟨-, h⟩⟩ | ⟨-, -, h⟩ := memRead_cases id p s <;> rw [h]
  · trivial
  · exact ok id v s
  · trivial
  · exact of_draw id s

theorem of_memWrite (id : InstId) (p : Nat) (v : Elem) (s : State) : (memWrite id p v s).ChangesOnly id s := by
  obtain ⟨-, h⟩ | ⟨-, h⟩ := memWrite_cases id p v s <;> rw [h]
  · trivial
  · exact State.ChangesOnly.setInst rfl

theorem of_pushRun (id : InstId) (v : Elem) (s : State) : (pushRun id v s).ChangesOnly id s := by
  dsimp only [pushRun]
  split
  · exact of_lenByProducer id s
  · exact after (of_lenByProducer id s) ((of_memWrite id _ v _).bind fun _ t => of_publishHead id _ t)

theorem of_loadRun (id : InstId) (vs : List Elem) (s : State) : (loadRun id vs s).ChangesOnly id s := by
  induction vs generalizing s with
  | nil => exact ok id () s
  | cons v vs ih => exact (of_pushRun id v s).bind fun _ t => ih t

theorem of_popRun (id : InstId) (s : State) : (popRun id s).ChangesOnly id s := by
  obtain ⟨-, -, h⟩ | ⟨-, -, h⟩ | ⟨-, h⟩ := popRun_cases id s <;> rw [h] <;> refine after (of_rdHead id s) ?_
  · exact of_raise ⟨id, .consumer⟩ _ _
  · exact ok id none _
  · exact (of_memRead id _ _).bind fun _ t => of_publishTail id _ t

theorem of_peekRun (id : InstId) (i : Nat) (s : State) : (peekRun id i s).ChangesOnly id s := by
  obtain ⟨-, h⟩ | ⟨-, h⟩ := peekRun_cases id i s <;> rw [h] <;> refine after (of_rdHead id s) ?_
  · exact of_raise ⟨id, .consumer⟩ _ _
  · exact of_memRead id _ _

theorem of_discardRun (id : InstId) (j : Nat) (s : State) : (discardRun id j s).ChangesOnly id s := by
  induction j generalizing s with
  | zero => exact ok id () s
  | succ j ih => exact (of_popRun id s).bind fun _ t => ih t

theorem of_iterRun (id : InstId) (k : Nat) (s : State) : (iterRun id k s).ChangesOnly id s := by
  dsimp only [iterRun]
  split <;> refine after (of_lenByConsumer id s) ?_
  · exact ok id none _
  · exact (of_peekRun id k _).bind fun _ t => of_setIter id t _

theorem of_peekByte (id : InstId) (j : Nat) (s : State) : (peekByte id j s).ChangesOnly id s :=
  (of_peekRun id j s).bind fun _ t => ok id _ t

theorem of_sumPeeks (id : InstId) (m j : Nat) (acc : Half) (s : State) : (sumPeeks id m j acc s).ChangesOnly id s := by
  induction m generalizing j acc s with
  | zero => exact ok id acc s
  | succ m ih => exact (of_peekByte id j s).bind fun _ t => ih _ _ t

theorem of_checkTrailer (id : InstId) (L : Byte) (s : State) : (checkTrailer id L s).ChangesOnly id s :=
  (of_sumPeeks id _ _ _ s).bind fun _ s1 => (of_peekByte id _ s1).bind fun _ s2 => (of_peekByte id _ s2).bind fun _ s3 =>
    ok id _ s3

theorem of_judgeFrame (id : InstId) (L : Byte) (s : State) : (judgeFrame id L s).ChangesOnly id s := by
  refine (of_peekByte id 1 s).bind fun b1 s1 => ?_
  split
  · exact ok id _ s1
  split
  · exact ok id _ s1
  · refine (of_checkTrailer id L s1).bind fun ck s2 => ?_
    cases ck with
    | none => exact ok id _ s2
    | some acc => exact ok id _ s2

theorem of_syncRun (id : InstId) (n : Nat) (s : State) : (syncRun id n s).ChangesOnly id s := by
  unfold syncRun
  split
  · exact ok id _ s
  refine (of_peekByte id 0 s).bind fun L s1 => ?_
  split
  · exact ok id _ s1
  split
  · exact ok id _ s1
  · exact of_judgeFrame id L s1

/-- The synchroniser on a fresh length snapshot, as `needsResync`, `decodeNext` and the frame rows begin. -/
theorem of_snapshot_syncRun (id : InstId) (s : State) :
    (syncRun id (lenByConsumer id s).1 (lenByConsumer id s).2).ChangesOnly id s :=
  after (of_lenByConsumer id s) (of_syncRun id _ _)

theorem of_resyncRun (id : InstId) (s : State) : (resyncRun id s).ChangesOnly id s :=
  (of_snapshot_syncRun id s).bind fun _ t => ok id _ t

theorem of_peekBytes (id : InstId) (m j : Nat) (s : State) : (peekBytes id m j s).ChangesOnly id s := by
  induction m generalizing j s with
  | zero => exact ok id [] s
  | succ m ih => exact (of_peekByte id j s).bind fun _ t => (ih _ t).bind fun _ u => ok id _ u

theorem of_acceptRun (id : InstId) (L b1 : Byte) (s : State) : (acceptRun id L b1 s).ChangesOnly id s := by
  unfold acceptRun
  split
  · exact ok id _ s
  split
  · exact ok id _ s
  split
  · exact ok id _ s
  · exact (of_peekBytes id _ _ s).bind fun _ t => ok id _ t

theorem of_decodeRun (id : InstId) (s : State) : (decodeRun id s).ChangesOnly id s := by
  refine (of_snapshot_syncRun id s).bind fun v t => ?_
  cases v with
  | malformed _ => exact ok id _ t
  | empty => exact ok id _ t
  | incomplete _ => exact ok id _ t
  | good L b1 _ => exact (of_acceptRun id L b1 t).bind fun _ u => ok id _ u

theorem of_serviceRun (id : InstId) (s : State) : (serviceRun id s).ChangesOnly id s :=
  (of_decodeRun id s).bind fun r t =>
    (after (of_handOver id r.1 t) (of_discardRun id _ _)).bind fun _ u => ok id _ u

theorem of_frameRun (id : InstId) (L b1 : Byte) (ck : Half) (r : Message × Nat) (s : State) :
    (frameRun id L b1 ck r s).ChangesOnly id s := by
  refine (of_snapshot_syncRun id s).bind fun v t => ?_
  split
  · exact (of_acceptRun id L b1 t).bind fun _ u => ok id _ u
  · exact ok id _ t

end Run.ChangesOnly

/-! ### Outcomes -/

namespace Out.ChangesOnly

/-- An outcome reached from a state that has itself changed at `id` only. -/
theorem after {id : InstId} {s t : State} {o : Out} (h : s.ChangesOnly id t) (ho : Out.ChangesOnly id t o) :
    Out.ChangesOnly id s o := by
  cases o with
  | next u => exact State.ChangesOnly.trans h ho
  | fault f => trivial
  | refused r => trivial

/-- No instance has other parameters in the next state. -/
theorem params_inst {id : InstId} {s t : State} {o : Out} (ho : Out.ChangesOnly id s o) (h : o = .next t) (id' : InstId) :
    (t.inst id').params = (s.inst id').params := by
  subst h
  exact State.ChangesOnly.params_inst ho id'

/-- A guard that refuses. -/
theorem ite_refused {id : InstId} {s : State} {c : Prop} [Decidable c] {r : Refusal} {o : Out}
    (ho : Out.ChangesOnly id s o) : Out.ChangesOnly id s (if c then .refused r else o) := by
  split
  · trivial
  · exact ho

theorem of_finish {α : Type} {s : State} {r : Run α} (result : α → Result) (hr : r.ChangesOnly s.port.inst s) :
    Out.ChangesOnly s.port.inst s (finish r result) := by
  cases r with
  | ok a t => exact then_returnWith hr (result a)
  | raised t => exact hr
  | stop f => trivial

theorem of_invoked {w : Who} {s : State} {body : State → Out} (hbody : ∀ t, Out.ChangesOnly t.port.inst t (body t)) :
    Out.ChangesOnly s.port.inst s (invoked w s body) := by
  unfold invoked
  split
  · trivial
  · have h := hbody (s.setRet s.port none)
    rw [State.setRet_port] at h
    exact after (of_setRet s.port s none) h

theorem of_invokedOnBytes {w : Who} {s : State} {body : State → Out} (hbody : ∀ t, Out.ChangesOnly t.port.inst t (body t)) :
    Out.ChangesOnly s.port.inst s (invokedOnBytes w s body) :=
  of_invoked fun t => ite_refused (hbody t)

/-! ### Whole operations -/

theorem of_emitFrame (frame : List Byte) (s : State) : Out.ChangesOnly s.port.inst s (emitFrame frame s) :=
  of_invokedOnBytes fun t => of_finish _ (Run.ChangesOnly.of_loadRun t.port.inst _ t)

theorem of_lengthQuery (result : Nat → Result) (s : State) : Out.ChangesOnly s.port.inst s (lengthQuery result s) :=
  of_invoked fun t => after (of_lenBy t.port t) (of_returnWith t.port _ _)

theorem of_acceptFrame (L b1 : Byte) (payload : List Byte) (r : Message × Nat) (s : State) :
    Out.ChangesOnly s.port.inst s (acceptFrame L b1 payload r s) := by
  refine of_invokedOnBytes fun t => ?_
  have hrun := Run.ChangesOnly.of_frameRun t.port.inst L b1 (checksumOf (L :: b1 :: payload)) r t
  split
  next u hu => rw [hu] at hrun; exact then_returnWith hrun _
  next => trivial
  next u hu => rwa [hu] at hrun
  next => trivial

theorem of_execEncode (m : Message) (target : InstId) (s : State) :
    Out.ChangesOnly s.port.inst s (execEncode m target s) := by
  refine of_invokedOnBytes fun t => ?_
  split
  · trivial
  · next htarget =>
    obtain rfl : t.port.inst = target := not_not.mp htarget
    split
    · exact of_raise t.port _ t
    · exact of_finish _ (Run.ChangesOnly.of_loadRun _ _ t)

theorem of_execIterNew (s : State) : Out.ChangesOnly s.port.inst s (execIterNew s) :=
  of_invoked fun t => after (of_setIter t.port.inst t _) (of_returnWith t.port _ _)

theorem of_execIterNext (s : State) : Out.ChangesOnly s.port.inst s (execIterNext s) := by
  refine of_invoked fun t => ?_
  split
  · trivial
  · exact of_finish _ (Run.ChangesOnly.of_iterRun t.port.inst _ t)

theorem of_execChecksum (bytes : List Byte) (s : State) : Out.ChangesOnly s.port.inst s (execChecksum bytes s) :=
  of_invoked fun t => of_returnWith t.port _ t

theorem of_execClear (s : State) : Out.ChangesOnly s.port.inst s (execClear s) :=
  of_invoked fun t => ite_refused (after (of_clearCursors t.port.inst t) (of_returnWith t.port _ _))

/-- A whole operation changes the instance of its port only. -/
theorem of_exec (i : Instr) (s : State) : Out.ChangesOnly s.port.inst s (exec i s) := by
  cases i with
  | fSet L a payload => exact of_acceptFrame _ _ _ _ s
  | fDiscover a => exact of_acceptFrame _ _ _ _ s
  | fType a => exact of_acceptFrame _ _ _ _ s
  | fValue a => exact of_acceptFrame _ _ _ _ s
  | eDiscoverResp a => exact of_emitFrame _ s
  | eTypeResp a k w => exact of_emitFrame _ s
  | eValueRespS a v => exact of_emitFrame _ s
  | eValueRespL a v => exact of_emitFrame _ s
  | push v => exact of_invoked fun t => ite_refused (of_finish _ (Run.ChangesOnly.of_pushRun t.port.inst v t))
  | pop => exact of_invoked fun t => of_finish _ (Run.ChangesOnly.of_popRun t.port.inst t)
  | len => exact of_lengthQuery _ s
  | isFull => exact of_lengthQuery (fun n => .bit (fullAt s.here.params.N n)) s
  | isEmpty => exact of_lengthQuery (fun n => .bit (emptyAt n)) s
  | space => exact of_lengthQuery (fun n => .num (spaceAt s.here.params.N n)) s
  | peek j => exact of_invoked fun t => ite_refused (of_finish _ (Run.ChangesOnly.of_peekRun t.port.inst j t))
  | clear => exact of_execClear s
  | load vs => exact of_invoked fun t => ite_refused (of_finish _ (Run.ChangesOnly.of_loadRun t.port.inst vs t))
  | iterNew => exact of_execIterNew s
  | iterNext => exact of_execIterNext s
  | checksum bytes => exact of_execChecksum bytes s
  | needsResync => exact of_invokedOnBytes fun t => of_finish _ (Run.ChangesOnly.of_resyncRun t.port.inst t)
  | decodeNext => exact of_invokedOnBytes fun t => of_finish _ (Run.ChangesOnly.of_decodeRun t.port.inst t)
  | service => exact of_invokedOnBytes fun t => of_finish _ (Run.ChangesOnly.of_serviceRun t.port.inst t)
  | encode m target => exact of_execEncode m target s

/-! ### Micro-steps -/

theorem of_nextPush (id : InstId) (vs : List Elem) (s : State) : Out.ChangesOnly id s (nextPush id vs s) := by
  cases vs with
  | nil => exact of_returnWith ⟨id, .producer⟩ _ s
  | cons v rest => exact of_setPRegs id s _

theorem of_tickProducer (id : InstId) (s : State) : Out.ChangesOnly id s (tickProducer id s) := by
  dsimp only [tickProducer]
  cases (s.inst id).prod.regs.ppc with
  | idle => exact State.ChangesOnly.refl id s
  | P1 => exact of_setPRegs id s _
  | P2 => exact State.ChangesOnly.trans (of_rdTail id s) (of_setPRegs id _ _)
  | P3 =>
    dsimp only
    split
    · exact of_nextPush id _ s
    · exact of_setPRegs id s _
  | P4 =>
    have hwrite := Run.ChangesOnly.of_memWrite id (s.inst id).prod.regs.p_h (s.inst id).prod.regs.p_v s
    dsimp only
    split
    next _ t ht => rw [ht] at hwrite; exact State.ChangesOnly.trans hwrite (of_setPRegs id t _)
    next t ht => rwa [ht] at hwrite
    next => trivial
  | P5 => exact after (of_publishHead id _ s) (of_nextPush id _ _)
  | L1 => exact of_setPRegs id s _
  | L2 => exact State.ChangesOnly.trans (of_rdTail id s) (of_returnWith ⟨id, .producer⟩ _ _)

theorem of_goC (id : InstId) (R : CRegs) (s : State) : Out.ChangesOnly id s (goC id R s) := of_setCRegs id s R

theorem of_returnC (id : InstId) (r : Result) (s : State) : Out.ChangesOnly id s (returnC id r s) :=
  of_returnWith ⟨id, .consumer⟩ r s

theorem of_decided (id : InstId) (R : CRegs) (m : Option Message) (c : Nat) (s : State) :
    Out.ChangesOnly id s (decided id R m c s) := by
  unfold decided
  split
  · split
    · exact after (of_handOver id m s) (of_returnC id _ _)
    · exact after (of_handOver id m s) (of_goC id _ _)
  all_goals exact of_returnC id _ s

theorem of_lenDone (id : InstId) (R : CRegs) (n : Nat) (s : State) : Out.ChangesOnly id s (lenDone id R n s) := by
  unfold lenDone
  cases R.task with
  | iterNext =>
    dsimp only
    split
    · exact of_returnC id _ s
    · split
      · exact of_returnC id _ s
      · exact of_goC id _ s
  | needsResync | decodeNext | service => dsimp only; split <;> exact of_goC id _ s
  | _ => exact of_returnC id _ s

theorem of_codecByte (id : InstId) (R : CRegs) (b : Byte) (s : State) : Out.ChangesOnly id s (codecByte id R b s) := by
  unfold codecByte
  cases R.phase with
  | S1 | S3 => dsimp only; split <;> exact of_goC id _ s
  | S4 =>
    dsimp only
    iterate 4
      split
      · exact of_goC id _ s
    exact of_goC id _ s
  | DEC =>
    dsimp only
    split
    · exact of_goC id _ s
    · exact of_decided id _ _ _ s
  | S0 | S2 | S5 | DONE => exact of_goC id _ s

theorem of_peekDone (id : InstId) (R : CRegs) (v : Elem) (s : State) : Out.ChangesOnly id s (peekDone id R v s) := by
  unfold peekDone
  cases R.task with
  | iterNext => exact after (of_setIter id s _) (of_returnC id _ _)
  | needsResync | decodeNext | service => exact of_codecByte id _ _ s
  | _ => exact of_returnC id _ s

theorem of_popDone (id : InstId) (R : CRegs) (v : Option Elem) (s : State) : Out.ChangesOnly id s (popDone id R v s) := by
  unfold popDone
  cases R.task with
  | service =>
    dsimp only
    split
    · exact of_returnC id _ s
    · exact of_goC id _ s
  | _ => exact of_returnC id _ s

theorem of_localStep (id : InstId) (R : CRegs) (s : State) : Out.ChangesOnly id s (localStep id R s) := by
  unfold localStep
  cases R.phase with
  | S2 => dsimp only; split <;> exact of_goC id _ s
  | DONE =>
    cases R.task with
    | decodeNext | service =>
      dsimp only
      split
      · exact of_decided id _ _ _ s
      · exact of_goC id _ s
    | _ => exact of_returnC id _ s
  | DEC =>
    dsimp only
    iterate 5
      split
      · exact of_decided id _ _ _ s
    exact of_goC id _ s
  | S0 | S1 | S3 | S4 | S5 => exact of_goC id _ s

theorem of_tickConsumer (id : InstId) (s : State) : Out.ChangesOnly id s (tickConsumer id s) := by
  dsimp only [tickConsumer]
  cases (s.inst id).cons.regs.cpc with
  | idle => exact State.ChangesOnly.refl id s
  | C1 | L1 => exact of_goC id _ s
  | C2 | K1 => exact after (of_rdHead id s) (of_goC id _ _)
  | C3 =>
    dsimp only
    split
    · cases (s.inst id).params.popEmptyPolicy with
      | abort => exact of_raise ⟨id, .consumer⟩ _ s
      | noElement => exact of_popDone id _ _ s
    · exact of_goC id _ s
  | C4 =>
    have hread := Run.ChangesOnly.of_memRead id (s.inst id).cons.regs.c_t s
    dsimp only
    split
    next _ t ht => rw [ht] at hread; exact after hread (of_goC id _ t)
    next t ht => rwa [ht] at hread
    next => trivial
  | C5 => exact after (of_publishTail id _ s) (of_popDone id _ _ _)
  | K2 =>
    dsimp only
    split
    · exact of_raise ⟨id, .consumer⟩ _ s
    · exact of_goC id _ s
  | K3 =>
    have hread := Run.ChangesOnly.of_memRead id
      (slotIndex (s.inst id).params.N (s.inst id).cons.regs.c_t (s.inst id).cons.regs.c_i) s
    dsimp only
    split
    next v t ht => rw [ht] at hread; exact after hread (of_peekDone id _ v t)
    next t ht => rwa [ht] at hread
    next => trivial
  | L2 => exact after (of_rdHead id s) (of_lenDone id _ _ _)
  | CL => exact after (of_clearCursors id s) (of_returnC id _ _)
  | X => exact of_localStep id _ s

/-- A micro-step changes the instance of its agent only. -/
theorem of_tick (p : Port) (s : State) : Out.ChangesOnly p.inst s (tick p s) := by
  unfold tick
  cases p.role with
  | producer => exact of_tickProducer p.inst s
  | consumer => exact of_tickConsumer p.inst s

/-! ### Starts of operations -/

theorem of_beginPushes (id : InstId) (vs : List Elem) (s : State) : Out.ChangesOnly id s (beginPushes id vs s) :=
  after (of_setPRegs id s _) (of_nextPush id vs _)

theorem of_beginQuery (pt : PTask) (ct : CTask) (s : State) : Out.ChangesOnly s.port.inst s (beginQuery pt ct s) := by
  refine of_invoked fun t => ?_
  split
  · exact of_setPRegs t.port.inst t _
  · exact of_goC t.port.inst _ t

theorem of_beginFrame (id : InstId) (frame : List Byte) (s : State) : Out.ChangesOnly id s (beginFrame id frame s) := by
  unfold beginFrame
  split
  · exact of_returnWith ⟨id, .producer⟩ _ s
  · exact of_setPRegs id s _

theorem of_beginEncode (m : Message) (target : InstId) (s : State) :
    Out.ChangesOnly s.port.inst s (begin (.encode m target) s) := by
  unfold begin
  refine of_invokedOnBytes fun t => ?_
  split
  · trivial
  · next htarget =>
    obtain rfl : t.port.inst = target := not_not.mp htarget
    split
    · exact of_raise t.port _ t
    · exact of_beginFrame _ _ t

theorem of_beginIterNext (s : State) : Out.ChangesOnly s.port.inst s (begin .iterNext s) := by
  unfold begin
  refine of_invoked fun t => ?_
  split
  · trivial
  · exact of_goC t.port.inst _ t

/-- The start of an operation changes the instance of its port only. -/
theorem of_begin (i : Instr) (s : State) : Out.ChangesOnly s.port.inst s (begin i s) := by
  unfold begin
  cases i with
  | fSet L a payload => exact of_acceptFrame _ _ _ _ s
  | fDiscover a => exact of_acceptFrame _ _ _ _ s
  | fType a => exact of_acceptFrame _ _ _ _ s
  | fValue a => exact of_acceptFrame _ _ _ _ s
  | eDiscoverResp a => exact of_invokedOnBytes fun t => of_beginFrame t.port.inst _ t
  | eTypeResp a k w => exact of_invokedOnBytes fun t => of_beginFrame t.port.inst _ t
  | eValueRespS a v => exact of_invokedOnBytes fun t => of_beginFrame t.port.inst _ t
  | eValueRespL a v => exact of_invokedOnBytes fun t => of_beginFrame t.port.inst _ t
  | push v => exact of_invoked fun t => ite_refused (of_beginPushes t.port.inst _ t)
  | pop => exact of_invoked fun t => of_goC t.port.inst _ t
  | len => exact of_beginQuery _ _ s
  | isFull => exact of_beginQuery _ _ s
  | isEmpty => exact of_beginQuery _ _ s
  | space => exact of_beginQuery _ _ s
  | peek j => exact of_invoked fun t => ite_refused (of_goC t.port.inst _ t)
  | clear => exact of_invoked fun t => ite_refused (of_goC t.port.inst _ t)
  | load vs => exact of_invoked fun t => ite_refused (of_beginPushes t.port.inst vs t)
  | iterNew => exact of_execIterNew s
  | iterNext => exact of_beginIterNext s
  | checksum bytes => exact of_execChecksum bytes s
  | needsResync => exact of_invokedOnBytes fun t => of_goC t.port.inst _ t
  | decodeNext => exact of_invokedOnBytes fun t => of_goC t.port.inst _ t
  | service => exact of_invokedOnBytes fun t => of_goC t.port.inst _ t
  | encode m target => exact of_beginEncode m target s

end Out.ChangesOnly

/-! ## Steps -/

/-- A step takes the oldest input. -/
theorem step_of_queue {s : State} {e : Event} {q : List Event} (h : s.queue = e :: q) :
    step s = runEvent e { s with queue := q } := by
  simp only [step, h]

theorem step_of_queue_nil {s : State} (h : s.queue = []) : step s = .next s := by
  simp only [step, h]

/-- A command is one operation with no bytes after it. -/
theorem decodeCommand_of_decodeOp {cmd : List Byte} {i : Instr} (h : decodeOp cmd = .ok i []) :
    decodeCommand cmd = .ok i [] := by
  simp only [decodeCommand, h]

theorem runCommand_of_decodeOp {cmd : List Byte} {i : Instr} (h : decodeOp cmd = .ok i []) (run : Instr → State → Out)
    (s : State) : runCommand cmd run s = run i s := by
  simp only [runCommand, decodeCommand_of_decodeOp h]

/-- A command is refused, or one instruction runs. -/
theorem runCommand_eq_next {cmd : List Byte} {run : Instr → State → Out} {s t : State} (h : runCommand cmd run s = .next t) :
    ∃ i, run i s = .next t := by
  unfold runCommand at h
  split at h
  next i _ _ => exact ⟨i, h⟩
  next => cases h

/-- An input keeps the parameters of both instances. -/
theorem runEvent_params {e : Event} {s t : State} (h : runEvent e s = .next t) (id : InstId) :
    (t.inst id).params = (s.inst id).params := by
  cases e with
  | invoke p cmd =>
    obtain ⟨i, hi⟩ := runCommand_eq_next h
    simpa using (Out.ChangesOnly.of_exec i _).params_inst hi id
  | start p cmd =>
    obtain ⟨i, hi⟩ := runCommand_eq_next h
    simpa using (Out.ChangesOnly.of_begin i _).params_inst hi id
  | tick p => exact (Out.ChangesOnly.of_tick p s).params_inst h id
  | reset id' =>
    cases h
    exact (State.ChangesOnly.of_resetInst id' s).params_inst id

/-- Settles O8: every input acts on one instance only and keeps its parameters (`State.ChangesOnly`). -/
theorem parametersNeverChange : Obligations.ParametersNeverChange := by
  intro s t id h
  cases hq : s.queue with
  | nil =>
    rw [step_of_queue_nil hq] at h
    cases h
    rfl
  | cons e q =>
    rw [step_of_queue hq] at h
    simpa using runEvent_params h id

/-- Settles O5: the input taken, `runEvent` does what its kind says; a decoded command is the instruction it runs. -/
theorem stepRunsTheDecodedInstruction : Obligations.StepRunsTheDecodedInstruction := by
  intro s q p id cmd i
  refine ⟨fun hcmd => ⟨fun hq => ?_, fun hq => ?_⟩, fun hq => ?_, fun hq => ?_, step_of_queue_nil⟩
  · rw [step_of_queue hq]
    exact runCommand_of_decodeOp hcmd exec _
  · rw [step_of_queue hq]
    exact runCommand_of_decodeOp hcmd begin _
  · rw [step_of_queue hq, runEvent]
  · rw [step_of_queue hq, runEvent]

end Sys2Proof.Machine

/-! ## What an operation does to its instance

Every operation is a series of elementary updates of one instance. `OpRules` lists them, with what is known where the model makes
each of them; the lemmas after it follow the model's operations once, for any predicates that obey the rules. The invariant, the
fault register and the tests before an operation are three uses of it. -/

namespace Sys2Proof.Machine

/-! ### The instance after an update -/

@[simp] theorem State.inst_queue_port (s : State) (q : List Event) (p : Port) (id : InstId) :
    ({ s with queue := q, port := p } : State).inst id = s.inst id := by
  cases id <;> rfl

@[simp] theorem State.inst_setPRegs (s : State) (id : InstId) (R : PRegs) :
    (s.setPRegs id R).inst id = { s.inst id with prod := { (s.inst id).prod with regs := R } } := by
  simp [State.setPRegs]

@[simp] theorem State.inst_setCRegs (s : State) (id : InstId) (R : CRegs) :
    (s.setCRegs id R).inst id = { s.inst id with cons := { (s.inst id).cons with regs := R } } := by
  simp [State.setCRegs]

@[simp] theorem State.inst_setIter (s : State) (id : InstId) (k : Option Nat) :
    (s.setIter id k).inst id = { s.inst id with cons := { (s.inst id).cons with k := k } } := by
  simp [State.setIter]

@[simp] theorem inst_publishHead (id : InstId) (v : Nat) (s : State) :
    (publishHead id v s).inst id = { s.inst id with head := v } := by
  simp [publishHead]

@[simp] theorem inst_publishTail (id : InstId) (v : Nat) (s : State) :
    (publishTail id v s).inst id = { s.inst id with tail := v } := by
  simp [publishTail]

@[simp] theorem inst_clearCursors (id : InstId) (s : State) :
    (clearCursors id s).inst id = { s.inst id with head := 0, tail := 0, headView := 0, tailView := 0 } := by
  simp [clearCursors]

/-- A read of a slot has no side effect on an instance (R57). -/
theorem memRead_eq_ok {id : InstId} {p : Nat} {s t : State} {v : Elem} (h : memRead id p s = .ok v t) (id' : InstId) :
    t.inst id' = s.inst id' := by
  obtain ⟨-, hr⟩ | ⟨-, -, ⟨w, -, hr⟩ | ⟨-, hr⟩⟩ | ⟨-, -, hr⟩ := memRead_cases id p s <;> rw [hr] at h <;> cases h
  · rfl
  · exact draw_inst s id'

theorem memRead_ne_raised (id : InstId) (p : Nat) (s t : State) : memRead id p s ≠ .raised t := by
  obtain ⟨-, hr⟩ | ⟨-, -, ⟨w, -, hr⟩ | ⟨-, hr⟩⟩ | ⟨-, -, hr⟩ := memRead_cases id p s <;> rw [hr] <;> exact nofun

/-! ### The rules -/

/-- The codes that are ever stored in a fault register (R27, R215). -/
def ErrorClass.Stored (e : ErrorClass) : Prop := errorCode e = 4 ∨ errorCode e = 5 ∨ errorCode e = 6

/-- `v` is a value a cursor held since it was `view`, on its way to `cur` (R58). -/
def OnTheWay (N view cur v : Nat) : Prop := view < N → cur < N → ∃ j ≤ forward N view cur, v = (view + j) % N

/-- The elementary updates an operation is made of. `P role` is kept by each update an agent of that role makes in the middle of
its operation; `Q` holds when it stops there. `A` stands for the invariant's facts about the agents' registers: what an update needs
of them is a premise under `A`, so that rules about any state take `False` for it. -/
structure OpRules (A : Prop) (P : Role → Inst → Prop) (Q : Inst → Prop) : Prop where
  tailSeen {I : Inst} {v : Nat} : P .producer I → OnTheWay I.params.N I.tailView I.tail v → P .producer { I with tailView := v }
  slotWritten {I : Inst} {p : Nat} {v : Elem} : P .producer I → p < I.params.N → (A → v < 2 ^ I.params.W) →
    P .producer { I with slots := I.slots.write p v }
  headPublished {I : Inst} {h : Nat} : P .producer I →
    (A → h = inc I.params.N I.head ∧ fullAt I.params.N I.producerLength = false ∧ (I.slots.read I.head).isSome = true) →
    P .producer { I with head := h }
  headSeen {I : Inst} {v : Nat} : P .consumer I → OnTheWay I.params.N I.headView I.head v → P .consumer { I with headView := v }
  tailPublished {I : Inst} {t : Nat} : P .consumer I → (A → t = inc I.params.N I.tail ∧ I.headView ≠ I.tail) →
    P .consumer { I with tail := t }
  cleared {I : Inst} : P .consumer I → (A → prodBusy I = false) →
    P .consumer { I with head := 0, tail := 0, headView := 0, tailView := 0 }
  iterSet {I : Inst} {k : Nat} : P .consumer I → (A → 0 < I.params.N → k < I.params.N) →
    P .consumer { I with cons := { I.cons with k := some k } }
  faultTaken {role : Role} {I : Inst} {e : ErrorClass} : P role I → I.fault = 0 → e.Stored →
    P role { I with fault := errorCode e }
  prodFree {I : Inst} (R : PRegs) (r : Option Result) : P .producer I → P .producer { I with prod := ⟨R, r⟩ }
  consFree {I : Inst} (R : CRegs) (r : Option Result) (m : Option Message) : P .consumer I →
    P .consumer { I with cons := ⟨R, I.cons.k, r, m⟩ }
  prodDone {I : Inst} : P .producer I → (A → I.producerOk = true) → Q I
  consDone {I : Inst} : P .consumer I → (A → I.consumerOk = true) → Q I

/-- How a part of an operation on `id` leaves the instance: `P` where it goes on, `Q` where it faulted. -/
def Run.Ensures {α : Type} (id : InstId) (P Q : Inst → Prop) : Run α → Prop
  | .ok _ t => P (t.inst id)
  | .raised t => Q (t.inst id)
  | .stop _ => True

/-- The instance `id` of the next state, if any, satisfies `Q`. -/
def Out.Ensures (id : InstId) (Q : Inst → Prop) : Out → Prop
  | .next t => Q (t.inst id)
  | .fault _ => True
  | .refused _ => True

theorem Run.Ensures.bind {α β : Type} {id : InstId} {P P' Q : Inst → Prop} {r : Run α} {f : α → State → Run β}
    (hr : r.Ensures id P Q) (hf : ∀ a t, P (t.inst id) → (f a t).Ensures id P' Q) : (r.bind f).Ensures id P' Q := by
  cases r with
  | ok a t => exact hf a t hr
  | raised t => exact hr
  | stop e => trivial

/-- A part whose value is put into another form. -/
theorem Run.Ensures.then_ok {α β : Type} {id : InstId} {P Q : Inst → Prop} {r : Run α} (hr : r.Ensures id P Q) (b : α → β) :
    (r.bind fun a t => .ok (b a) t).Ensures id P Q :=
  hr.bind fun _ _ ht => ht

/-- A guard that refuses. -/
theorem Out.Ensures.ite_refused {id : InstId} {Q : Inst → Prop} {c : Prop} [Decidable c] {r : Refusal} {o : Out}
    (ho : ¬c → o.Ensures id Q) : Out.Ensures id Q (if c then .refused r else o) := by
  split
  next => trivial
  next hc => exact ho hc

/-- A part of an operation keeps the parameters (R7), which what comes after it may need. -/
theorem Run.Ensures.and_params {α : Type} {id : InstId} {P Q : Inst → Prop} {s : State} {r : Run α} (hr : r.Ensures id P Q)
    (hc : r.ChangesOnly id s) : r.Ensures id (fun I => P I ∧ I.params = (s.inst id).params) Q := by
  cases r with
  | ok a t => exact ⟨hr, hc.params⟩
  | raised t => exact hr
  | stop f => trivial

/-- The steps at which the CONSUMER has read no cursor yet, or computes on its own registers. -/
def CPc.fresh : CPc → Bool
  | .idle | .C1 | .K1 | .L1 | .X => true
  | .C2 | .C3 | .C4 | .C5 | .K2 | .K3 | .L2 | .CL => false

theorem consumerOk_of_fresh {I : Inst} (h : I.cons.regs.cpc.fresh = true) : I.consumerOk = true := by
  dsimp only [Inst.consumerOk]
  cases hcpc : I.cons.regs.cpc with
  | idle | C1 | K1 | L1 | X => rfl
  | C2 | C3 | C4 | C5 | K2 | K3 | L2 | CL => rw [hcpc] at h; cases h

theorem producerOk_of_idle {I : Inst} (h : I.prod.regs = PRegs.idle) : I.producerOk = true := by
  simp [Inst.producerOk, h, PRegs.idle]

theorem permits_producer {p : Port} (h : permits .producer p = true) : p.role = .producer := by simpa [permits] using h

theorem permits_consumer {p : Port} (h : permits .consumer p = true) : p.role = .consumer := by simpa [permits] using h

theorem permits_codec {p : Port} (h : permits .codec p = true) : p.role = .consumer := by
  obtain rfl : p = ⟨.rx, .consumer⟩ := by simpa [permits] using h
  rfl

namespace OpRules

variable {A : Prop} {P : Role → Inst → Prop} {Q : Inst → Prop} {id : InstId} {s : State}

/-! ### Reads of a cursor, the end of an operation -/

theorem rdTail_keeps (h : OpRules A P Q) (hs : P .producer (s.inst id)) : P .producer ((rdTail id s).2.inst id) := by
  rw [rdTail_inst]
  exact h.tailSeen hs (observe_between _ _ _ s)

theorem rdHead_keeps (h : OpRules A P Q) (hs : P .consumer (s.inst id)) : P .consumer ((rdHead id s).2.inst id) := by
  rw [rdHead_inst]
  exact h.headSeen hs (observe_between _ _ _ s)

theorem lenBy_keeps (h : OpRules A P Q) {p : Port} (hs : P p.role (s.inst p.inst)) :
    P p.role ((lenBy p s).2.inst p.inst) := by
  obtain ⟨id, role⟩ := p
  cases role with
  | producer => exact h.rdTail_keeps hs
  | consumer => exact h.rdHead_keeps hs

theorem setRet_keeps (h : OpRules A P Q) {p : Port} (hs : P p.role (s.inst p.inst)) (r : Option Result) :
    P p.role ((s.setRet p r).inst p.inst) := by
  rw [State.inst_setRet]
  obtain ⟨id, role⟩ := p
  cases role with
  | producer => exact h.prodFree _ r hs
  | consumer => exact h.consFree _ r _ hs

theorem handOver_keeps (h : OpRules A P Q) (hs : P .consumer (s.inst id)) (m : Option Message) :
    P .consumer ((handOver id m s).inst id) := by
  cases m with
  | none => exact hs
  | some m =>
    simp only [handOver, State.setSink, State.inst_setInst]
    exact h.consFree _ _ _ hs

theorem prodIdle_done (h : OpRules A P Q) {I : Inst} (hI : P .producer I) (r : Option Result) :
    Q { I with prod := ⟨PRegs.idle, r⟩ } :=
  h.prodDone (h.prodFree _ r hI) fun _ => producerOk_of_idle rfl

theorem consIdle_done (h : OpRules A P Q) {I : Inst} (hI : P .consumer I) (r : Option Result) :
    Q { I with cons := { I.cons with regs := CRegs.idle, ret := r } } :=
  h.consDone (h.consFree _ r _ hI) fun _ => consumerOk_of_fresh rfl

theorem returnWith_done (h : OpRules A P Q) {p : Port} (hs : P p.role (s.inst p.inst)) (r : Result) :
    Q ((returnWith p r s).inst p.inst) := by
  rw [returnWith_inst]
  obtain ⟨id, role⟩ := p
  cases role with
  | producer => exact h.prodIdle_done hs _
  | consumer => exact h.consIdle_done hs _

theorem raise_done (h : OpRules A P Q) {p : Port} {e : ErrorClass} (he : e.Stored) (hs : P p.role (s.inst p.inst)) :
    Q ((raise p e s).inst p.inst) := by
  have hfault : P p.role
      { s.inst p.inst with fault := if (s.inst p.inst).fault = 0 then errorCode e else (s.inst p.inst).fault } := by
    split
    next h0 => exact h.faultTaken hs h0 he
    next => exact hs
  rw [raise_inst]
  obtain ⟨id, role⟩ := p
  cases role with
  | producer => exact h.prodIdle_done hfault _
  | consumer => exact h.consIdle_done hfault _

/-! ### Parts of operations -/

theorem pushRun_ensures (h : OpRules A P Q) {v : Elem} (hv : A → v < 2 ^ (s.inst id).params.W)
    (hs : P .producer (s.inst id)) : (pushRun id v s).Ensures id (P .producer) Q := by
  have hseen := h.rdTail_keeps hs
  dsimp only [pushRun]
  split
  next => exact hseen
  next hfull =>
    obtain ⟨-, hw⟩ | ⟨hp, hw⟩ := memWrite_cases id (s.inst id).head v (lenByProducer id s).2 <;> rw [hw]
    · trivial
    · simp only [Run.bind_ok, Run.Ensures, inst_publishHead, State.inst_setInst]
      refine h.headPublished (h.slotWritten hseen hp fun hA => ?_) fun _ => ⟨?_, ?_, ?_⟩
      · rw [rdTail_inst]; exact hv hA
      · rw [rdTail_inst]
      · simpa [Inst.producerLength, rdTail_inst, lenByProducer] using hfull
      · simp [rdTail_inst]

theorem loadRun_ensures (h : OpRules A P Q) {vs : List Elem} (hvs : A → ∀ v ∈ vs, v < 2 ^ (s.inst id).params.W)
    (hs : P .producer (s.inst id)) : (loadRun id vs s).Ensures id (P .producer) Q := by
  induction vs generalizing s with
  | nil => exact hs
  | cons v vs ih =>
    have hpush := h.pushRun_ensures (fun hA => hvs hA v List.mem_cons_self) hs
    refine (hpush.and_params (Run.ChangesOnly.of_pushRun id v s)).bind fun _ t ⟨ht, hparams⟩ => ih (fun hA w hw => ?_) ht
    rw [hparams]
    exact hvs hA w (List.mem_cons_of_mem v hw)

theorem memRead_ensures {p : Nat} {s : State} {P Q : Inst → Prop} (hs : P (s.inst id)) : (memRead id p s).Ensures id P Q := by
  cases hr : memRead id p s with
  | ok v t => simpa [Run.Ensures, memRead_eq_ok hr] using hs
  | raised t => exact absurd hr (memRead_ne_raised id p s t)
  | stop f => trivial

theorem popRun_ensures (h : OpRules A P Q) (hs : P .consumer (s.inst id)) :
    (popRun id s).Ensures id (P .consumer) Q := by
  have hseen := h.rdHead_keeps hs
  obtain ⟨-, -, hr⟩ | ⟨-, -, hr⟩ | ⟨hne, hr⟩ := popRun_cases id s <;> rw [hr]
  · exact h.raise_done (p := ⟨id, .consumer⟩) (.inl rfl) hseen
  · exact hseen
  · refine (memRead_ensures (P := (· = (rdHead id s).2.inst id)) rfl).bind fun v t ht => ?_
    simp only [Run.Ensures, inst_publishTail, ht]
    exact h.tailPublished hseen fun _ => by simpa [rdHead_inst] using hne

theorem peekRun_ensures (h : OpRules A P Q) (i : Nat) (hs : P .consumer (s.inst id)) :
    (peekRun id i s).Ensures id (P .consumer) Q := by
  have hseen := h.rdHead_keeps hs
  obtain ⟨-, hr⟩ | ⟨-, hr⟩ := peekRun_cases id i s <;> rw [hr]
  · exact h.raise_done (p := ⟨id, .consumer⟩) (.inr (.inl rfl)) hseen
  · exact memRead_ensures hseen

theorem discardRun_ensures (h : OpRules A P Q) (j : Nat) (hs : P .consumer (s.inst id)) :
    (discardRun id j s).Ensures id (P .consumer) Q := by
  induction j generalizing s with
  | zero => exact hs
  | succ j ih => exact (h.popRun_ensures hs).bind fun _ t ht => ih ht

theorem iterRun_ensures (h : OpRules A P Q) (k : Nat) (hs : P .consumer (s.inst id)) :
    (iterRun id k s).Ensures id (P .consumer) Q := by
  have hseen := h.rdHead_keeps hs
  dsimp only [iterRun]
  split
  next => exact hseen
  next hk =>
    have hpeek := h.peekRun_ensures k hseen
    refine (hpeek.and_params (Run.ChangesOnly.of_peekRun id k _)).bind fun v t ⟨ht, hparams⟩ => ?_
    simp only [Run.Ensures, State.inst_setIter]
    refine h.iterSet ht fun _ hN => ?_
    rw [hparams, rdHead_inst] at hN ⊢
    have hlt : (lenByConsumer id s).1 < (s.inst id).params.N := forward_lt hN _ _
    dsimp only
    omega

theorem peekByte_ensures (h : OpRules A P Q) (j : Nat) (hs : P .consumer (s.inst id)) :
    (peekByte id j s).Ensures id (P .consumer) Q :=
  (h.peekRun_ensures j hs).then_ok _

theorem sumPeeks_ensures (h : OpRules A P Q) (m j : Nat) (acc : Half) (hs : P .consumer (s.inst id)) :
    (sumPeeks id m j acc s).Ensures id (P .consumer) Q := by
  induction m generalizing j acc s with
  | zero => exact hs
  | succ m ih => exact (h.peekByte_ensures j hs).bind fun _ t ht => ih _ _ ht

theorem checkTrailer_ensures (h : OpRules A P Q) (L : Byte) (hs : P .consumer (s.inst id)) :
    (checkTrailer id L s).Ensures id (P .consumer) Q :=
  (h.sumPeeks_ensures _ _ _ hs).bind fun _ _ h1 => (h.peekByte_ensures _ h1).bind fun _ _ h2 =>
    (h.peekByte_ensures _ h2).then_ok _

theorem judgeFrame_ensures (h : OpRules A P Q) (L : Byte) (hs : P .consumer (s.inst id)) :
    (judgeFrame id L s).Ensures id (P .consumer) Q := by
  refine (h.peekByte_ensures 1 hs).bind fun b1 s1 h1 => ?_
  split
  · exact h1
  split
  · exact h1
  · refine (h.checkTrailer_ensures L h1).bind fun ck s2 h2 => ?_
    cases ck with
    | none => exact h2
    | some acc => exact h2

theorem syncRun_ensures (h : OpRules A P Q) (n : Nat) (hs : P .consumer (s.inst id)) :
    (syncRun id n s).Ensures id (P .consumer) Q := by
  unfold syncRun
  split
  · exact hs
  refine (h.peekByte_ensures 0 hs).bind fun L s1 h1 => ?_
  split
  · exact h1
  split
  · exact h1
  · exact h.judgeFrame_ensures L h1

/-- The synchroniser on a fresh length snapshot. -/
theorem snapshot_syncRun_ensures (h : OpRules A P Q) (hs : P .consumer (s.inst id)) :
    (syncRun id (lenByConsumer id s).1 (lenByConsumer id s).2).Ensures id (P .consumer) Q :=
  h.syncRun_ensures _ (h.rdHead_keeps hs)

theorem resyncRun_ensures (h : OpRules A P Q) (hs : P .consumer (s.inst id)) :
    (resyncRun id s).Ensures id (P .consumer) Q :=
  (h.snapshot_syncRun_ensures hs).then_ok _

theorem peekBytes_ensures (h : OpRules A P Q) (m j : Nat) (hs : P .consumer (s.inst id)) :
    (peekBytes id m j s).Ensures id (P .consumer) Q := by
  induction m generalizing j s with
  | zero => exact hs
  | succ m ih => exact (h.peekByte_ensures j hs).bind fun _ t ht => (ih _ ht).then_ok _

theorem acceptRun_ensures (h : OpRules A P Q) (L b1 : Byte) (hs : P .consumer (s.inst id)) :
    (acceptRun id L b1 s).Ensures id (P .consumer) Q := by
  unfold acceptRun
  split
  · exact hs
  split
  · exact hs
  split
  · exact hs
  · exact (h.peekBytes_ensures _ _ hs).then_ok _

theorem decodeRun_ensures (h : OpRules A P Q) (hs : P .consumer (s.inst id)) :
    (decodeRun id s).Ensures id (P .consumer) Q := by
  refine (h.snapshot_syncRun_ensures hs).bind fun v t ht => ?_
  cases v with
  | malformed _ => exact ht
  | empty => exact ht
  | incomplete _ => exact ht
  | good L b1 _ => exact (h.acceptRun_ensures L b1 ht).then_ok _

theorem serviceRun_ensures (h : OpRules A P Q) (hs : P .consumer (s.inst id)) :
    (serviceRun id s).Ensures id (P .consumer) Q :=
  (h.decodeRun_ensures hs).bind fun r _ ht => (h.discardRun_ensures _ (h.handOver_keeps ht r.1)).then_ok _

theorem frameRun_ensures (h : OpRules A P Q) (L b1 : Byte) (ck : Half) (r : Message × Nat) (hs : P .consumer (s.inst id)) :
    (frameRun id L b1 ck r s).Ensures id (P .consumer) Q := by
  refine (h.snapshot_syncRun_ensures hs).bind fun v t ht => ?_
  split
  · exact (h.acceptRun_ensures L b1 ht).then_ok _
  · exact ht

/-! ### Invocations -/

theorem finish_ensures (h : OpRules A P Q) {α : Type} {r : Run α} {role : Role} (hrole : s.port.role = role)
    (hr : r.Ensures s.port.inst (P role) Q) (hc : r.ChangesOnly s.port.inst s) (result : α → Result) :
    (finish r result).Ensures s.port.inst Q := by
  subst hrole
  cases r with
  | ok a t =>
    have hport : t.port = s.port := hc.port
    simp only [finish, Out.Ensures, hport]
    exact h.returnWith_done hr _
  | raised t => exact hr
  | stop f => trivial

/-- What is known when an operation begins through the state's port: `P` for its role, if nothing refuses it. -/
abbrev Begins (P : Role → Inst → Prop) (s : State) : Prop := ∀ w, refusalOf w s = none → P s.port.role s.here

theorem invoked_ensures (h : OpRules A P Q) {w : Who} {body : State → Out} (hs : Begins P s)
    (hbody : ∀ t, permits w t.port = true → P t.port.role t.here → (body t).Ensures t.port.inst Q) :
    (invoked w s body).Ensures s.port.inst Q := by
  unfold invoked
  cases hr : refusalOf w s with
  | some r => trivial
  | none =>
    have hpermits := (refusalOf_eq_none.mp hr).2.1
    have ht := hbody (s.setRet s.port none)
    simp only [State.here, State.setRet_port] at ht
    exact ht hpermits (h.setRet_keeps (hs w hr) none)

theorem invoked_producer_ensures (h : OpRules A P Q) {body : State → Out} (hs : Begins P s)
    (hbody : ∀ t, t.port.role = .producer → P .producer t.here → (body t).Ensures t.port.inst Q) :
    (invoked .producer s body).Ensures s.port.inst Q :=
  h.invoked_ensures hs fun t hw ht => hbody t (permits_producer hw) (permits_producer hw ▸ ht)

theorem invoked_consumer_ensures (h : OpRules A P Q) {body : State → Out} (hs : Begins P s)
    (hbody : ∀ t, t.port.role = .consumer → P .consumer t.here → (body t).Ensures t.port.inst Q) :
    (invoked .consumer s body).Ensures s.port.inst Q :=
  h.invoked_ensures hs fun t hw ht => hbody t (permits_consumer hw) (permits_consumer hw ▸ ht)

theorem onBytes_producer_ensures (h : OpRules A P Q) {body : State → Out} (hs : Begins P s)
    (hbody : ∀ t, t.port.role = .producer → t.here.params.W = 8 → P .producer t.here → (body t).Ensures t.port.inst Q) :
    (invokedOnBytes .producer s body).Ensures s.port.inst Q :=
  h.invoked_producer_ensures hs fun t hrole ht => .ite_refused fun hW => hbody t hrole (not_not.mp hW) ht

theorem onBytes_codec_ensures (h : OpRules A P Q) {body : State → Out} (hs : Begins P s)
    (hbody : ∀ t, t.port.role = .consumer → P .consumer t.here → (body t).Ensures t.port.inst Q) :
    (invokedOnBytes .codec s body).Ensures s.port.inst Q :=
  h.invoked_ensures hs fun t hw ht => .ite_refused fun _ => hbody t (permits_codec hw) (permits_codec hw ▸ ht)

/-! ### Whole operations -/

/-- The bytes of a frame are elements of an instance of bytes. -/
theorem elemOf_lt {frame : List Byte} {W : Nat} (hW : W = 8) : ∀ v ∈ frame.map elemOf, v < 2 ^ W := by
  simp only [List.mem_map, forall_exists_index, and_imp, forall_apply_eq_imp_iff₂, hW]
  exact fun b _ => b.isLt

theorem emitRun_ensures (h : OpRules A P Q) (frame : List Byte) (hW : (s.inst id).params.W = 8)
    (hs : P .producer (s.inst id)) : (emitRun id frame s).Ensures id (P .producer) Q :=
  h.loadRun_ensures (fun _ => elemOf_lt hW) hs

theorem emitFrame_ensures (h : OpRules A P Q) (frame : List Byte) (hs : Begins P s) :
    (emitFrame frame s).Ensures s.port.inst Q :=
  h.onBytes_producer_ensures hs fun t hrole hW ht =>
    h.finish_ensures hrole (h.emitRun_ensures frame hW ht) (Run.ChangesOnly.of_loadRun _ _ t) _

theorem lengthQuery_ensures (h : OpRules A P Q) (result : Nat → Result) (hs : Begins P s) :
    (lengthQuery result s).Ensures s.port.inst Q :=
  h.invoked_ensures hs fun _ _ ht => h.returnWith_done (h.lenBy_keeps ht) _

theorem acceptFrame_ensures (h : OpRules A P Q) (L b1 : Byte) (payload : List Byte) (r : Message × Nat) (hs : Begins P s) :
    (acceptFrame L b1 payload r s).Ensures s.port.inst Q := by
  refine h.onBytes_codec_ensures hs fun t hrole ht => ?_
  have hrun := h.frameRun_ensures L b1 (checksumOf (L :: b1 :: payload)) r ht
  have hport := Run.ChangesOnly.of_frameRun t.port.inst L b1 (checksumOf (L :: b1 :: payload)) r t
  split
  next u hu =>
    rw [hu] at hrun hport
    exact h.finish_ensures hrole hrun hport fun _ => decodedResult (some r.1, r.2)
  next => trivial
  next u hu => rwa [hu] at hrun
  next => trivial

theorem execEncode_ensures (h : OpRules A P Q) (m : Message) (target : InstId) (hs : Begins P s) :
    (execEncode m target s).Ensures s.port.inst Q := by
  refine h.onBytes_producer_ensures hs fun t hrole hW ht => .ite_refused fun htarget => ?_
  obtain rfl : t.port.inst = target := not_not.mp htarget
  split
  · exact h.raise_done (.inr (.inr rfl)) (hrole ▸ ht)
  · exact h.finish_ensures hrole (h.emitRun_ensures _ hW ht) (Run.ChangesOnly.of_loadRun _ _ t) _

theorem execIterNew_ensures (h : OpRules A P Q) (hs : Begins P s) : (execIterNew s).Ensures s.port.inst Q := by
  refine h.invoked_consumer_ensures hs fun t hrole ht => h.returnWith_done ?_ _
  rw [hrole, State.inst_setIter]
  exact h.iterSet ht fun _ hN => hN

theorem execIterNext_ensures (h : OpRules A P Q) (hs : Begins P s) : (execIterNext s).Ensures s.port.inst Q := by
  refine h.invoked_consumer_ensures hs fun t hrole ht => ?_
  split
  next => trivial
  next k _ => exact h.finish_ensures hrole (h.iterRun_ensures k ht) (Run.ChangesOnly.of_iterRun _ k t) _

theorem execClear_ensures (h : OpRules A P Q) (hs : Begins P s) : (execClear s).Ensures s.port.inst Q := by
  refine h.invoked_consumer_ensures hs fun t hrole ht => .ite_refused fun hbusy => h.returnWith_done ?_ _
  rw [hrole, inst_clearCursors]
  exact h.cleared ht fun _ => Bool.eq_false_of_not_eq_true hbusy

theorem execChecksum_ensures (h : OpRules A P Q) (bytes : List Byte) (hs : Begins P s) :
    (execChecksum bytes s).Ensures s.port.inst Q :=
  h.invoked_ensures hs fun _ _ ht => h.returnWith_done ht _

/-- A whole operation. -/
theorem exec_ensures (h : OpRules A P Q) (i : Instr) (hs : Begins P s) : Out.Ensures s.port.inst Q (exec i s) := by
  cases i with
  | fSet L a payload => exact h.acceptFrame_ensures _ _ _ _ hs
  | fDiscover a => exact h.acceptFrame_ensures _ _ _ _ hs
  | fType a => exact h.acceptFrame_ensures _ _ _ _ hs
  | fValue a => exact h.acceptFrame_ensures _ _ _ _ hs
  | eDiscoverResp a => exact h.emitFrame_ensures _ hs
  | eTypeResp a k w => exact h.emitFrame_ensures _ hs
  | eValueRespS a v => exact h.emitFrame_ensures _ hs
  | eValueRespL a v => exact h.emitFrame_ensures _ hs
  | push v =>
    exact h.invoked_producer_ensures hs fun t hrole ht => .ite_refused fun hv =>
      h.finish_ensures hrole (h.pushRun_ensures (fun _ => not_not.mp hv) ht) (Run.ChangesOnly.of_pushRun _ v t) _
  | pop =>
    exact h.invoked_consumer_ensures hs fun t hrole ht =>
      h.finish_ensures hrole (h.popRun_ensures ht) (Run.ChangesOnly.of_popRun _ t) _
  | len => exact h.lengthQuery_ensures _ hs
  | isFull => exact h.lengthQuery_ensures (fun n => .bit (fullAt s.here.params.N n)) hs
  | isEmpty => exact h.lengthQuery_ensures (fun n => .bit (emptyAt n)) hs
  | space => exact h.lengthQuery_ensures (fun n => .num (spaceAt s.here.params.N n)) hs
  | peek j =>
    exact h.invoked_consumer_ensures hs fun t hrole ht => .ite_refused fun _ =>
      h.finish_ensures hrole (h.peekRun_ensures j ht) (Run.ChangesOnly.of_peekRun _ j t) _
  | clear => exact h.execClear_ensures hs
  | load vs =>
    exact h.invoked_producer_ensures hs fun t hrole ht => .ite_refused fun hv =>
      h.finish_ensures hrole (h.loadRun_ensures (fun _ => not_not.mp hv) ht) (Run.ChangesOnly.of_loadRun _ vs t) _
  | iterNew => exact h.execIterNew_ensures hs
  | iterNext => exact h.execIterNext_ensures hs
  | checksum bytes => exact h.execChecksum_ensures bytes hs
  | needsResync =>
    exact h.onBytes_codec_ensures hs fun t hrole ht =>
      h.finish_ensures hrole (h.resyncRun_ensures ht) (Run.ChangesOnly.of_resyncRun _ t) _
  | decodeNext =>
    exact h.onBytes_codec_ensures hs fun t hrole ht =>
      h.finish_ensures hrole (h.decodeRun_ensures ht) (Run.ChangesOnly.of_decodeRun _ t) _
  | service =>
    exact h.onBytes_codec_ensures hs fun t hrole ht =>
      h.finish_ensures hrole (h.serviceRun_ensures ht) (Run.ChangesOnly.of_serviceRun _ t) _
  | encode m target => exact h.execEncode_ensures m target hs

/-! ### Micro-steps of the PRODUCER -/

/-- The PRODUCER's next micro-step is due, with these registers. -/
theorem setPRegs_done (h : OpRules A P Q) {R : PRegs} (hs : P .producer (s.inst id))
    (hR : A → ({ s.inst id with prod := { (s.inst id).prod with regs := R } } : Inst).producerOk = true) :
    Q ((s.setPRegs id R).inst id) := by
  rw [State.inst_setPRegs]
  exact h.prodDone (h.prodFree _ _ hs) hR

theorem nextPush_ensures (h : OpRules A P Q) {vs : List Elem} (hvs : A → ∀ v ∈ vs, v < 2 ^ (s.inst id).params.W)
    (hs : P .producer (s.inst id)) : (nextPush id vs s).Ensures id Q := by
  cases vs with
  | nil => exact h.returnWith_done (p := ⟨id, .producer⟩) hs _
  | cons v rest => exact h.setPRegs_done hs fun hA => by simpa [Inst.producerOk] using hvs hA

theorem values_of_producerOk {I : Inst} (h : I.producerOk = true) :
    I.prod.regs.p_v < 2 ^ I.params.W ∧ ∀ v ∈ I.prod.regs.src, v < 2 ^ I.params.W := by
  simp only [Inst.producerOk, Bool.and_eq_true, decide_eq_true_eq, List.all_eq_true] at h
  exact h.1

/-- One micro-step of the PRODUCER: it is idle, or `P` holds. -/
theorem tickProducer_ensures (h : OpRules A P Q) (hidle : Q (s.inst id))
    (hbusy : (s.inst id).prod.regs.ppc ≠ .idle → P .producer (s.inst id)) (hA : A → (s.inst id).producerOk = true) :
    (tickProducer id s).Ensures id Q := by
  have hsrc : A → ∀ v ∈ (s.inst id).prod.regs.src, v < 2 ^ (s.inst id).params.W := fun a => (values_of_producerOk (hA a)).2
  dsimp only [tickProducer]
  cases hppc : (s.inst id).prod.regs.ppc with
  | idle => exact hidle
  | P1 | L1 =>
    exact h.setPRegs_done (hbusy (hppc ▸ nofun)) fun a => by simpa [Inst.producerOk, hppc] using hA a
  | P2 =>
    refine h.setPRegs_done (h.rdTail_keeps (hbusy (hppc ▸ nofun))) fun a => ?_
    simpa [Inst.producerOk, hppc, rdTail_inst] using hA a
  | P3 =>
    dsimp only
    split
    next => exact h.nextPush_ensures hsrc (hbusy (hppc ▸ nofun))
    next hfull =>
      refine h.setPRegs_done (hbusy (hppc ▸ nofun)) fun a => ?_
      have hok := hA a
      simp only [Inst.producerOk, hppc] at hok ⊢
      simpa [hfull] using hok
  | P4 =>
    obtain ⟨-, hw⟩ | ⟨hp, hw⟩ := memWrite_cases id (s.inst id).prod.regs.p_h (s.inst id).prod.regs.p_v s
    · simp only [hw]; trivial
    · simp only [hw]
      have hwritten := h.slotWritten (hbusy (hppc ▸ nofun)) hp fun a => (values_of_producerOk (hA a)).1
      refine h.setPRegs_done (by rwa [State.inst_setInst]) fun a => ?_
      have hok := hA a
      simp only [Inst.producerOk, hppc] at hok
      simpa [Inst.producerOk] using hok
  | P5 =>
    have hpublished := h.headPublished (h := inc (s.inst id).params.N (s.inst id).prod.regs.p_h)
      (hbusy (hppc ▸ nofun)) fun a => by
        obtain ⟨-, ⟨⟨hh, ht⟩, hfull⟩, hread⟩ := by simpa [Inst.producerOk, hppc] using hA a
        rw [hh] at hfull hread ⊢
        rw [ht] at hfull
        exact ⟨rfl, hfull, by rw [hread]; rfl⟩
    exact h.nextPush_ensures (by simpa using hsrc) (by rwa [inst_publishHead])
  | L2 => exact h.returnWith_done (p := ⟨id, .producer⟩) (h.rdTail_keeps (hbusy (hppc ▸ nofun))) _

/-! ### Micro-steps of the CONSUMER -/

/-- The CONSUMER's next micro-step is due, with these registers. -/
theorem goC_ensures (h : OpRules A P Q) {R : CRegs} (hs : P .consumer (s.inst id))
    (hR : A → ({ s.inst id with cons := { (s.inst id).cons with regs := R } } : Inst).consumerOk = true) :
    (goC id R s).Ensures id Q := by
  simp only [goC, Out.Ensures, State.inst_setCRegs]
  exact h.consDone (h.consFree _ _ _ hs) hR

theorem goC_fresh_ensures (h : OpRules A P Q) {R : CRegs} (hR : R.cpc.fresh = true) (hs : P .consumer (s.inst id)) :
    (goC id R s).Ensures id Q :=
  h.goC_ensures hs fun _ => consumerOk_of_fresh hR

theorem returnC_ensures (h : OpRules A P Q) (r : Result) (hs : P .consumer (s.inst id)) : (returnC id r s).Ensures id Q :=
  h.returnWith_done (p := ⟨id, .consumer⟩) hs r

theorem decided_ensures (h : OpRules A P Q) (R : CRegs) (m : Option Message) (c : Nat) (hs : P .consumer (s.inst id)) :
    (decided id R m c s).Ensures id Q := by
  unfold decided
  split
  · split
    · exact h.returnC_ensures _ (h.handOver_keeps hs m)
    · exact h.goC_fresh_ensures rfl (h.handOver_keeps hs m)
  all_goals exact h.returnC_ensures _ hs

theorem lenDone_ensures (h : OpRules A P Q) (R : CRegs) (n : Nat) (hs : P .consumer (s.inst id)) :
    (lenDone id R n s).Ensures id Q := by
  unfold lenDone
  cases R.task with
  | iterNext =>
    dsimp only
    split
    · exact h.returnC_ensures _ hs
    · split
      · exact h.returnC_ensures _ hs
      · exact h.goC_fresh_ensures rfl hs
  | needsResync | decodeNext | service =>
    dsimp only
    split
    · exact h.goC_fresh_ensures rfl hs
    · exact h.goC_fresh_ensures rfl hs
  | _ => exact h.returnC_ensures _ hs

theorem codecByte_ensures (h : OpRules A P Q) (R : CRegs) (b : Byte) (hs : P .consumer (s.inst id)) :
    (codecByte id R b s).Ensures id Q := by
  unfold codecByte
  cases R.phase with
  | S1 => dsimp only; split <;> exact h.goC_fresh_ensures rfl hs
  | S3 =>
    dsimp only
    split
    · exact h.goC_fresh_ensures rfl hs
    · exact h.goC_fresh_ensures rfl hs
  | S4 =>
    dsimp only
    iterate 3
      split
      · exact h.goC_fresh_ensures rfl hs
    split <;> exact h.goC_fresh_ensures rfl hs
  | DEC =>
    dsimp only
    split
    · exact h.goC_fresh_ensures rfl hs
    · exact h.decided_ensures _ _ _ hs
  | S0 | S2 | S5 | DONE => exact h.goC_fresh_ensures rfl hs

theorem peekDone_ensures (h : OpRules A P Q) (R : CRegs) (v : Elem) (hs : P .consumer (s.inst id))
    (hi : A → 0 < (s.inst id).params.N → R.c_i + 1 < (s.inst id).params.N) : (peekDone id R v s).Ensures id Q := by
  unfold peekDone
  cases R.task with
  | iterNext => exact h.returnC_ensures _ (by rw [State.inst_setIter]; exact h.iterSet hs hi)
  | needsResync | decodeNext | service => exact h.codecByte_ensures _ _ hs
  | _ => exact h.returnC_ensures _ hs

theorem popDone_ensures (h : OpRules A P Q) (R : CRegs) (v : Option Elem) (hs : P .consumer (s.inst id)) :
    (popDone id R v s).Ensures id Q := by
  unfold popDone
  cases R.task with
  | service =>
    dsimp only
    split
    · exact h.returnC_ensures _ hs
    · exact h.goC_fresh_ensures rfl hs
  | _ => exact h.returnC_ensures _ hs

theorem localStep_ensures (h : OpRules A P Q) {R : CRegs} (hR : R.cpc.fresh = true) (hs : P .consumer (s.inst id)) :
    (localStep id R s).Ensures id Q := by
  unfold localStep
  cases R.phase with
  | S2 =>
    dsimp only
    split
    · exact h.goC_fresh_ensures rfl hs
    · exact h.goC_fresh_ensures rfl hs
  | DONE =>
    cases R.task with
    | decodeNext | service =>
      dsimp only
      split
      · exact h.decided_ensures _ _ _ hs
      · exact h.goC_fresh_ensures hR hs
    | _ => exact h.returnC_ensures _ hs
  | DEC =>
    dsimp only
    iterate 5
      split
      · exact h.decided_ensures _ _ _ hs
    exact h.goC_fresh_ensures rfl hs
  | S0 | S1 | S3 | S4 | S5 => exact h.goC_fresh_ensures rfl hs

/-- One micro-step of the CONSUMER. -/
theorem tickConsumer_ensures (h : OpRules A P Q) (hidle : Q (s.inst id)) (hs : P .consumer (s.inst id))
    (hA : A → (s.inst id).consumerOk = true) : (tickConsumer id s).Ensures id Q := by
  dsimp only [tickConsumer]
  cases hcpc : (s.inst id).cons.regs.cpc with
  | idle => exact hidle
  | C1 | L1 => exact h.goC_ensures hs fun _ => by simp [Inst.consumerOk]
  | C2 =>
    refine h.goC_ensures (h.rdHead_keeps hs) fun a => ?_
    simpa [Inst.consumerOk, hcpc, rdHead_inst] using hA a
  | C3 =>
    dsimp only
    split
    next =>
      cases (s.inst id).params.popEmptyPolicy with
      | abort => exact h.raise_done (p := ⟨id, .consumer⟩) (.inl rfl) hs
      | noElement => exact h.popDone_ensures _ _ hs
    next hne =>
      refine h.goC_ensures hs fun a => ?_
      simpa [Inst.consumerOk, hcpc, hne] using hA a
  | C4 =>
    have hread := memRead_ensures (p := (s.inst id).cons.regs.c_t) (Q := Q) (P := (· = s.inst id)) rfl
    dsimp only
    split
    next v t ht =>
      rw [ht] at hread
      refine h.goC_ensures (hread ▸ hs) fun a => ?_
      rw [show t.inst id = s.inst id from hread]
      simpa [Inst.consumerOk, hcpc] using hA a
    next t ht => exact absurd ht (memRead_ne_raised _ _ _ t)
    next => trivial
  | C5 =>
    refine h.popDone_ensures _ _ ?_
    rw [inst_publishTail]
    refine h.tailPublished hs fun a => ?_
    obtain ⟨⟨ht, hh⟩, hne⟩ := by simpa [Inst.consumerOk, hcpc] using hA a
    exact ⟨by rw [ht], hh ▸ ht ▸ hne⟩
  | K1 =>
    refine h.goC_ensures (h.rdHead_keeps hs) fun _ => ?_
    simp [Inst.consumerOk, rdHead_inst]
  | K2 =>
    dsimp only
    split
    next => exact h.raise_done (p := ⟨id, .consumer⟩) (.inr (.inl rfl)) hs
    next hlt =>
      refine h.goC_ensures hs fun a => ?_
      obtain ⟨ht, hh⟩ := by simpa [Inst.consumerOk, hcpc] using hA a
      simp only [Inst.consumerOk, Bool.and_eq_true, beq_iff_eq, decide_eq_true_eq]
      exact ⟨⟨ht, hh⟩, by simpa [Inst.visible, ht, hh] using hlt⟩
  | K3 =>
    have hread := memRead_ensures (Q := Q) (P := (· = s.inst id))
      (p := slotIndex (s.inst id).params.N (s.inst id).cons.regs.c_t (s.inst id).cons.regs.c_i) rfl
    dsimp only
    split
    next v t ht =>
      rw [ht] at hread
      have hsame : t.inst id = s.inst id := hread
      refine h.peekDone_ensures _ v (hsame ▸ hs) fun a hN => ?_
      obtain ⟨-, hi⟩ := by simpa [Inst.consumerOk, hcpc] using hA a
      rw [hsame] at hN ⊢
      have hlt : (s.inst id).visible < (s.inst id).params.N := forward_lt hN _ _
      omega
    next t ht => exact absurd ht (memRead_ne_raised _ _ _ t)
    next => trivial
  | L2 => exact h.lenDone_ensures _ _ (h.rdHead_keeps hs)
  | CL =>
    refine h.returnC_ensures _ ?_
    rw [inst_clearCursors]
    exact h.cleared hs fun a => by simpa [Inst.consumerOk, hcpc, prodBusy] using hA a
  | X => exact h.localStep_ensures (hcpc ▸ rfl) hs

/-- One micro-step of the agent of a port. -/
theorem tick_ensures (h : OpRules A P Q) {p : Port} (hidle : Q (s.inst p.inst))
    (hproducer : (s.inst p.inst).prod.regs.ppc ≠ .idle → P .producer (s.inst p.inst)) (hconsumer : P .consumer (s.inst p.inst))
    (hA : A → (s.inst p.inst).producerOk = true ∧ (s.inst p.inst).consumerOk = true) : (tick p s).Ensures p.inst Q := by
  obtain ⟨id, role⟩ := p
  cases role with
  | producer => exact h.tickProducer_ensures hidle hproducer fun a => (hA a).1
  | consumer => exact h.tickConsumer_ensures hidle hconsumer fun a => (hA a).2

/-! ### Starts of operations -/

theorem beginPushes_ensures (h : OpRules A P Q) {vs : List Elem} (hvs : A → ∀ v ∈ vs, v < 2 ^ (s.inst id).params.W)
    (hs : P .producer (s.inst id)) : (beginPushes id vs s).Ensures id Q := by
  refine h.nextPush_ensures (by simpa using hvs) ?_
  rw [State.inst_setPRegs]
  exact h.prodFree _ _ hs

theorem beginQuery_ensures (h : OpRules A P Q) (pt : PTask) (ct : CTask) (hs : Begins P s) :
    (beginQuery pt ct s).Ensures s.port.inst Q := by
  refine h.invoked_ensures hs fun t _ ht => ?_
  cases hrole : t.port.role with
  | producer =>
    rw [hrole] at ht
    exact h.setPRegs_done ht fun _ => by simp [Inst.producerOk, PRegs.idle]
  | consumer =>
    rw [hrole] at ht
    exact h.goC_fresh_ensures rfl ht

theorem beginFrame_ensures (h : OpRules A P Q) (frame : List Byte) (hW : (s.inst id).params.W = 8)
    (hs : P .producer (s.inst id)) : (beginFrame id frame s).Ensures id Q := by
  have hbytes := elemOf_lt (frame := frame) hW
  unfold beginFrame
  split
  next => exact h.returnWith_done (p := ⟨id, .producer⟩) hs _
  next v rest hframe =>
    rw [hframe] at hbytes
    exact h.setPRegs_done hs fun _ => by simpa [Inst.producerOk] using hbytes

theorem beginOutbound_ensures (h : OpRules A P Q) (frame : List Byte) (hs : Begins P s) :
    (invokedOnBytes .producer s fun s1 => beginFrame s1.port.inst frame s1).Ensures s.port.inst Q :=
  h.onBytes_producer_ensures hs fun _ _ hW ht => h.beginFrame_ensures frame hW ht

theorem beginCodec_ensures (h : OpRules A P Q) (task : CTask) (hs : Begins P s) :
    (invokedOnBytes .codec s fun s1 => beginC s1.port.inst task .L1 s1).Ensures s.port.inst Q :=
  h.onBytes_codec_ensures hs fun _ _ ht => h.goC_fresh_ensures rfl ht

theorem begin_iterNext_ensures (h : OpRules A P Q) (hs : Begins P s) : (begin .iterNext s).Ensures s.port.inst Q := by
  unfold begin
  refine h.invoked_consumer_ensures hs fun t _ ht => ?_
  split
  next => trivial
  next => exact h.goC_fresh_ensures rfl ht

theorem begin_clear_ensures (h : OpRules A P Q) (hs : Begins P s) : (begin .clear s).Ensures s.port.inst Q := by
  unfold begin
  refine h.invoked_consumer_ensures hs fun t _ ht => .ite_refused fun hbusy => ?_
  refine h.goC_ensures ht fun _ => ?_
  simpa [Inst.consumerOk, prodBusy, State.here] using hbusy

theorem begin_encode_ensures (h : OpRules A P Q) (m : Message) (target : InstId) (hs : Begins P s) :
    (begin (.encode m target) s).Ensures s.port.inst Q := by
  refine h.onBytes_producer_ensures hs fun t hrole hW ht => .ite_refused fun htarget => ?_
  obtain rfl : t.port.inst = target := not_not.mp htarget
  split
  · exact h.raise_done (.inr (.inr rfl)) (hrole ▸ ht)
  · exact h.beginFrame_ensures _ hW ht

/-- The start of an operation. -/
theorem begin_ensures (h : OpRules A P Q) (i : Instr) (hs : Begins P s) : (begin i s).Ensures s.port.inst Q := by
  unfold begin
  cases i with
  | fSet L a payload => exact h.acceptFrame_ensures _ _ _ _ hs
  | fDiscover a => exact h.acceptFrame_ensures _ _ _ _ hs
  | fType a => exact h.acceptFrame_ensures _ _ _ _ hs
  | fValue a => exact h.acceptFrame_ensures _ _ _ _ hs
  | eDiscoverResp a => exact h.beginOutbound_ensures _ hs
  | eTypeResp a k w => exact h.beginOutbound_ensures _ hs
  | eValueRespS a v => exact h.beginOutbound_ensures _ hs
  | eValueRespL a v => exact h.beginOutbound_ensures _ hs
  | push v =>
    exact h.invoked_producer_ensures hs fun t _ ht => .ite_refused fun hv =>
      h.beginPushes_ensures (fun _ => List.forall_mem_singleton.mpr (not_not.mp hv)) ht
  | pop => exact h.invoked_consumer_ensures hs fun t _ ht => h.goC_fresh_ensures rfl ht
  | len => exact h.beginQuery_ensures _ _ hs
  | isFull => exact h.beginQuery_ensures _ _ hs
  | isEmpty => exact h.beginQuery_ensures _ _ hs
  | space => exact h.beginQuery_ensures _ _ hs
  | peek j =>
    exact h.invoked_consumer_ensures hs fun t _ ht => .ite_refused fun _ => h.goC_fresh_ensures rfl ht
  | clear => exact h.begin_clear_ensures hs
  | load vs =>
    exact h.invoked_producer_ensures hs fun t _ ht => .ite_refused fun hv =>
      h.beginPushes_ensures (fun _ => not_not.mp hv) ht
  | iterNew => exact h.execIterNew_ensures hs
  | iterNext => exact h.begin_iterNext_ensures hs
  | checksum bytes => exact h.execChecksum_ensures bytes hs
  | needsResync => exact h.beginCodec_ensures _ hs
  | decodeNext => exact h.beginCodec_ensures _ hs
  | service => exact h.beginCodec_ensures _ hs
  | encode m target => exact h.begin_encode_ensures m target hs

end OpRules
end Sys2Proof.Machine
/-! ## The fault register -/

namespace Sys2Proof.Machine

/-- The fault register as it was, `c`, or a code taken where it was 0 (R27). -/
def FaultFrom (c : BitVec 4) (I : Inst) : Prop := I.fault = c ∨ c = 0 ∧ (I.fault = 4 ∨ I.fault = 5 ∨ I.fault = 6)

/-- Only taking a fault writes the register, and it does so where the register holds 0, in any state. -/
theorem opRules_faultFrom (c : BitVec 4) : OpRules False (fun _ => FaultFrom c) (FaultFrom c) where
  tailSeen hI _ := hI
  slotWritten hI _ _ := hI
  headPublished hI _ := hI
  headSeen hI _ := hI
  tailPublished hI _ := hI
  cleared hI _ := hI
  iterSet hI _ := hI
  faultTaken hI h0 he := by
    obtain hc | ⟨hc, -⟩ := hI
    · exact .inr ⟨hc.symm.trans h0, he⟩
    · exact .inr ⟨hc, he⟩
  prodFree _ _ hI := hI
  consFree _ _ _ hI := hI
  prodDone hI _ := hI
  consDone hI _ := hI

/-- What holds before any part of an operation holds of the whole of it. -/
theorem opRules_const (p : Prop) : OpRules False (fun _ _ => p) fun _ => p where
  tailSeen hp _ := hp
  slotWritten hp _ _ := hp
  headPublished hp _ := hp
  headSeen hp _ := hp
  tailPublished hp _ := hp
  cleared hp _ := hp
  iterSet hp _ := hp
  faultTaken hp _ _ := hp
  prodFree _ _ hp := hp
  consFree _ _ _ hp := hp
  prodDone hp _ := hp
  consDone hp _ := hp

theorem Out.Ensures.of_eq_next {id : InstId} {Q : Inst → Prop} {o : Out} {t : State} (ho : o.Ensures id Q) (h : o = .next t) :
    Q (t.inst id) := by
  subst h
  exact ho

/-- An operation with a next state, whole or started, was not refused for a fault (R226). -/
theorem fault_eq_zero_of_next {i : Instr} {s t : State} (h : exec i s = .next t ∨ begin i s = .next t) : s.here.fault = 0 := by
  have hbegins : OpRules.Begins (fun _ _ => s.here.fault = 0) s := fun _ hw => (refusalOf_eq_none.mp hw).1
  obtain h | h := h
  · exact ((opRules_const _).exec_ensures i hbegins).of_eq_next h
  · exact ((opRules_const _).begin_ensures i hbegins).of_eq_next h

/-- An operation runs on the instance of its port, which has the fault register it had or a code in place of 0. -/
theorem faultFrom_of_next {i : Instr} {s t : State} (h : exec i s = .next t ∨ begin i s = .next t) :
    FaultFrom s.here.fault (t.inst s.port.inst) := by
  have hbegins : OpRules.Begins (fun _ => FaultFrom s.here.fault) s := fun _ _ => .inl rfl
  obtain h | h := h
  · exact ((opRules_faultFrom _).exec_ensures i hbegins).of_eq_next h
  · exact ((opRules_faultFrom _).begin_ensures i hbegins).of_eq_next h

/-- A micro-step leaves the fault register as it was, or with a code in place of 0. -/
theorem faultFrom_of_tick {p : Port} {s t : State} (h : tick p s = .next t) :
    FaultFrom (s.inst p.inst).fault (t.inst p.inst) :=
  ((opRules_faultFrom _).tick_ensures (.inl rfl) (fun _ => .inl rfl) (.inl rfl) False.elim).of_eq_next h

/-! ### Steps, instance by instance -/

theorem Out.ChangesOnly.next {id : InstId} {s t : State} {o : Out} (ho : Out.ChangesOnly id s o) (h : o = .next t) :
    s.ChangesOnly id t := by
  subst h
  exact ho

theorem changesOnly_of_next {i : Instr} {s t : State} (h : exec i s = .next t ∨ begin i s = .next t) :
    s.ChangesOnly s.port.inst t :=
  h.elim (Out.ChangesOnly.of_exec i s).next (Out.ChangesOnly.of_begin i s).next

/-- Everything the step from `s` to `t` can do to the instance `id`. -/
inductive InstStep (s t : State) (id : InstId) : Prop where
  | kept (h : t.inst id = s.inst id)
  | reset (q : List Event) (hq : s.queue = .reset id :: q) (h : t.inst id = Inst.construct (s.inst id).params)
  | operated (i : Instr) (s1 : State) (h : exec i s1 = .next t ∨ begin i s1 = .next t) (hport : s1.port.inst = id)
      (hhere : s1.here = s.inst id)
  | ticked (p : Port) (s1 : State) (h : tick p s1 = .next t) (hport : p.inst = id) (hinst : s1.inst id = s.inst id)

/-- An operation invoked or started by a step. -/
theorem InstStep.of_operation {s s1 t : State} {i : Instr} (h : exec i s1 = .next t ∨ begin i s1 = .next t)
    (hs : ∀ id, s1.inst id = s.inst id) (id : InstId) : InstStep s t id := by
  by_cases hid : id = s1.port.inst
  · exact .operated i s1 h hid.symm (hid ▸ hs id)
  · exact .kept (((changesOnly_of_next h).others id hid).trans (hs id))

theorem instStep_of_step {s t : State} (h : step s = .next t) (id : InstId) : InstStep s t id := by
  cases hq : s.queue with
  | nil =>
    rw [step_of_queue_nil hq] at h
    cases h
    exact .kept rfl
  | cons e q =>
    rw [step_of_queue hq] at h
    cases e with
    | invoke p cmd =>
      obtain ⟨i, hi⟩ := runCommand_eq_next h
      exact .of_operation (.inl hi) (State.inst_queue_port s q p) id
    | start p cmd =>
      obtain ⟨i, hi⟩ := runCommand_eq_next h
      exact .of_operation (.inr hi) (State.inst_queue_port s q p) id
    | tick p =>
      by_cases hid : id = p.inst
      · exact .ticked p _ h hid.symm (State.inst_queue s q id)
      · exact .kept (((Out.ChangesOnly.of_tick p _).next h).others id hid |>.trans (State.inst_queue s q id))
    | reset id' =>
      cases h
      by_cases hid : id = id'
      · subst hid
        exact .reset q hq (by simp)
      · exact .kept (by rw [inst_resetInst_ne _ hid, State.inst_queue])

/-- No command on a faulted instance has a next state (R226). -/
theorem queue_ne_command_of_fault {s t : State} (h : step s = .next t) {p : Port} (hf : (s.inst p.inst).fault ≠ 0)
    (cmd : List Byte) (q : List Event) : s.queue ≠ .invoke p cmd :: q ∧ s.queue ≠ .start p cmd :: q := by
  constructor <;> intro hq <;> rw [step_of_queue hq] at h <;> obtain ⟨i, hi⟩ := runCommand_eq_next h
  · exact hf (by simpa [State.here] using fault_eq_zero_of_next (.inl hi))
  · exact hf (by simpa [State.here] using fault_eq_zero_of_next (.inr hi))

/-- Over a step without a reset of the instance its fault register stays, or takes a code in place of 0. -/
theorem faultFrom_of_step {s t : State} {id : InstId} (h : step s = .next t) (hreset : ∀ q, s.queue ≠ .reset id :: q) :
    FaultFrom (s.inst id).fault (t.inst id) := by
  cases instStep_of_step h id with
  | kept hkept => exact .inl (by rw [hkept])
  | reset q hq _ => exact absurd hq (hreset q)
  | operated i s1 hop hport hhere =>
    subst hport
    exact hhere ▸ faultFrom_of_next hop
  | ticked p s1 htick hport hinst =>
    subst hport
    exact hinst ▸ faultFrom_of_tick htick

theorem fault_of_reset {s t : State} {id : InstId} {q : List Event} (h : step s = .next t) (hq : s.queue = .reset id :: q) :
    (t.inst id).fault = 0 := by
  rw [step_of_queue hq] at h
  cases h
  simp [Inst.construct]

/-- Settles O17: a reset clears the register, and any other step keeps it or stores a code in place of 0 (`FaultFrom`); a command on
a faulted instance is refused. -/
theorem faultRegisterIsSticky : Obligations.FaultRegisterIsSticky := by
  intro s t id h
  refine ⟨fun hf hreset => ?_, fun h0 => ?_, fun ⟨q, hq⟩ => fault_of_reset h hq, fun hf p cmd q hp => ?_⟩
  · exact (faultFrom_of_step h hreset).resolve_right fun hc => hf hc.1
  · by_cases hreset : ∃ q, s.queue = .reset id :: q
    · exact .inl (fault_of_reset h hreset.choose_spec)
    · obtain hkept | ⟨-, hcode⟩ := faultFrom_of_step h (not_exists.mp hreset)
      · exact .inl (hkept.trans h0)
      · exact .inr hcode
  · subst hp
    exact queue_ne_command_of_fault h hf cmd q

end Sys2Proof.Machine
/-! ## The invariant -/

namespace Sys2Proof.Machine

/-- The invariant of an instance but for what it says of the registers of its agents. -/
def Inst.StoreOk (I : Inst) : Prop :=
  I.params.Legal ∧ I.CursorsInRange ∧ I.ViewsOrdered ∧ I.HeldWritten ∧ I.SlotsLegal ∧ I.iterOk = true ∧ I.faultOk = true

theorem Inst.inv_iff (I : Inst) : I.Inv ↔ I.StoreOk ∧ I.producerOk = true ∧ I.consumerOk = true := by
  unfold Inst.StoreOk
  tauto

theorem State.inv_iff (s : State) : s.Inv ↔ ∀ id, (s.inst id).Inv :=
  ⟨fun h id => by cases id <;> [exact h.1; exact h.2], fun h => ⟨h .rx, h .tx⟩⟩

/-! ### Construction -/

theorem construct_inv {p : Params} (hp : p.Legal) : (Inst.construct p).Inv := by
  have hN : 0 < p.N := by have := hp.1; omega
  have hzero : forward p.N 0 0 = 0 := forward_self hN
  refine ⟨hp, ⟨hN, hN, hN, hN⟩, ⟨Nat.le_refl _, Nat.le_refl _⟩, fun i hi => ?_, ⟨rfl, nofun⟩, producerOk_of_idle rfl,
    consumerOk_of_fresh rfl, rfl, rfl⟩
  exact absurd hi (by simp [Inst.LEN, Inst.construct, lengthOf, hzero])

/-- Settles O9: both instances satisfy `Inst.Inv` as constructed, and an idle CONSUMER satisfies `codecOk`. -/
theorem constructedSystemSatisfiesTheInvariants : Obligations.ConstructedSystemSatisfiesTheInvariants :=
  fun _ _ hrx htx => ⟨⟨construct_inv hrx, construct_inv htx⟩, rfl, rfl⟩

/-! ### Cursors and views on their way round the array -/

/-- Two ways on end to end are one way on, where `b` comes before `c` on the way from `a`. -/
theorem forward_trans {N a b c : Nat} (ha : a < N) (hb : b < N) (hc : c < N) (hbc : forward N a b ≤ forward N a c) :
    forward N a b + forward N b c = forward N a c := by
  rw [forward_eq ha hb, forward_eq ha hc] at *
  rw [forward_eq hb hc]
  split_ifs at * <;> omega

/-- A cursor that goes on by `j`, seen from `a`, as long as it does not pass `a`. -/
theorem forward_step {N a b j : Nat} (ha : a < N) (hb : b < N) (hj : forward N a b + j < N) :
    forward N a ((b + j) % N) = forward N a b + j := by
  conv_lhs => rw [← add_forward ha hb, Nat.mod_add_mod, Nat.add_assoc]
  exact forward_add ha hj

namespace Inst.StoreOk

variable {I : Inst}

theorem headSeen (h : I.StoreOk) {v : Nat} (hv : OnTheWay I.params.N I.headView I.head v) :
    ({ I with headView := v } : Inst).StoreOk := by
  obtain ⟨hp, ⟨hh, ht, hhv, htv⟩, ⟨h1, h2⟩, hheld, hslots, hiter, hfault⟩ := h
  obtain ⟨j, hj, rfl⟩ := hv hhv hh
  have htotal := forward_trans htv hhv hh h2
  have hlt := forward_lt (by omega : 0 < I.params.N) I.tailView I.head
  have hstep := forward_step htv hhv (show forward I.params.N I.tailView I.headView + j < I.params.N by omega)
  refine ⟨hp, ⟨hh, ht, Nat.mod_lt _ (by omega), htv⟩, ⟨?_, ?_⟩, hheld, hslots, hiter, hfault⟩ <;> dsimp only <;> omega

theorem tailSeen (h : I.StoreOk) {v : Nat} (hv : OnTheWay I.params.N I.tailView I.tail v) :
    ({ I with tailView := v } : Inst).StoreOk := by
  obtain ⟨hp, ⟨hh, ht, hhv, htv⟩, ⟨h1, h2⟩, hheld, hslots, hiter, hfault⟩ := h
  obtain ⟨j, hj, rfl⟩ := hv htv ht
  refine ⟨hp, ⟨hh, ht, hhv, Nat.mod_lt _ (by omega)⟩, ⟨?_, ?_⟩, hheld, hslots, hiter, hfault⟩ <;> dsimp only
  · rw [forward_split htv ht hj, forward_split htv hhv (hj.trans h1)]
    omega
  · rw [forward_split htv hhv (hj.trans h1), forward_split htv hh (hj.trans (h1.trans h2))]
    omega

theorem slotWritten (h : I.StoreOk) {p : Nat} {v : Elem} (hp : p < I.params.N) (hv : v < 2 ^ I.params.W) :
    ({ I with slots := I.slots.write p v } : Inst).StoreOk := by
  obtain ⟨hparams, hcursors, hviews, hheld, ⟨hwf, hslots⟩, hiter, hfault⟩ := h
  refine ⟨hparams, hcursors, hviews, fun i hi => ?_, ⟨Memory.wf_write _ _ _ hwf, fun e he => ?_⟩, hiter, hfault⟩
  · by_cases hat : slotIndex I.params.N I.tail i = p
    · simp [Inst.heldAt, hat]
    · simpa [Inst.heldAt, Memory.read_write_ne I.slots v hat] using hheld i hi
  · obtain rfl | he := Memory.mem_write I.slots p v e he
    · exact ⟨hp, hv⟩
    · exact hslots e he

theorem headPublished (h : I.StoreOk) (hfull : fullAt I.params.N I.producerLength = false)
    (hwritten : (I.slots.read I.head).isSome = true) : ({ I with head := inc I.params.N I.head } : Inst).StoreOk := by
  obtain ⟨hp, ⟨hh, ht, hhv, htv⟩, ⟨h1, h2⟩, hheld, hslots, hiter, hfault⟩ := h
  have hN : 0 < I.params.N := by omega
  have hroom : forward I.params.N I.tailView I.head ≠ I.params.N - 1 := by
    simpa [fullAt, Inst.producerLength, lengthOf] using hfull
  have hlen : forward I.params.N I.tail I.head ≠ I.params.N - 1 := by
    have := forward_trans htv ht hh (h1.trans h2)
    have := forward_lt hN I.tailView I.head
    omega
  refine ⟨hp, ⟨inc_lt hN _, ht, hhv, htv⟩, ⟨h1, ?_⟩, fun i hi => ?_, hslots, hiter, hfault⟩
  · dsimp only
    rw [forward_inc_right htv hh hroom]
    omega
  · obtain hi | hi : i < I.LEN ∨ i = I.LEN := by
      simp only [Inst.LEN, lengthOf, forward_inc_right ht hh hlen] at hi ⊢
      omega
    · exact hheld i hi
    · subst hi
      simpa [Inst.heldAt, Inst.LEN, slotIndex_length hh ht] using hwritten

theorem tailPublished (h : I.StoreOk) (hne : I.headView ≠ I.tail) :
    ({ I with tail := inc I.params.N I.tail } : Inst).StoreOk := by
  obtain ⟨hp, ⟨hh, ht, hhv, htv⟩, ⟨h1, h2⟩, hheld, hslots, hiter, hfault⟩ := h
  have hN : 0 < I.params.N := by omega
  have hseen : forward I.params.N I.tailView I.tail < forward I.params.N I.tailView I.headView := by
    have htotal := forward_trans htv ht hhv h1
    have hpos : forward I.params.N I.tail I.headView ≠ 0 := fun h0 => hne ((forward_eq_zero ht hhv).mp h0).symm
    omega
  have hnonempty : I.tail ≠ I.head := by
    intro he
    rw [he] at hseen
    omega
  have hbound := forward_lt hN I.tailView I.headView
  refine ⟨hp, ⟨hh, inc_lt hN _, hhv, htv⟩, ⟨?_, h2⟩, fun i hi => ?_, hslots, hiter, hfault⟩
  · dsimp only
    rw [forward_inc_right htv ht (by omega)]
    exact hseen
  · have hlen := forward_inc_left ht hh hnonempty
    have hi' : i + 1 < I.LEN := by
      simp only [Inst.LEN, lengthOf] at hi ⊢
      omega
    simpa [Inst.heldAt, slotIndex_inc] using hheld (i + 1) hi'

theorem cleared (h : I.StoreOk) : ({ I with head := 0, tail := 0, headView := 0, tailView := 0 } : Inst).StoreOk := by
  obtain ⟨hp, ⟨hh, -⟩, -, -, hslots, hiter, hfault⟩ := h
  have hN : 0 < I.params.N := by omega
  refine ⟨hp, ⟨hN, hN, hN, hN⟩, ⟨Nat.le_refl _, Nat.le_refl _⟩, fun i hi => ?_, hslots, hiter, hfault⟩
  exact absurd hi (by simp [Inst.LEN, lengthOf, forward_self hN])

theorem iterSet (h : I.StoreOk) {k : Nat} (hk : 0 < I.params.N → k < I.params.N) :
    ({ I with cons := { I.cons with k := some k } } : Inst).StoreOk := by
  obtain ⟨hp, hcursors, hviews, hheld, hslots, -, hfault⟩ := h
  refine ⟨hp, hcursors, hviews, hheld, hslots, ?_, hfault⟩
  exact decide_eq_true (Nat.le_sub_one_of_lt (hk (by omega)))

theorem faultTaken (h : I.StoreOk) {e : ErrorClass} (he : e.Stored) :
    ({ I with fault := errorCode e } : Inst).StoreOk := by
  obtain ⟨hp, hcursors, hviews, hheld, hslots, hiter, -⟩ := h
  refine ⟨hp, hcursors, hviews, hheld, hslots, hiter, ?_⟩
  obtain he | he | he := he <;> simp [Inst.faultOk, he]

end Inst.StoreOk

/-! ### The rules of the invariant -/

/-- The invariant of an instance but for what it says of the registers of the agent at work. While the PRODUCER is at work no `clear`
is in progress. -/
def Inst.InvAtWork : Role → Inst → Prop
  | .producer, I => I.StoreOk ∧ I.consumerOk = true ∧ clearing I = false
  | .consumer, I => I.StoreOk ∧ I.producerOk = true

/-- Only a `clear` in progress asks anything of the PRODUCER. -/
theorem consumerOk_prod {I : Inst} (h : clearing I = false) (p : Producer) :
    ({ I with prod := p } : Inst).consumerOk = I.consumerOk := by
  simp only [Inst.consumerOk]
  cases hcpc : I.cons.regs.cpc with
  | CL => simp [clearing, hcpc] at h
  | _ => rfl

/-- An idle PRODUCER's registers are right whatever the cursors. -/
theorem producerOk_cleared {I : Inst} (h : I.producerOk = true) (hidle : prodBusy I = false) :
    ({ I with head := 0, tail := 0, headView := 0, tailView := 0 } : Inst).producerOk = true := by
  have hppc : I.prod.regs.ppc = .idle := by simpa [prodBusy] using hidle
  simpa [Inst.producerOk, hppc] using h

theorem opRules_inv : OpRules True Inst.InvAtWork Inst.Inv where
  tailSeen hI hv := ⟨hI.1.tailSeen hv, hI.2⟩
  slotWritten hI hp hv := ⟨hI.1.slotWritten hp (hv trivial), hI.2⟩
  headPublished hI hh := by
    obtain ⟨rfl, hfull, hwritten⟩ := hh trivial
    exact ⟨hI.1.headPublished hfull hwritten, hI.2⟩
  headSeen hI hv := ⟨hI.1.headSeen hv, hI.2⟩
  tailPublished hI ht := by
    obtain ⟨rfl, hne⟩ := ht trivial
    exact ⟨hI.1.tailPublished hne, hI.2⟩
  cleared hI hidle := ⟨hI.1.cleared, producerOk_cleared hI.2 (hidle trivial)⟩
  iterSet hI hk := ⟨hI.1.iterSet (hk trivial), hI.2⟩
  faultTaken {role _ _} hI _ he := by
    cases role with
    | producer => exact ⟨hI.1.faultTaken he, hI.2⟩
    | consumer => exact ⟨hI.1.faultTaken he, hI.2⟩
  prodFree {I} R r hI := ⟨hI.1, (consumerOk_prod hI.2.2 ⟨R, r⟩).trans hI.2.1, hI.2.2⟩
  consFree _ _ _ hI := hI
  prodDone {I} hI hR := I.inv_iff.mpr ⟨hI.1, hR trivial, hI.2.1⟩
  consDone {I} hI hR := I.inv_iff.mpr ⟨hI.1, hI.2, hR trivial⟩

/-! ### Steps -/

theorem Inst.Inv.atWork {I : Inst} (h : I.Inv) (role : Role) (hclear : role = .producer → clearing I = false) :
    I.InvAtWork role := by
  obtain ⟨hstore, hproducer, hconsumer⟩ := I.inv_iff.mp h
  cases role with
  | producer => exact ⟨hstore, hconsumer, hclear rfl⟩
  | consumer => exact ⟨hstore, hproducer⟩

/-- A `clear` in progress is alone (R123). -/
theorem clearing_of_producer_busy {I : Inst} (h : I.consumerOk = true) (hbusy : I.prod.regs.ppc ≠ .idle) :
    clearing I = false := by
  by_contra hc
  have hcpc : I.cons.regs.cpc = .CL := by simpa [clearing] using hc
  exact hbusy (by simpa [Inst.consumerOk, hcpc] using h)

theorem inv_of_operation {i : Instr} {s t : State} (hs : s.here.Inv) (h : exec i s = .next t ∨ begin i s = .next t) :
    (t.inst s.port.inst).Inv := by
  have hbegins : OpRules.Begins Inst.InvAtWork s := fun _ hw => hs.atWork _ fun _ => (refusalOf_eq_none.mp hw).2.2.2
  obtain h | h := h
  · exact (opRules_inv.exec_ensures i hbegins).of_eq_next h
  · exact (opRules_inv.begin_ensures i hbegins).of_eq_next h

theorem inv_of_tick {p : Port} {s t : State} (hs : (s.inst p.inst).Inv) (h : tick p s = .next t) : (t.inst p.inst).Inv := by
  obtain ⟨-, hproducer, hconsumer⟩ := (s.inst p.inst).inv_iff.mp hs
  exact (opRules_inv.tick_ensures hs (fun hbusy => hs.atWork _ fun _ => clearing_of_producer_busy hconsumer hbusy)
    (hs.atWork .consumer nofun) fun _ => ⟨hproducer, hconsumer⟩).of_eq_next h

/-- Settles O10: an operation or micro-step is made of updates that keep the invariant but for its agent's registers (`opRules_inv`)
and leaves those registers as its step says; a reset constructs the instance anew. -/
theorem everyStepKeepsTheInvariant : Obligations.EveryStepKeepsTheInvariant := by
  intro s t hs h
  rw [State.inv_iff] at hs ⊢
  intro id
  have hI := hs id
  cases instStep_of_step h id with
  | kept hkept => exact hkept ▸ hI
  | reset q _ hreset => exact hreset ▸ construct_inv hI.1
  | operated i s1 hop hport hhere => exact hport ▸ inv_of_operation (hhere ▸ hI) hop
  | ticked p s1 htick hport hinst =>
    subst hport
    exact inv_of_tick (hinst ▸ hI) htick

end Sys2Proof.Machine
/-! ## Cursor reads and the lengths they give -/

namespace Sys2Proof.Machine

/-! ### What a read answers -/

theorem observe_current {p : Params} (hp : p.cursorView = .current) (view cur : Nat) (s : State) :
    observe p view cur s = (cur, s) := by
  simp [observe, hp]

/-- The choice `j` of the environment makes a delayed read answer the value `j` steps after the view. -/
theorem observe_chosen {p : Params} (hp : p.cursorView = .delayed) {view cur j : Nat} (hv : view < p.N) (hc : cur < p.N)
    (hj : j ≤ forward p.N view cur) (s : State) :
    (observe p view cur { s with choices := j :: s.choices }).1 = (view + j) % p.N := by
  simp only [observe, hp]
  split
  next h0 =>
    rw [h0] at hj
    rw [Nat.le_zero.mp hj, ← h0, add_forward hv hc]
  next => rw [draw_listed, Nat.mod_eq_of_lt (Nat.lt_succ_of_le hj)]

/-- What a read answers depends, of the state, on the choices of the environment only. -/
theorem observe_fst_congr (p : Params) (view cur : Nat) {s t : State} (hc : t.choices = s.choices) (hd : t.draws = s.draws) :
    (observe p view cur t).1 = (observe p view cur s).1 := by
  have hdraw : (draw t).1 = (draw s).1 := by
    simp only [draw, hc, hd]
    cases s.choices <;> rfl
  simp only [observe, hdraw]
  cases p.cursorView with
  | current => rfl
  | delayed => dsimp only; split <;> rfl

/-- Settles O22: both reads are an `observe` (`observe_between`, `observe_current`) that then writes the view. -/
theorem cursorReadStaysInTheEnvelope : Obligations.CursorReadStaysInTheEnvelope := by
  rintro s id ⟨-, ⟨hh, ht, hhv, htv⟩, -⟩
  refine ⟨observe_between _ _ _ s hhv hh, fun hp => ?_, rdHead_inst id s, observe_between _ _ _ s htv ht, fun hp => ?_,
    rdTail_inst id s⟩
  · exact congrArg Prod.fst (observe_current hp _ _ s)
  · exact congrArg Prod.fst (observe_current hp _ _ s)

/-- Settles O23: the choice is the number of steps from the view. -/
theorem everyDelayedViewIsPossible : Obligations.EveryDelayedViewIsPossible := by
  rintro s id j ⟨-, ⟨hh, ht, hhv, htv⟩, -⟩ hp
  refine ⟨fun hj => ⟨j, ?_⟩, fun hj => ⟨j, ?_⟩⟩
  · simpa [rdHead] using observe_chosen hp hhv hh hj s
  · simpa [rdTail] using observe_chosen hp htv ht hj s

/-! ### The lengths -/

namespace Inst.StoreOk

variable {I : Inst}

/-- What the CONSUMER has seen and what was published since make up the true length. -/
theorem visible_add (h : I.StoreOk) : I.visible + forward I.params.N I.headView I.head = I.LEN := by
  obtain ⟨-, ⟨hh, ht, hhv, htv⟩, ⟨h1, h2⟩, -⟩ := h
  refine forward_trans ht hhv hh ?_
  have := forward_trans htv ht hhv h1
  have := forward_trans htv ht hh (h1.trans h2)
  omega

/-- What the PRODUCER takes for held is what was taken out since it looked and what is held. -/
theorem producerLength_eq (h : I.StoreOk) : I.producerLength = forward I.params.N I.tailView I.tail + I.LEN := by
  obtain ⟨-, ⟨hh, ht, hhv, htv⟩, ⟨h1, h2⟩, -⟩ := h
  exact (forward_trans htv ht hh (h1.trans h2)).symm

theorem head_lt (h : I.StoreOk) : I.head < I.params.N := by
  obtain ⟨-, ⟨hh, -⟩, -⟩ := h
  exact hh

theorem tail_lt (h : I.StoreOk) : I.tail < I.params.N := by
  obtain ⟨-, ⟨-, ht, -⟩, -⟩ := h
  exact ht

theorem N_pos (h : I.StoreOk) : 0 < I.params.N := Nat.zero_lt_of_lt h.head_lt

theorem LEN_lt (h : I.StoreOk) : I.LEN < I.params.N := forward_lt h.N_pos _ _

theorem visible_le_LEN (h : I.StoreOk) : I.visible ≤ I.LEN := by
  have := h.visible_add
  omega

/-- The CONSUMER has seen more once its view has gone on towards `head` (R62). -/
theorem visible_le_of_headSeen (h : I.StoreOk) {v : Nat} (hv : OnTheWay I.params.N I.headView I.head v) :
    I.visible ≤ ({ I with headView := v } : Inst).visible := by
  have htotal := h.visible_add
  have hlt := h.LEN_lt
  obtain ⟨-, ⟨hh, ht, hhv, -⟩, -⟩ := h
  obtain ⟨j, hj, rfl⟩ := hv hhv hh
  have hstep := forward_step ht hhv (show I.visible + j < I.params.N by omega)
  simp only [Inst.visible, lengthOf] at hstep ⊢
  omega

/-- The PRODUCER takes no more for held once its view has gone on towards `tail` (R63). -/
theorem producerLength_le_of_tailSeen (h : I.StoreOk) {v : Nat} (hv : OnTheWay I.params.N I.tailView I.tail v) :
    ({ I with tailView := v } : Inst).producerLength ≤ I.producerLength := by
  obtain ⟨-, ⟨hh, ht, -, htv⟩, ⟨h1, h2⟩, -⟩ := h
  obtain ⟨j, hj, rfl⟩ := hv htv ht
  simp only [Inst.producerLength, lengthOf]
  rw [forward_split htv hh (hj.trans (h1.trans h2))]
  omega

end Inst.StoreOk

/-! ### The instance after a read -/

variable {id : InstId} {s : State}

theorem rdHead_onTheWay (id : InstId) (s : State) :
    OnTheWay (s.inst id).params.N (s.inst id).headView (s.inst id).head (rdHead id s).1 :=
  observe_between _ _ _ s

theorem rdTail_onTheWay (id : InstId) (s : State) :
    OnTheWay (s.inst id).params.N (s.inst id).tailView (s.inst id).tail (rdTail id s).1 :=
  observe_between _ _ _ s

theorem storeOk_rdHead (h : (s.inst id).StoreOk) : ((rdHead id s).2.inst id).StoreOk := by
  rw [rdHead_inst]
  exact h.headSeen (rdHead_onTheWay id s)

theorem storeOk_rdTail (h : (s.inst id).StoreOk) : ((rdTail id s).2.inst id).StoreOk := by
  rw [rdTail_inst]
  exact h.tailSeen (rdTail_onTheWay id s)

/-- The CONSUMER's length is what it has seen after its read. -/
theorem lenByConsumer_fst (id : InstId) (s : State) : (lenByConsumer id s).1 = ((rdHead id s).2.inst id).visible := by
  rw [rdHead_inst]
  rfl

/-- The PRODUCER's length is what it takes for held after its read. -/
theorem lenByProducer_fst (id : InstId) (s : State) :
    (lenByProducer id s).1 = ((rdTail id s).2.inst id).producerLength := by
  rw [rdTail_inst]
  rfl

theorem lenByConsumer_le_LEN (h : (s.inst id).StoreOk) : (lenByConsumer id s).1 ≤ (s.inst id).LEN := by
  have hle := (storeOk_rdHead h).visible_le_LEN
  rw [← lenByConsumer_fst, rdHead_inst] at hle
  exact hle

theorem LEN_le_lenByProducer (h : (s.inst id).StoreOk) : (s.inst id).LEN ≤ (lenByProducer id s).1 := by
  have heq := (storeOk_rdTail h).producerLength_eq
  rw [← lenByProducer_fst, rdTail_inst] at heq
  exact heq ▸ Nat.le_add_left _ _

/-- Settles O24: after the read the view is between the one before it and the cursor (`Inst.StoreOk.visible_add`,
`Inst.StoreOk.producerLength_eq`). -/
theorem lengthsBoundTheTrueLength : Obligations.LengthsBoundTheTrueLength := by
  intro s id hinv
  obtain ⟨hs, -⟩ := (s.inst id).inv_iff.mp hinv
  refine ⟨⟨?_, lenByConsumer_le_LEN hs⟩, ⟨LEN_le_lenByProducer hs, ?_⟩, ?_⟩
  · rw [lenByConsumer_fst, rdHead_inst]
    exact hs.visible_le_of_headSeen (rdHead_onTheWay id s)
  · exact Nat.le_sub_one_of_lt (forward_lt hs.N_pos _ _)
  · rw [lenByProducer_fst, rdTail_inst]
    exact hs.producerLength_le_of_tailSeen (rdTail_onTheWay id s)

end Sys2Proof.Machine
/-! ## Reads of slots, and peek -/

namespace Sys2Proof.Machine

variable {id : InstId} {s : State}

/-- A slot that holds an element is read, and under ordered handoff the read answers that element (R56, R64). -/
theorem memRead_held (h : (s.inst id).StoreOk) {i : Nat} (hi : i < (s.inst id).LEN) :
    ∃ v t, memRead id (slotIndex (s.inst id).params.N (s.inst id).tail i) s = .ok v t ∧
      ((s.inst id).params.orderedHandoff = true → (s.inst id).heldAt i = some v) := by
  have hp := slotIndex_lt h.N_pos (s.inst id).tail i
  obtain ⟨-, -, -, hwritten, -⟩ := h
  obtain ⟨hout, -⟩ | ⟨-, -, ⟨v, hv, hr⟩ | ⟨hnone, -⟩⟩ | ⟨-, hweak, hr⟩ :=
    memRead_cases id (slotIndex (s.inst id).params.N (s.inst id).tail i) s
  · exact absurd hp hout
  · exact ⟨v, s, hr, fun _ => hv⟩
  · have hsome := hwritten i hi
    rw [Inst.heldAt, hnone] at hsome
    cases hsome
  · exact ⟨_, _, hr, by simp [hweak]⟩

/-- The oldest element stands in the slot `tail` names. -/
theorem memRead_oldest (h : (s.inst id).StoreOk) (hpos : 0 < (s.inst id).LEN) :
    ∃ v t, memRead id (s.inst id).tail s = .ok v t := by
  obtain ⟨v, t, hr, -⟩ := memRead_held h hpos
  rw [slotIndex_zero h.tail_lt] at hr
  exact ⟨v, t, hr⟩

/-- Without ordered handoff a read of a slot is a draw of `W` bits (R64). -/
theorem memRead_weak {p : Nat} (hp : p < (s.inst id).params.N) (hweak : (s.inst id).params.orderedHandoff = false) :
    memRead id p s = .ok ((draw s).1 % 2 ^ (s.inst id).params.W) (draw s).2 := by
  simp [memRead, hp, hweak]

/-- A peek below the length the CONSUMER reads answers, after that read alone. -/
theorem peekRun_of_lt (h : (s.inst id).StoreOk) {i : Nat} (hi : i < (lenByConsumer id s).1) :
    ∃ v t, peekRun id i s = .ok v t ∧ t.inst id = { s.inst id with headView := (rdHead id s).1 } ∧
      ((s.inst id).params.orderedHandoff = true → (s.inst id).heldAt i = some v) := by
  obtain ⟨hle, -⟩ | ⟨-, hr⟩ := peekRun_cases id i s
  · omega
  have hlen : i < ((rdHead id s).2.inst id).LEN := by
    rw [lenByConsumer_fst] at hi
    exact hi.trans_le (storeOk_rdHead h).visible_le_LEN
  obtain ⟨v, t, hread, hv⟩ := memRead_held (storeOk_rdHead h) hlen
  have hinst := memRead_eq_ok hread id
  rw [rdHead_inst] at hread hv hinst
  exact ⟨v, t, hr.trans hread, hinst, hv⟩

/-! ### An admitted invocation -/

theorem storeOk_setRet {p : Port} (h : (s.inst p.inst).StoreOk) (r : Option Result) :
    ((s.setRet p r).inst p.inst).StoreOk := by
  rw [State.inst_setRet]
  cases p.role <;> exact h

theorem storeOk_of_inv (h : s.Inv) (id : InstId) : (s.inst id).StoreOk :=
  ((s.inst id).inv_iff.mp ((State.inv_iff s).mp h id)).1

/-- An emptied result port changes nothing of what a read of `head` answers. -/
theorem rdHead_setRet (s : State) (p : Port) (r : Option Result) :
    (rdHead p.inst (s.setRet p r)).1 = (rdHead p.inst s).1 := by
  simpa [rdHead] using observe_fst_congr _ _ _ (State.setRet_choices s p r) (State.setRet_draws s p r)

theorem lenByConsumer_setRet (s : State) (p : Port) (r : Option Result) :
    (lenByConsumer p.inst (s.setRet p r)).1 = (lenByConsumer p.inst s).1 := by
  simp [lenByConsumer, rdHead_setRet]

/-- The role an admitted CONSUMER's invocation comes from, and that its instance holds no fault. -/
theorem admitted_consumer (h : Admitted .consumer s) : s.port.role = .consumer ∧ s.here.fault = 0 := by
  obtain ⟨hfault, hw, -⟩ := refusalOf_eq_none.mp h
  exact ⟨permits_consumer hw, hfault⟩

/-- An admitted peek of an offset of the right width runs. -/
theorem exec_peek_admitted (h : Admitted .consumer s) {i : Nat} (hi : i < 2 ^ s.here.params.CW) :
    exec (.peek i) s = finish (peekRun s.port.inst i (s.setRet s.port none)) .elem := by
  have hwidth : i < 2 ^ (s.setRet s.port none).here.params.CW := by simpa [State.here] using hi
  rw [exec, execPeek, invoked_admitted h, if_neg (not_not.mpr hwidth), State.setRet_port]

/-- A part of an operation that ends with a value makes it the result of the port. -/
theorem finish_of_ok {α : Type} {r : Run α} {a : α} {t : State} (hr : r = .ok a t) (hc : r.ChangesOnly id s)
    (result : α → Result) : finish r result = .next (returnWith s.port (result a) t) := by
  subst hr
  rw [finish, hc.port]

/-- A whole operation of the port leaves what is elsewhere. -/
theorem sameElsewhere_of_exec {i : Instr} {t : State} (h : exec i s = .next t) : SameElsewhere s t := by
  obtain ⟨hqueue, hport, hothers, -⟩ := changesOnly_of_next (.inl h)
  exact ⟨hqueue, hport, hothers⟩

theorem here_of_exec {i : Instr} {t : State} (h : exec i s = .next t) : t.here = t.inst s.port.inst := by
  rw [State.here, (changesOnly_of_next (.inl h)).port]

theorem result_consumer {p : Port} (hrole : p.role = .consumer) : s.result p = (s.inst p.inst).cons.ret := by
  rw [State.result, hrole]

/-- A length the CONSUMER reads has the width of an offset. -/
theorem lt_two_pow_CW_of_lt_len (h : (s.inst id).StoreOk) {i : Nat} (hi : i < (lenByConsumer id s).1) :
    i < 2 ^ (s.inst id).params.CW := by
  have hle := lenByConsumer_le_LEN h
  have hlt := h.LEN_lt
  obtain ⟨⟨-, -, -, hCW⟩, -⟩ := h
  omega

/-- The instance of an invocation of the CONSUMER as its operation finds it: the result port emptied. -/
theorem inst_setRet_consumer {p : Port} (hrole : p.role = .consumer) (r : Option Result) :
    (s.setRet p r).inst p.inst = { s.inst p.inst with cons := { (s.inst p.inst).cons with ret := r } } := by
  rw [State.inst_setRet, hrole]

theorem returnWith_inst_consumer {p : Port} (hrole : p.role = .consumer) (r : Result) :
    (returnWith p r s).inst p.inst =
      { s.inst p.inst with cons := { (s.inst p.inst).cons with regs := CRegs.idle, ret := some r } } := by
  rw [returnWith_inst, hrole]

theorem raise_inst_consumer {p : Port} (hrole : p.role = .consumer) (e : ErrorClass) (hfault : (s.inst p.inst).fault = 0) :
    (raise p e s).inst p.inst =
      { s.inst p.inst with
        fault := errorCode e, cons := { (s.inst p.inst).cons with regs := CRegs.idle, ret := none } } := by
  rw [raise_inst, hrole, if_pos hfault]

/-! ### Whole peeks -/

/-- A whole peek below the length the CONSUMER reads: its result, and the instance after it. -/
theorem exec_peek_of_lt (hinv : s.Inv) (hadm : Admitted .consumer s) {i : Nat} (hi : i < (lenByConsumer s.port.inst s).1) :
    ∃ t v, exec (.peek i) s = .next t ∧ t.result s.port = some (.elem v) ∧
      t.inst s.port.inst = { s.here with
        headView := (rdHead s.port.inst s).1, cons := { s.here.cons with regs := CRegs.idle, ret := some (.elem v) } } ∧
      (s.here.params.orderedHandoff = true → s.here.heldAt i = some v) := by
  have hs := storeOk_of_inv hinv s.port.inst
  obtain ⟨hrole, -⟩ := admitted_consumer hadm
  obtain ⟨v, t, hr, hinst, hv⟩ := peekRun_of_lt (storeOk_setRet hs none) (hi.trans_eq (lenByConsumer_setRet s s.port none).symm)
  rw [inst_setRet_consumer hrole, rdHead_setRet] at hinst
  rw [inst_setRet_consumer hrole] at hv
  refine ⟨returnWith s.port (.elem v) t, v, ?_, result_returnWith _ _ _, ?_, hv⟩
  · rw [exec_peek_admitted hadm (lt_two_pow_CW_of_lt_len hs hi), finish_of_ok hr (Run.ChangesOnly.of_peekRun _ _ _),
      State.setRet_port]
  · rw [returnWith_inst_consumer hrole, hinst]
    rfl

/-- A whole peek at or beyond the length the CONSUMER reads: the instance after it. -/
theorem exec_peek_of_len_le (hadm : Admitted .consumer s) {i : Nat} (hwidth : i < 2 ^ s.here.params.CW)
    (hle : (lenByConsumer s.port.inst s).1 ≤ i) :
    ∃ t, exec (.peek i) s = .next t ∧
      t.inst s.port.inst = { s.here with
        fault := 5, headView := (rdHead s.port.inst s).1, cons := { s.here.cons with regs := CRegs.idle, ret := none } } := by
  obtain ⟨hrole, hfault⟩ := admitted_consumer hadm
  have hport : (⟨s.port.inst, .consumer⟩ : Port) = s.port := by rw [← hrole]
  have hread : (rdHead s.port.inst (s.setRet s.port none)).2.inst s.port.inst =
      { s.here with headView := (rdHead s.port.inst s).1, cons := { s.here.cons with ret := none } } := by
    rw [rdHead_inst, rdHead_setRet, inst_setRet_consumer hrole]
    rfl
  obtain ⟨-, hr⟩ | ⟨hlt, -⟩ := peekRun_cases s.port.inst i (s.setRet s.port none)
  · refine ⟨_, by rw [exec_peek_admitted hadm hwidth, hr, finish], ?_⟩
    rw [hport, raise_inst_consumer hrole .indexOutOfRange (by rw [hread]; exact hfault), hread]
    rfl
  · rw [lenByConsumer_setRet] at hlt
    omega

/-- Settles O31: the peek reads the length, then the slot of an element it has seen (`exec_peek_of_lt`). -/
theorem peekReturnsTheElementAtAnOffset : Obligations.PeekReturnsTheElementAtAnOffset := by
  intro i s hinv hadm hi
  obtain ⟨t, v, hexec, hresult, hinst, hv⟩ := exec_peek_of_lt hinv hadm hi
  refine ⟨t, v, hexec, hresult, sameElsewhere_of_exec hexec, ?_, ?_, ?_, hv⟩ <;> rw [here_of_exec hexec, hinst]
  · exact ⟨rfl, rfl, rfl, rfl, rfl⟩
  · exact ⟨rfl, rfl, rfl, rfl, rfl, rfl⟩

/-- Settles O32: the peek reads the length and takes the fault IndexOutOfRange (`exec_peek_of_len_le`). -/
theorem peekBeyondTheLengthFaults : Obligations.PeekBeyondTheLengthFaults := by
  intro i s hadm hwidth hle
  obtain ⟨t, hexec, hinst⟩ := exec_peek_of_len_le hadm hwidth hle
  have hresult : t.result s.port = none := by
    rw [result_consumer (admitted_consumer hadm).1, hinst]
  refine ⟨t, hexec, ?_, hresult, sameElsewhere_of_exec hexec, ?_, ?_, ?_, ?_⟩ <;> rw [here_of_exec hexec, hinst]
  exact ⟨rfl, rfl, rfl, rfl, rfl⟩

theorem draw_fst_of_choices {c : Nat} {cs : List Nat} (h : s.choices = c :: cs) : (draw s).1 = c := by
  simp [draw, h]

theorem rdHead_current (hview : (s.inst id).params.cursorView = .current) :
    rdHead id s = ((s.inst id).head, s.setInst id { s.inst id with headView := (s.inst id).head }) := by
  simp [rdHead, observe_current hview]

theorem lenByConsumer_current (hview : (s.inst id).params.cursorView = .current) :
    (lenByConsumer id s).1 = (s.inst id).LEN := by
  rw [lenByConsumer, rdHead_current hview]
  rfl

/-- Without ordered handoff and under the current view, a peek answers the first listed choice, brought to `W` bits (R64). -/
theorem peekRun_weak (h : (s.inst id).StoreOk) (hweak : (s.inst id).params.orderedHandoff = false)
    (hview : (s.inst id).params.cursorView = .current) {i c : Nat} {cs : List Nat} (hc : s.choices = c :: cs)
    (hi : i < (s.inst id).LEN) :
    peekRun id i s = .ok (c % 2 ^ (s.inst id).params.W) (draw (rdHead id s).2).2 := by
  have hlen := lenByConsumer_current hview
  have hdraw : (draw (rdHead id s).2).1 = c := by
    rw [rdHead_current hview]
    exact draw_fst_of_choices (by rw [State.setInst_choices, hc])
  have hparams : ((rdHead id s).2.inst id).params = (s.inst id).params := by rw [rdHead_inst]
  obtain ⟨hle, -⟩ | ⟨-, hr⟩ := peekRun_cases id i s
  · omega
  · rw [hr, memRead_weak (by rw [hparams]; exact slotIndex_lt h.N_pos _ _) (by rw [hparams]; exact hweak), hdraw, hparams]

theorem exec_peek_weak (hinv : s.Inv) (hadm : Admitted .consumer s) (hweak : s.here.params.orderedHandoff = false)
    (hview : s.here.params.cursorView = .current) {i c : Nat} {cs : List Nat} (hc : s.choices = c :: cs)
    (hi : i < s.here.LEN) :
    ∃ t, exec (.peek i) s = .next t ∧ t.result s.port = some (.elem (c % 2 ^ s.here.params.W)) := by
  have hs := storeOk_of_inv hinv s.port.inst
  have hlen := lenByConsumer_current hview
  have hinst := inst_setRet_consumer (s := s) (admitted_consumer hadm).1 none
  have hr := peekRun_weak (storeOk_setRet hs none) (i := i) (c := c) (cs := cs) (by rwa [hinst]) (by rwa [hinst])
    (by rwa [State.setRet_choices]) (by rwa [hinst])
  rw [State.setRet_params] at hr
  refine ⟨returnWith s.port (.elem (c % 2 ^ s.here.params.W)) (draw (rdHead s.port.inst (s.setRet s.port none)).2).2, ?_,
    result_returnWith _ _ _⟩
  rw [exec_peek_admitted hadm (lt_two_pow_CW_of_lt_len hs (hlen ▸ hi)), finish_of_ok hr (Run.ChangesOnly.of_peekRun _ _ _),
    State.setRet_port]
  rfl

/-- Settles O39: the choice is the value itself. -/
theorem weakHandoffReadsAnyValue : Obligations.WeakHandoffReadsAnyValue := by
  intro s i w hinv hadm hweak hview hi hw
  have hhere : ({ s with choices := w :: s.choices } : State).here = s.here := State.inst_choices s _ _
  obtain ⟨t, hexec, hresult⟩ := exec_peek_weak (s := { s with choices := w :: s.choices }) (i := i) hinv
    (by simpa [Admitted, refusalOf, hhere] using hadm) (by rwa [hhere]) (by rwa [hhere]) rfl (by rwa [hhere])
  rw [hhere, Nat.mod_eq_of_lt hw] at hresult
  exact ⟨w, t, hexec, hresult⟩

end Sys2Proof.Machine
/-! ## The queue a buffer is -/

namespace Sys2Proof.Machine

/-! ### What is held after a store and after a removal -/

namespace Inst.StoreOk

variable {I : Inst}

/-- The PRODUCER's slot is free: writing it leaves every element held (R66). -/
theorem read_write_head (h : I.StoreOk) {i : Nat} (hi : i < I.LEN) (v : Elem) :
    (I.slots.write I.head v).read (slotIndex I.params.N I.tail i) = I.heldAt i :=
  Memory.read_write_ne I.slots v (slotIndex_ne_head h.head_lt h.tail_lt hi)

/-- One more element once `head` is published, if there is room. -/
theorem length_head_inc (h : I.StoreOk) (hroom : I.LEN ≠ I.params.N - 1) :
    lengthOf I.params.N (inc I.params.N I.head) I.tail = I.LEN + 1 :=
  forward_inc_right h.tail_lt h.head_lt hroom

/-- A stored value is held after what was held (R65). -/
theorem held_push (h : I.StoreOk) (hroom : I.LEN ≠ I.params.N - 1) (v : Elem) (w : Nat) (p : Producer) :
    ({ I with
      slots := I.slots.write I.head v, head := inc I.params.N I.head, tailView := w, prod := p } : Inst).held =
      I.held ++ [some v] := by
  have hlast := slotIndex_length h.head_lt h.tail_lt
  simp only [Inst.held, Inst.LEN, h.length_head_inc hroom, List.range_succ, List.map_append, List.map_singleton]
  congr 1
  · exact List.map_congr_left fun i hi => h.read_write_head (List.mem_range.mp hi) v
  · simp only [Inst.heldAt, hlast, Memory.read_write_same]

/-- A removed element is the oldest one held (R65). -/
theorem held_pop (h : I.StoreOk) (hne : I.tail ≠ I.head) (w : Nat) (c : Consumer) :
    I.held = I.slots.read I.tail ::
      ({ I with headView := w, tail := inc I.params.N I.tail, cons := c } : Inst).held := by
  have hlen : I.LEN = lengthOf I.params.N I.head (inc I.params.N I.tail) + 1 :=
    (forward_inc_left h.tail_lt h.head_lt hne).symm
  simp only [Inst.held, hlen, List.range_succ_eq_map, List.map_cons, List.map_map]
  congr 1
  · rw [Inst.heldAt, slotIndex_zero h.tail_lt]
  · exact List.map_congr_left fun i _ => by simp only [Function.comp, Inst.heldAt, slotIndex_inc]

/-- A buffer whose `tail` is behind the CONSUMER's view of `head` is not empty. -/
theorem LEN_pos (h : I.StoreOk) (hne : I.headView ≠ I.tail) : 0 < I.LEN := by
  have hle := h.visible_le_LEN
  obtain ⟨-, ⟨-, ht, hhv, -⟩, -⟩ := h
  have hseen : I.visible ≠ 0 := fun h0 => hne ((forward_eq_zero ht hhv).mp h0).symm
  omega

theorem tail_ne_head (h : I.StoreOk) (hne : I.headView ≠ I.tail) : I.tail ≠ I.head := by
  have hpos := h.LEN_pos hne
  exact fun he => hpos.ne' ((forward_eq_zero h.tail_lt h.head_lt).mpr he)

end Inst.StoreOk

variable {id : InstId} {s t : State} {v : Elem}

/-! ### The instance after a push and after a pop -/

/-- A push drops its value, or stores it where there is room. -/
theorem pushRun_inst (hs : (s.inst id).StoreOk) (v : Elem) :
    ∃ u w, pushRun id v s = .ok () u ∧
      (u.inst id = { s.inst id with tailView := w } ∨
        (s.inst id).LEN ≠ (s.inst id).params.N - 1 ∧
          u.inst id = { s.inst id with
            slots := (s.inst id).slots.write (s.inst id).head v
            head := inc (s.inst id).params.N (s.inst id).head
            tailView := w }) := by
  have hlen := LEN_le_lenByProducer hs
  have hlt : (lenByProducer id s).1 < (s.inst id).params.N := forward_lt hs.N_pos _ _
  obtain ⟨-, hr⟩ | ⟨hroom, hr⟩ := pushRun_cases id v s hs.head_lt
  · exact ⟨_, _, hr, .inl (rdTail_inst id s)⟩
  · refine ⟨_, _, hr, .inr ⟨?_, State.inst_setInst _ _ _⟩⟩
    have hroom : (lenByProducer id s).1 ≠ (s.inst id).params.N - 1 := by simpa [fullAt] using hroom
    omega

theorem read_of_memRead {p : Nat} (h : memRead id p s = .ok v t) (ho : (s.inst id).params.orderedHandoff = true) :
    (s.inst id).slots.read p = some v := by
  obtain ⟨-, hr⟩ | ⟨-, -, ⟨w, hw, hr⟩ | ⟨-, hr⟩⟩ | ⟨-, hweak, -⟩ := memRead_cases id p s
  · rw [hr] at h
    cases h
  · rw [hr] at h
    cases h
    exact hw
  · rw [hr] at h
    cases h
  · rw [hweak] at ho
    cases ho

/-- A pop that answers an element has found `tail` behind the view of `head`, and takes the element there. -/
theorem popRun_eq_ok_some (h : popRun id s = .ok (some v) t) :
    (rdHead id s).1 ≠ (s.inst id).tail ∧
      ((s.inst id).params.orderedHandoff = true → (s.inst id).slots.read (s.inst id).tail = some v) ∧
      t.inst id = { s.inst id with headView := (rdHead id s).1, tail := inc (s.inst id).params.N (s.inst id).tail } := by
  obtain ⟨-, -, hr⟩ | ⟨-, -, hr⟩ | ⟨hne, hr⟩ := popRun_cases id s <;> rw [hr] at h
  · cases h
  · cases h
  · obtain ⟨w, u, hread, hrest⟩ := Run.bind_eq_ok.mp h
    cases hrest
    have hv := read_of_memRead hread
    have hinst := memRead_eq_ok hread id
    rw [rdHead_inst] at hv hinst
    exact ⟨hne, hv, by rw [inst_publishTail, hinst]⟩

/-- A pop that faults leaves no result. -/
theorem ret_of_popRun_raised (h : popRun id s = .raised t) : (t.inst id).cons.ret = none := by
  obtain ⟨-, -, hr⟩ | ⟨-, -, hr⟩ | ⟨-, hr⟩ := popRun_cases id s <;> rw [hr] at h
  · cases h
    exact congrArg (fun I => I.cons.ret) (raise_inst ⟨id, .consumer⟩ .bufferUnderflowOnRead _)
  · cases h
  · cases hread : memRead id (s.inst id).tail (rdHead id s).2 with
    | raised u => exact absurd hread (memRead_ne_raised _ _ _ u)
    | _ => rw [hread] at h; cases h

/-! ### Whole pushes and pops -/

theorem inst_setRet_producer {p : Port} (hrole : p.role = .producer) (r : Option Result) :
    (s.setRet p r).inst p.inst = { s.inst p.inst with prod := { (s.inst p.inst).prod with ret := r } } := by
  rw [State.inst_setRet, hrole]

theorem returnWith_inst_producer {p : Port} (hrole : p.role = .producer) (r : Result) :
    (returnWith p r s).inst p.inst = { s.inst p.inst with prod := ⟨PRegs.idle, some r⟩ } := by
  rw [returnWith_inst, hrole]

/-- What a whole push does to its instance: nothing but to the PRODUCER, or it stores its value where there is room. -/
theorem inst_of_exec_push (hs : s.here.StoreOk) (h : exec (.push v) s = .next t) :
    ∃ w p, t.inst s.port.inst = { s.here with tailView := w, prod := p } ∨
      s.here.LEN ≠ s.here.params.N - 1 ∧
        t.inst s.port.inst = { s.here with
          slots := s.here.slots.write s.here.head v, head := inc s.here.params.N s.here.head, tailView := w, prod := p } := by
  rw [exec, execPush, invoked_eq_next, State.setRet_port] at h
  obtain ⟨hadm, h⟩ := h
  have hrole : s.port.role = .producer := permits_producer (refusalOf_eq_none.mp hadm).2.1
  split at h
  next => cases h
  obtain ⟨u, w, hr, hu⟩ := pushRun_inst (storeOk_setRet hs none) v
  rw [finish_of_ok hr (Run.ChangesOnly.of_pushRun _ _ _), State.setRet_port] at h
  cases h
  rw [inst_setRet_producer hrole] at hu
  rw [returnWith_inst_producer hrole]
  obtain hu | ⟨hroom, hu⟩ := hu
  · exact ⟨w, _, .inl (by rw [hu]; rfl)⟩
  · exact ⟨w, _, .inr ⟨hroom, by rw [hu]; rfl⟩⟩

/-- What a whole pop that returns an element does to its instance. -/
theorem inst_of_exec_pop (h : exec .pop s = .next t) (hv : t.result s.port = some (.elem v)) :
    ∃ w c, w ≠ s.here.tail ∧ OnTheWay s.here.params.N s.here.headView s.here.head w ∧
      (s.here.params.orderedHandoff = true → s.here.slots.read s.here.tail = some v) ∧
      t.inst s.port.inst = { s.here with headView := w, tail := inc s.here.params.N s.here.tail, cons := c } := by
  rw [exec, execPop, invoked_eq_next, State.setRet_port] at h
  obtain ⟨hadm, h⟩ := h
  obtain ⟨hrole, -⟩ := admitted_consumer hadm
  cases hr : popRun s.port.inst (s.setRet s.port none) with
  | ok a u =>
    rw [finish_of_ok hr (Run.ChangesOnly.of_popRun _ _), State.setRet_port] at h
    cases h
    rw [result_returnWith] at hv
    cases a with
    | none => cases hv
    | some w =>
      cases hv
      obtain ⟨hne, hread, hinst⟩ := popRun_eq_ok_some hr
      rw [inst_setRet_consumer hrole, rdHead_setRet] at hinst
      rw [inst_setRet_consumer hrole] at hread
      rw [inst_setRet_consumer hrole, rdHead_setRet] at hne
      have hreturned := returnWith_inst_consumer (s := u) hrole (.elem v)
      rw [hinst] at hreturned
      exact ⟨_, _, hne, rdHead_onTheWay _ s, hread, hreturned⟩
  | raised u =>
    rw [hr] at h
    cases h
    rw [result_consumer hrole, ret_of_popRun_raised hr] at hv
    cases hv
  | stop f =>
    rw [hr] at h
    cases h

/-- A whole push appends its value to what is held, or drops it and leaves the length as it was. -/
theorem held_of_exec_push (hs : s.here.StoreOk) (h : exec (.push v) s = .next t) :
    (t.inst s.port.inst).held = s.here.held ++ if (t.inst s.port.inst).LEN = s.here.LEN then [] else [some v] := by
  obtain ⟨w, p, hinst | ⟨hroom, hinst⟩⟩ := inst_of_exec_push hs h
  · have hlen : (t.inst s.port.inst).LEN = s.here.LEN := by
      rw [hinst]
      rfl
    rw [if_pos hlen, List.append_nil, hinst]
    rfl
  · have hlen : (t.inst s.port.inst).LEN = s.here.LEN + 1 := by
      rw [hinst]
      exact hs.length_head_inc hroom
    rw [if_neg (by omega), hinst, hs.held_push hroom]

/-- A whole pop that returns an element takes the oldest one held. -/
theorem held_of_exec_pop (hs : s.here.StoreOk) (ho : s.here.params.orderedHandoff = true) (h : exec .pop s = .next t)
    (hv : t.result s.port = some (.elem v)) : s.here.held = some v :: (t.inst s.port.inst).held := by
  obtain ⟨w, c, hne, hw, hread, hinst⟩ := inst_of_exec_pop h hv
  have hne : s.here.tail ≠ s.here.head := (hs.headSeen hw).tail_ne_head hne
  rw [hinst, ← hread ho]
  exact hs.held_pop hne w c

/-! ### Runs of pushes and pops -/

/-- The invariant and the parameters of an instance over a whole operation on it. -/
theorem inv_and_params_of_exec {i : Instr} (hs : s.here.Inv) (h : exec i s = .next t) :
    (t.inst s.port.inst).Inv ∧ (t.inst s.port.inst).params = s.here.params :=
  ⟨inv_of_operation hs (.inl h), (changesOnly_of_next (.inl h)).params⟩

theorem queueRun_push {ops : List (Option Elem)} {u : State} {accepted returned : List Elem}
    (h : queueRun id (some v :: ops) s = some (accepted, returned, u)) :
    ∃ t rest, exec (.push v) { s with port := ⟨id, .producer⟩ } = .next t ∧ queueRun id ops t = some (rest, returned, u) ∧
      accepted = if (t.inst id).LEN = (s.inst id).LEN then rest else v :: rest := by
  rw [queueRun] at h
  split at h
  next t hexec =>
    obtain ⟨⟨rest, returned', u'⟩, hrun, heq⟩ := Option.map_eq_some_iff.mp h
    cases heq
    exact ⟨t, rest, hexec, hrun, rfl⟩
  next => cases h
  next => cases h

theorem queueRun_pop {ops : List (Option Elem)} {u : State} {accepted returned : List Elem}
    (h : queueRun id (none :: ops) s = some (accepted, returned, u)) :
    ∃ t v rest, exec .pop { s with port := ⟨id, .consumer⟩ } = .next t ∧ t.result ⟨id, .consumer⟩ = some (.elem v) ∧
      queueRun id ops t = some (accepted, rest, u) ∧ returned = v :: rest := by
  rw [queueRun] at h
  split at h
  next t hexec =>
    split at h
    next v hv =>
      obtain ⟨⟨accepted', rest, u'⟩, hrun, heq⟩ := Option.map_eq_some_iff.mp h
      cases heq
      exact ⟨t, v, rest, hexec, hv, hrun, rfl⟩
    next => cases h
  next => cases h
  next => cases h

/-- A run keeps the order of the queue: a push appends to what is held, a pop takes its first element. -/
theorem queueRun_held {id : InstId} {ops : List (Option Elem)} {u : State} {accepted returned : List Elem}
    (hinv : (s.inst id).Inv) (ho : (s.inst id).params.orderedHandoff = true)
    (h : queueRun id ops s = some (accepted, returned, u)) :
    (s.inst id).held ++ accepted.map some = returned.map some ++ (u.inst id).held := by
  induction ops generalizing s accepted returned with
  | nil =>
    cases h
    simp
  | cons op ops ih =>
    obtain ⟨hs, -⟩ := (s.inst id).inv_iff.mp hinv
    cases op with
    | some v =>
      obtain ⟨t, rest, hexec, hrun, rfl⟩ := queueRun_push h
      have hhere : ({ s with port := ⟨id, .producer⟩ } : State).here = s.inst id := State.inst_port s _ id
      obtain ⟨htinv, hparams⟩ := inv_and_params_of_exec (hhere ▸ hinv) hexec
      have hheld := held_of_exec_push (hhere ▸ hs) hexec
      rw [hhere] at hparams hheld
      rw [← ih htinv (hparams ▸ ho) hrun, hheld]
      dsimp only
      split <;> simp
    | none =>
      obtain ⟨t, v, rest, hexec, hv, hrun, rfl⟩ := queueRun_pop h
      have hhere : ({ s with port := ⟨id, .consumer⟩ } : State).here = s.inst id := State.inst_port s _ id
      obtain ⟨htinv, hparams⟩ := inv_and_params_of_exec (hhere ▸ hinv) hexec
      have hheld := held_of_exec_pop (hhere ▸ hs) (hhere ▸ ho) hexec hv
      rw [hhere] at hparams hheld
      rw [hheld, List.map_cons, List.cons_append, List.cons_append, ih htinv (hparams ▸ ho) hrun]

/-- Settles O38, by induction on the operations (`queueRun_held`). -/
theorem everyRunOfPushesAndPopsIsAQueue : Obligations.EveryRunOfPushesAndPopsIsAQueue :=
  fun id _ s _ _ _ hinv ho h => queueRun_held ((State.inv_iff s).mp hinv id) ho h

end Sys2Proof.Machine
/-! ## What a micro-step does to its instance -/

namespace Sys2Proof.Machine

variable {id : InstId} {s : State}

/-! ### The PRODUCER -/

/-- Everything a micro-step of the PRODUCER can do to its instance (R111, R116). -/
inductive ProducerStep (id : InstId) (s : State) : Out → Prop where
  | kept {t : State} {w : Nat} {p : Producer} (h : t.inst id = { s.inst id with tailView := w, prod := p }) :
      ProducerStep id s (.next t)
  | slotWritten {t : State} {p : Producer} (hppc : (s.inst id).prod.regs.ppc = .P4)
      (h : t.inst id = { s.inst id with
        slots := (s.inst id).slots.write (s.inst id).prod.regs.p_h (s.inst id).prod.regs.p_v, prod := p }) :
      ProducerStep id s (.next t)
  | headPublished {t : State} {p : Producer} (hppc : (s.inst id).prod.regs.ppc = .P5)
      (h : t.inst id = { s.inst id with head := inc (s.inst id).params.N (s.inst id).prod.regs.p_h, prod := p }) :
      ProducerStep id s (.next t)
  | outOfRange {f : Fault} (hppc : (s.inst id).prod.regs.ppc = .P4)
      (hp : ¬(s.inst id).prod.regs.p_h < (s.inst id).params.N) : ProducerStep id s (.fault f)

/-- The next push, or the end of a series of pushes, changes the PRODUCER only. -/
theorem nextPush_inst (id : InstId) (vs : List Elem) (s : State) :
    ∃ t p, nextPush id vs s = .next t ∧ t.inst id = { s.inst id with prod := p } := by
  cases vs with
  | nil => exact ⟨_, _, rfl, returnWith_inst_producer (p := ⟨id, .producer⟩) rfl .nothing⟩
  | cons v rest => exact ⟨_, _, rfl, State.inst_setPRegs s id _⟩

theorem producerStep_of_tick (id : InstId) (s : State) : ProducerStep id s (tickProducer id s) := by
  dsimp only [tickProducer]
  cases hppc : (s.inst id).prod.regs.ppc with
  | idle => exact .kept (w := (s.inst id).tailView) (p := (s.inst id).prod) rfl
  | P1 | L1 => exact .kept (w := (s.inst id).tailView) (State.inst_setPRegs s id _)
  | P2 => exact .kept (by rw [State.inst_setPRegs, rdTail_inst])
  | P3 =>
    dsimp only
    split
    next =>
      obtain ⟨t, p, hnext, ht⟩ := nextPush_inst id (s.inst id).prod.regs.src s
      exact hnext ▸ .kept (w := (s.inst id).tailView) ht
    next => exact .kept (w := (s.inst id).tailView) (State.inst_setPRegs s id _)
  | P4 =>
    obtain ⟨hp, hw⟩ | ⟨-, hw⟩ := memWrite_cases id (s.inst id).prod.regs.p_h (s.inst id).prod.regs.p_v s <;> simp only [hw]
    · exact .outOfRange hppc hp
    · exact .slotWritten hppc (by rw [State.inst_setPRegs, State.inst_setInst])
  | P5 =>
    obtain ⟨t, p, hnext, ht⟩ := nextPush_inst id (s.inst id).prod.regs.src
      (publishHead id (inc (s.inst id).params.N (s.inst id).prod.regs.p_h) s)
    rw [inst_publishHead] at ht
    exact hnext ▸ .headPublished hppc ht
  | L2 => exact .kept (by rw [returnWith_inst_producer (p := ⟨id, .producer⟩) rfl, rdTail_inst])

/-- At P4 and P5 the PRODUCER has read `head` and seen room. -/
theorem producerOk_storing {I : Inst} (h : I.producerOk = true) (hppc : I.prod.regs.ppc = .P4 ∨ I.prod.regs.ppc = .P5) :
    I.prod.regs.p_h = I.head ∧ fullAt I.params.N I.producerLength = false := by
  dsimp only [Inst.producerOk] at h
  obtain hppc | hppc := hppc <;> simp only [hppc, Bool.and_eq_true, beq_iff_eq, Bool.not_eq_true'] at h
  · obtain ⟨-, ⟨hh, ht⟩, hroom⟩ := h
    rw [hh, ht] at hroom
    exact ⟨hh, hroom⟩
  · obtain ⟨-, ⟨⟨hh, ht⟩, hroom⟩, -⟩ := h
    rw [hh, ht] at hroom
    exact ⟨hh, hroom⟩

/-- Room seen by the PRODUCER is room. -/
theorem Inst.StoreOk.LEN_ne_of_room {I : Inst} (h : I.StoreOk) (hroom : fullAt I.params.N I.producerLength = false) :
    I.LEN ≠ I.params.N - 1 := by
  have hlen := h.producerLength_eq
  have hlt : I.producerLength < I.params.N := forward_lt h.N_pos _ _
  have hne : I.producerLength ≠ I.params.N - 1 := by simpa [fullAt] using hroom
  omega

/-- Settles O19: the slot written at P4 is not that of a held element (`Inst.StoreOk.read_write_head`), and the publication at P5
adds one. -/
theorem producerNeverOverwritesAHeldElement : Obligations.ProducerNeverOverwritesAHeldElement := by
  intro s t id hinv htick
  obtain ⟨hs, hproducer, -⟩ := (s.inst id).inv_iff.mp ((State.inv_iff s).mp hinv id)
  have hstep := producerStep_of_tick id s
  rw [show tickProducer id s = .next t from htick] at hstep
  cases hstep with
  | kept h =>
    rw [h]
    exact ⟨.inl rfl, fun _ _ => rfl⟩
  | slotWritten hppc h =>
    obtain ⟨hh, -⟩ := producerOk_storing hproducer (.inl hppc)
    rw [h, hh]
    exact ⟨.inl rfl, fun i hi => hs.read_write_head hi _⟩
  | headPublished hppc h =>
    obtain ⟨hh, hroom⟩ := producerOk_storing hproducer (.inr hppc)
    rw [h, hh]
    exact ⟨.inr (hs.length_head_inc (hs.LEN_ne_of_room hroom)), fun _ _ => rfl⟩

/-! ### The CONSUMER -/

/-- Everything a micro-step of the CONSUMER can do to its instance (R114, R116, R122, R123). -/
inductive ConsumerStep (id : InstId) (s : State) : Out → Prop where
  | kept {t : State} {tail headView : Nat} {fault : BitVec 4} {c : Consumer}
      (h : t.inst id = { s.inst id with tail := tail, headView := headView, fault := fault, cons := c }) :
      ConsumerStep id s (.next t)
  | cleared {t : State} {c : Consumer} (hcpc : (s.inst id).cons.regs.cpc = .CL)
      (h : t.inst id = { s.inst id with head := 0, tail := 0, headView := 0, tailView := 0, cons := c }) :
      ConsumerStep id s (.next t)
  | stopped {f : Fault} {p : Nat} (hread : memRead id p s = .stop f)
      (hcpc : (s.inst id).cons.regs.cpc = .C4 ∧ p = (s.inst id).cons.regs.c_t ∨
        (s.inst id).cons.regs.cpc = .K3 ∧
          p = slotIndex (s.inst id).params.N (s.inst id).cons.regs.c_t (s.inst id).cons.regs.c_i) :
      ConsumerStep id s (.fault f)

/-- The outcome is a next state in which, of the instance, the CONSUMER only has changed. -/
def Out.UpdatesConsumer (id : InstId) (s : State) (o : Out) : Prop :=
  ∃ t c, o = .next t ∧ t.inst id = { s.inst id with cons := c }

namespace Out.UpdatesConsumer

theorem of_goC (id : InstId) (R : CRegs) (s : State) : Out.UpdatesConsumer id s (goC id R s) :=
  ⟨_, _, rfl, State.inst_setCRegs s id R⟩

theorem of_returnC (id : InstId) (r : Result) (s : State) : Out.UpdatesConsumer id s (returnC id r s) :=
  ⟨_, _, rfl, returnWith_inst_consumer (p := ⟨id, .consumer⟩) rfl r⟩

/-- An outcome reached from a state in which the CONSUMER only has changed. -/
theorem after {t : State} {o : Out} {c : Consumer} (h : t.inst id = { s.inst id with cons := c })
    (ho : Out.UpdatesConsumer id t o) : Out.UpdatesConsumer id s o := by
  obtain ⟨u, c', hnext, hu⟩ := ho
  exact ⟨u, c', hnext, by rw [hu, h]⟩

theorem after_handOver {m : Option Message} {o : Out} (ho : Out.UpdatesConsumer id (handOver id m s) o) :
    Out.UpdatesConsumer id s o := by
  cases m with
  | none => exact ho
  | some m => exact ho.after (State.inst_setInst s id _)

theorem of_decided (id : InstId) (R : CRegs) (m : Option Message) (c : Nat) (s : State) :
    Out.UpdatesConsumer id s (decided id R m c s) := by
  unfold decided
  split
  · split
    · exact (of_returnC _ _ _).after_handOver
    · exact (of_goC _ _ _).after_handOver
  all_goals exact of_returnC _ _ _

theorem of_lenDone (id : InstId) (R : CRegs) (n : Nat) (s : State) : Out.UpdatesConsumer id s (lenDone id R n s) := by
  unfold lenDone
  cases R.task with
  | iterNext =>
    dsimp only
    split
    · exact of_returnC _ _ _
    · split
      · exact of_returnC _ _ _
      · exact of_goC _ _ _
  | needsResync | decodeNext | service => dsimp only; split <;> exact of_goC _ _ _
  | _ => exact of_returnC _ _ _

theorem of_codecByte (id : InstId) (R : CRegs) (b : Byte) (s : State) : Out.UpdatesConsumer id s (codecByte id R b s) := by
  unfold codecByte
  cases R.phase with
  | S1 | S3 => dsimp only; split <;> exact of_goC _ _ _
  | S4 =>
    dsimp only
    iterate 3
      split
      · exact of_goC _ _ _
    split <;> exact of_goC _ _ _
  | DEC =>
    dsimp only
    split
    · exact of_goC _ _ _
    · exact of_decided _ _ _ _ _
  | S0 | S2 | S5 | DONE => exact of_goC _ _ _

theorem of_peekDone (id : InstId) (R : CRegs) (v : Elem) (s : State) : Out.UpdatesConsumer id s (peekDone id R v s) := by
  unfold peekDone
  cases R.task with
  | iterNext => exact (of_returnC _ _ _).after (State.inst_setIter s id _)
  | needsResync | decodeNext | service => exact of_codecByte _ _ _ _
  | _ => exact of_returnC _ _ _

theorem of_popDone (id : InstId) (R : CRegs) (v : Option Elem) (s : State) : Out.UpdatesConsumer id s (popDone id R v s) := by
  unfold popDone
  cases R.task with
  | service =>
    dsimp only
    split
    · exact of_returnC _ _ _
    · exact of_goC _ _ _
  | _ => exact of_returnC _ _ _

theorem of_localStep (id : InstId) (R : CRegs) (s : State) : Out.UpdatesConsumer id s (localStep id R s) := by
  unfold localStep
  cases R.phase with
  | S2 => dsimp only; split <;> exact of_goC _ _ _
  | DONE =>
    cases R.task with
    | decodeNext | service =>
      dsimp only
      split
      · exact of_decided _ _ _ _ _
      · exact of_goC _ _ _
    | _ => exact of_returnC _ _ _
  | DEC =>
    dsimp only
    iterate 5
      split
      · exact of_decided _ _ _ _ _
    exact of_goC _ _ _
  | S0 | S1 | S3 | S4 | S5 => exact of_goC _ _ _

/-- After a part that changed of the instance what a CONSUMER writes. -/
theorem step {t : State} {o : Out} {tail headView : Nat} {fault : BitVec 4} {c : Consumer}
    (h : t.inst id = { s.inst id with tail := tail, headView := headView, fault := fault, cons := c })
    (ho : Out.UpdatesConsumer id t o) : ConsumerStep id s o := by
  obtain ⟨u, c', rfl, hu⟩ := ho
  exact .kept (c := c') (tail := tail) (headView := headView) (fault := fault) (by rw [hu, h])

/-- After a part that left the instance as it was. -/
theorem step_of_eq {t : State} {o : Out} (h : t.inst id = s.inst id) (ho : Out.UpdatesConsumer id t o) : ConsumerStep id s o :=
  ho.step (tail := (s.inst id).tail) (headView := (s.inst id).headView) (fault := (s.inst id).fault) (c := (s.inst id).cons) h

/-- After a read of `head`. -/
theorem step_of_rdHead {o : Out} (ho : Out.UpdatesConsumer id (rdHead id s).2 o) : ConsumerStep id s o :=
  ho.step (tail := (s.inst id).tail) (fault := (s.inst id).fault) (c := (s.inst id).cons) (rdHead_inst id s)

end Out.UpdatesConsumer

open Out.UpdatesConsumer in
theorem consumerStep_of_tick (id : InstId) (s : State) : ConsumerStep id s (tickConsumer id s) := by
  dsimp only [tickConsumer]
  cases hcpc : (s.inst id).cons.regs.cpc with
  | idle => exact step_of_eq (s := s) rfl ⟨s, (s.inst id).cons, rfl, rfl⟩
  | C1 | L1 => exact (of_goC _ _ _).step_of_eq rfl
  | C2 | K1 => exact (of_goC _ _ _).step_of_rdHead
  | C3 =>
    dsimp only
    split
    · cases (s.inst id).params.popEmptyPolicy with
      | abort => exact .kept (raise_inst ⟨id, .consumer⟩ _ s)
      | noElement => exact (of_popDone _ _ _ _).step_of_eq rfl
    · exact (of_goC _ _ _).step_of_eq rfl
  | C4 =>
    dsimp only
    split
    next v t hread => exact (of_goC _ _ _).step_of_eq (memRead_eq_ok hread id)
    next t hread => exact absurd hread (memRead_ne_raised _ _ _ t)
    next f hread => exact .stopped hread (.inl ⟨hcpc, rfl⟩)
  | C5 => exact (of_popDone _ _ _ _).step (inst_publishTail id _ s)
  | K2 =>
    dsimp only
    split
    · exact .kept (raise_inst ⟨id, .consumer⟩ _ s)
    · exact (of_goC _ _ _).step_of_eq rfl
  | K3 =>
    dsimp only
    split
    next v t hread => exact (of_peekDone _ _ _ _).step_of_eq (memRead_eq_ok hread id)
    next t hread => exact absurd hread (memRead_ne_raised _ _ _ t)
    next f hread => exact .stopped hread (.inr ⟨hcpc, rfl⟩)
  | L2 => exact (of_lenDone _ _ _ _).step_of_rdHead
  | CL => exact .cleared hcpc (by rw [returnWith_inst_consumer (p := ⟨id, .consumer⟩) rfl, inst_clearCursors])
  | X => exact (of_localStep _ _ _).step_of_eq rfl

/-- Settles O18: what a micro-step writes is what `ConsumerStep` and `ProducerStep` list. -/
theorem eachCursorHasOneWriter : Obligations.EachCursorHasOneWriter := by
  intro s t id
  refine ⟨fun htick hcpc => ?_, fun htick => ?_⟩
  · have hstep := consumerStep_of_tick id s
    rw [show tickConsumer id s = .next t from htick] at hstep
    cases hstep with
    | kept h =>
      rw [h]
      exact ⟨rfl, rfl⟩
    | cleared hclear _ => exact absurd hclear hcpc
  · have hstep := producerStep_of_tick id s
    rw [show tickProducer id s = .next t from htick] at hstep
    cases hstep with
    | kept h => rw [h]
    | slotWritten _ h => rw [h]
    | headPublished _ h => rw [h]

end Sys2Proof.Machine
/-! ## No fault of the model -/

namespace Sys2Proof.Machine

variable {id : InstId} {s : State}

/-! ### Parts of operations -/

/-- The part does not end in a fault of the model, and where it goes on the storage is right. -/
def Run.Safe {α : Type} (id : InstId) : Run α → Prop
  | .ok _ t => (t.inst id).StoreOk
  | .raised _ => True
  | .stop _ => False

/-- The outcome is not a fault of the model. -/
def Out.Safe : Out → Prop
  | .next _ => True
  | .fault _ => False
  | .refused _ => True

theorem Run.Safe.bind {α β : Type} {r : Run α} {f : α → State → Run β} (hr : r.Safe id)
    (hf : ∀ a t, (t.inst id).StoreOk → (f a t).Safe id) : (r.bind f).Safe id := by
  cases r with
  | ok a t => exact hf a t hr
  | raised t => trivial
  | stop f => exact hr

/-- A part whose value is put into another form. -/
theorem Run.Safe.then_ok {α β : Type} {r : Run α} (hr : r.Safe id) (b : α → β) : (r.bind fun a t => .ok (b a) t).Safe id :=
  hr.bind fun _ _ ht => ht

theorem peekRun_safe (i : Nat) (hs : (s.inst id).StoreOk) : (peekRun id i s).Safe id := by
  by_cases hi : i < (lenByConsumer id s).1
  · obtain ⟨v, t, hr, hinst, -⟩ := peekRun_of_lt hs hi
    rw [hr, Run.Safe, hinst, ← rdHead_inst]
    exact storeOk_rdHead hs
  · obtain ⟨-, hr⟩ | ⟨hlt, -⟩ := peekRun_cases id i s
    · rw [hr]
      trivial
    · exact absurd hlt hi

/-- A pop reads a slot only where it has seen an element (R56). -/
theorem popRun_safe (hs : (s.inst id).StoreOk) : (popRun id s).Safe id := by
  have hseen := storeOk_rdHead hs
  obtain ⟨-, -, hr⟩ | ⟨-, -, hr⟩ | ⟨hne, hr⟩ := popRun_cases id s <;> rw [hr]
  · trivial
  · exact hseen
  · have hhead : ((rdHead id s).2.inst id).headView ≠ ((rdHead id s).2.inst id).tail := by
      rw [rdHead_inst]
      exact hne
    obtain ⟨v, t, hread⟩ := memRead_oldest hseen (hseen.LEN_pos hhead)
    have hinst := memRead_eq_ok hread id
    have hpublished := hseen.tailPublished hhead
    rw [rdHead_inst] at hread hinst hpublished
    rw [hread, Run.bind_ok, Run.Safe, inst_publishTail, hinst]
    exact hpublished

theorem discardRun_safe (j : Nat) (hs : (s.inst id).StoreOk) : (discardRun id j s).Safe id := by
  induction j generalizing s with
  | zero => exact hs
  | succ j ih => exact (popRun_safe hs).bind fun _ _ ht => ih ht

theorem iterRun_safe (k : Nat) (hs : (s.inst id).StoreOk) : (iterRun id k s).Safe id := by
  have hseen := storeOk_rdHead hs
  dsimp only [iterRun]
  split
  next => exact hseen
  next hk =>
    have hpeek := peekRun_safe k hseen
    have hkeeps := Run.ChangesOnly.of_peekRun id k (rdHead id s).2
    have hlen : (lenByConsumer id s).1 < (s.inst id).params.N := forward_lt hs.N_pos _ _
    change ((peekRun id k (rdHead id s).2).bind _).Safe id
    cases hr : peekRun id k (rdHead id s).2 with
    | ok v t =>
      rw [hr] at hpeek hkeeps
      have hparams : (t.inst id).params = (s.inst id).params := by rw [hkeeps.params, rdHead_inst]
      rw [Run.bind_ok, Run.Safe, State.inst_setIter]
      exact hpeek.iterSet fun _ => by rw [hparams]; omega
    | raised t => trivial
    | stop f =>
      rw [hr] at hpeek
      exact hpeek

theorem peekByte_safe (j : Nat) (hs : (s.inst id).StoreOk) : (peekByte id j s).Safe id := (peekRun_safe j hs).then_ok _

theorem sumPeeks_safe (m j : Nat) (acc : Half) (hs : (s.inst id).StoreOk) : (sumPeeks id m j acc s).Safe id := by
  induction m generalizing j acc s with
  | zero => exact hs
  | succ m ih => exact (peekByte_safe j hs).bind fun _ _ ht => ih _ _ ht

theorem checkTrailer_safe (L : Byte) (hs : (s.inst id).StoreOk) : (checkTrailer id L s).Safe id :=
  (sumPeeks_safe _ _ _ hs).bind fun _ _ h1 => (peekByte_safe _ h1).bind fun _ _ h2 => (peekByte_safe _ h2).then_ok _

theorem judgeFrame_safe (L : Byte) (hs : (s.inst id).StoreOk) : (judgeFrame id L s).Safe id := by
  refine (peekByte_safe 1 hs).bind fun b1 s1 h1 => ?_
  split
  · exact h1
  split
  · exact h1
  · refine (checkTrailer_safe L h1).bind fun ck s2 h2 => ?_
    cases ck with
    | none => exact h2
    | some acc => exact h2

theorem syncRun_safe (n : Nat) (hs : (s.inst id).StoreOk) : (syncRun id n s).Safe id := by
  unfold syncRun
  split
  · exact hs
  refine (peekByte_safe 0 hs).bind fun L s1 h1 => ?_
  split
  · exact h1
  split
  · exact h1
  · exact judgeFrame_safe L h1

/-- The synchroniser on a fresh length snapshot. -/
theorem snapshot_syncRun_safe (hs : (s.inst id).StoreOk) :
    (syncRun id (lenByConsumer id s).1 (lenByConsumer id s).2).Safe id :=
  syncRun_safe _ (storeOk_rdHead hs)

theorem peekBytes_safe (m j : Nat) (hs : (s.inst id).StoreOk) : (peekBytes id m j s).Safe id := by
  induction m generalizing j s with
  | zero => exact hs
  | succ m ih => exact (peekByte_safe j hs).bind fun _ _ ht => (ih _ ht).then_ok _

theorem acceptRun_safe (L b1 : Byte) (hs : (s.inst id).StoreOk) : (acceptRun id L b1 s).Safe id := by
  unfold acceptRun
  iterate 3
    split
    · exact hs
  exact (peekBytes_safe _ _ hs).then_ok _

theorem decodeRun_safe (hs : (s.inst id).StoreOk) : (decodeRun id s).Safe id := by
  refine (snapshot_syncRun_safe hs).bind fun v t ht => ?_
  cases v with
  | malformed _ => exact ht
  | empty => exact ht
  | incomplete _ => exact ht
  | good L b1 _ => exact (acceptRun_safe L b1 ht).then_ok _

theorem storeOk_handOver (hs : (s.inst id).StoreOk) (m : Option Message) : ((handOver id m s).inst id).StoreOk := by
  cases m with
  | none => exact hs
  | some m =>
    simp only [handOver, State.setSink, State.inst_setInst]
    exact hs

theorem serviceRun_safe (hs : (s.inst id).StoreOk) : (serviceRun id s).Safe id :=
  (decodeRun_safe hs).bind fun r _ ht => (discardRun_safe _ (storeOk_handOver ht r.1)).then_ok _

theorem frameRun_safe (L b1 : Byte) (ck : Half) (r : Message × Nat) (hs : (s.inst id).StoreOk) :
    (frameRun id L b1 ck r s).Safe id := by
  refine (snapshot_syncRun_safe hs).bind fun v t ht => ?_
  split
  · exact (acceptRun_safe L b1 ht).then_ok _
  · exact ht

/-- A push ends with a value and leaves `head` in range. -/
theorem pushRun_ok (v : Elem) (hh : (s.inst id).head < (s.inst id).params.N) :
    ∃ u, pushRun id v s = .ok () u ∧ (u.inst id).head < (u.inst id).params.N := by
  obtain ⟨-, hr⟩ | ⟨-, hr⟩ := pushRun_cases id v s hh
  · refine ⟨_, hr, ?_⟩
    rw [rdTail_inst]
    exact hh
  · refine ⟨_, hr, ?_⟩
    rw [State.inst_setInst]
    exact inc_lt (Nat.zero_lt_of_lt hh) _

theorem loadRun_ok (vs : List Elem) (hh : (s.inst id).head < (s.inst id).params.N) : ∃ u, loadRun id vs s = .ok () u := by
  induction vs generalizing s with
  | nil => exact ⟨s, rfl⟩
  | cons v vs ih =>
    obtain ⟨u, hr, hu⟩ := pushRun_ok v hh
    rw [loadRun_cons, hr]
    exact ih hu

/-! ### Whole operations and their starts -/

theorem finish_safe {α : Type} {r : Run α} (hr : r.Safe id) (result : α → Result) : (finish r result).Safe := by
  cases r with
  | ok a t => trivial
  | raised t => trivial
  | stop f => exact hr

theorem finish_ok_safe {α : Type} {r : Run α} {a : α} {t : State} (hr : r = .ok a t) (result : α → Result) :
    (finish r result).Safe := by
  subst hr
  trivial

theorem next_safe (t : State) : Out.Safe (.next t) := trivial

/-- A guard that refuses. -/
theorem ite_refused_safe {c : Prop} [Decidable c] {r : Refusal} {o : Out} (ho : o.Safe) :
    Out.Safe (if c then .refused r else o) := by
  split
  · trivial
  · exact ho

theorem invoked_safe {w : Who} {body : State → Out} (hs : s.here.StoreOk) (hbody : ∀ t, t.here.StoreOk → (body t).Safe) :
    (invoked w s body).Safe := by
  unfold invoked
  cases refusalOf w s with
  | some r => trivial
  | none =>
    refine hbody _ ?_
    rw [State.here, State.setRet_port]
    exact storeOk_setRet hs none

theorem invokedOnBytes_safe {w : Who} {body : State → Out} (hs : s.here.StoreOk)
    (hbody : ∀ t, t.here.StoreOk → (body t).Safe) : (invokedOnBytes w s body).Safe :=
  invoked_safe hs fun t ht => ite_refused_safe (hbody t ht)

theorem emitRun_safe (target : InstId) (frame : List Byte) (hs : (s.inst target).StoreOk) (result : Unit → Result) :
    (finish (emitRun target frame s) result).Safe := by
  obtain ⟨u, hr⟩ := loadRun_ok (frame.map elemOf) hs.head_lt
  exact finish_ok_safe hr result

theorem acceptFrame_safe (L b1 : Byte) (payload : List Byte) (r : Message × Nat) (hs : s.here.StoreOk) :
    (acceptFrame L b1 payload r s).Safe := by
  refine invokedOnBytes_safe hs fun t ht => ?_
  have hrun := frameRun_safe L b1 (checksumOf (L :: b1 :: payload)) r ht
  split
  next => trivial
  next => trivial
  next => trivial
  next f hf =>
    rw [hf] at hrun
    exact hrun

theorem lengthQuery_safe (result : Nat → Result) (hs : s.here.StoreOk) : (lengthQuery result s).Safe :=
  invoked_safe hs fun _ _ => trivial

theorem emitFrame_safe (frame : List Byte) (hs : s.here.StoreOk) : (emitFrame frame s).Safe :=
  invokedOnBytes_safe hs fun t ht => emitRun_safe t.port.inst frame ht _

theorem execEncode_safe (m : Message) (target : InstId) (hs : s.here.StoreOk) : (execEncode m target s).Safe := by
  refine invokedOnBytes_safe hs fun t ht => ?_
  split
  next => trivial
  next htarget =>
    obtain rfl : t.port.inst = target := not_not.mp htarget
    split
    · trivial
    · exact emitRun_safe _ _ ht _

theorem execIterNext_safe (hs : s.here.StoreOk) : (execIterNext s).Safe := by
  refine invoked_safe hs fun t ht => ?_
  split
  next => trivial
  next k _ => exact finish_safe (iterRun_safe k ht) _

theorem execPush_safe (v : Elem) (hs : s.here.StoreOk) : (execPush v s).Safe := by
  unfold execPush
  refine invoked_safe hs fun t ht => ite_refused_safe ?_
  obtain ⟨u, hr, -⟩ := pushRun_ok v ht.head_lt
  exact finish_ok_safe hr _

theorem execLoad_safe (vs : List Elem) (hs : s.here.StoreOk) : (execLoad vs s).Safe := by
  unfold execLoad
  refine invoked_safe hs fun t ht => ite_refused_safe ?_
  obtain ⟨u, hr⟩ := loadRun_ok vs ht.head_lt
  exact finish_ok_safe hr _

/-- A whole operation. -/
theorem exec_safe (i : Instr) (hs : s.here.StoreOk) : Out.Safe (exec i s) := by
  cases i with
  | fSet L a payload => exact acceptFrame_safe _ _ _ _ hs
  | fDiscover a => exact acceptFrame_safe _ _ _ _ hs
  | fType a => exact acceptFrame_safe _ _ _ _ hs
  | fValue a => exact acceptFrame_safe _ _ _ _ hs
  | eDiscoverResp a => exact emitFrame_safe _ hs
  | eTypeResp a k w => exact emitFrame_safe _ hs
  | eValueRespS a v => exact emitFrame_safe _ hs
  | eValueRespL a v => exact emitFrame_safe _ hs
  | push v => exact execPush_safe v hs
  | pop => exact invoked_safe hs fun _ ht => finish_safe (popRun_safe ht) _
  | len => exact lengthQuery_safe _ hs
  | isFull => exact lengthQuery_safe (fun n => .bit (fullAt s.here.params.N n)) hs
  | isEmpty => exact lengthQuery_safe (fun n => .bit (emptyAt n)) hs
  | space => exact lengthQuery_safe (fun n => .num (spaceAt s.here.params.N n)) hs
  | peek j => exact invoked_safe hs fun _ ht => ite_refused_safe (finish_safe (peekRun_safe j ht) _)
  | clear => exact invoked_safe hs fun _ _ => ite_refused_safe (next_safe _)
  | load vs => exact execLoad_safe vs hs
  | iterNew => exact invoked_safe hs fun _ _ => next_safe _
  | iterNext => exact execIterNext_safe hs
  | checksum bytes => exact invoked_safe hs fun _ _ => next_safe _
  | needsResync => exact invokedOnBytes_safe hs fun _ ht => finish_safe ((snapshot_syncRun_safe ht).then_ok _) _
  | decodeNext => exact invokedOnBytes_safe hs fun _ ht => finish_safe (decodeRun_safe ht) _
  | service => exact invokedOnBytes_safe hs fun _ ht => finish_safe (serviceRun_safe ht) _
  | encode m target => exact execEncode_safe m target hs

theorem beginPushes_safe (id : InstId) (vs : List Elem) (s : State) : (beginPushes id vs s).Safe := by
  cases vs with
  | nil => trivial
  | cons v rest => trivial

theorem beginFrame_safe (id : InstId) (frame : List Byte) (s : State) : (beginFrame id frame s).Safe := by
  unfold beginFrame
  split <;> trivial

theorem beginQuery_safe (pt : PTask) (ct : CTask) (hs : s.here.StoreOk) : (beginQuery pt ct s).Safe := by
  refine invoked_safe hs fun t _ => ?_
  split <;> trivial

/-- The start of an operation. -/
theorem begin_safe (i : Instr) (hs : s.here.StoreOk) : (begin i s).Safe := by
  unfold begin
  cases i with
  | fSet L a payload => exact acceptFrame_safe _ _ _ _ hs
  | fDiscover a => exact acceptFrame_safe _ _ _ _ hs
  | fType a => exact acceptFrame_safe _ _ _ _ hs
  | fValue a => exact acceptFrame_safe _ _ _ _ hs
  | eDiscoverResp a => exact invokedOnBytes_safe hs fun _ _ => beginFrame_safe _ _ _
  | eTypeResp a k w => exact invokedOnBytes_safe hs fun _ _ => beginFrame_safe _ _ _
  | eValueRespS a v => exact invokedOnBytes_safe hs fun _ _ => beginFrame_safe _ _ _
  | eValueRespL a v => exact invokedOnBytes_safe hs fun _ _ => beginFrame_safe _ _ _
  | push v => exact invoked_safe hs fun _ _ => ite_refused_safe (beginPushes_safe _ _ _)
  | pop => exact invoked_safe hs fun _ _ => trivial
  | len => exact beginQuery_safe _ _ hs
  | isFull => exact beginQuery_safe _ _ hs
  | isEmpty => exact beginQuery_safe _ _ hs
  | space => exact beginQuery_safe _ _ hs
  | peek j => exact invoked_safe hs fun _ _ => ite_refused_safe trivial
  | clear => exact invoked_safe hs fun _ _ => ite_refused_safe trivial
  | load vs => exact invoked_safe hs fun _ _ => ite_refused_safe (beginPushes_safe _ _ _)
  | iterNew => exact invoked_safe hs fun _ _ => trivial
  | iterNext =>
    refine invoked_safe hs fun t _ => ?_
    split <;> trivial
  | checksum bytes => exact invoked_safe hs fun _ _ => trivial
  | needsResync => exact invokedOnBytes_safe hs fun _ _ => trivial
  | decodeNext => exact invokedOnBytes_safe hs fun _ _ => trivial
  | service => exact invokedOnBytes_safe hs fun _ _ => trivial
  | encode m target =>
    refine invokedOnBytes_safe hs fun t _ => ite_refused_safe ?_
    split
    · trivial
    · exact beginFrame_safe _ _ _

/-! ### Micro-steps -/

/-- At C4 the CONSUMER has read its `tail` and seen an element there. -/
theorem consumerOk_C4 {I : Inst} (h : I.consumerOk = true) (hcpc : I.cons.regs.cpc = .C4) :
    I.cons.regs.c_t = I.tail ∧ I.headView ≠ I.tail := by
  obtain ⟨⟨ht, hh⟩, hne⟩ := by simpa [Inst.consumerOk, hcpc] using h
  exact ⟨ht, hh ▸ ht ▸ hne⟩

/-- At K3 the CONSUMER has read its `tail`, and its offset is one it has seen. -/
theorem consumerOk_K3 {I : Inst} (h : I.consumerOk = true) (hcpc : I.cons.regs.cpc = .K3) :
    I.cons.regs.c_t = I.tail ∧ I.cons.regs.c_i < I.visible := by
  obtain ⟨⟨ht, -⟩, hi⟩ := by simpa [Inst.consumerOk, hcpc] using h
  exact ⟨ht, hi⟩

theorem ProducerStep.safe {o : Out} (h : ProducerStep id s o) (hinv : (s.inst id).Inv) : o.Safe := by
  obtain ⟨hs, hproducer, -⟩ := (s.inst id).inv_iff.mp hinv
  cases h with
  | kept _ => trivial
  | slotWritten _ _ => trivial
  | headPublished _ _ => trivial
  | outOfRange hppc hp =>
    rw [(producerOk_storing hproducer (.inl hppc)).1] at hp
    exact absurd hs.head_lt hp

theorem ConsumerStep.safe {o : Out} (h : ConsumerStep id s o) (hinv : (s.inst id).Inv) : o.Safe := by
  obtain ⟨hs, -, hconsumer⟩ := (s.inst id).inv_iff.mp hinv
  cases h with
  | kept _ => trivial
  | cleared _ _ => trivial
  | stopped hread hcpc =>
    obtain ⟨hcpc, rfl⟩ | ⟨hcpc, rfl⟩ := hcpc
    · obtain ⟨ht, hne⟩ := consumerOk_C4 hconsumer hcpc
      obtain ⟨v, t, hr⟩ := memRead_oldest hs (hs.LEN_pos hne)
      rw [ht, hr] at hread
      cases hread
    · obtain ⟨ht, hi⟩ := consumerOk_K3 hconsumer hcpc
      obtain ⟨v, t, hr, -⟩ := memRead_held hs (hi.trans_le hs.visible_le_LEN)
      rw [ht, hr] at hread
      cases hread

theorem tick_safe {p : Port} (hinv : (s.inst p.inst).Inv) : (tick p s).Safe := by
  unfold tick
  cases p.role with
  | producer => exact (producerStep_of_tick _ s).safe hinv
  | consumer => exact (consumerStep_of_tick _ s).safe hinv

/-! ### Steps -/

theorem runCommand_safe {cmd : List Byte} {run : Instr → State → Out} (h : ∀ i, (run i s).Safe) :
    (runCommand cmd run s).Safe := by
  unfold runCommand
  split
  next i _ _ => exact h i
  next => trivial

theorem step_safe (hinv : s.Inv) : Out.Safe (step s) := by
  have hinst := (State.inv_iff s).mp hinv
  cases hq : s.queue with
  | nil =>
    rw [step_of_queue_nil hq]
    trivial
  | cons e q =>
    rw [step_of_queue hq]
    cases e with
    | invoke p cmd =>
      refine runCommand_safe fun i => exec_safe i ?_
      rw [State.here, State.inst_queue_port]
      exact storeOk_of_inv hinv p.inst
    | start p cmd =>
      refine runCommand_safe fun i => begin_safe i ?_
      rw [State.here, State.inst_queue_port]
      exact storeOk_of_inv hinv p.inst
    | tick p => exact tick_safe (by rw [State.inst_queue]; exact hinst p.inst)
    | reset id => trivial

/-- Settles O11: a slot is written at `head`, which is in range, and read at an offset the CONSUMER has seen, where an element is
held (`memRead_held`). -/
theorem noStepReadsAnUnwrittenSlot : Obligations.NoStepReadsAnUnwrittenSlot := by
  intro s f hinv h
  have hsafe := step_safe hinv
  rw [h] at hsafe
  exact hsafe

end Sys2Proof.Machine

/-! ## Encodings: what each decoder accepts, and its answer

For each decoder and each reader of arguments one lemma says exactly which bytes it accepts, as an `↔` with the bytes written out by the
encoder's side. Both round trips are the two directions of `decode_iff_encode`. -/

namespace Sys2Proof

open Machine

/-! ### Words of bytes -/

theorem toNat_append_eq_add {m n : Nat} (hi : BitVec m) (lo : BitVec n) : (hi ++ lo).toNat = lo.toNat + 2 ^ n * hi.toNat := by
  rw [BitVec.toNat_append, ← Nat.shiftLeft_add_eq_or_of_lt lo.isLt, Nat.shiftLeft_eq, Nat.add_comm, Nat.mul_comm]

theorem toNat_le16 (lo hi : Byte) : (le16 lo hi).toNat = lo.toNat + 256 * hi.toNat := toNat_append_eq_add hi lo

theorem toNat_wordOf (b0 b1 b2 b3 : Byte) :
    (wordOf b0 b1 b2 b3).toNat = b0.toNat + 256 * b1.toNat + 65536 * (b2.toNat + 256 * b3.toNat) := by
  rw [← toNat_le16, ← toNat_le16]
  exact toNat_append_eq_add (le16 b2 b3) (le16 b0 b1)

theorem bytes16_le16 (lo hi : Byte) : bytes16 (le16 lo hi) = [lo, hi] := by
  have h := toNat_le16 lo hi
  simp only [bytes16, lo8, hi8, List.cons.injEq, and_true]
  constructor <;> bv_omega

theorem bytes32_wordOf (b0 b1 b2 b3 : Byte) : bytes32 (wordOf b0 b1 b2 b3) = [b0, b1, b2, b3] := by
  have h := toNat_wordOf b0 b1 b2 b3
  simp only [bytes32, List.cons.injEq, and_true]
  refine ⟨?_, ?_, ?_, ?_⟩ <;> bv_omega

theorem wordOf_bytes32 (v : Word) :
    wordOf (v.setWidth 8) ((v >>> 8).setWidth 8) ((v >>> 16).setWidth 8) ((v >>> 24).setWidth 8) = v := by
  have h := toNat_wordOf (v.setWidth 8) ((v >>> 8).setWidth 8) ((v >>> 16).setWidth 8) ((v >>> 24).setWidth 8)
  bv_omega

theorem eq_ofNat_of_toNat {b : Byte} {n : Nat} (h : b.toNat = n) : b = BitVec.ofNat 8 n := by
  rw [← h, BitVec.ofNat_toNat, BitVec.setWidth_eq]

/-! ### Byte 1 of a frame -/

theorem byte1Of_command_address (b1 : Byte) : byte1Of (commandOf b1) (addressOf b1) = b1 := by
  revert b1
  decide

/-- The command and the address of a header byte made from them. -/
theorem command_address_byte1Of (a : Nibble) : ∀ code ∈ [Config.cmdSet, Config.cmdDiscover, Config.cmdType, Config.cmdValue],
    commandOf (byte1Of code a) = code ∧ addressOf (byte1Of code a) = a := by
  revert a
  decide

theorem badLength_eq_false {L : Byte} : badLength L = false ↔ 4 ≤ L.toNat ∧ L.toNat ≤ 32 := by
  rw [badLength, Bool.or_eq_false_iff, decide_eq_false_iff_not, decide_eq_false_iff_not, not_lt, not_lt]
  rfl

/-! ### Frames -/

@[simp] theorem trailerOk_withTrailer (body : List Byte) : trailerOk (withTrailer body) = true := by
  simp [trailerOk, withTrailer, trailerMatches]

theorem withTrailer_of_trailerOk {frame : List Byte} (h : trailerOk frame = true) :
    frame = withTrailer (frame.take (frame.length - 2)) := by
  unfold trailerOk at h
  split at h
  next lo hi hdrop =>
    obtain ⟨hlo, hhi⟩ : lo8 (checksumOf (frame.take (frame.length - 2))) = lo ∧
        hi8 (checksumOf (frame.take (frame.length - 2))) = hi := by simpa [trailerMatches] using h
    rw [withTrailer, hlo, hhi, ← hdrop, List.take_append_drop]
  next => cases h

@[simp] theorem length_withTrailer (body : List Byte) : (withTrailer body).length = body.length + 2 := by
  simp [withTrailer]

@[simp] theorem payloadOf_withTrailer (L b1 : Byte) (payload : List Byte) :
    payloadOf (withTrailer (L :: b1 :: payload)) = payload := by
  simp [payloadOf, withTrailer]

/-- `bytes` are a whole frame of a legal declared length `L` with its checksum, and then `rest`. -/
structure FrameAtFront (L b1 : Byte) (payload bytes rest : List Byte) : Prop where
  legal : badLength L = false
  size  : payload.length = L.toNat - 4
  bytes : bytes = withTrailer (L :: b1 :: payload) ++ rest

theorem FrameAtFront.length_eq {L b1 : Byte} {payload bytes rest : List Byte} (h : FrameAtFront L b1 payload bytes rest) :
    (withTrailer (L :: b1 :: payload)).length = L.toNat := by
  have hL := badLength_eq_false.mp h.legal
  have hsize := h.size
  simp only [length_withTrailer, List.length_cons]
  omega

theorem FrameAtFront.of_trailerOk {L b1 : Byte} {more : List Byte} (hL : badLength L = false)
    (hlen : L.toNat ≤ (L :: b1 :: more).length) (hck : trailerOk ((L :: b1 :: more).take L.toNat) = true) :
    FrameAtFront L b1 (payloadOf ((L :: b1 :: more).take L.toNat)) (L :: b1 :: more) ((L :: b1 :: more).drop L.toNat) := by
  obtain ⟨n, hn⟩ : ∃ n, L.toNat = n + 4 := ⟨L.toNat - 4, by have := badLength_eq_false.mp hL; omega⟩
  have hframe : ((L :: b1 :: more).take L.toNat).length = n + 4 := by rw [List.length_take, Nat.min_eq_left hlen, hn]
  have hbody : ((L :: b1 :: more).take L.toNat).take (n + 2) = L :: b1 :: payloadOf ((L :: b1 :: more).take L.toNat) := by
    rw [payloadOf, hframe]
    simp [hn]
  refine ⟨hL, ?_, ?_⟩
  · rw [payloadOf, List.length_drop, List.length_take, hframe, hn]
    omega
  · have h := withTrailer_of_trailerOk hck
    rw [hframe, show n + 4 - 2 = n + 2 from rfl, hbody] at h
    rw [← h, List.take_append_drop]

/-- What the two decoders of frames look at, in a frame with its checksum. -/
theorem FrameAtFront.parts {L b1 : Byte} {payload bytes rest : List Byte} (h : FrameAtFront L b1 payload bytes rest) :
    ∃ more, bytes = L :: b1 :: more ∧ ¬ bytes.length < L.toNat ∧ bytes.take L.toNat = withTrailer (L :: b1 :: payload) ∧
      bytes.drop L.toNat = rest := by
  have hlen := h.length_eq
  obtain ⟨-, -, rfl⟩ := h
  refine ⟨_, rfl, ?_, List.take_left' hlen, List.drop_left' hlen⟩
  rw [List.length_append]
  omega

/-- Exactly what the decoder of inbound frames accepts (R94 to R97), and its answer (R92). -/
theorem decodeInbound_eq_ok {bytes rest : List Byte} {i : Instr} :
    decodeInbound bytes = .ok i rest ↔
      ∃ L b1 payload, FrameAtFront L b1 payload bytes rest ∧ badCommand b1 = false ∧ badFixedLength L b1 = false ∧
        inboundInstr L b1 payload = i := by
  constructor
  · intro h
    match bytes with
    | [] => cases h
    | [L] =>
      simp only [decodeInbound] at h
      split_ifs at h
    | L :: b1 :: more =>
      simp only [decodeInbound] at h
      split_ifs at h with hL hlen hcmd hfixed hck
      obtain ⟨rfl, rfl⟩ := Decoded.ok.inj h
      exact ⟨L, b1, _, .of_trailerOk (by simpa using hL) (not_lt.mp hlen) (by simpa using hck), by simpa using hcmd,
        by simpa using hfixed, rfl⟩
  · rintro ⟨L, b1, payload, h, hcmd, hfixed, rfl⟩
    obtain ⟨more, rfl, hlen, htake, hdrop⟩ := h.parts
    simp only [decodeInbound, htake, hdrop, hlen, h.legal, hcmd, hfixed, trailerOk_withTrailer, payloadOf_withTrailer,
      Bool.not_true, Bool.false_eq_true, if_false]

/-- Exactly what the decoder of outbound frames accepts, and its answer (R93). -/
theorem decodeOutbound_eq_ok {bytes rest : List Byte} {i : Instr} :
    decodeOutbound bytes = .ok i rest ↔
      ∃ L b1 payload, FrameAtFront L b1 payload bytes rest ∧ outboundInstr L b1 payload = some i := by
  constructor
  · intro h
    match bytes with
    | [] => cases h
    | [L] =>
      simp only [decodeOutbound] at h
      split_ifs at h
    | L :: b1 :: more =>
      simp only [decodeOutbound] at h
      cases hi : outboundInstr L b1 (payloadOf ((L :: b1 :: more).take L.toNat)) with
      | none =>
        rw [hi] at h
        split_ifs at h
      | some j =>
        rw [hi] at h
        simp only at h
        split_ifs at h with hL hlen hck
        obtain ⟨rfl, rfl⟩ := Decoded.ok.inj h
        exact ⟨L, b1, _, .of_trailerOk (by simpa using hL) (not_lt.mp hlen) (by simpa using hck), hi⟩
  · rintro ⟨L, b1, payload, h, hi⟩
    obtain ⟨more, rfl, hlen, htake, hdrop⟩ := h.parts
    simp only [decodeOutbound, htake, hdrop, hlen, h.legal, hi, trailerOk_withTrailer, payloadOf_withTrailer, Bool.not_true,
      Bool.false_eq_true, if_false]

theorem badCommand_eq_false {b1 : Byte} :
    badCommand b1 = false ↔
      commandOf b1 = Config.cmdDiscover ∨ commandOf b1 = Config.cmdType ∨ commandOf b1 = Config.cmdValue ∨
        commandOf b1 = Config.cmdSet := by
  simp only [badCommand, Bool.and_eq_false_iff, bne_eq_false_iff_eq]
  tauto

/-! ### Inbound frames -/

/-- A frame of fixed length has no payload. -/
theorem FrameAtFront.fixed {L b1 : Byte} {payload bytes rest : List Byte} (h : FrameAtFront L b1 payload bytes rest)
    (hfixed : badFixedLength L b1 = false) (hcmd : commandOf b1 ≠ Config.cmdSet) : L = 4 ∧ payload = [] := by
  have hL : L.toNat = 4 := by simpa [badFixedLength, hcmd, Config.minLength] using hfixed
  refine ⟨BitVec.eq_of_toNat_eq hL, List.eq_nil_of_length_eq_zero ?_⟩
  rw [h.size, hL]

theorem badFixedLength_four (b1 : Byte) : badFixedLength 4 b1 = false := by
  simp [badFixedLength, Config.minLength]

/-- The row of R92 a judged frame is. -/
theorem FrameAtFront.inboundInstr_cases {L b1 : Byte} {payload bytes rest : List Byte}
    (h : FrameAtFront L b1 payload bytes rest) (hcmd : badCommand b1 = false) (hfixed : badFixedLength L b1 = false) :
    (commandOf b1 = Config.cmdDiscover ∧ L = 4 ∧ payload = [] ∧ inboundInstr L b1 payload = .fDiscover (addressOf b1)) ∨
    (commandOf b1 = Config.cmdType ∧ L = 4 ∧ payload = [] ∧ inboundInstr L b1 payload = .fType (addressOf b1)) ∨
    (commandOf b1 = Config.cmdValue ∧ L = 4 ∧ payload = [] ∧ inboundInstr L b1 payload = .fValue (addressOf b1)) ∨
    (commandOf b1 = Config.cmdSet ∧ inboundInstr L b1 payload = .fSet L (addressOf b1) payload) := by
  obtain hc | hc | hc | hc := badCommand_eq_false.mp hcmd
  · obtain ⟨hL, hp⟩ := h.fixed hfixed (by rw [hc]; decide)
    exact .inl ⟨hc, hL, hp, by rw [inboundInstr, hc]; rfl⟩
  · obtain ⟨hL, hp⟩ := h.fixed hfixed (by rw [hc]; decide)
    exact .inr (.inl ⟨hc, hL, hp, by rw [inboundInstr, hc]; rfl⟩)
  · obtain ⟨hL, hp⟩ := h.fixed hfixed (by rw [hc]; decide)
    exact .inr (.inr (.inl ⟨hc, hL, hp, by rw [inboundInstr, hc]; rfl⟩))
  · exact .inr (.inr (.inr ⟨hc, by rw [inboundInstr, hc]; rfl⟩))

theorem byte1Of_addressOf {b1 code : Byte} (h : commandOf b1 = code) : byte1Of code (addressOf b1) = b1 := by
  rw [← h, byte1Of_command_address]

theorem FrameAtFront.encode_inboundInstr {L b1 : Byte} {payload bytes rest : List Byte}
    (h : FrameAtFront L b1 payload bytes rest) (hcmd : badCommand b1 = false) (hfixed : badFixedLength L b1 = false) :
    encode (inboundInstr L b1 payload) = withTrailer (L :: b1 :: payload) ∧ (inboundInstr L b1 payload).wf = true ∧
      formOf (inboundInstr L b1 payload) = .inbound := by
  obtain ⟨hc, rfl, rfl, hi⟩ | ⟨hc, rfl, rfl, hi⟩ | ⟨hc, rfl, rfl, hi⟩ | ⟨hc, hi⟩ := h.inboundInstr_cases hcmd hfixed <;>
    rw [hi, encode, byte1Of_addressOf hc]
  · exact ⟨rfl, rfl, rfl⟩
  · exact ⟨rfl, rfl, rfl⟩
  · exact ⟨rfl, rfl, rfl⟩
  · exact ⟨rfl, by simp [Instr.wf, h.legal, h.size], rfl⟩

/-- A row of R92 is a frame that is accepted and read as that row. -/
theorem exists_frame_of_inbound {i : Instr} (hwf : i.wf = true) (hform : formOf i = .inbound) (rest : List Byte) :
    ∃ L b1 payload, FrameAtFront L b1 payload (encode i ++ rest) rest ∧ badCommand b1 = false ∧ badFixedLength L b1 = false ∧
      inboundInstr L b1 payload = i := by
  cases i with
  | fSet L a payload =>
    obtain ⟨hc, ha⟩ := command_address_byte1Of a Config.cmdSet (by decide)
    obtain ⟨hL, hsize⟩ : badLength L = false ∧ payload.length = L.toNat - 4 := by simpa [Instr.wf] using hwf
    exact ⟨L, byte1Of Config.cmdSet a, payload, ⟨hL, hsize, rfl⟩, badCommand_eq_false.mpr (by simp [hc]),
      by simp [badFixedLength, hc], by rw [inboundInstr, hc, ha]; rfl⟩
  | fDiscover a =>
    obtain ⟨hc, ha⟩ := command_address_byte1Of a Config.cmdDiscover (by decide)
    exact ⟨4, byte1Of Config.cmdDiscover a, [], ⟨rfl, rfl, rfl⟩, badCommand_eq_false.mpr (by simp [hc]),
      badFixedLength_four _, by rw [inboundInstr, hc, ha]; rfl⟩
  | fType a =>
    obtain ⟨hc, ha⟩ := command_address_byte1Of a Config.cmdType (by decide)
    exact ⟨4, byte1Of Config.cmdType a, [], ⟨rfl, rfl, rfl⟩, badCommand_eq_false.mpr (by simp [hc]),
      badFixedLength_four _, by rw [inboundInstr, hc, ha]; rfl⟩
  | fValue a =>
    obtain ⟨hc, ha⟩ := command_address_byte1Of a Config.cmdValue (by decide)
    exact ⟨4, byte1Of Config.cmdValue a, [], ⟨rfl, rfl, rfl⟩, badCommand_eq_false.mpr (by simp [hc]),
      badFixedLength_four _, by rw [inboundInstr, hc, ha]; rfl⟩
  | _ => cases hform

theorem decodeInbound_iff_encode {bytes rest : List Byte} {i : Instr} :
    decodeInbound bytes = .ok i rest ↔ bytes = encode i ++ rest ∧ i.wf = true ∧ formOf i = .inbound := by
  rw [decodeInbound_eq_ok]
  constructor
  · rintro ⟨L, b1, payload, h, hcmd, hfixed, rfl⟩
    obtain ⟨hencode, hrow⟩ := h.encode_inboundInstr hcmd hfixed
    exact ⟨hencode ▸ h.bytes, hrow⟩
  · rintro ⟨rfl, hwf, hform⟩
    exact exists_frame_of_inbound hwf hform rest

/-! ### Outbound frames -/

/-- The row of R93 a judged frame is. -/
theorem encode_of_outboundInstr {L b1 : Byte} {payload : List Byte} {i : Instr} (h : outboundInstr L b1 payload = some i) :
    encode i = withTrailer (L :: b1 :: payload) ∧ i.wf = true ∧ formOf i = .outbound := by
  unfold outboundInstr at h
  split at h
  next hL =>
    obtain rfl : L = 4 := BitVec.eq_of_toNat_eq hL
    split_ifs at h with hc
    cases h
    rw [encode, byte1Of_addressOf hc]
    exact ⟨rfl, rfl, rfl⟩
  next x y hL =>
    obtain rfl : L = 6 := BitVec.eq_of_toNat_eq hL
    split_ifs at h with hc hc <;> cases h <;> rw [encode, byte1Of_addressOf hc]
    · exact ⟨rfl, rfl, rfl⟩
    · rw [bytes16_le16]
      exact ⟨rfl, rfl, rfl⟩
  next b0 b1' b2 b3 hL =>
    obtain rfl : L = 8 := BitVec.eq_of_toNat_eq hL
    split_ifs at h with hc
    cases h
    rw [encode, byte1Of_addressOf hc, bytes32_wordOf]
    exact ⟨rfl, rfl, rfl⟩
  next => cases h

/-- A row of R93 is a frame that is read as that row. -/
theorem exists_frame_of_outbound {i : Instr} (hform : formOf i = .outbound) (rest : List Byte) :
    ∃ L b1 payload, FrameAtFront L b1 payload (encode i ++ rest) rest ∧ outboundInstr L b1 payload = some i := by
  cases i with
  | eDiscoverResp a =>
    obtain ⟨hc, ha⟩ := command_address_byte1Of a Config.cmdDiscover (by decide)
    exact ⟨4, byte1Of Config.cmdDiscover a, [], ⟨rfl, rfl, rfl⟩, by simp [outboundInstr, hc, ha]⟩
  | eTypeResp a k w =>
    obtain ⟨hc, ha⟩ := command_address_byte1Of a Config.cmdType (by decide)
    exact ⟨6, byte1Of Config.cmdType a, [k, w], ⟨rfl, rfl, rfl⟩, by simp [outboundInstr, hc, ha]⟩
  | eValueRespS a v =>
    obtain ⟨hc, ha⟩ := command_address_byte1Of a Config.cmdValue (by decide)
    have hne : Config.cmdValue ≠ Config.cmdType := by decide
    exact ⟨6, byte1Of Config.cmdValue a, bytes16 v, ⟨rfl, rfl, rfl⟩, by simp [outboundInstr, bytes16, hc, ha, hne]⟩
  | eValueRespL a v =>
    obtain ⟨hc, ha⟩ := command_address_byte1Of a Config.cmdValue (by decide)
    exact ⟨8, byte1Of Config.cmdValue a, bytes32 v, ⟨rfl, rfl, rfl⟩, by
      simp [outboundInstr, bytes32, hc, ha, wordOf_bytes32]⟩
  | _ => cases hform

theorem decodeOutbound_iff_encode {bytes rest : List Byte} {i : Instr} :
    decodeOutbound bytes = .ok i rest ↔ bytes = encode i ++ rest ∧ i.wf = true ∧ formOf i = .outbound := by
  rw [decodeOutbound_eq_ok]
  constructor
  · rintro ⟨L, b1, payload, h, hi⟩
    obtain ⟨hencode, hrow⟩ := encode_of_outboundInstr hi
    exact ⟨hencode ▸ h.bytes, hrow⟩
  · rintro ⟨rfl, -, hform⟩
    exact exists_frame_of_outbound hform rest

/-! ### Arguments of a command -/

theorem takeNat_eq_some {bs rest : List Byte} {v : Nat} : takeNat bs = some (v, rest) ↔ bs = natBytes v ++ rest :=
  ⟨natBytes_of_takeNat, fun h => h ▸ takeNat_natBytes v rest⟩

theorem takeElems_eq_some {m : Nat} {bs rest : List Byte} {vs : List Elem} :
    takeElems m bs = some (vs, rest) ↔ bs = vs.flatMap natBytes ++ rest ∧ vs.length = m := by
  refine ⟨flatMap_of_takeElems, ?_⟩
  rintro ⟨rfl, rfl⟩
  exact takeElems_flatMap vs rest

theorem takeBytes_eq_some {m : Nat} {bs rest xs : List Byte} :
    takeBytes m bs = some (xs, rest) ↔ bs = xs ++ rest ∧ xs.length = m := by
  induction m generalizing bs xs with
  | zero => cases xs <;> simp [takeBytes]
  | succ m ih =>
    cases bs with
    | nil => cases xs <;> simp [takeBytes]
    | cons b bs => cases xs <;> simp [takeBytes, ih, and_comm, and_assoc]

theorem takeHalf_eq_some {bs rest : List Byte} {v : Half} : takeHalf bs = some (v, rest) ↔ bs = bytes16 v ++ rest := by
  match bs with
  | [] => simp [takeHalf, bytes16]
  | [b] => simp [takeHalf, bytes16]
  | lo :: hi :: bs =>
    constructor
    · intro h
      obtain ⟨rfl, rfl⟩ : le16 lo hi = v ∧ bs = rest := by simpa [takeHalf] using h
      rw [bytes16_le16]
      rfl
    · intro h
      obtain ⟨rfl, rfl, rfl⟩ : lo = lo8 v ∧ hi = hi8 v ∧ bs = rest := by simpa [bytes16] using h
      rw [takeHalf, le16_lo8_hi8]

theorem takeHalves_eq_some {m : Nat} {bs rest : List Byte} {vs : List Half} :
    takeHalves m bs = some (vs, rest) ↔ bs = vs.flatMap bytes16 ++ rest ∧ vs.length = m := by
  induction m generalizing bs vs with
  | zero => cases vs <;> simp [takeHalves]
  | succ m ih =>
    constructor
    · intro h
      rw [takeHalves] at h
      cases hv : takeHalf bs with
      | none => simp [hv] at h
      | some r =>
        obtain ⟨ws, hw, rfl⟩ : ∃ ws, takeHalves m r.2 = some (ws, rest) ∧ r.1 :: ws = vs := by simpa [hv] using h
        obtain ⟨hr, rfl⟩ := ih.mp hw
        rw [takeHalf_eq_some.mp hv, hr]
        simp
    · rintro ⟨rfl, hlen⟩
      cases vs with
      | nil => cases hlen
      | cons v vs =>
        have hv : takeHalf ((v :: vs).flatMap bytes16 ++ rest) = some (v, vs.flatMap bytes16 ++ rest) :=
          takeHalf_eq_some.mpr (by simp)
        rw [takeHalves, hv]
        simp [ih.mpr ⟨rfl, Nat.succ.inj hlen⟩]

theorem counted_eq_some {α : Type} {take : Nat → List Byte → Option (α × List Byte)} {write : α → List Byte} {size : α → Nat}
    (htake : ∀ {m bs rest a}, take m bs = some (a, rest) ↔ bs = write a ++ rest ∧ size a = m) {bs rest : List Byte} {a : α} :
    counted take bs = some (a, rest) ↔ bs = natBytes (size a) ++ (write a ++ rest) := by
  constructor
  · intro h
    unfold counted at h
    split at h
    next => cases h
    next m bs1 hm =>
      obtain ⟨rfl, rfl⟩ := htake.mp h
      exact takeNat_eq_some.mp hm
  · rintro rfl
    rw [counted, takeNat_natBytes]
    exact htake.mpr ⟨rfl, rfl⟩

theorem withArg_eq_ok {α : Type} {arg : Option (α × List Byte)} {mk : α → Instr} {i : Instr} {rest : List Byte} :
    withArg arg mk = .ok i rest ↔ ∃ a, arg = some (a, rest) ∧ i = mk a := by
  match arg with
  | none => simp [withArg]
  | some (a, bs) => simp [withArg, eq_comm, and_comm]

theorem targetOf_eq_some {b : Byte} {target : InstId} : targetOf b = some target ↔ b = targetByte target := by
  unfold targetOf
  split_ifs with h0 h1 <;> cases target <;> simp_all [targetByte]

/-- An address byte is an address exactly when its high nibble is 0. -/
theorem setWidth_addressOf {b : Byte} : (addressOf b).setWidth 8 = b ↔ b &&& 0xF0 = 0 := by
  revert b
  decide

@[simp] theorem addressOf_setWidth (a : Nibble) : addressOf (a.setWidth 8) = a := by
  revert a
  decide

/-- The address and fields of every message but `SetMsg`. -/
theorem takeFields_eq_some {tag : Byte} {a : Nibble} {bs rest : List Byte} {m : Message} :
    takeFields tag a bs = some (m, rest) ↔ tagOf m = tag ∧ tag ≠ 2 ∧ a.setWidth 8 :: bs = messageBytes m ++ rest := by
  constructor
  · intro h
    unfold takeFields at h
    split at h
    -- no message has this tag and so few bytes
    case h_8 => cases h
    all_goals
      rename_i htag
      obtain rfl := eq_ofNat_of_toNat htag
      cases h
      refine ⟨rfl, by decide, ?_⟩
      simp [messageBytes, bytes16_le16, bytes32_wordOf]
  · rintro ⟨rfl, htag, h⟩
    cases m <;> simp only [messageBytes, List.cons_append, List.cons.injEq] at h
    case setMsg ch => exact absurd rfl htag
    all_goals
      obtain ⟨ha, rfl⟩ := h
      have haddress := congrArg addressOf ha
      rw [addressOf_setWidth, addressOf_setWidth] at haddress
      obtain rfl := haddress
    · rfl
    · rfl
    · rfl
    · rfl
    · rfl
    · simp [takeFields, tagOf, bytes16]
    · simp [takeFields, tagOf, bytes32, wordOf_bytes32]

theorem tagOf_le (m : Message) : (tagOf m).toNat ≤ 7 := by cases m <;> simp [tagOf]

theorem tagOf_eq_two {m : Message} : tagOf m = 2 ↔ ∃ ch, m = .setMsg ch := by
  cases m <;> simp [tagOf]

theorem wf_of_tagOf_ne {m : Message} (h : tagOf m ≠ 2) : m.wf = true := by
  cases m with
  | setMsg ch => exact absurd rfl h
  | _ => rfl

theorem messageBytes_of_tagOf_ne {m : Message} (h : tagOf m ≠ 2) :
    ∃ (a : Nibble) (fields : List Byte), messageBytes m = a.setWidth 8 :: fields := by
  cases m with
  | setMsg ch => exact absurd rfl h
  | _ => exact ⟨_, _, rfl⟩

theorem decodeEncode_eq_ok {bytes rest : List Byte} {i : Instr} :
    decodeEncode bytes = .ok i rest ↔
      ∃ m target, i = .encode m target ∧ m.wf = true ∧ bytes = targetByte target :: tagOf m :: (messageBytes m ++ rest) := by
  constructor
  · intro h
    match bytes with
    | [] => cases h
    | [b] => cases h
    | tgt :: tag :: bs =>
      cases htgt : targetOf tgt with
      | none => simp [decodeEncode, htgt] at h
      | some target =>
        obtain rfl := targetOf_eq_some.mp htgt
        simp only [decodeEncode, htgt] at h
        split_ifs at h with htag hset
        · split at h
          next => cases h
          next ch rest' hch =>
            obtain ⟨rfl, hlen⟩ := takeHalves_eq_some.mp hch
            cases h
            exact ⟨.setMsg ch, target, rfl, by simpa [Message.wf] using hlen, by rw [hset]; rfl⟩
        · split at h
          next => cases h
          next a bs' =>
            split_ifs at h with hwide
            split at h
            next => cases h
            next m rest' hm =>
              obtain ⟨rfl, -, hbytes⟩ := takeFields_eq_some.mp hm
              cases h
              rw [setWidth_addressOf.mpr (not_not.mp hwide)] at hbytes
              exact ⟨m, target, rfl, wf_of_tagOf_ne hset, by rw [hbytes]⟩
  · rintro ⟨m, target, rfl, hwf, rfl⟩
    have htag : ¬ 7 < (tagOf m).toNat := not_lt.mpr (tagOf_le m)
    simp only [decodeEncode, targetOf_eq_some.mpr rfl, htag, if_false]
    by_cases hset : tagOf m = 2
    · obtain ⟨ch, rfl⟩ := tagOf_eq_two.mp hset
      have htake : takeHalves Config.nchan (messageBytes (.setMsg ch) ++ rest) = some (ch, rest) :=
        takeHalves_eq_some.mpr ⟨rfl, by simpa [Message.wf] using hwf⟩
      simp only [hset, if_true, htake]
    · obtain ⟨a, fields, hm⟩ := messageBytes_of_tagOf_ne hset
      have hwide : (a.setWidth 8 : Byte) &&& 0xF0 = 0 := setWidth_addressOf.mp (by rw [addressOf_setWidth])
      have htake : takeFields (tagOf m) a (fields ++ rest) = some (m, rest) :=
        takeFields_eq_some.mpr ⟨rfl, hset, by rw [hm]; rfl⟩
      simp only [hset, if_false, hm, List.cons_append, hwide, ne_eq, not_true, addressOf_setWidth, htake]

/-! ### Operations -/

theorem encode_of_decodeOp {bytes rest : List Byte} {i : Instr} (h : decodeOp bytes = .ok i rest) :
    bytes = encode i ++ rest ∧ i.wf = true ∧ formOf i = .op := by
  unfold decodeOp at h
  split at h
  next => cases h
  next op bs =>
    split at h
    all_goals rename_i hop
    -- an op code that is unassigned, or none
    case h_17 => split at h <;> cases h
    all_goals obtain rfl := eq_ofNat_of_toNat hop
    -- `push`
    case h_1 =>
      obtain ⟨v, hv, rfl⟩ := withArg_eq_ok.mp h
      rw [takeNat_eq_some.mp hv]
      exact ⟨rfl, rfl, rfl⟩
    -- `peek`
    case h_7 =>
      obtain ⟨j, hj, rfl⟩ := withArg_eq_ok.mp h
      rw [takeNat_eq_some.mp hj]
      exact ⟨rfl, rfl, rfl⟩
    -- `load`
    case h_9 =>
      obtain ⟨vs, hvs, rfl⟩ := withArg_eq_ok.mp h
      rw [(counted_eq_some takeElems_eq_some).mp hvs]
      exact ⟨by simp [encode], rfl, rfl⟩
    -- `checksum`
    case h_12 =>
      obtain ⟨xs, hxs, rfl⟩ := withArg_eq_ok.mp h
      rw [(counted_eq_some (write := id) takeBytes_eq_some).mp hxs]
      exact ⟨by simp [encode], rfl, rfl⟩
    -- `encode`
    case h_16 =>
      obtain ⟨m, target, rfl, hwf, rfl⟩ := decodeEncode_eq_ok.mp h
      exact ⟨rfl, hwf, rfl⟩
    -- the operations without an argument
    all_goals
      cases h
      exact ⟨rfl, rfl, rfl⟩

theorem decodeOp_encode {i : Instr} (hwf : i.wf = true) (hform : formOf i = .op) (rest : List Byte) :
    decodeOp (encode i ++ rest) = .ok i rest := by
  cases i with
  | push v => exact withArg_eq_ok.mpr ⟨v, takeNat_natBytes v rest, rfl⟩
  | peek j => exact withArg_eq_ok.mpr ⟨j, takeNat_natBytes j rest, rfl⟩
  | load vs => exact withArg_eq_ok.mpr ⟨vs, (counted_eq_some takeElems_eq_some).mpr (List.append_assoc _ _ _), rfl⟩
  | checksum xs =>
    exact withArg_eq_ok.mpr ⟨xs, (counted_eq_some (write := id) takeBytes_eq_some).mpr (List.append_assoc _ _ _), rfl⟩
  | encode m target => exact decodeEncode_eq_ok.mpr ⟨m, target, rfl, hwf, rfl⟩
  | fSet | fDiscover | fType | fValue | eDiscoverResp | eTypeResp | eValueRespS | eValueRespL => cases hform
  | pop | len | isFull | isEmpty | space | clear | iterNew | iterNext | needsResync | decodeNext | service => rfl

theorem decodeOp_iff_encode {bytes rest : List Byte} {i : Instr} :
    decodeOp bytes = .ok i rest ↔ bytes = encode i ++ rest ∧ i.wf = true ∧ formOf i = .op := by
  refine ⟨encode_of_decodeOp, ?_⟩
  rintro ⟨rfl, hwf, hform⟩
  exact decodeOp_encode hwf hform rest

/-! ### The three forms -/

theorem decode_iff_encode {f : Form} {bytes rest : List Byte} {i : Instr} :
    decode f bytes = .ok i rest ↔ bytes = encode i ++ rest ∧ i.wf = true ∧ formOf i = f := by
  cases f with
  | op => exact decodeOp_iff_encode
  | inbound => exact decodeInbound_iff_encode
  | outbound => exact decodeOutbound_iff_encode

/-- Settles O1, by the exact domain of each decoder (`decode_iff_encode`): an encoding is what its own form's decoder accepts. -/
theorem decodeOfEncodeIsIdentity : Obligations.DecodeOfEncodeIsIdentity :=
  fun _ _ hwf => decode_iff_encode.mpr ⟨rfl, hwf, rfl⟩

/-- Settles O2, by the same lemma read from left to right. -/
theorem acceptedBytesAreTheEncoding : Obligations.AcceptedBytesAreTheEncoding :=
  fun _ _ _ _ h => decode_iff_encode.mp h

/-! ### Written-out words, and unassigned op codes -/

/-- Settles O4, by running the decoders on the eight words. -/
theorem writtenOutWordsDecode : Obligations.WrittenOutWordsDecode := by
  unfold Obligations.WrittenOutWordsDecode
  decide

theorem decodeOp_unassigned {op : Byte} (h : 0x0B ≤ op.toNat ∧ op.toNat ≤ 0x0F ∨ 0x15 ≤ op.toNat ∧ op.toNat ≤ 0x1F)
    (args : List Byte) : decodeOp (op :: args) = .reject .unassignedOp := by
  have hcode : ¬ 0x1F < op.toNat := by omega
  unfold decodeOp
  simp only
  split
  case h_17 => exact if_neg hcode
  all_goals omega

theorem runCommand_of_reject {cmd : List Byte} {e : DecodeError} (h : decodeOp cmd = .reject e) (run : Instr → State → Out)
    (s : State) : runCommand cmd run s = .refused (.undecodable e) := by
  simp only [runCommand, decodeCommand, h]

/-- Settles O3: the op code alone decides the refusal (`decodeOp_unassigned`), before any test of the state. -/
theorem unassignedOpCodesAreRefused : Obligations.UnassignedOpCodesAreRefused := by
  intro op args p q s hop hqueue
  have hreject := decodeOp_unassigned hop args
  obtain hq | hq := hqueue
  · rw [step_of_queue hq]
    exact runCommand_of_reject hreject exec _
  · rw [step_of_queue hq]
    exact runCommand_of_reject hreject begin _

end Sys2Proof

/-! ## The codec on the bytes at the front

Under ordered handoff every peek of the codec below the length it has seen answers the byte held there, so the synchroniser and the
decoder are functions of the bytes at the front (`frontVerdict`, `delivered`). -/

namespace Sys2Proof.Machine

variable {id : InstId} {front rest payload : List Byte} {L b1 : Byte} {s : State}

/-- The CONSUMER of `id` has seen the bytes `front` at the front, and its peeks answer them (R54, R56, R62). -/
structure SeesFront (id : InstId) (front : List Byte) (s : State) : Prop where
  store   : (s.inst id).StoreOk
  ordered : (s.inst id).params.orderedHandoff = true
  seen    : front.length ≤ (s.inst id).visible
  bytes   : (s.inst id).frontBytes front.length = front

/-- A part of an operation answers `a`, and the front is seen as before. -/
def Run.Answers {α : Type} (id : InstId) (front : List Byte) (r : Run α) (a : α) : Prop :=
  ∃ t, r = .ok a t ∧ SeesFront id front t

namespace Run.Answers

theorem ok {α : Type} (a : α) (h : SeesFront id front s) : (Run.ok a s).Answers id front a := ⟨s, rfl, h⟩

theorem bind {α β : Type} {r : Run α} {a : α} {f : α → State → Run β} {b : β} (hr : r.Answers id front a)
    (hf : ∀ t, SeesFront id front t → (f a t).Answers id front b) : (r.bind f).Answers id front b := by
  obtain ⟨t, rfl, ht⟩ := hr
  exact hf t ht

end Run.Answers

/-! ### Peeks -/

namespace SeesFront

theorem of_inst {t : State} (h : SeesFront id front s) (ht : t.inst id = s.inst id) : SeesFront id front t := by
  obtain ⟨hs, ho, hseen, hbytes⟩ := h
  exact ⟨ht ▸ hs, ht ▸ ho, ht ▸ hseen, ht ▸ hbytes⟩

/-- A read of `head` shows the CONSUMER no less. -/
theorem headSeen (h : SeesFront id front s) : SeesFront id front (rdHead id s).2 := by
  obtain ⟨hs, ho, hseen, hbytes⟩ := h
  refine ⟨storeOk_rdHead hs, ?_, ?_, ?_⟩
  all_goals rw [rdHead_inst]
  · exact ho
  · exact hseen.trans (hs.visible_le_of_headSeen (rdHead_onTheWay id s))
  · exact hbytes

theorem peekByte (h : SeesFront id front s) {j : Nat} (hj : j < front.length) :
    (peekByte id j s).Answers id front front[j] := by
  have hlen : j < (lenByConsumer id s).1 := by
    rw [lenByConsumer_fst]
    exact hj.trans_le h.headSeen.seen
  obtain ⟨v, t, hr, hinst, hheld⟩ := peekRun_of_lt h.store hlen
  have hbyte : byteOf v = front[j] := by
    have hfront := List.getElem_of_eq h.bytes (i := j) (by simpa [Inst.frontBytes] using hj)
    simpa [Inst.frontBytes, hheld h.ordered] using hfront
  refine ⟨t, ?_, h.headSeen.of_inst (hinst.trans (rdHead_inst id s).symm)⟩
  rw [Machine.peekByte, hr, Run.bind_ok, hbyte]

theorem peekBytes (h : SeesFront id front s) (m j : Nat) (hm : j + m ≤ front.length) :
    (peekBytes id m j s).Answers id front ((front.drop j).take m) := by
  induction m generalizing j s with
  | zero => exact .ok _ h
  | succ m ih =>
    rw [List.drop_eq_getElem_cons (show j < front.length by omega), List.take_succ_cons]
    exact (h.peekByte _).bind fun t ht => (ih ht (j + 1) (by omega)).bind fun u hu => .ok _ hu

theorem sumPeeks (h : SeesFront id front s) (m j : Nat) (acc : Half) (hm : j + m ≤ front.length) :
    (sumPeeks id m j acc s).Answers id front (((front.drop j).take m).foldl sub16 acc) := by
  induction m generalizing j s acc with
  | zero => exact .ok _ h
  | succ m ih =>
    rw [List.drop_eq_getElem_cons (show j < front.length by omega), List.take_succ_cons, List.foldl_cons]
    exact (h.peekByte _).bind fun t ht => ih ht (j + 1) _ (by omega)

end SeesFront

/-! ### The synchroniser -/

/-- The row of the case table of R168 the bytes at the front are in (one byte of a legal length is an incomplete frame). -/
def frontVerdict (front : List Byte) : Verdict :=
  match front with
  | [] => .empty
  | L :: more =>
    if badLength L then .malformed .badLength
    else if front.length < L.toNat then .incomplete L
    else
      match more with
      | [] => .incomplete L
      | b1 :: _ =>
        if badCommand b1 then .malformed .badCommand
        else if badFixedLength L b1 then .malformed .badFixedLength
        else if trailerOk (front.take L.toNat) then .good L b1 (checksumOf (front.take (L.toNat - 2)))
        else .malformed .badChecksum

theorem trailerOk_take {n : Nat} (hn : n + 2 ≤ front.length) :
    trailerOk (front.take (n + 2)) = trailerMatches (checksumOf (front.take n)) front[n] front[n + 1] := by
  have hlen : (front.take (n + 2)).length - 2 = n := by rw [List.length_take]; omega
  have hdrop : (front.take (n + 2)).drop n = [front[n], front[n + 1]] := by
    rw [List.drop_take, List.drop_eq_getElem_cons (show n < front.length by omega),
      List.drop_eq_getElem_cons (show n + 1 < front.length by omega), Nat.add_sub_cancel_left]
    rfl
  rw [trailerOk, hlen, hdrop, List.take_take, Nat.min_eq_left (Nat.le_add_right n 2)]

namespace SeesFront

theorem checkTrailer (h : SeesFront id front s) (hL : badLength L = false) (hlen : L.toNat ≤ front.length) :
    (checkTrailer id L s).Answers id front
      (if trailerOk (front.take L.toNat) then some (checksumOf (front.take (L.toNat - 2))) else none) := by
  obtain ⟨n, hn⟩ : ∃ n, L.toNat = n + 2 := ⟨L.toNat - 2, by have := badLength_eq_false.mp hL; omega⟩
  rw [hn] at hlen
  simp only [Machine.checkTrailer, hn, trailerOk_take hlen]
  exact (h.sumPeeks n 0 _ (by omega)).bind fun _ h1 => (h1.peekByte _).bind fun _ h2 => (h2.peekByte _).bind fun _ h3 =>
    .ok _ h3

theorem judgeFrame {more : List Byte} (h : SeesFront id (L :: b1 :: more) s) (hL : badLength L = false)
    (hlen : ¬ (L :: b1 :: more).length < L.toNat) :
    (judgeFrame id L s).Answers id (L :: b1 :: more) (frontVerdict (L :: b1 :: more)) := by
  refine (h.peekByte (j := 1) (by simp)).bind fun t ht => ?_
  simp only [frontVerdict, hL, hlen, Bool.false_eq_true, if_false, List.getElem_cons_succ, List.getElem_cons_zero]
  have hck := ht.checkTrailer hL (not_lt.mp hlen)
  split_ifs with hcmd hfixed htrailer
  · exact .ok _ ht
  · exact .ok _ ht
  · rw [if_pos htrailer] at hck
    exact hck.bind fun _ hu => .ok _ hu
  · rw [if_neg htrailer] at hck
    exact hck.bind fun _ hu => .ok _ hu

theorem syncRun (h : SeesFront id front s) : (syncRun id front.length s).Answers id front (frontVerdict front) := by
  match front with
  | [] => exact .ok _ h
  | L :: more =>
    refine (h.peekByte (j := 0) (by simp)).bind fun t ht => ?_
    rw [List.getElem_cons_zero]
    by_cases hL : badLength L = true
    · simp only [frontVerdict, hL, if_true]
      exact .ok _ ht
    by_cases hlen : (L :: more).length < L.toNat
    · simp only [frontVerdict, hL, hlen, if_true, Bool.false_eq_true, if_false]
      exact .ok _ ht
    rw [if_neg hL, if_neg hlen]
    cases more with
    | nil =>
      have hlegal := badLength_eq_false.mp (Bool.eq_false_iff.mpr hL)
      simp only [List.length_cons, List.length_nil] at hlen
      omega
    | cons b1 more => exact ht.judgeFrame (Bool.eq_false_iff.mpr hL) hlen

end SeesFront

/-! ### The decoder -/

/-- The message of an accepted frame and the number of bytes to discard (R178 to R182, R184). -/
def delivered (L b1 : Byte) (payload : List Byte) : Message × Nat :=
  if commandOf b1 = Config.cmdDiscover then discoverResult (addressOf b1)
  else if commandOf b1 = Config.cmdType then typeResult (addressOf b1)
  else if commandOf b1 = Config.cmdValue then valueResult (addressOf b1)
  else setResult L payload

theorem two_mul_setCount_le (L : Byte) : 2 * setCount L ≤ L.toNat - 4 := by
  unfold setCount
  omega

/-- Only the first `2 * setCount L` bytes of a payload are delivered. -/
theorem setResult_take (L : Byte) (payload : List Byte) : setResult L (payload.take (2 * setCount L)) = setResult L payload := by
  simp only [setResult, setChannels, List.take_take, Nat.min_self]

theorem SeesFront.acceptRun (h : SeesFront id front s) (hframe : FrameAtFront L b1 payload front rest) :
    (acceptRun id L b1 s).Answers id front (delivered L b1 payload) := by
  unfold Machine.acceptRun delivered
  split_ifs
  · exact .ok _ h
  · exact .ok _ h
  · exact .ok _ h
  · have hcount := two_mul_setCount_le L
    have hlegal := badLength_eq_false.mp hframe.legal
    obtain ⟨-, -, hlen, -⟩ := hframe.parts
    have hread : (front.drop 2).take (2 * setCount L) = payload.take (2 * setCount L) := by
      rw [hframe.bytes, withTrailer, List.append_assoc]
      exact List.take_append_of_le_length (hcount.trans hframe.size.ge)
    have hpeeks := h.peekBytes (2 * setCount L) 2 (by omega)
    rw [hread] at hpeeks
    refine hpeeks.bind fun t ht => ?_
    rw [setResult_take]
    exact .ok _ ht

theorem frontVerdict_of_frame (h : FrameAtFront L b1 payload front rest) (hcmd : badCommand b1 = false)
    (hfixed : badFixedLength L b1 = false) : frontVerdict front = .good L b1 (checksumOf (L :: b1 :: payload)) := by
  have hbody : front.take (L.toNat - 2) = L :: b1 :: payload := by
    rw [h.bytes, withTrailer, List.append_assoc, List.take_left']
    have hlen := h.length_eq
    rw [length_withTrailer] at hlen
    omega
  obtain ⟨more, rfl, hlen, htake, -⟩ := h.parts
  simp only [frontVerdict, h.legal, hlen, hcmd, hfixed, htake, hbody, trailerOk_withTrailer, Bool.false_eq_true, if_false, if_true]

/-! ### The frame's own row -/

theorem exec_inboundInstr (h : FrameAtFront L b1 payload front rest) (hcmd : badCommand b1 = false)
    (hfixed : badFixedLength L b1 = false) (s : State) :
    exec (inboundInstr L b1 payload) s = acceptFrame L b1 payload (delivered L b1 payload) s := by
  obtain ⟨hc, rfl, rfl, hi⟩ | ⟨hc, rfl, rfl, hi⟩ | ⟨hc, rfl, rfl, hi⟩ | ⟨hc, hi⟩ := h.inboundInstr_cases hcmd hfixed <;>
    rw [hi, exec, delivered, hc]
  · rw [execFDiscover, byte1Of_addressOf hc]
    rfl
  · rw [execFType, byte1Of_addressOf hc]
    rfl
  · rw [execFValue, byte1Of_addressOf hc]
    rfl
  · rw [execFSet, byte1Of_addressOf hc]
    rfl

theorem invokedOnBytes_admitted {w : Who} (h : Admitted w s) (hW : OnBytes s) (body : State → Out) :
    invokedOnBytes w s body = body (s.setRet s.port none) := by
  have hW' : (s.setRet s.port none).here.params.W = 8 := by
    rwa [State.here, State.setRet_port, State.setRet_params]
  rw [invokedOnBytes, invoked_admitted h, if_neg (not_not.mpr hW')]

/-- A length snapshot shows the CONSUMER the front (R54, R62). -/
theorem seesFront_snapshot (hs : (s.inst id).StoreOk) (ho : (s.inst id).params.orderedHandoff = true) :
    SeesFront id ((s.inst id).frontBytes (lenByConsumer id s).1) (lenByConsumer id s).2 := by
  have hlen : ((s.inst id).frontBytes (lenByConsumer id s).1).length = (lenByConsumer id s).1 := by simp [Inst.frontBytes]
  have hread : (lenByConsumer id s).2.inst id = { s.inst id with headView := (rdHead id s).1 } := rdHead_inst id s
  refine ⟨storeOk_rdHead hs, ?_, (hlen.trans (lenByConsumer_fst id s)).le, ?_⟩
  · rw [hread]
    exact ho
  · rw [hread, hlen]
    rfl

theorem frontBytes_setRet (s : State) (p : Port) (r : Option Result) (n : Nat) :
    ((s.setRet p r).inst p.inst).frontBytes n = (s.inst p.inst).frontBytes n := by
  rw [State.inst_setRet]
  cases p.role <;> rfl

/-- The synchroniser of an invocation that has begun judges the front as it stood before. -/
theorem snapshot_syncRun (hinv : s.Inv) (ho : s.here.params.orderedHandoff = true) :
    (syncRun s.port.inst (lenByConsumer s.port.inst (s.setRet s.port none)).1
        (lenByConsumer s.port.inst (s.setRet s.port none)).2).Answers s.port.inst
      (s.here.frontBytes (lenByConsumer s.port.inst s).1)
      (frontVerdict (s.here.frontBytes (lenByConsumer s.port.inst s).1)) := by
  have ho' : ((s.setRet s.port none).inst s.port.inst).params.orderedHandoff = true := by rwa [State.setRet_params]
  have hsync := (seesFront_snapshot (storeOk_setRet (storeOk_of_inv hinv s.port.inst) none) ho').syncRun
  rw [frontBytes_setRet, lenByConsumer_setRet] at hsync
  rw [lenByConsumer_setRet]
  simpa [Inst.frontBytes, State.here] using hsync

/-- Settles O6: the front decodes as the frame, so the synchroniser's verdict is `good` with the frame's header and checksum
(`frontVerdict_of_frame`), and both instructions then make the same peeks and return the same message. -/
theorem decodeNextRunsTheFrameAtTheFront : Obligations.DecodeNextRunsTheFrameAtTheFront := by
  intro s i rest hinv hadm hbytes ho hdecode
  obtain ⟨L, b1, payload, hframe, hcmd, hfixed, rfl⟩ := decodeInbound_eq_ok.mp hdecode
  obtain ⟨t, hsync, ht⟩ := snapshot_syncRun hinv ho
  rw [frontVerdict_of_frame hframe hcmd hfixed] at hsync
  obtain ⟨u, haccept, -⟩ := ht.acceptRun hframe
  have hdecodeRun : decodeRun s.port.inst (s.setRet s.port none) =
      .ok (some (delivered L b1 payload).1, (delivered L b1 payload).2) u := by
    simp [decodeRun, hsync, haccept]
  have hframeRun : frameRun s.port.inst L b1 (checksumOf (L :: b1 :: payload)) (delivered L b1 payload)
      (s.setRet s.port none) = .ok true u := by
    simp [frameRun, hsync, haccept]
  rw [exec_inboundInstr hframe hcmd hfixed, exec, execDecodeNext, acceptFrame, invokedOnBytes_admitted hadm hbytes,
    invokedOnBytes_admitted hadm hbytes, State.setRet_port, hdecodeRun, hframeRun, finish]

end Sys2Proof.Machine
/-! ## The ring-buffer operations as whole invocations -/

namespace Sys2Proof.Machine

variable {id : InstId} {s t : State} {v : Elem} {vs : List Elem}

/-! ### An admitted invocation -/

/-- The role an admitted PRODUCER's invocation comes from. -/
theorem admitted_producer (h : Admitted .producer s) : s.port.role = .producer :=
  permits_producer (refusalOf_eq_none.mp h).2.1

/-- An emptied result port changes nothing of what a read of `tail` answers. -/
theorem rdTail_setRet (s : State) (p : Port) (r : Option Result) :
    (rdTail p.inst (s.setRet p r)).1 = (rdTail p.inst s).1 := by
  simpa [rdTail] using observe_fst_congr _ _ _ (State.setRet_choices s p r) (State.setRet_draws s p r)

theorem lenBy_of_producer {p : Port} (h : p.role = .producer) (s : State) : lenBy p s = lenByProducer p.inst s := by
  rw [lenBy, h]

theorem lenBy_of_consumer {p : Port} (h : p.role = .consumer) (s : State) : lenBy p s = lenByConsumer p.inst s := by
  rw [lenBy, h]

theorem lenBy_setRet (s : State) (r : Option Result) : (lenBy s.port (s.setRet s.port r)).1 = (lenBy s.port s).1 := by
  simp only [lenBy]
  cases s.port.role <;> simp [lenByProducer, lenByConsumer, rdTail_setRet, rdHead_setRet]

/-- The instance of an invocation of the CONSUMER after its read of `head`. -/
theorem inst_rdHead_setRet (hrole : s.port.role = .consumer) :
    (rdHead s.port.inst (s.setRet s.port none)).2.inst s.port.inst =
      { s.here with headView := (rdHead s.port.inst s).1, cons := { s.here.cons with ret := none } } := by
  rw [rdHead_inst, rdHead_setRet, inst_setRet_consumer hrole]
  rfl

/-- The instance of an invocation of the PRODUCER after its read of `tail`. -/
theorem inst_rdTail_setRet (hrole : s.port.role = .producer) :
    (rdTail s.port.inst (s.setRet s.port none)).2.inst s.port.inst =
      { s.here with tailView := (rdTail s.port.inst s).1, prod := { s.here.prod with ret := none } } := by
  rw [rdTail_inst, rdTail_setRet, inst_setRet_producer hrole]
  rfl

/-! ### iter_new and clear -/

/-- Settles O40: `iter_new` writes the iteration cursor and returns. -/
theorem iterNewStartsAtTheOldest : Obligations.IterNewStartsAtTheOldest := by
  intro s hadm
  obtain ⟨hrole, -⟩ := admitted_consumer hadm
  have hexec : exec .iterNew s =
      .next (returnWith s.port .nothing ((s.setRet s.port none).setIter s.port.inst (some 0))) := by
    rw [exec, execIterNew, invoked_admitted hadm, State.setRet_port]
  refine ⟨_, hexec, result_returnWith _ _ _, ?_, sameElsewhere_of_exec hexec, ?_⟩ <;>
    rw [here_of_exec hexec, returnWith_inst_consumer hrole, State.inst_setIter, inst_setRet_consumer hrole]
  exact ⟨⟨rfl, rfl, rfl, rfl, rfl⟩, rfl, rfl, rfl, rfl⟩

/-- Settles O33: the PRODUCER is idle, so `clear` runs: it writes the cursors and the views and returns. -/
theorem clearEmptiesTheBuffer : Obligations.ClearEmptiesTheBuffer := by
  rintro s hadm ⟨hidle, -⟩
  obtain ⟨hrole, -⟩ := admitted_consumer hadm
  have hidle' : ¬prodBusy (s.setRet s.port none).here = true := by
    rw [State.here, State.setRet_port, inst_setRet_consumer hrole]
    exact Bool.eq_false_iff.mp hidle
  have hexec : exec .clear s =
      .next (returnWith s.port .nothing (clearCursors s.port.inst (s.setRet s.port none))) := by
    rw [exec, execClear, invoked_admitted hadm, if_neg hidle', State.setRet_port]
  refine ⟨_, hexec, result_returnWith _ _ _, sameElsewhere_of_exec hexec, ?_⟩
  rw [here_of_exec hexec, returnWith_inst_consumer hrole, inst_clearCursors, inst_setRet_consumer hrole]
  exact ⟨rfl, rfl, rfl, rfl, rfl, rfl, rfl, rfl, rfl⟩

/-! ### The length queries -/

/-- An admitted length query completes with its result; but for the agent's view and its own registers the instance is as before. -/
theorem lengthQuery_completes (hadm : Admitted .either s) (result : Nat → Result) :
    ∃ t, lengthQuery result s = .next t ∧ t.result s.port = some (result (lenBy s.port s).1) ∧
      (s.port.role = .producer → t.inst s.port.inst =
        { s.here with
          tailView := (rdTail s.port.inst s).1, prod := ⟨PRegs.idle, some (result (lenBy s.port s).1)⟩ }) ∧
      (s.port.role = .consumer → t.inst s.port.inst =
        { s.here with
          headView := (rdHead s.port.inst s).1
          cons := { s.here.cons with regs := CRegs.idle, ret := some (result (lenBy s.port s).1) } }) := by
  refine ⟨returnWith s.port (result (lenBy s.port s).1) (lenBy s.port (s.setRet s.port none)).2, ?_,
    result_returnWith _ _ _, fun hrole => ?_, fun hrole => ?_⟩
  · rw [lengthQuery, invoked_admitted hadm, State.setRet_port, lenBy_setRet]
  · rw [returnWith_inst_producer hrole, lenBy_of_producer hrole, lenByProducer, inst_rdTail_setRet hrole]
  · rw [returnWith_inst_consumer hrole, lenBy_of_consumer hrole (s.setRet s.port none), lenByConsumer,
      inst_rdHead_setRet hrole]

/-- Settles O25: each of the four is `lengthQuery` with its own result (`lengthQuery_completes`). -/
theorem lengthQueriesComplete : Obligations.LengthQueriesComplete := by
  intro s hadm n N i r hi
  obtain ⟨result, hquery, rfl⟩ : ∃ result, exec i s = lengthQuery result s ∧ r = result n := by
    obtain ⟨rfl, rfl⟩ | ⟨rfl, rfl⟩ | ⟨rfl, rfl⟩ | ⟨rfl, rfl⟩ := hi
    · exact ⟨.num, rfl, rfl⟩
    · exact ⟨fun n => .bit (fullAt N n), rfl, rfl⟩
    · exact ⟨fun n => .bit (emptyAt n), rfl, rfl⟩
    · exact ⟨fun n => .num (spaceAt N n), rfl, rfl⟩
  obtain ⟨t, hnext, hresult, hproducer, hconsumer⟩ := lengthQuery_completes hadm result
  have hexec : exec i s = .next t := hquery.trans hnext
  refine ⟨t, hexec, hresult, sameElsewhere_of_exec hexec, ?_⟩
  rw [here_of_exec hexec]
  cases hrole : s.port.role with
  | producer =>
    rw [hproducer hrole]
    exact ⟨⟨rfl, rfl, rfl, rfl, rfl⟩, rfl, rfl, fun _ => ⟨rfl, rfl⟩, nofun⟩
  | consumer =>
    rw [hconsumer hrole]
    exact ⟨⟨rfl, rfl, rfl, rfl, rfl⟩, rfl, rfl, nofun, fun _ => ⟨rfl, rfl⟩⟩

/-! ### push -/

/-- The instance after a push of `v` by a PRODUCER that reads `w` for `tail` (R110). -/
def Inst.pushed (I : Inst) (v : Elem) (w : Nat) : Inst :=
  if lengthOf I.params.N I.head w = I.params.N - 1 then { I with tailView := w }
  else { I with slots := I.slots.write I.head v, head := inc I.params.N I.head, tailView := w }

theorem Inst.pushed_of_full {I : Inst} {w : Nat} (h : lengthOf I.params.N I.head w = I.params.N - 1) (v : Elem) :
    I.pushed v w = { I with tailView := w } := if_pos h

theorem Inst.pushed_of_room {I : Inst} {w : Nat} (h : lengthOf I.params.N I.head w ≠ I.params.N - 1) (v : Elem) :
    I.pushed v w = { I with slots := I.slots.write I.head v, head := inc I.params.N I.head, tailView := w } := if_neg h

/-- The PRODUCER's registers do not matter to a push. -/
theorem Inst.pushed_prod (I : Inst) (v : Elem) (w : Nat) (p q : Producer) :
    ({ ({ I with prod := p } : Inst).pushed v w with prod := q } : Inst) = { I.pushed v w with prod := q } := by
  dsimp only [Inst.pushed]
  split <;> rfl

/-- From `I` to `J` the PRODUCER has appended `kept` to what is held, and only its own part of the instance has changed. -/
structure Inst.Appends (I J : Inst) (kept : List Elem) : Prop where
  store : J.StoreOk
  frame : ProducerFrame I J
  held  : J.held = I.held ++ kept.map some

theorem Inst.Appends.trans {I J K : Inst} {kept kept' : List Elem} (h : I.Appends J kept) (h' : J.Appends K kept') :
    I.Appends K (kept ++ kept') := by
  obtain ⟨-, ⟨hp, ht, hf, hv, hc⟩, hheld⟩ := h
  obtain ⟨hstore, ⟨hp', ht', hf', hv', hc'⟩, hheld'⟩ := h'
  refine ⟨hstore, ⟨hp'.trans hp, ht'.trans ht, hf'.trans hf, hv'.trans hv, hc'.trans hc⟩, ?_⟩
  rw [hheld', hheld, List.map_append, List.append_assoc]

/-- The PRODUCER's registers are no part of what is appended. -/
theorem Inst.Appends.prod {I J : Inst} {kept : List Elem} (p q : Producer) (h : ({ I with prod := p } : Inst).Appends J kept) :
    I.Appends { J with prod := q } kept := by
  obtain ⟨hstore, hframe, hheld⟩ := h
  exact ⟨hstore, hframe, hheld⟩

/-- A push appends its value, or nothing where the PRODUCER takes the buffer for full. -/
theorem Inst.StoreOk.appends_pushed {I : Inst} (h : I.StoreOk) (hv : v < 2 ^ I.params.W) {w : Nat}
    (hw : OnTheWay I.params.N I.tailView I.tail w) :
    I.Appends (I.pushed v w) (if lengthOf I.params.N I.head w = I.params.N - 1 then [] else [v]) := by
  have hseen := h.tailSeen hw
  by_cases hfull : lengthOf I.params.N I.head w = I.params.N - 1
  · rw [if_pos hfull, Inst.pushed_of_full hfull]
    exact ⟨hseen, ⟨rfl, rfl, rfl, rfl, rfl⟩, (List.append_nil _).symm⟩
  · rw [if_neg hfull, Inst.pushed_of_room hfull]
    have hroom : fullAt I.params.N ({ I with tailView := w } : Inst).producerLength = false := beq_false_of_ne hfull
    exact ⟨(hseen.slotWritten h.head_lt hv).headPublished hroom (by simp), ⟨rfl, rfl, rfl, rfl, rfl⟩,
      hseen.held_push (hseen.LEN_ne_of_room hroom) v w I.prod⟩

theorem pushRun_pushed (v : Elem) (hh : (s.inst id).head < (s.inst id).params.N) :
    ∃ u, pushRun id v s = .ok () u ∧ u.inst id = (s.inst id).pushed v (rdTail id s).1 := by
  obtain ⟨hfull, hr⟩ | ⟨hroom, hr⟩ := pushRun_cases id v s hh
  · exact ⟨_, hr, by rw [Inst.pushed_of_full (beq_iff_eq.mp hfull), rdTail_inst]⟩
  · exact ⟨_, hr, by rw [Inst.pushed_of_room (ne_of_beq_false hroom), State.inst_setInst]⟩

/-- A whole push is admitted to the PRODUCER, of an element of the right width. -/
theorem admitted_of_exec_push (h : exec (.push v) s = .next t) : Admitted .producer s ∧ v < 2 ^ s.here.params.W := by
  rw [exec, execPush, invoked_eq_next] at h
  obtain ⟨hadm, h⟩ := h
  split at h
  next => cases h
  next hv => exact ⟨hadm, by simpa [State.here] using hv⟩

/-- A whole push completes, and what it does to the instance. -/
theorem exec_push_completes (hadm : Admitted .producer s) (hh : s.here.head < s.here.params.N) (hv : v < 2 ^ s.here.params.W) :
    ∃ t, exec (.push v) s = .next t ∧ t.result s.port = some .nothing ∧
      t.inst s.port.inst =
        { s.here.pushed v (rdTail s.port.inst s).1 with prod := ⟨PRegs.idle, some .nothing⟩ } := by
  have hrole := admitted_producer hadm
  have hinst := inst_setRet_producer (s := s) hrole none
  obtain ⟨u, hr, hu⟩ := pushRun_pushed (id := s.port.inst) (s := s.setRet s.port none) v (by rw [hinst]; exact hh)
  refine ⟨returnWith s.port .nothing u, ?_, result_returnWith _ _ _, ?_⟩
  · have hwidth : v < 2 ^ (s.setRet s.port none).here.params.W := by simpa [State.here] using hv
    rw [exec, execPush, invoked_admitted hadm, if_neg (not_not.mpr hwidth), State.setRet_port,
      finish_of_ok hr (Run.ChangesOnly.of_pushRun _ _ _), State.setRet_port]
  · rw [returnWith_inst_producer hrole, hu, hinst, rdTail_setRet]
    exact s.here.pushed_prod v _ _ _

/-- Settles O26: the branches are those of `Inst.pushed`. -/
theorem pushStoresUnlessFull : Obligations.PushStoresUnlessFull := by
  intro v s hadm hh hv N h
  obtain ⟨t, hexec, hresult, hinst⟩ := exec_push_completes hadm hh hv
  refine ⟨t, hexec, hresult, sameElsewhere_of_exec hexec, ?_⟩
  rw [here_of_exec hexec, hinst]
  by_cases hfull : lengthOf N h (rdTail s.port.inst s).1 = N - 1
  · rw [Inst.pushed_of_full hfull]
    exact ⟨⟨rfl, rfl, rfl, rfl, rfl⟩, rfl, fun _ => ⟨rfl, fun _ => rfl⟩, fun hne => absurd hfull hne⟩
  · rw [Inst.pushed_of_room hfull]
    exact ⟨⟨rfl, rfl, rfl, rfl, rfl⟩, rfl, fun he => absurd he hfull,
      fun _ => ⟨rfl, Memory.read_write_same _ _ _, fun p hp => Memory.read_write_ne _ _ hp⟩⟩

/-- Settles O28: what `Inst.pushed` appends (`Inst.StoreOk.appends_pushed`). -/
theorem pushAppendsToTheQueue : Obligations.PushAppendsToTheQueue := by
  intro v s t hinv h
  have hs : s.here.StoreOk := storeOk_of_inv hinv s.port.inst
  obtain ⟨hadm, hv⟩ := admitted_of_exec_push h
  obtain ⟨t', hexec, -, hinst⟩ := exec_push_completes hadm hs.head_lt hv
  cases h.symm.trans hexec
  have happ := hs.appends_pushed hv (rdTail_onTheWay s.port.inst s)
  rw [here_of_exec h, hinst]
  refine happ.held.trans ?_
  split <;> simp

/-! ### load -/

/-- The PRODUCER's next read of `tail` answers the true value. -/
def Inst.SeesTail (I : Inst) : Prop := I.tailView = I.tail ∨ I.params.cursorView = .current

theorem rdTail_of_seesTail (hs : (s.inst id).StoreOk) (h : (s.inst id).SeesTail) : (rdTail id s).1 = (s.inst id).tail := by
  obtain h | h := h
  · have h0 : forward (s.inst id).params.N (s.inst id).tailView (s.inst id).tail = 0 := by
      rw [h]
      exact forward_self hs.tail_lt
    simp only [rdTail, observe, h0, if_true]
    cases (s.inst id).params.cursorView <;> rfl
  · exact congrArg Prod.fst (observe_current h _ _ s)

theorem Inst.length_held (I : Inst) : I.held.length = I.LEN := by simp [Inst.held]

theorem Inst.Appends.LEN_eq {I J : Inst} {kept : List Elem} (h : I.Appends J kept) : J.LEN = I.LEN + kept.length := by
  rw [← J.length_held, h.held, List.length_append, List.length_map, I.length_held]

theorem Inst.seesTail_pushed (I : Inst) (v : Elem) : (I.pushed v I.tail).SeesTail := by
  refine .inl ?_
  rw [Inst.pushed]
  split <;> rfl

/-- After a push by a PRODUCER that saw the true length, what still fits is what fitted before it but for the value stored. -/
theorem Inst.Appends.take_fits {I J : Inst} (h : I.Appends J (if I.LEN = I.params.N - 1 then [] else [v])) (hI : I.StoreOk)
    (vs : List Elem) :
    (if I.LEN = I.params.N - 1 then [] else [v]) ++ vs.take (J.params.N - 1 - J.LEN) =
      (v :: vs).take (I.params.N - 1 - I.LEN) := by
  obtain ⟨hparams, -⟩ := h.frame
  have hlen := h.LEN_eq
  have hlt := hI.LEN_lt
  rw [hparams]
  by_cases hfull : I.LEN = I.params.N - 1
  · rw [if_pos hfull, List.length_nil] at hlen
    rw [if_pos hfull, hlen, hfull, Nat.add_zero, Nat.sub_self]
    rfl
  · rw [if_neg hfull, List.length_singleton] at hlen
    rw [if_neg hfull, show I.params.N - 1 - I.LEN = I.params.N - 1 - J.LEN + 1 by omega]
    rfl

/-- A load completes: it appends a subsequence of its input (R124), exactly what fits if the PRODUCER sees the true `tail`. -/
theorem loadRun_appends (hs : (s.inst id).StoreOk) (hvs : ∀ v ∈ vs, v < 2 ^ (s.inst id).params.W) :
    ∃ u kept, loadRun id vs s = .ok () u ∧ (s.inst id).Appends (u.inst id) kept ∧ List.Sublist kept vs ∧
      ((s.inst id).SeesTail → kept = vs.take ((s.inst id).params.N - 1 - (s.inst id).LEN)) := by
  induction vs generalizing s with
  | nil => exact ⟨s, [], rfl, ⟨hs, ⟨rfl, rfl, rfl, rfl, rfl⟩, (List.append_nil _).symm⟩, .slnil,
    fun _ => List.take_nil.symm⟩
  | cons v vs ih =>
    obtain ⟨t, hpush, ht⟩ := pushRun_pushed v hs.head_lt
    have hone := hs.appends_pushed (hvs v List.mem_cons_self) (rdTail_onTheWay id s)
    rw [← ht] at hone
    obtain ⟨hparams, -⟩ := hone.frame
    obtain ⟨u, kept, hload, hrest, hsub, hfits⟩ := ih hone.store fun w hw => hparams ▸ hvs w (List.mem_cons_of_mem v hw)
    refine ⟨u, _, by rw [loadRun_cons, hpush, Run.bind_ok, hload], hone.trans hrest, ?_, fun hsees => ?_⟩
    · split
      · exact hsub.cons v
      · exact hsub.cons_cons v
    have hread := rdTail_of_seesTail hs hsees
    rw [hread] at hone ht ⊢
    rw [hfits (ht ▸ (s.inst id).seesTail_pushed v)]
    exact Inst.Appends.take_fits hone hs vs

theorem admitted_of_exec_load (h : exec (.load vs) s = .next t) :
    Admitted .producer s ∧ ∀ v ∈ vs, v < 2 ^ s.here.params.W := by
  rw [exec, execLoad, invoked_eq_next] at h
  obtain ⟨hadm, h⟩ := h
  split at h
  next => cases h
  next hvs => exact ⟨hadm, by simpa [State.here] using hvs⟩

/-- A whole load completes, and what it appends. -/
theorem exec_load_completes (hs : s.here.StoreOk) (hadm : Admitted .producer s) (hvs : ∀ v ∈ vs, v < 2 ^ s.here.params.W) :
    ∃ t kept, exec (.load vs) s = .next t ∧ t.result s.port = some .nothing ∧
      s.here.Appends (t.inst s.port.inst) kept ∧ List.Sublist kept vs ∧
      (s.here.SeesTail → kept = vs.take (s.here.params.N - 1 - s.here.LEN)) := by
  have hrole := admitted_producer hadm
  have hinst := inst_setRet_producer (s := s) hrole none
  obtain ⟨u, kept, hload, happ, hsub, hfits⟩ :=
    loadRun_appends (vs := vs) (storeOk_setRet hs none) (by rw [hinst]; exact hvs)
  rw [hinst] at happ hfits
  refine ⟨returnWith s.port .nothing u, kept, ?_, result_returnWith _ _ _, ?_, hsub, hfits⟩
  · have hwidth : ∀ v ∈ vs, v < 2 ^ (s.setRet s.port none).here.params.W := by simpa [State.here] using hvs
    rw [exec, execLoad, invoked_admitted hadm, if_neg (not_not.mpr hwidth), State.setRet_port,
      finish_of_ok hload (Run.ChangesOnly.of_loadRun _ _ _), State.setRet_port]
  · rw [returnWith_inst_producer hrole]
    exact happ.prod _ _

/-- Settles O34: each push of the load appends its element or drops it (`loadRun_appends`). -/
theorem loadAppendsASubsequence : Obligations.LoadAppendsASubsequence := by
  intro vs s hinv hadm hvs
  obtain ⟨t, kept, hexec, hresult, happ, hsub, -⟩ := exec_load_completes (storeOk_of_inv hinv s.port.inst) hadm hvs
  rw [← here_of_exec hexec] at happ
  exact ⟨t, kept, hexec, hresult, sameElsewhere_of_exec hexec, happ.frame, hsub, happ.held⟩

/-- Settles O35: the view of `tail` is up to date, so every push of the load sees the true length. -/
theorem loadStoresWhatFits : Obligations.LoadStoresWhatFits := by
  intro vs s t hinv hview h
  obtain ⟨hadm, hvs⟩ := admitted_of_exec_load h
  obtain ⟨t', kept, hexec, -, happ, -, hfits⟩ := exec_load_completes (storeOk_of_inv hinv s.port.inst) hadm hvs
  cases h.symm.trans hexec
  rw [here_of_exec h, happ.held, hfits (.inl hview)]

end Sys2Proof.Machine
/-! ## pop and iter_next as whole invocations -/

namespace Sys2Proof.Machine

variable {id : InstId} {s t : State} {v : Elem} {vs : List Elem}

/-! ### pop -/

theorem Memory.mem_of_read {m : Memory} {p : Nat} (h : m.read p = some v) : (p, v) ∈ m := by
  induction m with
  | nil => cases h
  | cons e rest ih =>
    obtain ⟨q, w⟩ := e
    rw [Memory.read] at h
    split at h
    next hq =>
      cases h
      exact hq ▸ List.mem_cons_self
    next => exact List.mem_cons_of_mem _ (ih h)

/-- An element read has `W` bits, whatever the handoff (R21, R64). -/
theorem lt_of_memRead (hs : (s.inst id).StoreOk) {p : Nat} (h : memRead id p s = .ok v t) : v < 2 ^ (s.inst id).params.W := by
  obtain ⟨-, -, -, -, ⟨-, hslots⟩, -⟩ := hs
  obtain ⟨-, hr⟩ | ⟨-, -, ⟨w, hw, hr⟩ | ⟨-, hr⟩⟩ | ⟨-, -, hr⟩ := memRead_cases id p s <;> rw [hr] at h <;> cases h
  · exact (hslots _ (Memory.mem_of_read hw)).2
  · exact Nat.mod_lt _ (Nat.two_pow_pos _)

/-- A pop that finds the buffer non-empty answers an element. -/
theorem popRun_of_ne (hs : (s.inst id).StoreOk) (hne : (rdHead id s).1 ≠ (s.inst id).tail) :
    ∃ v t, popRun id s = .ok (some v) t ∧ v < 2 ^ (s.inst id).params.W := by
  have hs' := storeOk_rdHead hs
  have hpos : 0 < ((rdHead id s).2.inst id).LEN := hs'.LEN_pos (by rw [rdHead_inst]; exact hne)
  obtain ⟨v, t, hread⟩ := memRead_oldest hs' hpos
  have hv := lt_of_memRead hs' hread
  rw [rdHead_inst] at hread hv
  obtain ⟨he, -⟩ | ⟨he, -⟩ | ⟨-, hr⟩ := popRun_cases id s
  · exact absurd he hne
  · exact absurd he hne
  · exact ⟨v, _, by rw [hr, hread, Run.bind_ok], hv⟩

theorem exec_pop_admitted (hadm : Admitted .consumer s) :
    exec .pop s = finish (popRun s.port.inst (s.setRet s.port none)) popResult := by
  rw [exec, execPop, invoked_admitted hadm, State.setRet_port]

/-- A whole pop that finds the buffer non-empty completes with an element. -/
theorem exec_pop_of_ne (hs : s.here.StoreOk) (hadm : Admitted .consumer s) (hne : (rdHead s.port.inst s).1 ≠ s.here.tail) :
    ∃ t v, exec .pop s = .next t ∧ t.result s.port = some (.elem v) ∧ v < 2 ^ s.here.params.W ∧
      (s.here.params.orderedHandoff = true → s.here.slots.read s.here.tail = some v) ∧
      t.inst s.port.inst =
        { s.here with
          headView := (rdHead s.port.inst s).1, tail := inc s.here.params.N s.here.tail
          cons := { s.here.cons with regs := CRegs.idle, ret := some (.elem v) } } := by
  obtain ⟨hrole, -⟩ := admitted_consumer hadm
  have hinst := inst_setRet_consumer (s := s) hrole none
  obtain ⟨v, u, hr, hv⟩ := popRun_of_ne (storeOk_setRet hs none) (by rw [rdHead_setRet, hinst]; exact hne)
  obtain ⟨-, hread, hu⟩ := popRun_eq_ok_some hr
  rw [hinst] at hv hread
  rw [hinst, rdHead_setRet] at hu
  refine ⟨returnWith s.port (.elem v) u, v, ?_, result_returnWith _ _ _, hv, hread, ?_⟩
  · rw [exec_pop_admitted hadm, finish_of_ok hr (Run.ChangesOnly.of_popRun _ _), State.setRet_port]
    rfl
  · rw [returnWith_inst_consumer hrole, hu]
    rfl

/-- Settles O29: the pop takes the element at `tail` (`exec_pop_of_ne`), the oldest one held (`Inst.StoreOk.held_pop`). -/
theorem popReturnsTheOldestElement : Obligations.PopReturnsTheOldestElement := by
  intro s hinv hadm hne
  have hs : s.here.StoreOk := storeOk_of_inv hinv s.port.inst
  obtain ⟨t, v, hexec, hresult, hv, hread, hinst⟩ := exec_pop_of_ne hs hadm hne
  have hnonempty : s.here.tail ≠ s.here.head := (hs.headSeen (rdHead_onTheWay s.port.inst s)).tail_ne_head hne
  refine ⟨t, v, hexec, hresult, sameElsewhere_of_exec hexec, ?_⟩
  rw [here_of_exec hexec, hinst]
  refine ⟨⟨rfl, rfl, rfl, rfl, rfl, rfl⟩, rfl, rfl, (forward_inc_left hs.tail_lt hs.head_lt hnonempty).symm, ?_, hv, ?_⟩
  · exact (congrArg List.tail (hs.held_pop hnonempty _ _)).symm
  · rw [Inst.heldAt, slotIndex_zero hs.tail_lt]
    exact hread

/-- Settles O30: the two branches of `popRun` on an empty buffer. -/
theorem popOfAnEmptyBuffer : Obligations.PopOfAnEmptyBuffer := by
  intro s hadm hempty
  obtain ⟨hrole, hfault⟩ := admitted_consumer hadm
  have hport : (⟨s.port.inst, .consumer⟩ : Port) = s.port := by rw [← hrole]
  have hread := inst_rdHead_setRet hrole
  have hinst := inst_setRet_consumer (s := s) hrole none
  obtain ⟨-, hpolicy, hr⟩ | ⟨-, hpolicy, hr⟩ | ⟨hne, -⟩ := popRun_cases s.port.inst (s.setRet s.port none)
  · rw [State.setRet_params] at hpolicy
    have hexec := exec_pop_admitted hadm
    rw [hr, finish, hport] at hexec
    have hraised := raise_inst_consumer hrole .bufferUnderflowOnRead (by rw [hread]; exact hfault)
    rw [hread] at hraised
    refine ⟨_, hexec, sameElsewhere_of_exec hexec, ?_⟩
    rw [here_of_exec hexec, result_consumer hrole, hraised]
    exact ⟨⟨rfl, rfl, rfl, rfl, rfl⟩, rfl, rfl, rfl, fun _ => ⟨rfl, rfl⟩,
      fun h => absurd (hpolicy.symm.trans h) nofun⟩
  · rw [State.setRet_params] at hpolicy
    have hexec := exec_pop_admitted hadm
    rw [finish_of_ok hr (Run.ChangesOnly.of_popRun _ _), State.setRet_port] at hexec
    refine ⟨_, hexec, sameElsewhere_of_exec hexec, ?_⟩
    rw [here_of_exec hexec, result_returnWith, returnWith_inst_consumer hrole, hread]
    exact ⟨⟨rfl, rfl, rfl, rfl, rfl⟩, rfl, rfl, rfl, fun h => absurd (hpolicy.symm.trans h) nofun,
      fun _ => ⟨hfault, rfl⟩⟩
  · rw [rdHead_setRet, hinst] at hne
    exact absurd hempty hne

/-! ### A load, then pops -/

/-- The instance is ready for pops that return what is held: the CONSUMER is idle, sees the true `head` and reads what was stored. -/
structure Inst.ReadyToPop (I : Inst) : Prop where
  store   : I.StoreOk
  fault   : I.fault = 0
  idle    : consBusy I = false
  current : I.params.cursorView = .current
  ordered : I.params.orderedHandoff = true

theorem clearing_of_idle {I : Inst} (h : consBusy I = false) : clearing I = false := by
  have hcpc : I.cons.regs.cpc = .idle := by simpa [consBusy] using h
  rw [clearing, hcpc]
  rfl

theorem admitted_of_readyToPop (h : (s.inst id).ReadyToPop) : Admitted .consumer { s with port := ⟨id, .consumer⟩ } := by
  have hhere : ({ s with port := ⟨id, .consumer⟩ } : State).here = s.inst id := State.inst_port s _ id
  obtain ⟨-, hfault, hidle, -⟩ := h
  rw [Admitted, refusalOf_eq_none, hhere]
  exact ⟨hfault, rfl, hidle, clearing_of_idle hidle⟩

/-- A pop by a ready CONSUMER returns the oldest element held. -/
theorem exec_pop_of_held (h : (s.inst id).ReadyToPop) {rest : List (Option Elem)} (hheld : (s.inst id).held = some v :: rest) :
    ∃ t, exec .pop { s with port := ⟨id, .consumer⟩ } = .next t ∧ t.result ⟨id, .consumer⟩ = some (.elem v) ∧
      (t.inst id).ReadyToPop ∧ (t.inst id).held = rest := by
  have hhere : ({ s with port := ⟨id, .consumer⟩ } : State).here = s.inst id := State.inst_port s _ id
  have hadm := admitted_of_readyToPop h
  obtain ⟨hs, hfault, -, hcurrent, hordered⟩ := h
  have hlen : (s.inst id).LEN ≠ 0 := by
    rw [← Inst.length_held, hheld]
    exact Nat.succ_ne_zero _
  have hview : (rdHead id { s with port := ⟨id, .consumer⟩ }).1 = (s.inst id).head := by
    rw [rdHead_current (by rwa [State.inst_port]), State.inst_port]
  have hne : (rdHead id { s with port := ⟨id, .consumer⟩ }).1 ≠ (s.inst id).tail := by
    rw [hview]
    exact fun he => hlen ((forward_eq_zero hs.tail_lt hs.head_lt).mpr he.symm)
  obtain ⟨t, w, hexec, hresult, -, -, hinst⟩ := exec_pop_of_ne (hhere ▸ hs) hadm (by rwa [hhere])
  have hqueue := held_of_exec_pop (hhere ▸ hs) (by rwa [hhere]) hexec hresult
  rw [hhere, hheld] at hqueue
  cases hqueue
  rw [hhere] at hinst
  have hstore := (hs.headSeen (rdHead_onTheWay id { s with port := ⟨id, .consumer⟩ })).tailPublished hne
  refine ⟨t, hexec, hresult, ?_, rfl⟩
  rw [hinst]
  exact ⟨hstore, hfault, rfl, hcurrent, hordered⟩

/-- As many pops as there are elements held return them in order. -/
theorem popTimes_of_held (h : (s.inst id).ReadyToPop) (hheld : (s.inst id).held = vs.map some) :
    ∃ u, popTimes id vs.length s = some (vs.map fun v => some (Result.elem v), u) ∧ (u.inst id).LEN = 0 := by
  induction vs generalizing s with
  | nil => exact ⟨s, rfl, by rw [← Inst.length_held, hheld, List.map_nil, List.length_nil]⟩
  | cons v vs ih =>
    obtain ⟨t, hexec, hresult, hready, hrest⟩ := exec_pop_of_held h hheld
    obtain ⟨u, hpops, hu⟩ := ih hready hrest
    exact ⟨u, by simp [popTimes, hexec, hpops, hresult], hu⟩

/-- Settles O37: the load stores all its elements (`exec_load_completes`), and each pop returns the oldest (`popTimes_of_held`). -/
theorem loadedElementsArePoppedInOrder : Obligations.LoadedElementsArePoppedInOrder := by
  rintro id vs s hinv hport hadm ⟨-, hidle⟩ hcurrent hordered hempty hlen hvs
  obtain ⟨t, kept, hexec, -, happ, -, hfits⟩ := exec_load_completes (storeOk_of_inv hinv s.port.inst) hadm hvs
  rw [hfits (.inr hcurrent), hempty, Nat.sub_zero, List.take_of_length_le hlen] at happ
  obtain ⟨hstore, ⟨hparams, -, hfault, -, hcons⟩, hheld⟩ := happ
  have hnone : s.here.held = [] := by rw [← List.length_eq_zero_iff, Inst.length_held, hempty]
  have hready : (t.inst s.port.inst).ReadyToPop :=
    ⟨hstore, hfault.trans (refusalOf_eq_none.mp hadm).1, by rwa [consBusy, hcons], hparams ▸ hcurrent, hparams ▸ hordered⟩
  rw [hnone, List.nil_append] at hheld
  rw [hport] at hready hheld
  obtain ⟨u, hpops, hu⟩ := popTimes_of_held hready hheld
  exact ⟨t, u, hexec, hpops, hu⟩

/-! ### iter_next -/

theorem iter_setRet (s : State) (r : Option Result) : (s.setRet s.port r).here.cons.k = s.here.cons.k := by
  rw [State.here, State.setRet_port, State.setRet_k, State.here]

theorem exec_iterNext_of_none (hadm : Admitted .consumer s) (hk : s.here.cons.k = none) :
    exec .iterNext s = .refused .noIteration := by
  rw [exec, execIterNext, invoked_admitted hadm, iter_setRet, hk]

theorem exec_iterNext_of_some (hadm : Admitted .consumer s) {k : Nat} (hk : s.here.cons.k = some k) :
    exec .iterNext s = finish (iterRun s.port.inst k (s.setRet s.port none)) iterResult := by
  rw [exec, execIterNext, invoked_admitted hadm, iter_setRet, hk, State.setRet_port]

theorem iterRun_of_le {k : Nat} (h : (lenByConsumer id s).1 ≤ k) : iterRun id k s = .ok none (rdHead id s).2 := if_pos h

/-- Below the length read, the peek inside `iter_next`, which reads the length once more, answers the element at the cursor. -/
theorem iterRun_of_lt (hs : (s.inst id).StoreOk) {k : Nat} (h : k < (lenByConsumer id s).1) :
    ∃ v w t, iterRun id k s = .ok (some v) t ∧
      t.inst id = { s.inst id with headView := w, cons := { (s.inst id).cons with k := some (k + 1) } } ∧
      ((s.inst id).params.orderedHandoff = true → (s.inst id).heldAt k = some v) := by
  have hmore : (lenByConsumer id s).1 ≤ (lenByConsumer id (rdHead id s).2).1 := by
    rw [lenByConsumer_fst, lenByConsumer_fst, rdHead_inst id (rdHead id s).2]
    exact (storeOk_rdHead hs).visible_le_of_headSeen (rdHead_onTheWay id (rdHead id s).2)
  obtain ⟨v, u, hpeek, hu, hv⟩ := peekRun_of_lt (storeOk_rdHead hs) (h.trans_le hmore)
  rw [rdHead_inst id s] at hu hv
  refine ⟨v, (rdHead id (rdHead id s).2).1, u.setIter id (some (k + 1)), ?_, ?_, hv⟩
  · have hpeek' : peekRun id k (lenByConsumer id s).2 = .ok v u := hpeek
    rw [iterRun, if_neg (not_le.mpr h), hpeek', Run.bind_ok]
  · rw [State.inst_setIter, hu]

/-- Settles O41: the two branches of `iterRun` (`iterRun_of_le`, `iterRun_of_lt`). -/
theorem iterNextYieldsTheElementOrEnd : Obligations.IterNextYieldsTheElementOrEnd := by
  intro s hinv hadm
  refine ⟨exec_iterNext_of_none hadm, fun k hk => ?_⟩
  have hexec := exec_iterNext_of_some hadm hk
  obtain ⟨hrole, -⟩ := admitted_consumer hadm
  have hinst := inst_setRet_consumer (s := s) hrole none
  have hlen := lenByConsumer_setRet s s.port none
  by_cases hend : (lenByConsumer s.port.inst s).1 ≤ k
  · have hr := iterRun_of_le (hlen.trans_le hend)
    rw [finish_of_ok hr (Run.ChangesOnly.of_iterRun _ _ _), State.setRet_port] at hexec
    refine ⟨_, hexec, sameElsewhere_of_exec hexec, ?_⟩
    rw [here_of_exec hexec, result_returnWith, returnWith_inst_consumer hrole, inst_rdHead_setRet hrole]
    exact ⟨⟨rfl, rfl, rfl, rfl, rfl⟩, ⟨rfl, rfl, rfl, rfl, rfl, rfl⟩, fun _ => ⟨rfl, hk⟩, fun hlt => absurd hend (not_le.mpr hlt)⟩
  · obtain ⟨v, w, u, hr, hu, hv⟩ :=
      iterRun_of_lt (storeOk_setRet (storeOk_of_inv hinv s.port.inst) none) (hlen.symm ▸ not_le.mp hend)
    rw [hinst] at hu hv
    rw [finish_of_ok hr (Run.ChangesOnly.of_iterRun _ _ _), State.setRet_port] at hexec
    refine ⟨_, hexec, sameElsewhere_of_exec hexec, ?_⟩
    rw [here_of_exec hexec, result_returnWith, returnWith_inst_consumer hrole, hu]
    exact ⟨⟨rfl, rfl, rfl, rfl, rfl⟩, ⟨rfl, rfl, rfl, rfl, rfl, rfl⟩, fun hle => absurd hle hend, fun _ => ⟨rfl, v, rfl, hv⟩⟩

end Sys2Proof.Machine
/-! ## Micro-steps nothing interrupts

An operation at work is its state with registers of the agent put on it: `s.setPRegs id R`, `s.setCRegs id R`. The parts of an
operation neither read nor write those registers, so each micro-step is the part's next access with other registers on it, and a
series of them comes to the outcome of the part (`Out.ComesTo`). -/

namespace Sys2Proof.Machine

variable {id : InstId} {s t : State} {p : Port}

/-! ### The parts of an operation and the agent's registers -/

@[simp] theorem draw_setInst (s : State) (id : InstId) (J : Inst) :
    draw (s.setInst id J) = ((draw s).1, (draw s).2.setInst id J) := by
  simp only [draw, State.setInst_choices, State.setInst_draws]
  cases s.choices <;> cases id <;> rfl

@[simp] theorem observe_setInst (q : Params) (view cur : Nat) (s : State) (id : InstId) (J : Inst) :
    observe q view cur (s.setInst id J) = ((observe q view cur s).1, (observe q view cur s).2.setInst id J) := by
  simp only [observe, draw_setInst]
  cases q.cursorView with
  | current => rfl
  | delayed => dsimp only; split <;> rfl

@[simp] theorem State.setPRegs_setPRegs (s : State) (id : InstId) (R R' : PRegs) :
    (s.setPRegs id R).setPRegs id R' = s.setPRegs id R' := by
  simp [State.setPRegs]

@[simp] theorem State.setCRegs_setCRegs (s : State) (id : InstId) (R R' : CRegs) :
    (s.setCRegs id R).setCRegs id R' = s.setCRegs id R' := by
  simp [State.setCRegs]

@[simp] theorem rdTail_setPRegs (id : InstId) (s : State) (R : PRegs) :
    rdTail id (s.setPRegs id R) = ((rdTail id s).1, (rdTail id s).2.setPRegs id R) := by
  simp [rdTail, State.setPRegs]

@[simp] theorem rdHead_setCRegs (id : InstId) (s : State) (R : CRegs) :
    rdHead id (s.setCRegs id R) = ((rdHead id s).1, (rdHead id s).2.setCRegs id R) := by
  simp [rdHead, State.setCRegs]

theorem memWrite_setPRegs (id : InstId) (q : Nat) (v : Elem) (s : State) (R : PRegs) :
    memWrite id q v (s.setPRegs id R) = (memWrite id q v s).bind fun _ t => .ok () (t.setPRegs id R) := by
  by_cases hq : q < (s.inst id).params.N <;> simp [memWrite, State.setPRegs, hq]

theorem memRead_setCRegs (id : InstId) (q : Nat) (s : State) (R : CRegs) :
    memRead id q (s.setCRegs id R) = (memRead id q s).bind fun v t => .ok v (t.setCRegs id R) := by
  by_cases hq : q < (s.inst id).params.N
  · by_cases ho : (s.inst id).params.orderedHandoff = true
    · cases hr : (s.inst id).slots.read q <;> simp [memRead, hq, ho, hr]
    · simp [memRead, State.setCRegs, hq, ho]
  · simp [memRead, hq]

@[simp] theorem publishHead_setPRegs (id : InstId) (h : Nat) (s : State) (R : PRegs) :
    publishHead id h (s.setPRegs id R) = (publishHead id h s).setPRegs id R := by
  simp [publishHead, State.setPRegs]

@[simp] theorem publishTail_setCRegs (id : InstId) (h : Nat) (s : State) (R : CRegs) :
    publishTail id h (s.setCRegs id R) = (publishTail id h s).setCRegs id R := by
  simp [publishTail, State.setCRegs]

@[simp] theorem clearCursors_setCRegs (id : InstId) (s : State) (R : CRegs) :
    clearCursors id (s.setCRegs id R) = (clearCursors id s).setCRegs id R := by
  simp [clearCursors, State.setCRegs]

@[simp] theorem setIter_setCRegs (id : InstId) (k : Option Nat) (s : State) (R : CRegs) :
    (s.setCRegs id R).setIter id k = (s.setIter id k).setCRegs id R := by
  simp [State.setIter, State.setCRegs]

@[simp] theorem goIdle_setPRegs (id : InstId) (s : State) (R : PRegs) :
    goIdle ⟨id, .producer⟩ (s.setPRegs id R) = goIdle ⟨id, .producer⟩ s := by
  simp [goIdle]

@[simp] theorem goIdle_setCRegs (id : InstId) (s : State) (R : CRegs) :
    goIdle ⟨id, .consumer⟩ (s.setCRegs id R) = goIdle ⟨id, .consumer⟩ s := by
  simp [goIdle]

@[simp] theorem returnWith_setPRegs (id : InstId) (r : Result) (s : State) (R : PRegs) :
    returnWith ⟨id, .producer⟩ r (s.setPRegs id R) = returnWith ⟨id, .producer⟩ r s := by
  simp only [returnWith, goIdle_setPRegs]

@[simp] theorem returnWith_setCRegs (id : InstId) (r : Result) (s : State) (R : CRegs) :
    returnWith ⟨id, .consumer⟩ r (s.setCRegs id R) = returnWith ⟨id, .consumer⟩ r s := by
  simp only [returnWith, goIdle_setCRegs]

@[simp] theorem raise_setCRegs (id : InstId) (e : ErrorClass) (s : State) (R : CRegs) :
    raise ⟨id, .consumer⟩ e (s.setCRegs id R) = raise ⟨id, .consumer⟩ e s := by
  simp only [raise, goIdle_setCRegs]

/-! ### What an outcome comes to -/

/-- `k` micro-steps of an agent after an outcome, if there is a next state. -/
def Out.ticks (p : Port) (k : Nat) : Out → Out
  | .next s => Machine.ticks p k s
  | .fault f => .fault f
  | .refused r => .refused r

/-- Micro-steps of the agent, nothing else happening, lead from `o` to `o'`, and further ones change nothing. -/
def Out.ComesTo (p : Port) (o o' : Out) : Prop := ∃ k, ∀ j ≥ k, o.ticks p j = o'

theorem tick_of_idle (h : agentBusy (s.inst p.inst) p.role = false) : tick p s = .next s := by
  rw [tick]
  cases hrole : p.role with
  | producer =>
    have hppc : (s.inst p.inst).prod.regs.ppc = .idle := by simpa [agentBusy, hrole, prodBusy] using h
    simp only [tickProducer, hppc]
  | consumer =>
    have hcpc : (s.inst p.inst).cons.regs.cpc = .idle := by simpa [agentBusy, hrole, consBusy] using h
    simp only [tickConsumer, hcpc]

theorem ticks_of_idle (h : agentBusy (s.inst p.inst) p.role = false) (k : Nat) : ticks p k s = .next s := by
  induction k with
  | zero => rfl
  | succ k ih => rw [ticks, tick_of_idle h]; exact ih

namespace Out.ComesTo

/-- An operation whose agent is idle again is over. -/
theorem of_idle (h : agentBusy (s.inst p.inst) p.role = false) : Out.ComesTo p (.next s) (.next s) :=
  ⟨0, fun j _ => ticks_of_idle h j⟩

theorem fault (p : Port) (f : Fault) : Out.ComesTo p (.fault f) (.fault f) := ⟨0, fun _ _ => rfl⟩

theorem refused (p : Port) (r : Refusal) : Out.ComesTo p (.refused r) (.refused r) := ⟨0, fun _ _ => rfl⟩

/-- One micro-step. -/
theorem of_tick {o : Out} (h : Out.ComesTo p (tick p s) o) : Out.ComesTo p (.next s) o := by
  obtain ⟨k, hk⟩ := h
  refine ⟨k + 1, fun j hj => ?_⟩
  obtain ⟨i, rfl⟩ : ∃ i, j = i + 1 := ⟨j - 1, by omega⟩
  exact hk i (by omega)

theorem of_returnWith (p : Port) (r : Result) (s : State) :
    Out.ComesTo p (.next (returnWith p r s)) (.next (returnWith p r s)) := by
  refine of_idle ?_
  rw [returnWith_inst]
  cases p.role <;> rfl

theorem of_raise (p : Port) (e : ErrorClass) (s : State) : Out.ComesTo p (.next (raise p e s)) (.next (raise p e s)) := by
  refine of_idle ?_
  rw [raise_inst]
  cases p.role <;> rfl

/-- A guard that refuses. -/
theorem ite_refused {c : Prop} [Decidable c] {r : Refusal} {o o' : Out} (h : ¬c → o.ComesTo p o') :
    Out.ComesTo p (if c then .refused r else o) (if c then .refused r else o') := by
  split
  next => exact refused p r
  next hc => exact h hc

/-- What an invocation is refused for is no matter of its form. -/
theorem of_invoked {w : Who} {body body' : State → Out}
    (h : permits w s.port = true → (body (s.setRet s.port none)).ComesTo s.port (body' (s.setRet s.port none))) :
    (invoked w s body).ComesTo s.port (invoked w s body') := by
  unfold invoked
  cases hr : refusalOf w s with
  | some r => exact refused _ r
  | none => exact h (refusalOf_eq_none.mp hr).2.1

theorem of_invoked_producer {body body' : State → Out}
    (h : ∀ id t, t.port = ⟨id, .producer⟩ → (body t).ComesTo ⟨id, .producer⟩ (body' t)) :
    (invoked .producer s body).ComesTo s.port (invoked .producer s body') := by
  refine of_invoked fun hw => ?_
  have hport : (⟨s.port.inst, .producer⟩ : Port) = s.port := by rw [← permits_producer hw]
  have hbody := h s.port.inst (s.setRet s.port none)
  rw [hport] at hbody
  exact hbody (State.setRet_port s _ none)

theorem of_invoked_consumer {body body' : State → Out}
    (h : ∀ id t, t.port = ⟨id, .consumer⟩ → (body t).ComesTo ⟨id, .consumer⟩ (body' t)) :
    (invoked .consumer s body).ComesTo s.port (invoked .consumer s body') := by
  refine of_invoked fun hw => ?_
  have hport : (⟨s.port.inst, .consumer⟩ : Port) = s.port := by rw [← permits_consumer hw]
  have hbody := h s.port.inst (s.setRet s.port none)
  rw [hport] at hbody
  exact hbody (State.setRet_port s _ none)

theorem of_onBytes_producer {body body' : State → Out}
    (h : ∀ id t, t.port = ⟨id, .producer⟩ → (body t).ComesTo ⟨id, .producer⟩ (body' t)) :
    (invokedOnBytes .producer s body).ComesTo s.port (invokedOnBytes .producer s body') :=
  of_invoked_producer fun id t ht => ite_refused fun _ => h id t ht

end Out.ComesTo

open Out.ComesTo

/-! ### The outcome of a part -/

/-- The outcome of an operation from a part of it and what comes after it. -/
def Run.out {α : Type} (r : Run α) (f : α → State → Out) : Out :=
  match r with
  | .ok a s => f a s
  | .raised s => .next s
  | .stop e => .fault e

theorem Run.out_bind {α β : Type} (r : Run α) (g : α → State → Run β) (f : β → State → Out) :
    (r.bind g).out f = r.out fun a t => (g a t).out f := by
  cases r <;> rfl

theorem finish_eq_out {α : Type} {r : Run α} (hr : r.ChangesOnly id s) (result : α → Result) :
    finish r result = r.out fun a t => .next (returnWith s.port (result a) t) := by
  cases r with
  | ok a t => rw [finish, Run.out, hr.port]
  | raised t => rfl
  | stop f => rfl

theorem memWrite_ne_raised (id : InstId) (q : Nat) (v : Elem) (s t : State) : memWrite id q v s ≠ .raised t := by
  obtain ⟨-, hw⟩ | ⟨-, hw⟩ := memWrite_cases id q v s <;> rw [hw] <;> exact nofun

/-- A part that raises no fault of its own, done alike in both forms. -/
theorem Out.ComesTo.of_out {α : Type} {r : Run α} {f g : α → State → Out} (hraised : ∀ t, r ≠ .raised t)
    (h : ∀ a t, r = .ok a t → (g a t).ComesTo p (f a t)) : (r.out g).ComesTo p (r.out f) := by
  cases r with
  | ok a t => exact h a t rfl
  | raised t => exact absurd rfl (hraised t)
  | stop e => exact fault p e

/-! ### The PRODUCER -/

section
variable {R : PRegs}

theorem tick_P1 (h : R.ppc = .P1) :
    tick ⟨id, .producer⟩ (s.setPRegs id R) = .next (s.setPRegs id { R with p_h := (s.inst id).head, ppc := .P2 }) := by
  simp [tick, tickProducer, h]

theorem tick_P2 (h : R.ppc = .P2) :
    tick ⟨id, .producer⟩ (s.setPRegs id R) =
      .next ((rdTail id s).2.setPRegs id { R with p_t := (rdTail id s).1, ppc := .P3 }) := by
  simp [tick, tickProducer, h]

theorem tick_P3_of_full (h : R.ppc = .P3)
    (hfull : fullAt (s.inst id).params.N (lengthOf (s.inst id).params.N R.p_h R.p_t) = true) :
    tick ⟨id, .producer⟩ (s.setPRegs id R) = nextPush id R.src (s.setPRegs id R) := by
  simp [tick, tickProducer, h, hfull]

theorem tick_P3_of_room (h : R.ppc = .P3)
    (hroom : ¬fullAt (s.inst id).params.N (lengthOf (s.inst id).params.N R.p_h R.p_t) = true) :
    tick ⟨id, .producer⟩ (s.setPRegs id R) = .next (s.setPRegs id { R with ppc := .P4 }) := by
  simp [tick, tickProducer, h, hroom]

theorem tick_P4 (h : R.ppc = .P4) :
    tick ⟨id, .producer⟩ (s.setPRegs id R) =
      (memWrite id R.p_h R.p_v s).out fun _ t => .next (t.setPRegs id { R with ppc := .P5 }) := by
  simp only [tick, tickProducer, State.inst_setPRegs, h, memWrite_setPRegs]
  cases memWrite id R.p_h R.p_v s <;> simp [Run.out]

theorem tick_P5 (h : R.ppc = .P5) :
    tick ⟨id, .producer⟩ (s.setPRegs id R) =
      nextPush id R.src ((publishHead id (inc (s.inst id).params.N R.p_h) s).setPRegs id R) := by
  simp [tick, tickProducer, h]

theorem tick_producer_L1 (h : R.ppc = .L1) :
    tick ⟨id, .producer⟩ (s.setPRegs id R) = .next (s.setPRegs id { R with p_h := (s.inst id).head, ppc := .L2 }) := by
  simp [tick, tickProducer, h]

theorem tick_producer_L2 (h : R.ppc = .L2) :
    tick ⟨id, .producer⟩ (s.setPRegs id R) =
      .next (returnWith ⟨id, .producer⟩
        (queryResultP R.task (s.inst id).params.N (lengthOf (s.inst id).params.N R.p_h (rdTail id s).1)) (rdTail id s).2) := by
  simp [tick, tickProducer, h]

theorem pushRun_of_full {v : Elem} (h : fullAt (s.inst id).params.N (lenByProducer id s).1 = true) :
    pushRun id v s = .ok () (rdTail id s).2 := if_pos h

theorem pushRun_of_room {v : Elem} (h : ¬fullAt (s.inst id).params.N (lenByProducer id s).1 = true) :
    pushRun id v s = (memWrite id (s.inst id).head v (rdTail id s).2).bind fun _ t =>
      .ok () (publishHead id (inc (s.inst id).params.N (s.inst id).head) t) := if_neg h

/-- One push from P1 to its end (R111), and what comes after it. -/
theorem pushRun_comesTo (h : R.ppc = .P1) {f : State → Out}
    (hnext : ∀ R' t, (nextPush id R.src (t.setPRegs id R')).ComesTo ⟨id, .producer⟩ (f t)) :
    Out.ComesTo ⟨id, .producer⟩ (.next (s.setPRegs id R)) ((pushRun id R.p_v s).out fun _ => f) := by
  have hread : ((rdTail id s).2.inst id).params = (s.inst id).params := by rw [rdTail_inst]
  refine of_tick ?_
  rw [tick_P1 h]
  refine of_tick ?_
  rw [tick_P2 rfl]
  refine of_tick ?_
  by_cases hfull : fullAt (s.inst id).params.N (lenByProducer id s).1 = true
  · rw [tick_P3_of_full rfl (hread ▸ hfull), pushRun_of_full hfull]
    exact hnext _ _
  · rw [tick_P3_of_room rfl (hread ▸ hfull), pushRun_of_room hfull, Run.out_bind]
    refine of_tick ?_
    rw [tick_P4 rfl]
    refine of_out (memWrite_ne_raised id _ _ _) fun _ t ht => of_tick ?_
    have hwritten := Run.ChangesOnly.of_memWrite id (s.inst id).head R.p_v (rdTail id s).2
    rw [ht] at hwritten
    rw [tick_P5 rfl, hwritten.params, hread]
    exact hnext _ _

/-- A series of pushes is a load (R124, R204). -/
theorem nextPush_comesTo (id : InstId) (vs : List Elem) (R : PRegs) (s : State) :
    (nextPush id vs (s.setPRegs id R)).ComesTo ⟨id, .producer⟩
      ((loadRun id vs s).out fun _ t => .next (returnWith ⟨id, .producer⟩ .nothing t)) := by
  induction vs generalizing R s with
  | nil =>
    rw [nextPush, returnWith_setPRegs]
    exact of_returnWith _ _ _
  | cons v vs ih =>
    rw [nextPush, State.setPRegs_setPRegs, loadRun_cons, Run.out_bind]
    exact pushRun_comesTo rfl fun R' t => ih R' t

/-- A length query by the PRODUCER (R116). -/
theorem lenByProducer_comesTo (h : R.ppc = .L1) :
    Out.ComesTo ⟨id, .producer⟩ (.next (s.setPRegs id R))
      (.next (returnWith ⟨id, .producer⟩ (queryResultP R.task (s.inst id).params.N (lenByProducer id s).1)
        (lenByProducer id s).2)) := by
  refine of_tick ?_
  rw [tick_producer_L1 h]
  refine of_tick ?_
  rw [tick_producer_L2 rfl]
  exact of_returnWith _ _ _

end

/-! ### The CONSUMER -/

section
variable {R : CRegs}

@[simp] theorem goC_setCRegs (id : InstId) (R R' : CRegs) (s : State) : goC id R (s.setCRegs id R') = goC id R s := by
  simp only [goC, State.setCRegs_setCRegs]

@[simp] theorem returnC_setCRegs (id : InstId) (r : Result) (s : State) (R : CRegs) :
    returnC id r (s.setCRegs id R) = returnC id r s := by
  simp only [returnC, returnWith_setCRegs]

theorem tick_C1 (h : R.cpc = .C1) :
    tick ⟨id, .consumer⟩ (s.setCRegs id R) = goC id { R with c_t := (s.inst id).tail, cpc := .C2 } s := by
  simp [tick, tickConsumer, h]

theorem tick_C2 (h : R.cpc = .C2) :
    tick ⟨id, .consumer⟩ (s.setCRegs id R) = goC id { R with c_h := (rdHead id s).1, cpc := .C3 } (rdHead id s).2 := by
  simp [tick, tickConsumer, h]

theorem tick_C3_of_ne (h : R.cpc = .C3) (hne : R.c_h ≠ R.c_t) :
    tick ⟨id, .consumer⟩ (s.setCRegs id R) = goC id { R with cpc := .C4 } s := by
  simp [tick, tickConsumer, h, hne]

theorem tick_C3_of_abort (h : R.cpc = .C3) (he : R.c_h = R.c_t) (hp : (s.inst id).params.popEmptyPolicy = .abort) :
    tick ⟨id, .consumer⟩ (s.setCRegs id R) = .next (raise ⟨id, .consumer⟩ .bufferUnderflowOnRead s) := by
  simp [tick, tickConsumer, h, he, hp]

theorem tick_C3_of_noElement (h : R.cpc = .C3) (he : R.c_h = R.c_t)
    (hp : (s.inst id).params.popEmptyPolicy = .noElement) :
    tick ⟨id, .consumer⟩ (s.setCRegs id R) = popDone id R none (s.setCRegs id R) := by
  simp [tick, tickConsumer, h, he, hp]

theorem tick_C4 (h : R.cpc = .C4) :
    tick ⟨id, .consumer⟩ (s.setCRegs id R) =
      (memRead id R.c_t s).out fun v t => goC id { R with c_v := v, cpc := .C5 } t := by
  simp only [tick, tickConsumer, State.inst_setCRegs, h, memRead_setCRegs]
  cases memRead id R.c_t s <;> simp [Run.out]

theorem tick_C5 (h : R.cpc = .C5) :
    tick ⟨id, .consumer⟩ (s.setCRegs id R) =
      popDone id R (some R.c_v) ((publishTail id (inc (s.inst id).params.N R.c_t) s).setCRegs id R) := by
  simp [tick, tickConsumer, h]

theorem tick_K1 (h : R.cpc = .K1) :
    tick ⟨id, .consumer⟩ (s.setCRegs id R) =
      goC id { R with c_t := (s.inst id).tail, c_h := (rdHead id s).1, cpc := .K2 } (rdHead id s).2 := by
  simp [tick, tickConsumer, h]

theorem tick_K2_of_le (h : R.cpc = .K2) (hle : lengthOf (s.inst id).params.N R.c_h R.c_t ≤ R.c_i) :
    tick ⟨id, .consumer⟩ (s.setCRegs id R) = .next (raise ⟨id, .consumer⟩ .indexOutOfRange s) := by
  simp [tick, tickConsumer, h, hle]

theorem tick_K2_of_lt (h : R.cpc = .K2) (hlt : R.c_i < lengthOf (s.inst id).params.N R.c_h R.c_t) :
    tick ⟨id, .consumer⟩ (s.setCRegs id R) = goC id { R with cpc := .K3 } s := by
  simp [tick, tickConsumer, h, hlt]

theorem tick_K3 (h : R.cpc = .K3) :
    tick ⟨id, .consumer⟩ (s.setCRegs id R) =
      (memRead id (slotIndex (s.inst id).params.N R.c_t R.c_i) s).out fun v t => peekDone id R v (t.setCRegs id R) := by
  simp only [tick, tickConsumer, State.inst_setCRegs, h, memRead_setCRegs]
  cases memRead id (slotIndex (s.inst id).params.N R.c_t R.c_i) s <;> rfl

theorem tick_consumer_L1 (h : R.cpc = .L1) :
    tick ⟨id, .consumer⟩ (s.setCRegs id R) = goC id { R with c_t := (s.inst id).tail, cpc := .L2 } s := by
  simp [tick, tickConsumer, h]

theorem tick_consumer_L2 (h : R.cpc = .L2) :
    tick ⟨id, .consumer⟩ (s.setCRegs id R) =
      lenDone id R (lengthOf (s.inst id).params.N (rdHead id s).1 R.c_t) ((rdHead id s).2.setCRegs id R) := by
  simp [tick, tickConsumer, h]

theorem tick_CL (h : R.cpc = .CL) :
    tick ⟨id, .consumer⟩ (s.setCRegs id R) = returnC id .nothing (clearCursors id s) := by
  simp [tick, tickConsumer, h]

theorem returnC_comesTo (id : InstId) (r : Result) (s : State) :
    (returnC id r s).ComesTo ⟨id, .consumer⟩ (returnC id r s) :=
  of_returnWith _ _ _

/-- The CONSUMER's next micro-step. -/
theorem goC_comesTo {o : Out} (h : (tick ⟨id, .consumer⟩ (s.setCRegs id R)).ComesTo ⟨id, .consumer⟩ o) :
    (goC id R s).ComesTo ⟨id, .consumer⟩ o :=
  of_tick h

/-- One pop from C1 to its end (R114), and what comes after it. -/
theorem popRun_comesTo (h : R.cpc = .C1) {f : Option Elem → State → Out}
    (hdone : ∀ cpc c_t c_h c_v v t,
      (popDone id { R with cpc := cpc, c_t := c_t, c_h := c_h, c_v := c_v } v
        (t.setCRegs id { R with cpc := cpc, c_t := c_t, c_h := c_h, c_v := c_v })).ComesTo ⟨id, .consumer⟩ (f v t)) :
    (goC id R s).ComesTo ⟨id, .consumer⟩ ((popRun id s).out f) := by
  have hread : ((rdHead id s).2.inst id).params = (s.inst id).params := by rw [rdHead_inst]
  refine goC_comesTo ?_
  rw [tick_C1 h]
  refine goC_comesTo ?_
  rw [tick_C2 rfl]
  refine goC_comesTo ?_
  obtain ⟨he, hp, hr⟩ | ⟨he, hp, hr⟩ | ⟨hne, hr⟩ := popRun_cases id s
  · rw [tick_C3_of_abort rfl he (hread ▸ hp), hr]
    exact of_raise _ _ _
  · rw [tick_C3_of_noElement rfl he (hread ▸ hp), hr]
    exact hdone _ _ _ R.c_v _ _
  · rw [tick_C3_of_ne rfl hne, hr, Run.out_bind]
    refine goC_comesTo ?_
    rw [tick_C4 rfl]
    refine of_out (memRead_ne_raised id _ _) fun v t ht => goC_comesTo ?_
    rw [tick_C5 rfl, memRead_eq_ok ht id, hread]
    exact hdone _ _ _ _ _ _

/-- One peek from K1 to its end (R122), and what comes after it. -/
theorem peekRun_comesTo (h : R.cpc = .K1) {f : Elem → State → Out}
    (hdone : ∀ c_t c_h v t,
      (peekDone id { R with cpc := .K3, c_t := c_t, c_h := c_h } v
        (t.setCRegs id { R with cpc := .K3, c_t := c_t, c_h := c_h })).ComesTo ⟨id, .consumer⟩ (f v t)) :
    (goC id R s).ComesTo ⟨id, .consumer⟩ ((peekRun id R.c_i s).out f) := by
  have hread : ((rdHead id s).2.inst id).params = (s.inst id).params := by rw [rdHead_inst]
  refine goC_comesTo ?_
  rw [tick_K1 h]
  refine goC_comesTo ?_
  obtain ⟨hle, hr⟩ | ⟨hlt, hr⟩ := peekRun_cases id R.c_i s
  · rw [tick_K2_of_le rfl (hread ▸ hle), hr]
    exact of_raise _ _ _
  · rw [tick_K2_of_lt rfl (hread ▸ hlt), hr]
    refine goC_comesTo ?_
    rw [tick_K3 rfl, hread]
    exact of_out (memRead_ne_raised id _ _) fun v t _ => hdone _ _ v t

/-- A length read by the CONSUMER (R116), and what comes after it. -/
theorem lenByConsumer_comesTo (h : R.cpc = .L1) {o : Out}
    (hdone : ∀ c_t, (lenDone id { R with cpc := .L2, c_t := c_t } (lenByConsumer id s).1
      ((lenByConsumer id s).2.setCRegs id { R with cpc := .L2, c_t := c_t })).ComesTo ⟨id, .consumer⟩ o) :
    (goC id R s).ComesTo ⟨id, .consumer⟩ o := by
  refine goC_comesTo ?_
  rw [tick_consumer_L1 h]
  refine goC_comesTo ?_
  rw [tick_consumer_L2 rfl]
  exact hdone _

/-- From the length read to the end of an `iter_next` (R126). -/
theorem iterRun_comesTo (h : R.cpc = .L1) (htask : R.task = .iterNext) {k : Nat} (hk : (s.inst id).cons.k = some k) :
    (goC id R s).ComesTo ⟨id, .consumer⟩
      ((iterRun id k s).out fun v t => .next (returnWith ⟨id, .consumer⟩ (iterResult v) t)) := by
  have hiter : ((lenByConsumer id s).2.inst id).cons.k = some k := by
    rw [← hk]
    exact congrArg (fun I => I.cons.k) (rdHead_inst id s)
  refine lenByConsumer_comesTo h fun c_t => ?_
  simp only [lenDone, htask, State.inst_setCRegs, hiter, iterRun]
  by_cases hend : (lenByConsumer id s).1 ≤ k
  · rw [if_pos hend, if_pos hend, returnC_setCRegs]
    exact of_returnWith _ _ _
  · rw [if_neg hend, if_neg hend, goC_setCRegs, Run.out_bind]
    refine peekRun_comesTo rfl fun _ _ v t => ?_
    simp only [peekDone, CRegs.peekAt, setIter_setCRegs, returnC_setCRegs]
    exact of_returnWith _ _ _

end

end Sys2Proof.Machine
/-! ## An operation started and given its micro-steps is the whole operation -/

namespace Sys2Proof.Machine

variable {id : InstId} {s t : State}

open Out.ComesTo

/-! ### The inbound frame rows are over when they are started

Where their peeks fault, which the invariant excludes, the CONSUMER is idle. -/

/-- If the part raises a fault of the block, the CONSUMER is idle then (R224). -/
def Run.RaisedIdle {α : Type} (id : InstId) : Run α → Prop
  | .ok _ _ => True
  | .raised t => consBusy (t.inst id) = false
  | .stop _ => True

theorem Run.RaisedIdle.bind {α β : Type} {r : Run α} {f : α → State → Run β} (hr : r.RaisedIdle id)
    (hf : ∀ a t, (f a t).RaisedIdle id) : (r.bind f).RaisedIdle id := by
  cases r with
  | ok a t => exact hf a t
  | raised t => exact hr
  | stop e => trivial

theorem Run.RaisedIdle.then_ok {α β : Type} {r : Run α} (hr : r.RaisedIdle id) (b : α → β) :
    (r.bind fun a t => .ok (b a) t).RaisedIdle id :=
  hr.bind fun _ _ => trivial

theorem peekRun_raisedIdle (id : InstId) (i : Nat) (s : State) : (peekRun id i s).RaisedIdle id := by
  obtain ⟨-, hr⟩ | ⟨-, hr⟩ := peekRun_cases id i s <;> rw [hr]
  · exact congrArg consBusy (raise_inst ⟨id, .consumer⟩ .indexOutOfRange _)
  · cases hread : memRead id (slotIndex (s.inst id).params.N (s.inst id).tail i) (rdHead id s).2 with
    | raised t => exact absurd hread (memRead_ne_raised id _ _ t)
    | ok v t => trivial
    | stop f => trivial

theorem peekByte_raisedIdle (id : InstId) (j : Nat) (s : State) : (peekByte id j s).RaisedIdle id :=
  (peekRun_raisedIdle id j s).then_ok _

theorem sumPeeks_raisedIdle (id : InstId) (m j : Nat) (acc : Half) (s : State) :
    (sumPeeks id m j acc s).RaisedIdle id := by
  induction m generalizing j acc s with
  | zero => trivial
  | succ m ih => exact (peekByte_raisedIdle id j s).bind fun _ t => ih _ _ t

theorem checkTrailer_raisedIdle (id : InstId) (L : Byte) (s : State) : (checkTrailer id L s).RaisedIdle id :=
  (sumPeeks_raisedIdle id _ _ _ s).bind fun _ s1 => (peekByte_raisedIdle id _ s1).bind fun _ s2 =>
    (peekByte_raisedIdle id _ s2).then_ok _

theorem judgeFrame_raisedIdle (id : InstId) (L : Byte) (s : State) : (judgeFrame id L s).RaisedIdle id := by
  refine (peekByte_raisedIdle id 1 s).bind fun b1 s1 => ?_
  split
  · trivial
  split
  · trivial
  · refine (checkTrailer_raisedIdle id L s1).bind fun ck s2 => ?_
    cases ck <;> trivial

theorem syncRun_raisedIdle (id : InstId) (n : Nat) (s : State) : (syncRun id n s).RaisedIdle id := by
  unfold syncRun
  split
  · trivial
  refine (peekByte_raisedIdle id 0 s).bind fun L s1 => ?_
  split
  · trivial
  split
  · trivial
  · exact judgeFrame_raisedIdle id L s1

theorem peekBytes_raisedIdle (id : InstId) (m j : Nat) (s : State) : (peekBytes id m j s).RaisedIdle id := by
  induction m generalizing j s with
  | zero => trivial
  | succ m ih => exact (peekByte_raisedIdle id j s).bind fun _ t => (ih _ t).then_ok _

theorem acceptRun_raisedIdle (id : InstId) (L b1 : Byte) (s : State) : (acceptRun id L b1 s).RaisedIdle id := by
  unfold acceptRun
  split
  · trivial
  split
  · trivial
  split
  · trivial
  · exact (peekBytes_raisedIdle id _ _ s).then_ok _

theorem frameRun_raisedIdle (id : InstId) (L b1 : Byte) (ck : Half) (r : Message × Nat) (s : State) :
    (frameRun id L b1 ck r s).RaisedIdle id := by
  refine (syncRun_raisedIdle id _ _).bind fun v t => ?_
  split
  · exact (acceptRun_raisedIdle id L b1 t).then_ok _
  · trivial

theorem acceptFrame_comesTo (L b1 : Byte) (payload : List Byte) (r : Message × Nat) (s : State) :
    (acceptFrame L b1 payload r s).ComesTo s.port (acceptFrame L b1 payload r s) := by
  rw [acceptFrame, invokedOnBytes]
  refine of_invoked fun hw => ite_refused fun _ => ?_
  have hrole := permits_codec hw
  have hraised := frameRun_raisedIdle s.port.inst L b1 (checksumOf (L :: b1 :: payload)) r (s.setRet s.port none)
  have hchanged := Run.ChangesOnly.of_frameRun s.port.inst L b1 (checksumOf (L :: b1 :: payload)) r (s.setRet s.port none)
  rw [State.setRet_port]
  cases hr : frameRun s.port.inst L b1 (checksumOf (L :: b1 :: payload)) r (s.setRet s.port none) with
  | ok b t =>
    rw [hr] at hchanged
    have hport : t.port = s.port := hchanged.port.trans (State.setRet_port s _ none)
    cases b with
    | true =>
      simp only [hport]
      exact of_returnWith _ _ _
    | false => exact refused _ _
  | raised t =>
    rw [hr] at hraised
    exact of_idle (by rw [hrole]; exact hraised)
  | stop f => exact fault _ f

/-! ### Series of pushes -/

theorem beginPush_comesTo (ht : t.port = ⟨id, .producer⟩) (v : Elem) :
    (beginPushes id [v] t).ComesTo ⟨id, .producer⟩ (finish (pushRun id v t) fun _ => .nothing) := by
  rw [finish_eq_out (Run.ChangesOnly.of_pushRun id v t), ht, beginPushes, nextPush, State.setPRegs_setPRegs]
  refine pushRun_comesTo rfl fun R' u => ?_
  rw [nextPush, returnWith_setPRegs]
  exact of_returnWith _ _ _

theorem beginPushes_comesTo (ht : t.port = ⟨id, .producer⟩) (vs : List Elem) :
    (beginPushes id vs t).ComesTo ⟨id, .producer⟩ (finish (loadRun id vs t) fun _ => .nothing) := by
  rw [finish_eq_out (Run.ChangesOnly.of_loadRun id vs t), ht, beginPushes]
  exact nextPush_comesTo id vs _ t

theorem beginFrame_comesTo (ht : t.port = ⟨id, .producer⟩) (frame : List Byte) :
    (beginFrame id frame t).ComesTo ⟨id, .producer⟩ (finish (emitRun id frame t) fun _ => .nothing) := by
  rw [emitRun, finish_eq_out (Run.ChangesOnly.of_loadRun id _ t), ht, beginFrame]
  cases frame.map elemOf with
  | nil => exact of_returnWith _ _ _
  | cons v rest =>
    rw [loadRun_cons, Run.out_bind]
    exact pushRun_comesTo rfl fun R' u => nextPush_comesTo id rest R' u

theorem emitFrame_comesTo (frame : List Byte) (s : State) :
    (invokedOnBytes .producer s fun t => beginFrame t.port.inst frame t).ComesTo s.port (emitFrame frame s) := by
  refine of_onBytes_producer fun id t ht => ?_
  rw [ht]
  exact beginFrame_comesTo ht frame

theorem begin_encode_comesTo (m : Message) (target : InstId) (s : State) :
    (begin (.encode m target) s).ComesTo s.port (execEncode m target s) := by
  rw [begin, execEncode]
  refine of_onBytes_producer fun id t ht => ite_refused fun htarget => ?_
  have hid : id = target := by
    rw [ht] at htarget
    exact not_not.mp htarget
  subst hid
  cases outboundFrame m with
  | none =>
    rw [ht]
    exact of_raise _ _ _
  | some frame => exact beginFrame_comesTo ht frame

/-! ### Length queries -/

/-- A length query in both forms, if the results the micro-steps give for its task are its own. -/
theorem beginQuery_comesTo {pt : PTask} {ct : CTask} {result : Nat → Result}
    (hprod : ∀ n, queryResultP pt s.here.params.N n = result n)
    (hcons : ∀ R n t, R.task = ct → (t.inst s.port.inst).params = s.here.params →
      lenDone s.port.inst R n t = returnC s.port.inst (result n) t) :
    (beginQuery pt ct s).ComesTo s.port (lengthQuery result s) := by
  refine of_invoked fun _ => ?_
  have hparams : ((s.setRet s.port none).inst s.port.inst).params = s.here.params := State.setRet_params s _ none
  have hport := State.setRet_port s s.port none
  generalize s.setRet s.port none = t at hparams hport
  rw [hport]
  cases hrole : s.port.role with
  | producer =>
    have hp : s.port = ⟨s.port.inst, .producer⟩ := by rw [← hrole]
    have hquery := lenByProducer_comesTo (id := s.port.inst) (s := t)
      (R := { PRegs.idle with task := pt, ppc := .L1 }) rfl
    rw [hparams, hprod, ← hp] at hquery
    rw [lenBy, hrole]
    exact hquery
  | consumer =>
    have hp : s.port = ⟨s.port.inst, .consumer⟩ := by rw [← hrole]
    have hquery : (beginC s.port.inst ct .L1 t).ComesTo ⟨s.port.inst, .consumer⟩
        (returnC s.port.inst (result (lenByConsumer s.port.inst t).1) (lenByConsumer s.port.inst t).2) := by
      refine lenByConsumer_comesTo rfl fun c_t => ?_
      have hread := (State.ChangesOnly.of_lenByConsumer s.port.inst t).params.trans hparams
      rw [hcons _ _ _ rfl (by rw [State.inst_setCRegs]; exact hread), returnC_setCRegs]
      exact returnC_comesTo _ _ _
    rw [returnC, ← hp] at hquery
    rw [lenBy, hrole]
    exact hquery

/-! ### The other operations of the CONSUMER -/

theorem begin_pop_comesTo (s : State) : (begin .pop s).ComesTo s.port (execPop s) := by
  rw [begin, execPop]
  refine of_invoked_consumer fun id t ht => ?_
  rw [ht, finish_eq_out (Run.ChangesOnly.of_popRun id t), ht, beginC]
  refine popRun_comesTo rfl fun _ _ _ _ v u => ?_
  simp only [popDone, returnC_setCRegs]
  exact returnC_comesTo _ _ _

theorem begin_peek_comesTo (i : Nat) (s : State) : (begin (.peek i) s).ComesTo s.port (execPeek i s) := by
  rw [begin, execPeek]
  refine of_invoked_consumer fun id t ht => ite_refused fun _ => ?_
  rw [ht, finish_eq_out (Run.ChangesOnly.of_peekRun id i t), ht]
  refine peekRun_comesTo rfl fun _ _ v u => ?_
  simp only [peekDone, CRegs.peekAt, returnC_setCRegs]
  exact returnC_comesTo _ _ _

theorem begin_clear_comesTo (s : State) : (begin .clear s).ComesTo s.port (execClear s) := by
  rw [begin, execClear]
  refine of_invoked_consumer fun id t ht => ite_refused fun _ => ?_
  rw [ht]
  refine goC_comesTo ?_
  rw [tick_CL rfl]
  exact returnC_comesTo _ _ _

theorem execIterNew_comesTo (s : State) : (execIterNew s).ComesTo s.port (execIterNew s) := by
  refine of_invoked_consumer fun id t ht => ?_
  rw [ht]
  exact of_returnWith _ _ _

theorem begin_iterNext_comesTo (s : State) : (begin .iterNext s).ComesTo s.port (execIterNext s) := by
  rw [begin, execIterNext]
  refine of_invoked_consumer fun id t ht => ?_
  have hhere : t.here = t.inst id := by rw [State.here, ht]
  cases hk : t.here.cons.k with
  | none => exact refused _ _
  | some k =>
    simp only [ht, finish_eq_out (Run.ChangesOnly.of_iterRun id k t)]
    exact iterRun_comesTo rfl rfl (hhere ▸ hk)

theorem execChecksum_comesTo (bytes : List Byte) (s : State) :
    (execChecksum bytes s).ComesTo s.port (execChecksum bytes s) := by
  refine of_invoked fun _ => ?_
  rw [State.setRet_port]
  exact of_returnWith _ _ _

/-! ### Every instruction -/

/-- A codec operation through another port than the CONSUMER's is refused in both forms. -/
theorem onBytes_codec_comesTo_of_producer {body body' : State → Out} (h : s.port.role = .producer) :
    (invokedOnBytes .codec s body).ComesTo s.port (invokedOnBytes .codec s body') :=
  of_invoked fun hw => absurd ((permits_codec hw).symm.trans h) nofun

/-- An instruction started and given its micro-steps, nothing else happening, comes to the outcome of the whole operation; the codec
operations are here where they are refused. -/
theorem begin_comesTo_exec (i : Instr) (s : State)
    (hcodec : i = .needsResync ∨ i = .decodeNext ∨ i = .service → s.port.role = .producer) :
    (begin i s).ComesTo s.port (exec i s) := by
  cases i with
  | fSet L a payload => exact acceptFrame_comesTo _ _ _ _ s
  | fDiscover a => exact acceptFrame_comesTo _ _ _ _ s
  | fType a => exact acceptFrame_comesTo _ _ _ _ s
  | fValue a => exact acceptFrame_comesTo _ _ _ _ s
  | eDiscoverResp a => exact emitFrame_comesTo _ s
  | eTypeResp a k w => exact emitFrame_comesTo _ s
  | eValueRespS a v => exact emitFrame_comesTo _ s
  | eValueRespL a v => exact emitFrame_comesTo _ s
  | push v =>
    rw [begin, exec, execPush]
    refine of_invoked_producer fun id t ht => ite_refused fun _ => ?_
    rw [ht]
    exact beginPush_comesTo ht v
  | load vs =>
    rw [begin, exec, execLoad]
    refine of_invoked_producer fun id t ht => ite_refused fun _ => ?_
    rw [ht]
    exact beginPushes_comesTo ht vs
  | pop => exact begin_pop_comesTo s
  | len => exact beginQuery_comesTo (result := .num) (fun _ => rfl) fun R n t hR _ => by simp only [lenDone, hR]
  | isFull =>
    exact beginQuery_comesTo (result := fun n => .bit (fullAt s.here.params.N n)) (fun _ => rfl) fun R n t hR ht => by
      simp only [lenDone, hR, ht]
  | isEmpty =>
    exact beginQuery_comesTo (result := fun n => .bit (emptyAt n)) (fun _ => rfl) fun R n t hR _ => by
      simp only [lenDone, hR]
  | space =>
    exact beginQuery_comesTo (result := fun n => .num (spaceAt s.here.params.N n)) (fun _ => rfl) fun R n t hR ht => by
      simp only [lenDone, hR, ht]
  | peek j => exact begin_peek_comesTo j s
  | clear => exact begin_clear_comesTo s
  | iterNew => exact execIterNew_comesTo s
  | iterNext => exact begin_iterNext_comesTo s
  | checksum bytes => exact execChecksum_comesTo bytes s
  | needsResync =>
    rw [begin, exec, execNeedsResync]
    exact onBytes_codec_comesTo_of_producer (hcodec (.inl rfl))
  | decodeNext =>
    rw [begin, exec, execDecodeNext]
    exact onBytes_codec_comesTo_of_producer (hcodec (.inr (.inl rfl)))
  | service =>
    rw [begin, exec, execService]
    exact onBytes_codec_comesTo_of_producer (hcodec (.inr (.inr rfl)))
  | encode m target => exact begin_encode_comesTo m target s

/-- Settles O42: through a PRODUCER's port the codec operations are refused (`begin_comesTo_exec`). -/
theorem producerMicroStepsEqualTheOperation : Obligations.ProducerMicroStepsEqualTheOperation :=
  fun i s hrole => begin_comesTo_exec i s fun _ => hrole

/-- Settles O43 (`begin_comesTo_exec`). -/
theorem consumerMicroStepsEqualTheOperation : Obligations.ConsumerMicroStepsEqualTheOperation := by
  intro i s _ hresync hdecode hservice
  exact begin_comesTo_exec i s fun h => absurd h (by simp [hresync, hdecode, hservice])

end Sys2Proof.Machine

/-! ## The checksum engine -/

namespace Sys2Proof.Machine

variable {s : State} {p : Port}

/-! ### The running subtraction in closed form -/

theorem checksumOf_eq_sub_sum (bytes : List Byte) :
    checksumOf bytes = 0xFFFF#16 - BitVec.ofNat 16 (bytes.map BitVec.toNat).sum :=
  foldl_sub16 bytes Config.ckInit

/-- R150: the checksum as the sum subtracted over the integers, modulo 65536. -/
theorem checksumOf_eq_ofInt (bytes : List Byte) :
    checksumOf bytes = BitVec.ofInt 16 (0xFFFF - (((bytes.map BitVec.toNat).sum : Nat) : Int)) := by
  rw [checksumOf_eq_sub_sum, Int.sub_eq_add_neg, BitVec.ofInt_add, BitVec.ofInt_neg, BitVec.ofInt_natCast,
    BitVec.sub_eq_add_neg]
  rfl

/-- A sum of at most `0xFFFF` is subtracted without wrapping. -/
theorem toNat_checksumOf_of_sum_le {bytes : List Byte} (h : (bytes.map BitVec.toNat).sum ≤ 0xFFFF) :
    (checksumOf bytes).toNat = 0xFFFF - (bytes.map BitVec.toNat).sum := by
  have hsum : (BitVec.ofNat 16 (bytes.map BitVec.toNat).sum).toNat = (bytes.map BitVec.toNat).sum :=
    Nat.mod_eq_of_lt (by omega)
  have hle : BitVec.ofNat 16 (bytes.map BitVec.toNat).sum ≤ 0xFFFF#16 := BitVec.le_def.mpr (hsum.symm ▸ h)
  rw [checksumOf_eq_sub_sum, BitVec.toNat_sub_of_le hle, hsum]
  rfl

theorem sum_toNat_le (bytes : List Byte) : (bytes.map BitVec.toNat).sum ≤ bytes.length * 255 := by
  have h := (bytes.map BitVec.toNat).sum_le_card_nsmul 255 fun n hn => by
    obtain ⟨b, -, rfl⟩ := List.mem_map.mp hn
    exact Nat.le_of_lt_succ b.isLt
  simpa using h

theorem toNat_hi8 (v : Half) : (hi8 v).toNat = v.toNat / 256 := by
  have hv := v.isLt
  rw [hi8, BitVec.toNat_setWidth, BitVec.toNat_ushiftRight, Nat.shiftRight_eq_div_pow]
  omega

/-- Settles O46: the sum is between 4 and 30 * 255 (`sum_toNat_le`), so it is subtracted without wrapping. -/
theorem frameChecksumNeverWraps : Obligations.FrameChecksumNeverWraps := by
  intro b0 more hb0 hmore
  have hb0' := b0.isLt
  have hsum : ((b0 :: more).map BitVec.toNat).sum = b0.toNat + (more.map BitVec.toNat).sum := rfl
  have hrest := sum_toNat_le more
  have hck := toNat_checksumOf_of_sum_le (bytes := b0 :: more) (by omega)
  refine ⟨hck, ?_, ?_, ?_⟩
  · omega
  · omega
  · rw [toNat_hi8]
    omega

/-! ### The whole operation -/

/-- What an operation returns replaces what the result port held. -/
theorem returnWith_setRet (r : Result) (r' : Option Result) : returnWith p r (s.setRet p r') = returnWith p r s := by
  simp only [returnWith, goIdle, State.setRet]
  cases p.role <;> simp [State.setPRegs, State.setCRegs]

theorem exec_checksum_admitted (hadm : Admitted .either s) (bytes : List Byte) :
    exec (.checksum bytes) s = .next (returnWith s.port (.half (checksumOf bytes)) s) := by
  rw [exec, execChecksum, invoked_admitted hadm, State.setRet_port, returnWith_setRet]

/-- Settles O45: the operation only returns (`exec_checksum_admitted`), and it returns the closed form
(`checksumOf_eq_ofInt`). -/
theorem checksumIsTheRunningSubtraction : Obligations.ChecksumIsTheRunningSubtraction := by
  intro bytes s hadm
  have hexec := exec_checksum_admitted hadm bytes
  refine ⟨_, hexec, ?_, sameElsewhere_of_exec hexec, ?_⟩
  · rw [result_returnWith, checksumOf_eq_ofInt]
  · rw [here_of_exec hexec, returnWith_choices, returnWith_draws]
    cases hrole : s.port.role with
    | producer =>
      rw [returnWith_inst_producer hrole]
      exact ⟨⟨rfl, rfl, rfl, rfl, rfl⟩, rfl, rfl, rfl, rfl, rfl, rfl, rfl, fun _ => rfl, nofun⟩
    | consumer =>
      rw [returnWith_inst_consumer hrole]
      exact ⟨⟨rfl, rfl, rfl, rfl, rfl⟩, rfl, rfl, rfl, rfl, rfl, rfl, rfl, nofun, fun _ => rfl⟩

end Sys2Proof.Machine

/-! ## The codec's phase machine comes to the whole operation

What the phase machine holds between two peeks is in its registers, and it goes on from them as the rest of the rule's procedure
does from its own values: phase S4 as `checkTrailer`, DEC as `acceptRun`, the pops of `service` as `discardRun`. -/

namespace Sys2Proof.Machine

variable {id : InstId} {s : State} {R : CRegs}

/-- The operations of the codec. -/
def CTask.IsCodec (task : CTask) : Prop := task = .needsResync ∨ task = .decodeNext ∨ task = .service

/-! ### What the codec goes on to -/

theorem lenDone_of_codec (h : R.task.IsCodec) (n : Nat) (s : State) :
    lenDone id R n s =
      if n = 0 then goC id ({ R with n := n }.judged false) s else goC id ({ R with n := n, phase := .S1 }.peekAt 0) s := by
  obtain h | h | h := h <;> simp only [lenDone, h]

theorem peekDone_of_codec (h : R.task.IsCodec) (v : Elem) (s : State) :
    peekDone id R v s = codecByte id { R with c_v := v } (byteOf v) s := by
  obtain h | h | h := h <;> simp only [peekDone, h]

/-! ### The parts of the codec and the CONSUMER's registers -/

@[simp] theorem handOver_setCRegs (id : InstId) (m : Option Message) (s : State) (R : CRegs) :
    handOver id m (s.setCRegs id R) = (handOver id m s).setCRegs id R := by
  cases m with
  | none => rfl
  | some m => simp [handOver, State.setSink, State.setCRegs]

@[simp] theorem decided_setCRegs (id : InstId) (R R' : CRegs) (m : Option Message) (c : Nat) (s : State) :
    decided id R m c (s.setCRegs id R') = decided id R m c s := by
  simp only [decided, handOver_setCRegs, goC_setCRegs, returnC_setCRegs]

@[simp] theorem lenDone_setCRegs (id : InstId) (R R' : CRegs) (n : Nat) (s : State) :
    lenDone id R n (s.setCRegs id R') = lenDone id R n s := by
  simp only [lenDone, State.inst_setCRegs, goC_setCRegs, returnC_setCRegs]

@[simp] theorem codecByte_setCRegs (id : InstId) (R R' : CRegs) (b : Byte) (s : State) :
    codecByte id R b (s.setCRegs id R') = codecByte id R b s := by
  simp only [codecByte, decided_setCRegs, goC_setCRegs]

@[simp] theorem localStep_setCRegs (id : InstId) (R R' : CRegs) (s : State) :
    localStep id R (s.setCRegs id R') = localStep id R s := by
  simp only [localStep, decided_setCRegs, goC_setCRegs, returnC_setCRegs]

theorem tick_X (h : R.cpc = .X) : tick ⟨id, .consumer⟩ (s.setCRegs id R) = localStep id R s := by
  simp [tick, tickConsumer, h]

open Out.ComesTo

/-- A computation on the codec's own registers. -/
theorem localStep_comesTo (h : R.cpc = .X) {o : Out} (ho : (localStep id R s).ComesTo ⟨id, .consumer⟩ o) :
    (goC id R s).ComesTo ⟨id, .consumer⟩ o :=
  goC_comesTo (tick_X h ▸ ho)

/-- One peek of the codec, and what comes after it. -/
theorem peekByte_comesTo (h : R.cpc = .K1) (htask : R.task.IsCodec) {f : Byte → State → Out}
    (hdone : ∀ c_t c_h c_v b t,
      (codecByte id { R with cpc := .K3, c_t := c_t, c_h := c_h, c_v := c_v } b t).ComesTo ⟨id, .consumer⟩ (f b t)) :
    (goC id R s).ComesTo ⟨id, .consumer⟩ ((peekByte id R.c_i s).out f) := by
  rw [peekByte, Run.out_bind]
  refine peekRun_comesTo h fun c_t c_h v t => ?_
  rw [peekDone_of_codec, codecByte_setCRegs]
  · exact hdone _ _ _ _ _
  · exact htask

/-! ### The synchroniser -/

/-- The registers hold the operation, the length snapshot and the header they held. -/
structure CRegs.SameHeader (R R' : CRegs) : Prop where
  task : R'.task = R.task
  n    : R'.n = R.n
  L    : R'.L = R.L
  b1   : R'.b1 = R.b1

theorem CRegs.SameHeader.trans {R R' R'' : CRegs} (h : R.SameHeader R') (h' : R'.SameHeader R'') : R.SameHeader R'' :=
  ⟨h'.task.trans h.task, h'.n.trans h.n, h'.L.trans h.L, h'.b1.trans h.b1⟩

/-- What the registers say where the synchroniser comes to a verdict, as the decoder needs it. -/
def CRegs.Shows (R : CRegs) : Verdict → Prop
  | .malformed _ => True
  | .empty => R.n = 0
  | .incomplete _ => R.n < R.L.toNat
  | .good L b1 _ => R.L = L ∧ R.b1 = b1 ∧ 4 ≤ L.toNat ∧ L.toNat ≤ R.n

/-- From every verdict it comes to, an operation of the codec comes to `f` of it. -/
def VerdictsComeTo (id : InstId) (task : CTask) (f : Verdict → State → Out) : Prop :=
  ∀ (R : CRegs) (v : Verdict) (t : State), R.task = task → R.Shows v →
    (goC id (R.judged v.resync) t).ComesTo ⟨id, .consumer⟩ (f v t)

theorem codecByte_S4_of_lt (hphase : R.phase = .S4) (hi : R.c_i + 1 < R.L.toNat - 2) (b : Byte) :
    codecByte id R b s = goC id ({ R with acc := sub16 R.acc b, ci := R.ci + 1 }.peekAt (R.c_i + 1)) s := by
  simp only [codecByte, hphase, if_pos hi]

theorem codecByte_S4_last (hphase : R.phase = .S4) (hi : R.c_i + 1 = R.L.toNat - 2) (b : Byte) :
    codecByte id R b s = goC id ({ R with acc := sub16 R.acc b }.peekAt (R.c_i + 1)) s := by
  simp only [codecByte, hphase]
  rw [if_neg (by omega), if_pos (by omega)]

theorem codecByte_S4_low (hphase : R.phase = .S4) (hi : R.c_i = R.L.toNat - 2) (b : Byte) :
    codecByte id R b s = goC id ({ R with ck_lo := b }.peekAt (R.c_i + 1)) s := by
  simp only [codecByte, hphase]
  rw [if_neg (by omega), if_neg (by omega), if_pos hi]

theorem codecByte_S4_high (hphase : R.phase = .S4) (hi : R.c_i = R.L.toNat - 2 + 1) (b : Byte) :
    codecByte id R b s =
      if trailerMatches R.acc R.ck_lo b then goC id { R with ck_hi := b, phase := .S5, cpc := .X } s
      else goC id ({ R with ck_hi := b }.judged true) s := by
  simp only [codecByte, hphase]
  rw [if_neg (by omega), if_neg (by omega), if_neg (by omega)]

/-- Phase S4 up to the trailer: the bytes still to be subtracted (R165). -/
theorem sumPeeks_comesTo (m : Nat) (h : R.cpc = .K1) (hphase : R.phase = .S4) (htask : R.task.IsCodec)
    (hrest : R.c_i + (m + 1) = R.L.toNat - 2) {f : Half → State → Out}
    (hdone : ∀ R' t, R.SameHeader R' → R'.cpc = .K1 → R'.phase = .S4 → R'.c_i = R.L.toNat - 2 →
      (goC id R' t).ComesTo ⟨id, .consumer⟩ (f R'.acc t)) :
    (goC id R s).ComesTo ⟨id, .consumer⟩ ((sumPeeks id (m + 1) R.c_i R.acc s).out f) := by
  induction m generalizing R s with
  | zero =>
    rw [sumPeeks, Run.out_bind]
    refine peekByte_comesTo h htask fun c_t c_h c_v b t => ?_
    rw [codecByte_S4_last]
    · exact hdone _ t ⟨rfl, rfl, rfl, rfl⟩ rfl hphase hrest
    · exact hphase
    · exact hrest
  | succ m ih =>
    rw [sumPeeks, Run.out_bind]
    refine peekByte_comesTo h htask fun c_t c_h c_v b t => ?_
    rw [codecByte_S4_of_lt]
    · refine ih rfl hphase htask ?_ fun R' t ⟨htask', hn, hL, hb1⟩ => hdone R' t ⟨htask', hn, hL, hb1⟩
      dsimp only [CRegs.peekAt]
      omega
    · exact hphase
    · dsimp only
      omega

/-- Phase S4 on the trailer: where it agrees on to S5, else malformed. -/
theorem trailer_comesTo (h : R.cpc = .K1) (hphase : R.phase = .S4) (htask : R.task.IsCodec) (hi : R.c_i = R.L.toNat - 2)
    (hlegal : 4 ≤ R.L.toNat) {f : Option Half → State → Out}
    (hgood : ∀ R' acc t, R.SameHeader R' → R'.cpc = .X → R'.phase = .S5 →
      (goC id R' t).ComesTo ⟨id, .consumer⟩ (f (some acc) t))
    (hbad : ∀ R' t, R.SameHeader R' → (goC id (R'.judged true) t).ComesTo ⟨id, .consumer⟩ (f none t)) :
    (goC id R s).ComesTo ⟨id, .consumer⟩
      (((peekByte id (R.L.toNat - 2) s).bind fun lo t => (peekByte id (R.L.toNat - 1) t).bind fun hi u =>
        .ok (if trailerMatches R.acc lo hi then some R.acc else none) u).out f) := by
  rw [Run.out_bind, ← hi]
  refine peekByte_comesTo h htask fun c_t c_h c_v lo t => ?_
  rw [codecByte_S4_low, Run.out_bind, show R.L.toNat - 1 = R.c_i + 1 by omega]
  · refine peekByte_comesTo rfl (by exact htask) fun c_t c_h c_v ckHi t => ?_
    rw [codecByte_S4_high]
    · by_cases hmatch : trailerMatches R.acc lo ckHi = true
      · simp only [CRegs.peekAt, hmatch, if_true]
        exact hgood _ _ t ⟨rfl, rfl, rfl, rfl⟩ rfl rfl
      · simp only [CRegs.peekAt, hmatch, if_false, Bool.false_eq_true]
        exact hbad _ t ⟨rfl, rfl, rfl, rfl⟩
    · exact hphase
    · exact congrArg (· + 1) hi
  · exact hphase
  · exact hi

/-- Phase S4 (R165). -/
theorem checkTrailer_comesTo (h : R.cpc = .K1) (hphase : R.phase = .S4) (htask : R.task.IsCodec) (hi : R.c_i = 0)
    (hacc : R.acc = Config.ckInit) (hlegal : 4 ≤ R.L.toNat) {f : Option Half → State → Out}
    (hgood : ∀ R' acc t, R.SameHeader R' → R'.cpc = .X → R'.phase = .S5 →
      (goC id R' t).ComesTo ⟨id, .consumer⟩ (f (some acc) t))
    (hbad : ∀ R' t, R.SameHeader R' → (goC id (R'.judged true) t).ComesTo ⟨id, .consumer⟩ (f none t)) :
    (goC id R s).ComesTo ⟨id, .consumer⟩ ((checkTrailer id R.L s).out f) := by
  obtain ⟨m, hm⟩ : ∃ m, R.L.toNat - 2 = m + 1 := ⟨R.L.toNat - 3, by omega⟩
  rw [checkTrailer, Run.out_bind, hm, ← hi, ← hacc]
  refine sumPeeks_comesTo m h hphase htask (by omega) fun R1 t hR1 h1 hphase1 hi1 => ?_
  rw [← hm, ← hR1.L]
  exact trailer_comesTo h1 hphase1 (hR1.task ▸ htask) (hR1.L ▸ hi1) (hR1.L ▸ hlegal)
    (fun R' acc t hR' => hgood R' acc t (hR1.trans hR')) fun R' t hR' => hbad R' t (hR1.trans hR')

/-- Phases S3 to S5 (R164 to R166). -/
theorem judgeFrame_comesTo (h : R.cpc = .K1) (hphase : R.phase = .S3) (htask : R.task.IsCodec) (hi : R.c_i = 1)
    (hlegal : 4 ≤ R.L.toNat) (hwhole : R.L.toNat ≤ R.n) {f : Verdict → State → Out}
    (hdone : VerdictsComeTo id R.task f) :
    (goC id R s).ComesTo ⟨id, .consumer⟩ ((judgeFrame id R.L s).out f) := by
  rw [judgeFrame, Run.out_bind, ← hi]
  refine peekByte_comesTo h htask fun c_t c_h c_v b1 t => ?_
  simp only [codecByte, hphase]
  by_cases hcmd : badCommand b1 = true
  · simp only [hcmd, Bool.true_or, if_true]
    exact hdone _ (.malformed .badCommand) t rfl trivial
  by_cases hfixed : badFixedLength R.L b1 = true
  · simp only [hcmd, hfixed, Bool.or_true, if_true, Bool.false_eq_true, if_false]
    exact hdone _ (.malformed .badFixedLength) t rfl trivial
  simp only [hcmd, hfixed, Bool.or_self, Bool.false_eq_true, if_false, Run.out_bind]
  refine checkTrailer_comesTo rfl rfl (by exact htask) rfl rfl (by exact hlegal) (fun R' acc t hR' h' hphase' => ?_)
    (fun R' t hR' => ?_)
  · refine localStep_comesTo h' ?_
    simp only [localStep, hphase']
    exact hdone R' (.good R.L b1 acc) t hR'.task ⟨hR'.L, hR'.b1, hlegal, hwhole.trans_eq hR'.n.symm⟩
  · exact hdone R' (.malformed .badChecksum) t hR'.task trivial

/-- Phases S0 to S5 on a length snapshot (R160 to R166). -/
theorem syncRun_comesTo (htask : R.task.IsCodec) (n : Nat) {f : Verdict → State → Out}
    (hdone : VerdictsComeTo id R.task f) :
    (lenDone id R n s).ComesTo ⟨id, .consumer⟩ ((syncRun id n s).out f) := by
  rw [lenDone_of_codec htask, syncRun]
  split
  next hn => exact hdone _ .empty s rfl hn
  rw [Run.out_bind]
  refine peekByte_comesTo rfl (by exact htask) fun c_t c_h c_v L t => ?_
  simp only [codecByte, CRegs.peekAt]
  split
  next => exact hdone _ (.malformed .badLength) t rfl trivial
  next hL =>
    refine localStep_comesTo rfl ?_
    simp only [localStep]
    split
    next hlt => exact hdone _ (.incomplete L) t rfl hlt
    next hwhole =>
      have hlegal := (badLength_eq_false.mp (Bool.eq_false_iff.mpr hL)).1
      exact judgeFrame_comesTo rfl rfl (by exact htask) rfl hlegal (not_lt.mp hwhole) hdone

/-- The synchroniser from its length read on. -/
theorem snapshot_syncRun_comesTo (h : R.cpc = .L1) (htask : R.task.IsCodec) {f : Verdict → State → Out}
    (hdone : VerdictsComeTo id R.task f) :
    (goC id R s).ComesTo ⟨id, .consumer⟩ ((syncRun id (lenByConsumer id s).1 (lenByConsumer id s).2).out f) := by
  refine lenByConsumer_comesTo h fun c_t => ?_
  rw [lenDone_setCRegs]
  exact syncRun_comesTo (by exact htask) _ hdone

/-! ### The channels of a SET frame -/

/-- The channels after one more byte of the payload, the one at payload offset `i` (R182; log entry 24). -/
def putByte (chan : List Half) (i : Nat) (b : Byte) : List Half :=
  if i % 2 = 0 then chan.set (i / 2) (le16 b 0) else chan.set (i / 2) (le16 (lo8 (chan.getD (i / 2) 0)) b)

/-- The channels after the bytes of a payload from offset `i` on. -/
def putBytes (chan : List Half) (i : Nat) : List Byte → List Half
  | [] => chan
  | b :: bs => putBytes (putByte chan i b) (i + 1) bs

theorem codecByte_DEC (hphase : R.phase = .DEC) (b : Byte) :
    codecByte id R b s =
      if R.ci + 1 < 2 * R.cnt then
        goC id ({ R with chan := putByte R.chan R.ci b, ci := R.ci + 1 }.peekAt (R.c_i + 1)) s
      else
        decided id { R with chan := putByte R.chan R.ci b } (some (.setMsg (putByte R.chan R.ci b))) R.L.toNat s := by
  simp only [codecByte, hphase]
  rfl

theorem lo8_le16 (lo hi : Byte) : lo8 (le16 lo hi) = lo := by
  unfold lo8 le16
  exact BitVec.setWidth_append_eq_right

/-- The two bytes of a channel make its value. -/
theorem putByte_putByte (done rest : List Half) (x : Half) (lo hi : Byte) :
    putByte (putByte (done ++ x :: rest) (2 * done.length) lo) (2 * done.length + 1) hi = done ++ le16 lo hi :: rest := by
  have hdiv : (2 * done.length + 1) / 2 = done.length := by omega
  simp [putByte, hdiv, lo8_le16]

/-- The bytes of `m` channels make the first `m` of the channels still zero. -/
theorem putBytes_eq (m k : Nat) (done : List Half) (bytes : List Byte) (hbytes : bytes.length = 2 * m) :
    putBytes (done ++ List.replicate (m + k) 0) (2 * done.length) bytes = done ++ le16s bytes ++ List.replicate k 0 := by
  induction m generalizing done bytes with
  | zero =>
    obtain rfl : bytes = [] := List.length_eq_zero_iff.mp hbytes
    simp [putBytes, le16s]
  | succ m ih =>
    match bytes with
    | [] => cases hbytes
    | [_] =>
      rw [List.length_singleton] at hbytes
      omega
    | lo :: hi :: bytes =>
      have hlen : bytes.length = 2 * m := by simp at hbytes; omega
      have hnext := ih (done ++ [le16 lo hi]) bytes hlen
      rw [List.length_append, List.length_singleton, Nat.mul_add] at hnext
      rw [putBytes, putBytes, show m + 1 + k = (m + k) + 1 by omega, List.replicate_succ, putByte_putByte, le16s]
      simpa using hnext

theorem length_le16s (m : Nat) (bytes : List Byte) (hbytes : bytes.length = 2 * m) : (le16s bytes).length = m := by
  induction m generalizing bytes with
  | zero =>
    obtain rfl : bytes = [] := List.length_eq_zero_iff.mp hbytes
    rfl
  | succ m ih =>
    match bytes with
    | [] => cases hbytes
    | [_] =>
      rw [List.length_singleton] at hbytes
      omega
    | lo :: hi :: bytes => rw [le16s, List.length_cons, ih bytes (by simp at hbytes; omega)]

/-- The payload bytes the decoder peeks make the channels of the frame (R181, R182). -/
theorem putBytes_zeroChannels {L : Byte} {bytes : List Byte} (hbytes : bytes.length = 2 * setCount L) :
    putBytes zeroChannels 0 bytes = setChannels L bytes := by
  have hcount : setCount L ≤ Config.nchan := Nat.min_le_right _ _
  have hput := putBytes_eq (setCount L) (Config.nchan - setCount L) [] bytes hbytes
  rw [Nat.add_sub_cancel' hcount] at hput
  have htake : bytes.take (2 * setCount L) = bytes := List.take_of_length_le hbytes.le
  simpa [setChannels, htake, length_le16s _ bytes hbytes, zeroChannels] using hput

/-! ### The decoder -/

/-- From every pair it decides on, an operation of the codec comes to `f` of it. -/
def DecisionsComeTo (id : InstId) (task : CTask) (f : Option Message × Nat → State → Out) : Prop :=
  ∀ (R : CRegs) (m : Option Message) (c : Nat) (t : State), R.task = task →
    (decided id R m c t).ComesTo ⟨id, .consumer⟩ (f (m, c) t)

/-- Phase DEC on a SET frame: the payload bytes still to be peeked (R182). -/
theorem peekBytes_comesTo (m : Nat) (h : R.cpc = .K1) (hphase : R.phase = .DEC) (htask : R.task.IsCodec)
    (hrest : R.ci + (m + 1) = 2 * R.cnt) {f : List Byte → State → Out}
    (hdone : ∀ R' bytes t, R'.task = R.task → bytes.length = m + 1 →
      (decided id R' (some (.setMsg (putBytes R.chan R.ci bytes))) R.L.toNat t).ComesTo ⟨id, .consumer⟩ (f bytes t)) :
    (goC id R s).ComesTo ⟨id, .consumer⟩ ((peekBytes id (m + 1) R.c_i s).out f) := by
  induction m generalizing R s f with
  | zero =>
    rw [peekBytes, Run.out_bind]
    refine peekByte_comesTo h htask fun c_t c_h c_v b t => ?_
    rw [codecByte_DEC, if_neg]
    · exact hdone _ [b] t rfl rfl
    · dsimp only
      omega
    · exact hphase
  | succ m ih =>
    rw [peekBytes, Run.out_bind]
    refine peekByte_comesTo h htask fun c_t c_h c_v b t => ?_
    rw [codecByte_DEC, if_pos, Run.out_bind]
    · refine ih rfl (by exact hphase) (by exact htask) ?_ fun R' bytes u htask' hlen => ?_
      · dsimp only [CRegs.peekAt]
        omega
      · exact hdone R' (b :: bytes) u htask' (congrArg (· + 1) hlen)
    · dsimp only
      omega
    · exact hphase

/-- Phase DEC on a SET frame with channels (R181, R182). -/
theorem payload_comesTo (h : R.cpc = .K1) (hphase : R.phase = .DEC) (htask : R.task.IsCodec) (hchan : R.chan = zeroChannels)
    (hci : R.ci = 0) (hcnt : R.cnt = setCount R.L) (hi : R.c_i = 2) (hcount : setCount R.L ≠ 0)
    {f : Option Message × Nat → State → Out} (hdecided : DecisionsComeTo id R.task f) :
    (goC id R s).ComesTo ⟨id, .consumer⟩ ((peekBytes id (2 * setCount R.L) 2 s).out fun payload t =>
      f (some (setResult R.L payload).1, (setResult R.L payload).2) t) := by
  obtain ⟨m, hm⟩ : ∃ m, 2 * setCount R.L = m + 1 := ⟨2 * setCount R.L - 1, by omega⟩
  rw [hm, ← hi]
  refine peekBytes_comesTo m h hphase htask (by omega) fun R' bytes t htask' hlen => ?_
  rw [hchan, hci, putBytes_zeroChannels (hlen.trans hm.symm)]
  exact hdecided R' _ _ t htask'

/-- Phase DEC on an accepted frame (R175). -/
theorem acceptRun_comesTo (h : R.cpc = .X) (hphase : R.phase = .DEC) (htask : R.task.IsCodec) (hlegal : 4 ≤ R.L.toNat)
    (hwhole : R.L.toNat ≤ R.n) {f : Option Message × Nat → State → Out} (hdecided : DecisionsComeTo id R.task f) :
    (goC id R s).ComesTo ⟨id, .consumer⟩ ((acceptRun id R.L R.b1 s).out fun r t => f (some r.1, r.2) t) := by
  have hcomplete : ¬(decide (R.n < 2) || decide (R.n < R.L.toNat)) = true := by simp; omega
  refine localStep_comesTo h ?_
  simp only [localStep, hphase, acceptRun]
  rw [if_neg hcomplete]
  split_ifs with hdiscover htype hvalue hcount
  · exact hdecided _ _ _ _ rfl
  · exact hdecided _ _ _ _ rfl
  · exact hdecided _ _ _ _ rfl
  · have hzero := putBytes_zeroChannels (L := R.L) (bytes := []) (by rw [hcount]; rfl)
    rw [hcount, show zeroChannels = setChannels R.L [] from hzero]
    exact hdecided _ _ _ _ rfl
  · rw [Run.out_bind]
    exact payload_comesTo rfl rfl (by exact htask) rfl rfl rfl rfl (by exact hcount) (by exact hdecided)

/-- Phase DEC on a front that is not there whole (R177). -/
theorem waiting_comesTo (h : R.cpc = .X) (hphase : R.phase = .DEC) (hwait : R.n < 2 ∨ R.n < R.L.toNat)
    {f : Option Message × Nat → State → Out} (hdecided : DecisionsComeTo id R.task f) :
    (goC id R s).ComesTo ⟨id, .consumer⟩ (f (none, 0) s) := by
  have hwait' : (decide (R.n < 2) || decide (R.n < R.L.toNat)) = true := by simpa using hwait
  refine localStep_comesTo h ?_
  simp only [localStep, hphase]
  rw [if_pos hwait']
  exact hdecided R _ _ s rfl

theorem localStep_DONE_of_decode (h : R.task = .decodeNext ∨ R.task = .service) (hphase : R.phase = .DONE) :
    localStep id R s = if R.resync then decided id R none 1 s else goC id { R with phase := .DEC } s := by
  obtain h | h := h <;> simp only [localStep, hphase, h]

/-- `decodeNext` and the decoding of `service` (R175, R189). -/
theorem decodeRun_comesTo (h : R.cpc = .L1) (htask : R.task = .decodeNext ∨ R.task = .service)
    {f : Option Message × Nat → State → Out} (hdecided : DecisionsComeTo id R.task f) :
    (goC id R s).ComesTo ⟨id, .consumer⟩ ((decodeRun id s).out f) := by
  rw [decodeRun, Run.out_bind]
  refine snapshot_syncRun_comesTo h (.inr htask) fun R' v t htask' hshows => localStep_comesTo rfl ?_
  rw [← htask'] at htask hdecided
  rw [localStep_DONE_of_decode]
  · cases v with
    | malformed why => exact hdecided _ _ _ _ rfl
    | empty => exact waiting_comesTo rfl rfl (by exact .inl (hshows.trans_lt Nat.two_pos)) (by exact hdecided)
    | incomplete L => exact waiting_comesTo rfl rfl (by exact .inr hshows) (by exact hdecided)
    | good L b1 acc =>
      obtain ⟨rfl, rfl, hlegal, hwhole⟩ := hshows
      simp only [Run.out_bind]
      exact acceptRun_comesTo rfl rfl (by exact .inr htask) (by exact hlegal) (by exact hwhole) (by exact hdecided)
  · exact htask
  · rfl

/-- The pops of a `service` (R187). -/
theorem discardRun_comesTo (j : Nat) (h : R.cpc = .C1) (htask : R.task = .service) (hleft : R.left = j + 1) :
    (goC id R s).ComesTo ⟨id, .consumer⟩
      ((discardRun id (j + 1) s).out fun _ t => returnC id (.decoded R.msg R.consumed) t) := by
  induction j generalizing R s with
  | zero =>
    rw [discardRun, Run.out_bind]
    refine popRun_comesTo h fun cpc c_t c_h c_v v t => ?_
    simp only [popDone, htask, hleft, Nat.le_refl, if_true, returnC_setCRegs]
    exact returnC_comesTo _ _ _
  | succ j ih =>
    rw [discardRun, Run.out_bind]
    refine popRun_comesTo h fun cpc c_t c_h c_v v t => ?_
    simp only [popDone, htask, hleft, goC_setCRegs]
    rw [if_neg (by omega)]
    exact ih rfl rfl rfl

/-! ### Whole operations -/

theorem Out.ComesTo.of_onBytes_codec {body body' : State → Out}
    (h : ∀ id t, t.port = ⟨id, .consumer⟩ → (body t).ComesTo ⟨id, .consumer⟩ (body' t)) :
    (invokedOnBytes .codec s body).ComesTo s.port (invokedOnBytes .codec s body') := by
  refine of_invoked fun hw => ite_refused fun _ => ?_
  have hport : (⟨s.port.inst, .consumer⟩ : Port) = s.port := by rw [← permits_codec hw]
  have hbody := h s.port.inst (s.setRet s.port none)
  rw [hport] at hbody
  exact hbody (State.setRet_port s _ none)

theorem begin_needsResync_comesTo (s : State) : (begin .needsResync s).ComesTo s.port (exec .needsResync s) := by
  rw [begin, exec, execNeedsResync]
  refine of_onBytes_codec fun id t ht => ?_
  rw [ht, finish_eq_out (Run.ChangesOnly.of_resyncRun id t), ht, resyncRun, Run.out_bind]
  refine snapshot_syncRun_comesTo rfl (.inl rfl) fun R v u htask _ => localStep_comesTo rfl ?_
  simp only [localStep, CRegs.judged, htask]
  exact returnC_comesTo _ _ _

theorem begin_decodeNext_comesTo (s : State) : (begin .decodeNext s).ComesTo s.port (exec .decodeNext s) := by
  rw [begin, exec, execDecodeNext]
  refine of_onBytes_codec fun id t ht => ?_
  rw [ht, finish_eq_out (Run.ChangesOnly.of_decodeRun id t), ht]
  refine decodeRun_comesTo rfl (.inl rfl) fun R m c u htask => ?_
  simp only [decided, htask]
  exact returnC_comesTo _ _ _

theorem begin_service_comesTo (s : State) : (begin .service s).ComesTo s.port (exec .service s) := by
  rw [begin, exec, execService]
  refine of_onBytes_codec fun id t ht => ?_
  rw [ht, finish_eq_out (Run.ChangesOnly.of_serviceRun id t), ht, serviceRun, Run.out_bind]
  refine decodeRun_comesTo rfl (.inr rfl) fun R m c u htask => ?_
  simp only [decided, htask, owed, Run.out_bind]
  cases c with
  | zero => exact returnC_comesTo _ _ _
  | succ j => exact discardRun_comesTo j rfl rfl rfl

/-- Settles O44: the phase machine comes to the synchroniser's verdict (`snapshot_syncRun_comesTo`), from there to the decoder's
pair (`decodeRun_comesTo`), and from there to the end of the pops (`discardRun_comesTo`). -/
theorem codecMicroStepsEqualTheOperation : Obligations.CodecMicroStepsEqualTheOperation := by
  rintro i s (rfl | rfl | rfl)
  · exact begin_needsResync_comesTo s
  · exact begin_decodeNext_comesTo s
  · exact begin_service_comesTo s

end Sys2Proof.Machine

/-! ## The codec's invariant

`Inst.codecOk` speaks of the CONSUMER's registers and the length it has seen. `CRegs.OnTask` says the same by cases, each a part of an
operation (`onTask_of_codecOk`, `codecOk_of_onTask`). The lemmas below follow the micro-steps from case to case; a whole operation is
a run of them. -/

namespace Sys2Proof.Machine

variable {id : InstId} {s t : State} {R : CRegs} {v : Nat}

/-! ### The steps an operation of the CONSUMER can be at -/

/-- The first step of the pop, peek or length read a step belongs to: what `codecOk` tests of the step. -/
def CPc.start : CPc → CPc
  | .C1 | .C2 | .C3 | .C4 | .C5 => .C1
  | .K1 | .K2 | .K3 => .K1
  | .L1 | .L2 => .L1
  | .idle => .idle
  | .CL => .CL
  | .X => .X

/-- The header is judged good and the frame is there whole. -/
abbrev CRegs.FrameOk (R : CRegs) : Prop := R.headerOk = true ∧ R.L.toNat ≤ R.n

/-- At which step the codec can be in its phase, and what it has read there (R167, R189; log entry 24). -/
abbrev CRegs.InPhase (R : CRegs) : Prop :=
  match R.phase with
  | .S0 => False
  | .S1 => R.cpc.start = .K1 ∧ R.c_i = 0 ∧ 1 ≤ R.n
  | .S2 => R.cpc.start = .X ∧ 1 ≤ R.n ∧ badLength R.L = false
  | .S3 => R.cpc.start = .K1 ∧ R.c_i = 1 ∧ 1 ≤ R.n ∧ badLength R.L = false ∧ R.L.toNat ≤ R.n
  | .S4 => R.cpc.start = .K1 ∧ 1 ≤ R.n ∧ R.FrameOk ∧ R.c_i < R.L.toNat ∧ R.ci = min R.c_i (R.L.toNat - 3)
  | .S5 => R.cpc.start = .X ∧ 1 ≤ R.n ∧ R.FrameOk
  | .DONE =>
    R.cpc.start = .X ∧
      if R.resync then 1 ≤ R.n else R.n = 0 ∨ badLength R.L = false ∧ R.n < R.L.toNat ∨ R.FrameOk
  | .DEC =>
    R.cpc.start = .X ∧ (R.n < 2 ∨ R.n < R.L.toNat ∨ R.headerOk = true) ∨
      R.cpc.start = .K1 ∧ R.FrameOk ∧ R.cnt = setCount R.L ∧ R.c_i = 2 + R.ci ∧ R.ci < 2 * R.cnt

/-- Where an operation of the CONSUMER can be and what it has read, the CONSUMER having seen the length `v`. -/
inductive CRegs.OnTask (R : CRegs) (v : Nat) : Prop where
  | idle (hcpc : R.cpc.start = .idle)
  | pop (htask : R.task = .pop) (hcpc : R.cpc.start = .C1)
  | peek (htask : R.task = .peek) (hcpc : R.cpc.start = .K1)
  | clear (htask : R.task = .clear) (hcpc : R.cpc.start = .CL)
  | query (htask : R.task = .len ∨ R.task = .isFull ∨ R.task = .isEmpty ∨ R.task = .space) (hcpc : R.cpc.start = .L1)
  | iterLen (htask : R.task = .iterNext) (hcpc : R.cpc.start = .L1)
  | iterPeek (htask : R.task = .iterNext) (hcpc : R.cpc.start = .K1) (hi : R.c_i < v)
  | codecLen (htask : R.task.IsCodec) (hcpc : R.cpc.start = .L1)
  | discard (htask : R.task = .service) (hcpc : R.cpc.start = .C1) (hpos : 1 ≤ R.left) (hleft : R.left ≤ v)
  | codec (htask : R.task.IsCodec) (hseen : R.n ≤ v) (hphase : R.InPhase)

theorem popping_eq_start (c : CPc) : (c == .C1 || c == .C2 || c == .C3 || c == .C4 || c == .C5) = (c.start == .C1) := by
  cases c <;> rfl

theorem peeking_eq_start (c : CPc) : (c == .K1 || c == .K2 || c == .K3) = (c.start == .K1) := by
  cases c <;> rfl

theorem measuring_eq_start (c : CPc) : (c == .L1 || c == .L2) = (c.start == .L1) := by
  cases c <;> rfl

theorem idle_eq_start (c : CPc) : (c == .idle) = (c.start == .idle) := by
  cases c <;> rfl

theorem clearing_eq_start (c : CPc) : (c == .CL) = (c.start == .CL) := by
  cases c <;> rfl

theorem computing_eq_start (c : CPc) : (c == .X) = (c.start == .X) := by
  cases c <;> rfl

/-- The codec's phases, where it neither reads the length nor pops. -/
theorem codecOk_iff_inPhase {I : Inst} (htask : I.cons.regs.task.IsCodec) (hidle : I.cons.regs.cpc.start ≠ .idle)
    (hlen : I.cons.regs.cpc.start ≠ .L1) (hpop : I.cons.regs.cpc.start ≠ .C1) :
    I.codecOk = true ↔ I.cons.regs.n ≤ I.visible ∧ I.cons.regs.InPhase := by
  simp only [Inst.codecOk, popping_eq_start, peeking_eq_start, measuring_eq_start, idle_eq_start I.cons.regs.cpc,
    clearing_eq_start I.cons.regs.cpc, computing_eq_start I.cons.regs.cpc]
  cases hphase : I.cons.regs.phase with
  | S1 | S2 | S3 | S4 | S5 | DEC | S0 =>
    obtain htask | htask | htask := htask <;>
      simp [CRegs.InPhase, htask, hphase, hidle, hlen, hpop, and_assoc, and_comm, and_left_comm, and_or_left, or_assoc]
  | DONE =>
    cases hresync : I.cons.regs.resync with
    | true | false =>
      obtain htask | htask | htask := htask <;>
        simp [CRegs.InPhase, htask, hphase, hidle, hlen, hpop, hresync, and_assoc, and_left_comm, or_assoc]

theorem onTask_of_codecOk {I : Inst} (h : I.codecOk = true) : I.cons.regs.OnTask I.visible := by
  by_cases hidle : I.cons.regs.cpc.start = .idle
  · exact .idle hidle
  have hcodec (htask : I.cons.regs.task.IsCodec) (hpop : I.cons.regs.cpc.start ≠ .C1) : I.cons.regs.OnTask I.visible := by
    by_cases hlen : I.cons.regs.cpc.start = .L1
    · exact .codecLen htask hlen
    · obtain ⟨hseen, hphase⟩ := (codecOk_iff_inPhase htask hidle hlen hpop).mp h
      exact .codec htask hseen hphase
  simp only [Inst.codecOk, popping_eq_start, peeking_eq_start, measuring_eq_start, idle_eq_start I.cons.regs.cpc,
    clearing_eq_start I.cons.regs.cpc] at h
  cases htask : I.cons.regs.task with
  | pop => exact .pop htask (by simpa [htask, hidle] using h)
  | peek => exact .peek htask (by simpa [htask, hidle] using h)
  | clear => exact .clear htask (by simpa [htask, hidle] using h)
  | len | isFull | isEmpty | space => exact .query (by simp [htask]) (by simpa [htask, hidle] using h)
  | iterNext =>
    obtain hcpc | ⟨hcpc, hi⟩ : I.cons.regs.cpc.start = .L1 ∨
        I.cons.regs.cpc.start = .K1 ∧ I.cons.regs.c_i < I.visible := by
      simpa [htask, hidle] using h
    · exact .iterLen htask hcpc
    · exact .iterPeek htask hcpc hi
  | needsResync => exact hcodec (.inl htask) fun hpop => by simp [htask, hpop] at h
  | decodeNext => exact hcodec (.inr (.inl htask)) fun hpop => by simp [htask, hpop] at h
  | service =>
    by_cases hpop : I.cons.regs.cpc.start = .C1
    · obtain ⟨hpos, hleft⟩ : 1 ≤ I.cons.regs.left ∧ I.cons.regs.left ≤ I.visible := by simpa [htask, hpop] using h
      exact .discard htask hpop hpos hleft
    · exact hcodec (.inr (.inr htask)) hpop

/-- In a phase the codec peeks or computes. -/
theorem CRegs.InPhase.start_eq (h : R.InPhase) : R.cpc.start = .K1 ∨ R.cpc.start = .X := by
  unfold CRegs.InPhase at h
  split at h
  next => exact h.elim
  next => exact .inl h.1
  next => exact .inr h.1
  next => exact .inl h.1
  next => exact .inl h.1
  next => exact .inr h.1
  next => exact .inr h.1
  next => exact h.elim (fun h => .inr h.1) fun h => .inl h.1

theorem codecOk_of_onTask {I : Inst} (h : I.cons.regs.OnTask I.visible) : I.codecOk = true := by
  cases h with
  | codec htask hseen hphase =>
    refine (codecOk_iff_inPhase htask ?_ ?_ ?_).mpr ⟨hseen, hphase⟩ <;>
      exact fun hcpc => by obtain h | h := hphase.start_eq <;> rw [h] at hcpc <;> cases hcpc
  | query htask hcpc =>
    obtain htask | htask | htask | htask := htask <;> simp [Inst.codecOk, measuring_eq_start, htask, hcpc]
  | codecLen htask hcpc => obtain htask | htask | htask := htask <;> simp [Inst.codecOk, measuring_eq_start, htask, hcpc]
  | idle hcpc => simp [Inst.codecOk, idle_eq_start I.cons.regs.cpc, hcpc]
  | pop htask hcpc => simp [Inst.codecOk, popping_eq_start, htask, hcpc]
  | peek htask hcpc => simp [Inst.codecOk, peeking_eq_start, htask, hcpc]
  | clear htask hcpc => simp [Inst.codecOk, clearing_eq_start I.cons.regs.cpc, htask, hcpc]
  | iterLen htask hcpc => simp [Inst.codecOk, measuring_eq_start, htask, hcpc]
  | iterPeek htask hcpc hi => simp [Inst.codecOk, peeking_eq_start, htask, hcpc, hi]
  | discard htask hcpc hpos hleft => simp [Inst.codecOk, popping_eq_start, measuring_eq_start, htask, hcpc, hpos, hleft]

/-- The next step of the same pop, peek or length read, the CONSUMER having seen no less. -/
theorem CRegs.OnTask.next_step (h : R.OnTask v) {v' : Nat} (hv : v ≤ v') {cpc : CPc} (hcpc : cpc.start = R.cpc.start)
    (c_t c_h : Nat) (c_v : Elem) : ({ R with cpc := cpc, c_t := c_t, c_h := c_h, c_v := c_v } : CRegs).OnTask v' := by
  cases h with
  | idle h => exact .idle (hcpc.trans h)
  | pop htask h => exact .pop htask (hcpc.trans h)
  | peek htask h => exact .peek htask (hcpc.trans h)
  | clear htask h => exact .clear htask (hcpc.trans h)
  | query htask h => exact .query htask (hcpc.trans h)
  | iterLen htask h => exact .iterLen htask (hcpc.trans h)
  | iterPeek htask h hi => exact .iterPeek htask (hcpc.trans h) (hi.trans_le hv)
  | codecLen htask h => exact .codecLen htask (hcpc.trans h)
  | discard htask h hpos hleft => exact .discard htask (hcpc.trans h) hpos (hleft.trans hv)
  | codec htask hseen hphase =>
    refine .codec htask (hseen.trans hv) ?_
    simpa only [CRegs.InPhase, CRegs.FrameOk, CRegs.headerOk, hcpc] using hphase

/-! ### Micro-steps of the CONSUMER -/

/-- The codec's invariant of the instance holds in the next state, if any. -/
abbrev Out.CodecOk (id : InstId) (o : Out) : Prop := Out.Ensures id (fun I => I.codecOk = true) o

theorem codecOk_of_idle {I : Inst} (h : consBusy I = false) : I.codecOk = true := by
  have hcpc : I.cons.regs.cpc = .idle := by simpa [consBusy] using h
  exact codecOk_of_onTask (.idle (by rw [hcpc]; rfl))

theorem goC_codecOk (h : R.OnTask (s.inst id).visible) : (goC id R s).CodecOk id := by
  simp only [goC, Out.CodecOk, Out.Ensures, State.inst_setCRegs]
  exact codecOk_of_onTask h

theorem returnWith_codecOk {p : Port} (hrole : p.role = .consumer) (r : Result) (s : State) :
    ((returnWith p r s).inst p.inst).codecOk = true := by
  rw [returnWith_inst_consumer hrole]
  exact codecOk_of_idle rfl

theorem returnC_codecOk (id : InstId) (r : Result) (s : State) : (returnC id r s).CodecOk id :=
  returnWith_codecOk (p := ⟨id, .consumer⟩) rfl r s

theorem raise_codecOk (id : InstId) (e : ErrorClass) (s : State) : Out.CodecOk id (.next (raise ⟨id, .consumer⟩ e s)) :=
  codecOk_of_idle (congrArg consBusy (raise_inst ⟨id, .consumer⟩ e s))

@[simp] theorem handOver_visible (id : InstId) (m : Option Message) (s : State) :
    ((handOver id m s).inst id).visible = (s.inst id).visible := by
  cases m with
  | none => rfl
  | some m => simp [handOver, State.setSink, Inst.visible]

/-- The pops of a `service` are covered by the length seen (R187). -/
theorem decided_codecOk (m : Option Message) {c : Nat} (hc : c ≤ (s.inst id).visible) : (decided id R m c s).CodecOk id := by
  unfold decided
  cases htask : R.task with
  | service =>
    dsimp only
    split
    next => exact returnC_codecOk _ _ _
    next hpos => exact goC_codecOk (.discard rfl rfl (Nat.one_le_iff_ne_zero.mpr hpos) (by simpa using hc))
  | _ => exact returnC_codecOk _ _ _

theorem lenDone_codecOk (id : InstId) (R : CRegs) (s : State) : (lenDone id R (s.inst id).visible s).CodecOk id := by
  by_cases hcodec : R.task.IsCodec
  · rw [lenDone_of_codec hcodec]
    split
    next hn => exact goC_codecOk (.codec hcodec le_rfl ⟨rfl, .inl hn⟩)
    next hn => exact goC_codecOk (.codec hcodec le_rfl ⟨rfl, rfl, Nat.one_le_iff_ne_zero.mpr hn⟩)
  · unfold lenDone
    cases htask : R.task with
    | needsResync => exact absurd (.inl htask) hcodec
    | decodeNext => exact absurd (.inr (.inl htask)) hcodec
    | service => exact absurd (.inr (.inr htask)) hcodec
    | iterNext =>
      dsimp only
      split
      next => exact returnC_codecOk _ _ _
      next k _ =>
        split
        next => exact returnC_codecOk _ _ _
        next hk => exact goC_codecOk (.iterPeek htask rfl (not_le.mp hk))
    | _ => exact returnC_codecOk _ _ _

theorem headerOk_iff : R.headerOk = true ↔
    badLength R.L = false ∧ badCommand R.b1 = false ∧ badFixedLength R.L R.b1 = false := by
  simp [CRegs.headerOk, and_assoc]

theorem four_le_of_legal {L : Byte} (h : badLength L = false) : 4 ≤ L.toNat := (badLength_eq_false.mp h).1

/-- The length byte is peeked (R162). -/
theorem codecByte_S1_codecOk (htask : R.task.IsCodec) (hp : R.phase = .S1) (hseen : R.n ≤ (s.inst id).visible) (hn : 1 ≤ R.n)
    (b : Byte) : (codecByte id R b s).CodecOk id := by
  simp only [codecByte, hp]
  split
  next => exact goC_codecOk (.codec htask hseen ⟨rfl, hn⟩)
  next hlegal => exact goC_codecOk (.codec htask hseen ⟨rfl, hn, Bool.eq_false_iff.mpr hlegal⟩)

/-- Byte 1 is peeked (R164). -/
theorem codecByte_S3_codecOk (htask : R.task.IsCodec) (hp : R.phase = .S3) (hseen : R.n ≤ (s.inst id).visible) (hn : 1 ≤ R.n)
    (hlegal : badLength R.L = false) (hwhole : R.L.toNat ≤ R.n) (b : Byte) : (codecByte id R b s).CodecOk id := by
  have hpos := four_le_of_legal hlegal
  simp only [codecByte, hp]
  split
  next => exact goC_codecOk (.codec htask hseen ⟨rfl, hn⟩)
  next hbad =>
    obtain ⟨hcmd, hfixed⟩ : badCommand b = false ∧ badFixedLength R.L b = false := by simpa using hbad
    refine goC_codecOk (.codec htask hseen ⟨rfl, hn, ⟨headerOk_iff.mpr ⟨hlegal, hcmd, hfixed⟩, hwhole⟩, ?_, ?_⟩)
    · dsimp only [CRegs.peekAt]
      omega
    · exact (Nat.zero_min _).symm

/-- A byte of the frame is peeked for the checksum (R165). -/
theorem codecByte_S4_codecOk (htask : R.task.IsCodec) (hp : R.phase = .S4) (hseen : R.n ≤ (s.inst id).visible) (hn : 1 ≤ R.n)
    (hframe : R.FrameOk) (hi : R.c_i < R.L.toNat) (hci : R.ci = min R.c_i (R.L.toNat - 3)) (b : Byte) :
    (codecByte id R b s).CodecOk id := by
  have hpos := four_le_of_legal (headerOk_iff.mp hframe.1).1
  obtain hlt | hlast | hlow | hhigh : R.c_i + 1 < R.L.toNat - 2 ∨ R.c_i + 1 = R.L.toNat - 2 ∨ R.c_i = R.L.toNat - 2 ∨
      R.c_i = R.L.toNat - 2 + 1 := by omega
  · rw [codecByte_S4_of_lt hp hlt]
    refine goC_codecOk (.codec htask hseen ?_)
    simp only [CRegs.InPhase, CRegs.peekAt, hp]
    exact ⟨rfl, hn, hframe, by omega, by omega⟩
  · rw [codecByte_S4_last hp hlast]
    refine goC_codecOk (.codec htask hseen ?_)
    simp only [CRegs.InPhase, CRegs.peekAt, hp]
    exact ⟨rfl, hn, hframe, by omega, by omega⟩
  · rw [codecByte_S4_low hp hlow]
    refine goC_codecOk (.codec htask hseen ?_)
    simp only [CRegs.InPhase, CRegs.peekAt, hp]
    exact ⟨rfl, hn, hframe, by omega, by omega⟩
  · rw [codecByte_S4_high hp hhigh]
    split
    next => exact goC_codecOk (.codec htask hseen ⟨rfl, hn, hframe⟩)
    next => exact goC_codecOk (.codec htask hseen ⟨rfl, hn⟩)

/-- A payload byte is peeked for the channels (R182). -/
theorem codecByte_DEC_codecOk (htask : R.task.IsCodec) (hp : R.phase = .DEC) (hseen : R.n ≤ (s.inst id).visible)
    (hframe : R.FrameOk) (hcnt : R.cnt = setCount R.L) (hi : R.c_i = 2 + R.ci) (b : Byte) :
    (codecByte id R b s).CodecOk id := by
  rw [codecByte_DEC hp]
  split
  next hlt =>
    refine goC_codecOk (.codec htask hseen ?_)
    simp only [CRegs.InPhase, CRegs.peekAt, hp]
    exact .inr ⟨rfl, hframe, hcnt, by omega, hlt⟩
  next => exact decided_codecOk _ (hframe.2.trans hseen)

/-- A byte read takes the codec to its next peek, to a local step or to its answer. -/
theorem codecByte_codecOk (htask : R.task.IsCodec) (hcpc : R.cpc.start = .K1) (hseen : R.n ≤ (s.inst id).visible)
    (hphase : R.InPhase) (b : Byte) : (codecByte id R b s).CodecOk id := by
  have hX : R.cpc.start ≠ .X := hcpc ▸ nofun
  cases hp : R.phase <;> simp only [CRegs.InPhase, hp] at hphase
  case S1 => exact codecByte_S1_codecOk htask hp hseen hphase.2.2 b
  case S3 =>
    obtain ⟨-, -, hn, hlegal, hwhole⟩ := hphase
    exact codecByte_S3_codecOk htask hp hseen hn hlegal hwhole b
  case S4 =>
    obtain ⟨-, hn, hframe, hi, hci⟩ := hphase
    exact codecByte_S4_codecOk htask hp hseen hn hframe hi hci b
  case DEC =>
    obtain ⟨hcpc, -⟩ | ⟨-, hframe, hcnt, hi, -⟩ := hphase
    · exact absurd hcpc hX
    · exact codecByte_DEC_codecOk htask hp hseen hframe hcnt hi b
  case S2 | S5 | DONE => exact absurd hphase.1 hX

/-- A peek of the codec belongs to a phase. -/
theorem CRegs.OnTask.inPhase_of_peeking (h : R.OnTask v) (hcodec : R.task.IsCodec) (hcpc : R.cpc.start = .K1) :
    R.n ≤ v ∧ R.InPhase := by
  cases h with
  | codec _ hseen hphase => exact ⟨hseen, hphase⟩
  | peek htask _ | iterPeek htask _ _ => simp [CTask.IsCodec, htask] at hcodec
  | idle h | pop _ h | clear _ h | query _ h | iterLen _ h | codecLen _ h | discard _ h _ _ =>
    rw [hcpc] at h
    cases h

/-- Only the codec computes on its registers. -/
theorem CRegs.OnTask.inPhase_of_computing (h : R.OnTask v) (hcpc : R.cpc.start = .X) :
    R.task.IsCodec ∧ R.n ≤ v ∧ R.InPhase := by
  cases h with
  | codec htask hseen hphase => exact ⟨htask, hseen, hphase⟩
  | idle h | pop _ h | peek _ h | clear _ h | query _ h | iterLen _ h | iterPeek _ h _ | codecLen _ h | discard _ h _ _ =>
    rw [hcpc] at h
    cases h

/-- The pops a `service` still has to make are covered by the length seen. -/
theorem CRegs.OnTask.left_le (h : R.OnTask v) (hcpc : R.cpc.start = .C1) (hservice : R.task = .service) : R.left ≤ v := by
  cases h with
  | discard _ _ _ hleft => exact hleft
  | pop htask _ =>
    rw [hservice] at htask
    cases htask
  | codec _ _ hphase => obtain h | h := hphase.start_eq <;> rw [hcpc] at h <;> cases h
  | idle h | peek _ h | clear _ h | query _ h | iterLen _ h | iterPeek _ h _ | codecLen _ h =>
    rw [hcpc] at h
    cases h

/-- A peek is complete. -/
theorem peekDone_codecOk (h : R.OnTask (s.inst id).visible) (hcpc : R.cpc.start = .K1) (e : Elem) :
    (peekDone id R e s).CodecOk id := by
  by_cases hcodec : R.task.IsCodec
  · obtain ⟨hseen, hphase⟩ := h.inPhase_of_peeking hcodec hcpc
    rw [peekDone_of_codec hcodec]
    exact codecByte_codecOk (R := { R with c_v := e }) hcodec hcpc hseen hphase _
  · unfold peekDone
    cases htask : R.task with
    | needsResync => exact absurd (.inl htask) hcodec
    | decodeNext => exact absurd (.inr (.inl htask)) hcodec
    | service => exact absurd (.inr (.inr htask)) hcodec
    | _ => exact returnC_codecOk _ _ _

/-- A pop is complete. -/
theorem popDone_codecOk (e : Option Elem) (hleft : R.task = .service → R.left ≤ (s.inst id).visible + 1) :
    (popDone id R e s).CodecOk id := by
  unfold popDone
  cases htask : R.task with
  | service =>
    have hle := hleft htask
    dsimp only
    split
    next => exact returnC_codecOk _ _ _
    next => exact goC_codecOk (.discard rfl rfl (by dsimp only; omega) (by dsimp only; omega))
  | _ => exact returnC_codecOk _ _ _

/-- The synchroniser's answer is taken to the decoder, or returned (R167, R175). -/
theorem localStep_DONE_codecOk (htask : R.task.IsCodec) (hcpc : R.cpc.start = .X) (hseen : R.n ≤ (s.inst id).visible)
    (hp : R.phase = .DONE)
    (hanswer : if R.resync then 1 ≤ R.n else R.n = 0 ∨ badLength R.L = false ∧ R.n < R.L.toNat ∨ R.FrameOk) :
    (localStep id R s).CodecOk id := by
  obtain hresync | hdecode := htask
  · simp only [localStep, hp, hresync]
    exact returnC_codecOk _ _ _
  rw [localStep_DONE_of_decode hdecode hp]
  split
  next h =>
    rw [if_pos h] at hanswer
    exact decided_codecOk _ (hanswer.trans hseen)
  next h =>
    rw [if_neg h] at hanswer
    refine goC_codecOk (.codec (.inr hdecode) hseen (.inl ⟨hcpc, ?_⟩))
    obtain h0 | ⟨-, hshort⟩ | ⟨hheader, -⟩ := hanswer
    · exact .inl (h0.trans_lt Nat.two_pos)
    · exact .inr (.inl hshort)
    · exact .inr (.inr hheader)

/-- The decoder waits, or decides on the frame, or goes on to its payload (R175, R177). -/
theorem localStep_DEC_codecOk (htask : R.task.IsCodec) (hseen : R.n ≤ (s.inst id).visible) (hp : R.phase = .DEC)
    (hanswer : R.n < 2 ∨ R.n < R.L.toNat ∨ R.headerOk = true) : (localStep id R s).CodecOk id := by
  simp only [localStep, hp]
  split
  next => exact decided_codecOk _ (Nat.zero_le _)
  next hcomplete =>
    obtain ⟨htwo, hwhole⟩ : 1 < R.n ∧ R.L.toNat ≤ R.n := by simpa using hcomplete
    have hheader : R.headerOk = true := by
      obtain h | h | h := hanswer
      · omega
      · omega
      · exact h
    have hfour : Config.minLength ≤ (s.inst id).visible :=
      (four_le_of_legal (headerOk_iff.mp hheader).1).trans (hwhole.trans hseen)
    split_ifs with hdiscover htype hvalue hcount
    · exact decided_codecOk _ hfour
    · exact decided_codecOk _ hfour
    · exact decided_codecOk _ hfour
    · exact decided_codecOk _ (hwhole.trans hseen)
    · refine goC_codecOk (.codec htask hseen ?_)
      exact .inr ⟨rfl, ⟨hheader, hwhole⟩, rfl, rfl, Nat.mul_pos Nat.two_pos (Nat.pos_of_ne_zero hcount)⟩

/-- A computation of the codec on its own registers. -/
theorem localStep_codecOk (h : R.OnTask (s.inst id).visible) (hcpc : R.cpc.start = .X) : (localStep id R s).CodecOk id := by
  obtain ⟨htask, hseen, hphase⟩ := h.inPhase_of_computing hcpc
  have hK : R.cpc.start ≠ .K1 := hcpc ▸ nofun
  cases hp : R.phase <;> simp only [CRegs.InPhase, hp] at hphase
  case S2 =>
    obtain ⟨-, hn, hlegal⟩ := hphase
    simp only [localStep, hp]
    split
    next hlt => exact goC_codecOk (.codec htask hseen ⟨rfl, .inr (.inl ⟨hlegal, hlt⟩)⟩)
    next hwhole => exact goC_codecOk (.codec htask hseen ⟨rfl, rfl, hn, hlegal, not_lt.mp hwhole⟩)
  case S5 =>
    obtain ⟨-, -, hframe⟩ := hphase
    simp only [localStep, hp]
    exact goC_codecOk (.codec htask hseen ⟨rfl, .inr (.inr hframe)⟩)
  case DONE => exact localStep_DONE_codecOk htask hcpc hseen hp hphase.2
  case DEC =>
    obtain ⟨-, hanswer⟩ | ⟨hcpc, -⟩ := hphase
    · exact localStep_DEC_codecOk htask hseen hp hanswer
    · exact absurd hcpc hK
  case S1 | S3 | S4 => exact absurd hphase.1 hK

/-- The CONSUMER has seen one element fewer once it has taken one. -/
theorem visible_tail_inc {I : Inst} (hs : I.StoreOk) (hne : I.headView ≠ I.tail) :
    ({ I with tail := inc I.params.N I.tail } : Inst).visible + 1 = I.visible := by
  obtain ⟨-, ⟨-, ht, hhv, -⟩, -⟩ := hs
  exact forward_inc_left ht hhv hne.symm

/-- One micro-step of the CONSUMER. -/
theorem tickConsumer_codecOk (hinv : (s.inst id).Inv) (h : (s.inst id).codecOk = true) : (tickConsumer id s).CodecOk id := by
  obtain ⟨hs, -, hconsumer⟩ := (s.inst id).inv_iff.mp hinv
  have htask := onTask_of_codecOk h
  have hread : (s.inst id).visible ≤ ((rdHead id s).2.inst id).visible := by
    rw [rdHead_inst]
    exact hs.visible_le_of_headSeen (rdHead_onTheWay id s)
  have hstay {cpc : CPc} (hcpc : cpc.start = (s.inst id).cons.regs.cpc.start) (c_t c_h : Nat) (c_v : Elem) {t : State}
      (ht : (s.inst id).visible ≤ (t.inst id).visible) :
      (goC id { (s.inst id).cons.regs with cpc := cpc, c_t := c_t, c_h := c_h, c_v := c_v } t).CodecOk id :=
    goC_codecOk (htask.next_step ht hcpc c_t c_h c_v)
  dsimp only [tickConsumer]
  cases hcpc : (s.inst id).cons.regs.cpc with
  | idle => exact h
  | C1 | L1 => exact hstay (by rw [hcpc]; rfl) _ _ _ le_rfl
  | C2 | K1 => exact hstay (by rw [hcpc]; rfl) _ _ _ hread
  | C3 =>
    dsimp only
    split
    next =>
      cases (s.inst id).params.popEmptyPolicy with
      | abort => exact raise_codecOk _ _ _
      | noElement => exact popDone_codecOk _ fun hservice => (htask.left_le (by rw [hcpc]; rfl) hservice).trans (Nat.le_succ _)
    next => exact hstay (by rw [hcpc]; rfl) _ _ _ le_rfl
  | C4 =>
    dsimp only
    split
    next v t hr => exact hstay (by rw [hcpc]; rfl) _ _ _ (by rw [memRead_eq_ok hr id])
    next t hr => exact absurd hr (memRead_ne_raised _ _ _ t)
    next => trivial
  | C5 =>
    obtain ⟨⟨ht, hh⟩, hne⟩ := by simpa [Inst.consumerOk, hcpc] using hconsumer
    rw [hh, ht] at hne
    refine popDone_codecOk _ fun hservice => ?_
    rw [inst_publishTail, ht, visible_tail_inc hs hne]
    exact htask.left_le (by rw [hcpc]; rfl) hservice
  | K2 =>
    dsimp only
    split
    next => exact raise_codecOk _ _ _
    next => exact hstay (by rw [hcpc]; rfl) _ _ _ le_rfl
  | K3 =>
    dsimp only
    split
    next v t hr =>
      rw [← memRead_eq_ok hr id] at htask hcpc ⊢
      exact peekDone_codecOk htask (by rw [hcpc]; rfl) v
    next t hr => exact absurd hr (memRead_ne_raised _ _ _ t)
    next => trivial
  | L2 =>
    have ht : (s.inst id).cons.regs.c_t = (s.inst id).tail := by simpa [Inst.consumerOk, hcpc] using hconsumer
    have hlen : lengthOf (s.inst id).params.N (rdHead id s).1 (s.inst id).tail = ((rdHead id s).2.inst id).visible :=
      lenByConsumer_fst id s
    dsimp only
    rw [ht, hlen]
    exact lenDone_codecOk _ _ _
  | CL => exact returnC_codecOk _ _ _
  | X => exact localStep_codecOk htask (by rw [hcpc]; rfl)

/-! ### What an operation of the PRODUCER leaves the CONSUMER -/

/-- What `codecOk` speaks of is as it was. -/
def Inst.SameForCodec (I J : Inst) : Prop :=
  J.params = I.params ∧ J.tail = I.tail ∧ J.headView = I.headView ∧ J.cons = I.cons

theorem Inst.SameForCodec.codecOk {I J : Inst} (h : I.SameForCodec J) (hI : I.codecOk = true) : J.codecOk = true := by
  obtain ⟨hparams, htail, hview, hcons⟩ := h
  refine codecOk_of_onTask ?_
  rw [hcons, Inst.visible, hparams, htail, hview]
  exact onTask_of_codecOk hI

/-- No update of the PRODUCER's concerns the codec. -/
theorem opRules_sameForCodec (I : Inst) :
    OpRules False (fun role J => role = .producer ∧ I.SameForCodec J) I.SameForCodec where
  tailSeen hI _ := hI
  slotWritten hI _ _ := hI
  headPublished hI _ := hI
  headSeen hI := absurd hI.1 nofun
  tailPublished hI := absurd hI.1 nofun
  cleared hI := absurd hI.1 nofun
  iterSet hI := absurd hI.1 nofun
  faultTaken hI _ _ := hI
  prodFree _ _ hI := hI
  consFree _ _ _ hI := absurd hI.1 nofun
  prodDone hI _ := hI.2
  consDone hI := absurd hI.1 nofun

theorem Inst.SameForCodec.refl (I : Inst) : I.SameForCodec I := ⟨rfl, rfl, rfl, rfl⟩

theorem tickProducer_codecOk (h : (s.inst id).codecOk = true) (ht : tickProducer id s = .next t) :
    (t.inst id).codecOk = true := by
  have hsame := ((opRules_sameForCodec (s.inst id)).tickProducer_ensures (.refl _) (fun _ => ⟨rfl, .refl _⟩)
    False.elim).of_eq_next ht
  exact hsame.codecOk h

theorem tick_codecOk {p : Port} (hinv : (s.inst p.inst).Inv) (h : (s.inst p.inst).codecOk = true) (ht : tick p s = .next t) :
    (t.inst p.inst).codecOk = true := by
  unfold tick at ht
  cases hrole : p.role with
  | producer => exact tickProducer_codecOk h (by simpa only [hrole] using ht)
  | consumer => exact (tickConsumer_codecOk hinv h).of_eq_next (by simpa only [hrole] using ht)

/-! ### The start of an operation -/

theorem begin_codecOk_of_producer {i : Instr} (hrole : s.port.role = .producer) (h : s.here.codecOk = true)
    (ht : begin i s = .next t) : (t.inst s.port.inst).codecOk = true := by
  have hsame := ((opRules_sameForCodec s.here).begin_ensures i fun _ _ => ⟨hrole, .refl _⟩).of_eq_next ht
  exact hsame.codecOk h

theorem invoked_codecOk {w : Who} {body : State → Out}
    (hbody : ∀ t, t.port = s.port → permits w s.port = true → (body t).CodecOk s.port.inst) :
    (invoked w s body).CodecOk s.port.inst := by
  unfold invoked
  cases hw : refusalOf w s with
  | some r => trivial
  | none => exact hbody _ (State.setRet_port s _ none) (refusalOf_eq_none.mp hw).2.1

theorem invokedOnBytes_codecOk {w : Who} {body : State → Out}
    (hbody : ∀ t, t.port = s.port → permits w s.port = true → (body t).CodecOk s.port.inst) :
    (invokedOnBytes w s body).CodecOk s.port.inst :=
  invoked_codecOk fun t ht hw => .ite_refused fun _ => hbody t ht hw

/-- An operation of the PRODUCER is refused at the CONSUMER's port. -/
theorem invoked_producer_codecOk (hrole : s.port.role = .consumer) (body : State → Out) :
    (invoked .producer s body).CodecOk s.port.inst :=
  invoked_codecOk fun _ _ hw => absurd ((permits_producer hw).symm.trans hrole) nofun

/-- An operation of the CONSUMER starts at its first access. -/
theorem beginC_codecOk {task : CTask} {cpc : CPc}
    (h : ({ CRegs.idle with task := task, cpc := cpc } : CRegs).OnTask (s.inst id).visible) :
    (beginC id task cpc s).CodecOk id :=
  goC_codecOk h

theorem beginQuery_codecOk (pt : PTask) {ct : CTask} (hrole : s.port.role = .consumer)
    (hct : ct = .len ∨ ct = .isFull ∨ ct = .isEmpty ∨ ct = .space) : (beginQuery pt ct s).CodecOk s.port.inst := by
  refine invoked_codecOk fun t ht _ => ?_
  simp only [ht, hrole]
  exact beginC_codecOk (.query hct rfl)

theorem beginCodec_codecOk {task : CTask} (htask : task.IsCodec) (s : State) :
    (invokedOnBytes .codec s fun t => beginC t.port.inst task .L1 t).CodecOk s.port.inst := by
  refine invokedOnBytes_codecOk fun t ht _ => ?_
  rw [ht]
  exact beginC_codecOk (.codecLen htask rfl)

theorem acceptFrame_codecOk (L b1 : Byte) (payload : List Byte) (r : Message × Nat) (s : State) :
    (acceptFrame L b1 payload r s).CodecOk s.port.inst := by
  refine invokedOnBytes_codecOk fun t ht hw => ?_
  have hidle := frameRun_raisedIdle t.port.inst L b1 (checksumOf (L :: b1 :: payload)) r t
  have hport := Run.ChangesOnly.of_frameRun t.port.inst L b1 (checksumOf (L :: b1 :: payload)) r t
  split
  next u hu =>
    rw [hu] at hport
    rw [← ht, show u.port = t.port from hport.port]
    exact returnWith_codecOk (ht ▸ permits_codec hw) _ _
  next => trivial
  next u hu =>
    rw [hu] at hidle
    rw [← ht]
    exact codecOk_of_idle hidle
  next => trivial

theorem begin_codecOk_of_consumer (i : Instr) (hrole : s.port.role = .consumer) : (begin i s).CodecOk s.port.inst := by
  unfold begin
  cases i with
  | fSet L a payload => exact acceptFrame_codecOk _ _ _ _ s
  | fDiscover a => exact acceptFrame_codecOk _ _ _ _ s
  | fType a => exact acceptFrame_codecOk _ _ _ _ s
  | fValue a => exact acceptFrame_codecOk _ _ _ _ s
  | eDiscoverResp a => exact invoked_producer_codecOk hrole _
  | eTypeResp a k w => exact invoked_producer_codecOk hrole _
  | eValueRespS a v => exact invoked_producer_codecOk hrole _
  | eValueRespL a v => exact invoked_producer_codecOk hrole _
  | push v => exact invoked_producer_codecOk hrole _
  | load vs => exact invoked_producer_codecOk hrole _
  | encode m target => exact invoked_producer_codecOk hrole _
  | len => exact beginQuery_codecOk _ hrole (.inl rfl)
  | isFull => exact beginQuery_codecOk _ hrole (.inr (.inl rfl))
  | isEmpty => exact beginQuery_codecOk _ hrole (.inr (.inr (.inl rfl)))
  | space => exact beginQuery_codecOk _ hrole (.inr (.inr (.inr rfl)))
  | pop => exact invoked_codecOk fun t ht _ => ht ▸ beginC_codecOk (.pop rfl rfl)
  | peek j => exact invoked_codecOk fun t ht _ => .ite_refused fun _ => ht ▸ goC_codecOk (.peek rfl rfl)
  | clear => exact invoked_codecOk fun t ht _ => .ite_refused fun _ => ht ▸ beginC_codecOk (.clear rfl rfl)
  | iterNew => exact invoked_codecOk fun t ht _ => ht ▸ returnWith_codecOk (ht ▸ hrole) _ _
  | iterNext =>
    refine invoked_codecOk fun t ht _ => ?_
    split
    next => trivial
    next => exact ht ▸ beginC_codecOk (.iterLen rfl rfl)
  | checksum bytes => exact invoked_codecOk fun t ht _ => ht ▸ returnWith_codecOk (ht ▸ hrole) _ _
  | needsResync => exact beginCodec_codecOk (.inl rfl) s
  | decodeNext => exact beginCodec_codecOk (.inr (.inl rfl)) s
  | service => exact beginCodec_codecOk (.inr (.inr rfl)) s

theorem begin_codecOk {i : Instr} (h : s.here.codecOk = true) (ht : begin i s = .next t) :
    (t.inst s.port.inst).codecOk = true := by
  cases hrole : s.port.role with
  | producer => exact begin_codecOk_of_producer hrole h ht
  | consumer => exact (begin_codecOk_of_consumer i hrole).of_eq_next ht

/-! ### Whole operations and steps -/

theorem ticks_codecOk {p : Port} {k : Nat} (hinv : (s.inst p.inst).Inv) (h : (s.inst p.inst).codecOk = true)
    (ht : ticks p k s = .next t) : (t.inst p.inst).codecOk = true := by
  induction k generalizing s with
  | zero =>
    cases ht
    exact h
  | succ k ih =>
    rw [ticks] at ht
    cases hu : tick p s with
    | next u => exact ih (inv_of_tick hinv hu) (tick_codecOk hinv h hu) (by simpa only [hu] using ht)
    | fault f => simp [hu] at ht
    | refused r => simp [hu] at ht

/-- Every instruction started and given its micro-steps comes to the whole operation (R128). -/
theorem microSteps_comeTo_operation (i : Instr) (s : State) : (begin i s).ComesTo s.port (exec i s) := by
  by_cases hcodec : i = .needsResync ∨ i = .decodeNext ∨ i = .service
  · exact codecMicroStepsEqualTheOperation i s hcodec
  · exact begin_comesTo_exec i s fun h => absurd h hcodec

theorem exec_codecOk {i : Instr} (hinv : s.here.Inv) (h : s.here.codecOk = true) (ht : exec i s = .next t) :
    (t.inst s.port.inst).codecOk = true := by
  obtain ⟨k, hk⟩ := microSteps_comeTo_operation i s
  have hticks := (hk k le_rfl).trans ht
  cases hb : begin i s with
  | next u =>
    rw [hb] at hticks
    exact ticks_codecOk (inv_of_operation hinv (.inr hb)) (begin_codecOk h hb) hticks
  | fault f => simp [hb, Out.ticks] at hticks
  | refused r => simp [hb, Out.ticks] at hticks

theorem codecInv_iff (s : State) : s.CodecInv ↔ ∀ id, (s.inst id).Inv ∧ (s.inst id).codecOk = true := by
  rw [State.CodecInv, State.inv_iff]
  constructor
  · rintro ⟨hinv, hrx, htx⟩ (_ | _)
    · exact ⟨hinv .rx, hrx⟩
    · exact ⟨hinv .tx, htx⟩
  · exact fun h => ⟨fun id => (h id).1, (h .rx).2, (h .tx).2⟩

/-- Settles O12: a micro-step takes the CONSUMER from a case of `CRegs.OnTask` to a case of it (`tick_codecOk`), a start puts it at
the first step of its operation (`begin_codecOk`), and a whole operation is a start and micro-steps (`exec_codecOk`). -/
theorem everyStepKeepsTheCodecInvariant : Obligations.EveryStepKeepsTheCodecInvariant := by
  intro s t hs h
  refine ⟨everyStepKeepsTheInvariant s t hs.1 h, ?_⟩
  rw [codecInv_iff] at hs
  have hall (id : InstId) : (t.inst id).codecOk = true := by
    obtain ⟨hinv, hok⟩ := hs id
    cases instStep_of_step h id with
    | kept hkept => exact hkept ▸ hok
    | reset q _ hreset =>
      rw [hreset]
      rfl
    | operated i s1 hop hport hhere =>
      rw [← hhere] at hinv hok
      rw [← hport]
      exact hop.elim (exec_codecOk hinv hok) (begin_codecOk hok)
    | ticked p s1 htick hport hinst =>
      subst hport
      rw [← hinst] at hinv hok
      exact tick_codecOk hinv hok htick
  exact ⟨hall .rx, hall .tx⟩

end Sys2Proof.Machine

/-! ## needsResync on the bytes at the front -/

namespace Sys2Proof.Machine

variable {id : InstId} {s : State} {front : List Byte} {L : Byte}

/-! ### The case table -/

/-- The trailing bytes agree with the accumulator where they are it, little-endian (R90, R153). -/
theorem trailerMatches_iff (acc : Half) (lo hi : Byte) :
    trailerMatches acc lo hi = true ↔ acc.toNat = lo.toNat + 256 * hi.toNat := by
  have hlo : (lo8 acc).toNat = acc.toNat % 256 := by rw [lo8, BitVec.toNat_setWidth]
  have hbound := lo.isLt
  rw [trailerMatches, Bool.and_eq_true, beq_iff_eq, beq_iff_eq, ← BitVec.toNat_inj, ← BitVec.toNat_inj, hlo, toNat_hi8]
  omega

/-- A frame has few enough bytes that its checksum does not wrap (R154). -/
theorem toNat_checksumOf_frame (hL : L.toNat ≤ 32) (front : List Byte) :
    (checksumOf (front.take (L.toNat - 2))).toNat = 0xFFFF - ((front.take (L.toNat - 2)).map BitVec.toNat).sum := by
  have hsum := sum_toNat_le (front.take (L.toNat - 2))
  have hlen : (front.take (L.toNat - 2)).length ≤ L.toNat - 2 := List.length_take_le _ _
  exact toNat_checksumOf_of_sum_le (by omega)

/-- The last row of the table: the two bytes after those summed up are their checksum. -/
theorem trailerOk_take_iff (hL : badLength L = false) (hlen : L.toNat ≤ front.length) :
    trailerOk (front.take L.toNat) = true ↔
      0xFFFF - ((front.take (L.toNat - 2)).map BitVec.toNat).sum =
        (front.getD (L.toNat - 2) 0).toNat + 256 * (front.getD (L.toNat - 1) 0).toNat := by
  obtain ⟨hmin, hmax⟩ := badLength_eq_false.mp hL
  obtain ⟨n, hn⟩ : ∃ n, L.toNat = n + 2 := ⟨L.toNat - 2, by omega⟩
  have hsum := toNat_checksumOf_frame hmax front
  rw [hn] at hlen hsum ⊢
  have hlow : front.getD n 0 = front[n] := List.getD_eq_getElem _ _ (by omega)
  have hhigh : front.getD (n + 1) 0 = front[n + 1] := List.getD_eq_getElem _ _ (by omega)
  rw [trailerOk_take hlen, trailerMatches_iff, ← hlow, ← hhigh]
  rw [Nat.add_sub_cancel] at hsum ⊢
  rw [hsum, show n + 2 - 1 = n + 1 from rfl]

theorem badLength_eq_true : badLength L = true ↔ L.toNat < 4 ∨ 32 < L.toNat := by
  rw [← Bool.not_eq_false, badLength_eq_false]
  omega

theorem badCommand_eq_true {b1 : Byte} : badCommand b1 = true ↔
    b1 &&& 0xF0 ≠ 0x40 ∧ b1 &&& 0xF0 ≠ 0x80 ∧ b1 &&& 0xF0 ≠ 0x90 ∧ b1 &&& 0xF0 ≠ 0xA0 := by
  simp only [badCommand, Bool.and_eq_true, bne_iff_ne, and_assoc]
  rfl

theorem badFixedLength_eq_true {b1 : Byte} : badFixedLength L b1 = true ↔ b1 &&& 0xF0 ≠ 0x40 ∧ L.toNat ≠ 4 := by
  simp only [badFixedLength, Bool.and_eq_true, bne_iff_ne]
  rfl

/-- The table of R168 is the answer to the row the front is in. -/
theorem resyncTable_eq (front : List Byte) : resyncTable front = (frontVerdict front).resync := by
  match front with
  | [] => rfl
  | L :: more =>
    simp only [resyncTable, frontVerdict, List.length_cons, Nat.succ_ne_zero, if_false, List.getD_cons_zero,
      ← badLength_eq_true]
    by_cases hL : badLength L = true
    · simp only [hL, if_true, Verdict.resync]
    by_cases hlen : more.length + 1 < L.toNat
    · simp only [hL, hlen, if_true, if_false, Verdict.resync, Bool.false_eq_true]
    simp only [hL, hlen, if_false, Bool.false_eq_true]
    have hlegal := Bool.eq_false_iff.mpr hL
    cases more with
    | nil =>
      have := badLength_eq_false.mp hlegal
      simp only [List.length_nil] at hlen
      omega
    | cons b1 more =>
      have htrailer := trailerOk_take_iff (front := L :: b1 :: more) hlegal (not_lt.mp hlen)
      simp only [List.getD_cons_succ, List.getD_cons_zero, ← badCommand_eq_true, ← badFixedLength_eq_true]
      split_ifs with hcmd hfixed hck
      · rfl
      · rfl
      · exact decide_eq_false (not_not.mpr (htrailer.mp hck))
      · exact decide_eq_true fun h => hck (htrailer.mpr h)

/-! ### The whole operation -/

/-- Of the instance nothing but the CONSUMER's view of `head` differs. -/
def Inst.ViewOnly (I J : Inst) : Prop := ∃ v, J = { I with headView := v }

/-- A part of an operation that ends with a value has changed, of the instance `I`, the CONSUMER's view alone (R57). -/
abbrev Run.ViewOnly {α : Type} (id : InstId) (I : Inst) (r : Run α) : Prop := r.Ensures id I.ViewOnly fun _ => True

variable {I : Inst}

theorem rdHead_viewOnly (h : I.ViewOnly (s.inst id)) : I.ViewOnly ((rdHead id s).2.inst id) := by
  obtain ⟨v, hv⟩ := h
  rw [rdHead_inst, hv]
  exact ⟨_, rfl⟩

theorem peekByte_viewOnly (h : I.ViewOnly (s.inst id)) (j : Nat) : (peekByte id j s).ViewOnly id I := by
  refine Run.Ensures.then_ok ?_ _
  obtain ⟨-, hr⟩ | ⟨-, hr⟩ := peekRun_cases id j s <;> rw [hr]
  · trivial
  · exact OpRules.memRead_ensures (rdHead_viewOnly h)

theorem sumPeeks_viewOnly (h : I.ViewOnly (s.inst id)) (m j : Nat) (acc : Half) : (sumPeeks id m j acc s).ViewOnly id I := by
  induction m generalizing j acc s with
  | zero => exact h
  | succ m ih => exact (peekByte_viewOnly h j).bind fun _ _ ht => ih ht _ _

theorem checkTrailer_viewOnly (h : I.ViewOnly (s.inst id)) (L : Byte) : (checkTrailer id L s).ViewOnly id I :=
  (sumPeeks_viewOnly h _ _ _).bind fun _ _ h1 => (peekByte_viewOnly h1 _).bind fun _ _ h2 => (peekByte_viewOnly h2 _).then_ok _

theorem judgeFrame_viewOnly (h : I.ViewOnly (s.inst id)) (L : Byte) : (judgeFrame id L s).ViewOnly id I := by
  refine (peekByte_viewOnly h 1).bind fun b1 s1 h1 => ?_
  split
  · exact h1
  split
  · exact h1
  · refine (checkTrailer_viewOnly h1 L).bind fun ck s2 h2 => ?_
    cases ck with
    | none => exact h2
    | some acc => exact h2

theorem syncRun_viewOnly (h : I.ViewOnly (s.inst id)) (n : Nat) : (syncRun id n s).ViewOnly id I := by
  unfold syncRun
  split
  · exact h
  refine (peekByte_viewOnly h 0).bind fun L s1 h1 => ?_
  split
  · exact h1
  split
  · exact h1
  · exact judgeFrame_viewOnly h1 L

/-- The synchroniser on a fresh length snapshot. -/
theorem snapshot_syncRun_viewOnly (id : InstId) (s : State) :
    (syncRun id (lenByConsumer id s).1 (lenByConsumer id s).2).ViewOnly id (s.inst id) :=
  syncRun_viewOnly (rdHead_viewOnly ⟨(s.inst id).headView, rfl⟩) _

/-- A whole `needsResync` returns the bit of the table; before it returns, the view of `head` alone has changed. -/
theorem exec_needsResync_admitted (hinv : s.Inv) (hadm : Admitted .codec s) (hbytes : OnBytes s)
    (ho : s.here.params.orderedHandoff = true) :
    ∃ t v, exec .needsResync s =
        .next (returnWith s.port (.bit (resyncTable (s.here.frontBytes (lenByConsumer s.port.inst s).1))) t) ∧
      t.inst s.port.inst = { s.here with headView := v, cons := { s.here.cons with ret := none } } := by
  have hrole := permits_codec (refusalOf_eq_none.mp hadm).2.1
  obtain ⟨t, hsync, -⟩ := snapshot_syncRun hinv ho
  have hview := snapshot_syncRun_viewOnly s.port.inst (s.setRet s.port none)
  rw [hsync] at hview
  obtain ⟨v, hv⟩ := hview
  have hrun : resyncRun s.port.inst (s.setRet s.port none) =
      .ok (resyncTable (s.here.frontBytes (lenByConsumer s.port.inst s).1)) t := by
    rw [resyncRun, hsync, Run.bind_ok, resyncTable_eq]
  refine ⟨t, v, ?_, ?_⟩
  · rw [exec, execNeedsResync, invokedOnBytes_admitted hadm hbytes, State.setRet_port,
      finish_of_ok hrun (Run.ChangesOnly.of_resyncRun _ _), State.setRet_port]
  · rw [hv, inst_setRet_consumer hrole]
    rfl

/-- Settles O47: the synchroniser's verdict is the row of the table the front is in (`resyncTable_eq`), and its peeks change the
view alone (`syncRun_viewOnly`). -/
theorem needsResyncAnswersTheCaseTable : Obligations.NeedsResyncAnswersTheCaseTable := by
  intro s hinv hadm hbytes ho
  have hrole := permits_codec (refusalOf_eq_none.mp hadm).2.1
  obtain ⟨t, v, hexec, hinst⟩ := exec_needsResync_admitted hinv hadm hbytes ho
  refine ⟨_, hexec, result_returnWith _ _ _, sameElsewhere_of_exec hexec, ?_⟩
  rw [here_of_exec hexec, returnWith_inst_consumer hrole, hinst]
  exact ⟨⟨rfl, rfl, rfl, rfl, rfl⟩, ⟨rfl, rfl, rfl, rfl, rfl, rfl⟩, rfl⟩

end Sys2Proof.Machine

/-! ## What the decoder decides on, whatever it reads

The peeks of the codec are the only accesses it makes. `PeeksYield` says what one peek below a length does to the instance; the lemmas
after it follow the synchroniser and the decoder once, with the limits their answers keep (`Verdict.Fits`, `Decides`). -/

namespace Sys2Proof.Machine

variable {id : InstId} {s : State} {n : Nat} {L b1 : Byte} {K F : Inst → Prop}

/-! ### Judged headers and what is delivered for them -/

/-- Length, command and fixed length of a frame are good (R94, R95, R96). -/
structure LegalHeader (L b1 : Byte) : Prop where
  length  : badLength L = false
  command : badCommand b1 = false
  fixed   : badFixedLength L b1 = false

/-- A message is a request, of a frame of 4 bytes, or the channels of a SET frame (R178 to R182). -/
theorem LegalHeader.delivered_cases (h : LegalHeader L b1) (payload : List Byte) :
    (L.toNat = 4 ∧ (delivered L b1 payload = discoverResult (addressOf b1) ∨ delivered L b1 payload = typeResult (addressOf b1) ∨
      delivered L b1 payload = valueResult (addressOf b1))) ∨
    delivered L b1 payload = setResult L payload := by
  have hfour (hset : commandOf b1 ≠ Config.cmdSet) : L.toNat = 4 := by
    simpa [badFixedLength, hset, Config.minLength] using h.fixed
  obtain hc | hc | hc | hc := badCommand_eq_false.mp h.command
  · exact .inl ⟨hfour (by rw [hc]; decide), .inl (by rw [delivered, hc]; rfl)⟩
  · exact .inl ⟨hfour (by rw [hc]; decide), .inr (.inl (by rw [delivered, hc]; rfl))⟩
  · exact .inl ⟨hfour (by rw [hc]; decide), .inr (.inr (by rw [delivered, hc]; rfl))⟩
  · exact .inr (by rw [delivered, hc]; rfl)

/-- The bytes to discard are those of the frame (R184). -/
theorem LegalHeader.delivered_snd (h : LegalHeader L b1) (payload : List Byte) : (delivered L b1 payload).2 = L.toNat := by
  obtain ⟨hfour, hm | hm | hm⟩ | hm := h.delivered_cases payload <;> rw [hm]
  · exact hfour.symm
  · exact hfour.symm
  · exact hfour.symm
  · rfl

/-- A verdict on a front of which `n` bytes have been seen. -/
def Verdict.Fits (n : Nat) : Verdict → Prop
  | .empty => True
  | .malformed _ => 1 ≤ n
  | .incomplete _ => True
  | .good L b1 _ => LegalHeader L b1 ∧ L.toNat ≤ n

/-- The pairs `decodeNext` can answer on a front of which `n` bytes have been seen (R185). -/
inductive Decides (n : Nat) : Option Message × Nat → Prop where
  | wait : Decides n (none, 0)
  | resync (hn : 1 ≤ n) : Decides n (none, 1)
  | message {L b1 : Byte} (payload : List Byte) (h : LegalHeader L b1) (hlen : L.toNat ≤ n) :
      Decides n (some (delivered L b1 payload).1, (delivered L b1 payload).2)

/-- No more is to be discarded than was seen. -/
theorem Decides.consumed_le {r : Option Message × Nat} (h : Decides n r) : r.2 ≤ n := by
  cases h with
  | wait => exact Nat.zero_le n
  | resync hn => exact hn
  | message payload h hlen => exact (h.delivered_snd payload).trans_le hlen

/-! ### The codec's parts -/

/-- A part of a codec operation answers a `good` value and leaves the instance as `K`, or it faults and leaves it as `F`. -/
def Run.Yields {α : Type} (id : InstId) (K F : Inst → Prop) (good : α → Prop) : Run α → Prop
  | .ok a t => good a ∧ K (t.inst id)
  | .raised t => F (t.inst id)
  | .stop _ => True

theorem Run.Yields.bind {α β : Type} {good : α → Prop} {good' : β → Prop} {r : Run α} {f : α → State → Run β}
    (hr : r.Yields id K F good) (hf : ∀ a t, good a → K (t.inst id) → (f a t).Yields id K F good') :
    (r.bind f).Yields id K F good' := by
  cases r with
  | ok a t => exact hf a t hr.1 hr.2
  | raised t => exact hr
  | stop f => trivial

/-- Every peek of a byte below `n`, made where the instance is as `K`. -/
def PeeksYield (id : InstId) (n : Nat) (K F : Inst → Prop) : Prop :=
  ∀ (j : Nat) (s : State), j < n → K (s.inst id) → (peekByte id j s).Yields id K F fun _ => True

namespace PeeksYield

theorem sumPeeks (h : PeeksYield id n K F) (m j : Nat) (acc : Half) (hm : j + m ≤ n) (hs : K (s.inst id)) :
    (sumPeeks id m j acc s).Yields id K F fun _ => True := by
  induction m generalizing j acc s with
  | zero => exact ⟨trivial, hs⟩
  | succ m ih => exact (h j s (by omega) hs).bind fun _ _ _ ht => ih (j + 1) _ (by omega) ht

theorem peekBytes (h : PeeksYield id n K F) (m j : Nat) (hm : j + m ≤ n) (hs : K (s.inst id)) :
    (peekBytes id m j s).Yields id K F fun _ => True := by
  induction m generalizing j s with
  | zero => exact ⟨trivial, hs⟩
  | succ m ih =>
    exact (h j s (by omega) hs).bind fun _ _ _ ht => (ih (j + 1) (by omega) ht).bind fun _ _ _ hu => ⟨trivial, hu⟩

theorem checkTrailer (h : PeeksYield id n K F) (hL : badLength L = false) (hlen : L.toNat ≤ n) (hs : K (s.inst id)) :
    (checkTrailer id L s).Yields id K F fun _ => True := by
  obtain ⟨hmin, -⟩ := badLength_eq_false.mp hL
  exact (h.sumPeeks _ _ _ (by omega) hs).bind fun _ _ _ h1 => (h _ _ (by omega) h1).bind fun _ _ _ h2 =>
    (h _ _ (by omega) h2).bind fun _ _ _ h3 => ⟨trivial, h3⟩

theorem judgeFrame (h : PeeksYield id n K F) (hL : badLength L = false) (hlen : L.toNat ≤ n) (hs : K (s.inst id)) :
    (judgeFrame id L s).Yields id K F (Verdict.Fits n) := by
  obtain ⟨hmin, -⟩ := badLength_eq_false.mp hL
  have hn : 1 ≤ n := by omega
  refine (h 1 s (by omega) hs).bind fun b1 s1 _ h1 => ?_
  split
  next => exact ⟨hn, h1⟩
  next hcommand =>
    split
    next => exact ⟨hn, h1⟩
    next hfixed =>
      refine (h.checkTrailer hL hlen h1).bind fun ck s2 _ h2 => ?_
      cases ck with
      | none => exact ⟨hn, h2⟩
      | some acc => exact ⟨⟨⟨hL, Bool.eq_false_iff.mpr hcommand, Bool.eq_false_iff.mpr hfixed⟩, hlen⟩, h2⟩

theorem syncRun (h : PeeksYield id n K F) (hs : K (s.inst id)) : (syncRun id n s).Yields id K F (Verdict.Fits n) := by
  unfold Machine.syncRun
  split
  next => exact ⟨trivial, hs⟩
  next hn =>
    refine (h 0 s (by omega) hs).bind fun L s1 _ h1 => ?_
    split
    next => exact ⟨Nat.one_le_iff_ne_zero.mpr hn, h1⟩
    next hL =>
      split
      next => exact ⟨trivial, h1⟩
      next hlen => exact h.judgeFrame (Bool.eq_false_iff.mpr hL) (not_lt.mp hlen) h1

/-- What is delivered is fixed by the header and some payload. -/
theorem acceptRun (h : PeeksYield id n K F) (hL : badLength L = false) (hlen : L.toNat ≤ n) (b1 : Byte) (hs : K (s.inst id)) :
    (acceptRun id L b1 s).Yields id K F fun r => ∃ payload, r = delivered L b1 payload := by
  obtain ⟨hmin, -⟩ := badLength_eq_false.mp hL
  have hcount := two_mul_setCount_le L
  unfold Machine.acceptRun delivered
  split_ifs
  · exact ⟨⟨[], rfl⟩, hs⟩
  · exact ⟨⟨[], rfl⟩, hs⟩
  · exact ⟨⟨[], rfl⟩, hs⟩
  · exact (h.peekBytes _ 2 (by omega) hs).bind fun payload _ _ ht => ⟨⟨payload, rfl⟩, ht⟩

theorem decodeRun (h : PeeksYield id (lenByConsumer id s).1 K F) (hs : K ((rdHead id s).2.inst id)) :
    (decodeRun id s).Yields id K F (Decides (lenByConsumer id s).1) := by
  refine (h.syncRun hs).bind fun v t hv ht => ?_
  cases v with
  | empty => exact ⟨.wait, ht⟩
  | malformed _ => exact ⟨.resync hv, ht⟩
  | incomplete _ => exact ⟨.wait, ht⟩
  | good L b1 _ =>
    obtain ⟨hheader, hlen⟩ := hv
    refine (h.acceptRun hheader.length hlen b1 ht).bind fun r u hr hu => ?_
    obtain ⟨payload, rfl⟩ := hr
    exact ⟨.message payload hheader hlen, hu⟩

end PeeksYield

/-! ### In every state -/

theorem raise_fault_ne_zero (p : Port) {e : ErrorClass} (he : e.Stored) (s : State) :
    ((raise p e s).inst p.inst).fault ≠ 0 := by
  have hcode : errorCode e ≠ 0 := by obtain he | he | he := he <;> rw [he] <;> decide
  have hfault : ((raise p e s).inst p.inst).fault =
      if (s.inst p.inst).fault = 0 then errorCode e else (s.inst p.inst).fault := by
    rw [raise_inst]
    cases p.role <;> rfl
  rw [hfault]
  split
  next => exact hcode
  next h0 => exact h0

/-- A peek that faults records it (R121, R224). -/
theorem peeksYield_fault (id : InstId) (n : Nat) : PeeksYield id n (fun _ => True) fun I => I.fault ≠ 0 := by
  intro j s _ _
  have hpeek : (peekRun id j s).Yields id (fun _ => True) (fun I => I.fault ≠ 0) fun _ => True := by
    obtain ⟨-, hr⟩ | ⟨-, hr⟩ := peekRun_cases id j s <;> rw [hr]
    · exact raise_fault_ne_zero ⟨id, .consumer⟩ (.inr (.inl rfl)) _
    · cases hread : memRead id (slotIndex (s.inst id).params.N (s.inst id).tail j) (rdHead id s).2 with
      | ok v t => exact ⟨trivial, trivial⟩
      | raised t => exact absurd hread (memRead_ne_raised _ _ _ t)
      | stop f => trivial
  exact hpeek.bind fun _ _ _ _ => ⟨trivial, trivial⟩

/-- A `decodeNext` that returns has decided on its pair. -/
theorem decides_of_exec_decodeNext {t : State} (h : exec .decodeNext s = .next t) (hfault : t.here.fault = 0) :
    ∃ n r, Decides n r ∧ t.result s.port = some (decodedResult r) := by
  have hhere := here_of_exec h
  rw [exec, execDecodeNext, invokedOnBytes_eq_next, State.setRet_port] at h
  obtain ⟨-, -, h⟩ := h
  have hyields := (peeksYield_fault s.port.inst _).decodeRun (s := s.setRet s.port none) trivial
  obtain ⟨r, u, hr, rfl⟩ | hr := finish_eq_next.mp h <;> rw [hr] at hyields
  · have hport := Run.ChangesOnly.of_decodeRun s.port.inst (s.setRet s.port none)
    rw [hr] at hport
    refine ⟨_, r, hyields.1, ?_⟩
    rw [hport.port, State.setRet_port, result_returnWith]
  · rw [hhere] at hfault
    exact absurd hfault hyields

/-! ### The channels of a SET frame -/

theorem length_le16s_le (bytes : List Byte) : 2 * (le16s bytes).length ≤ bytes.length := by
  induction bytes using le16s.induct with
  | case1 lo hi rest ih =>
    simp only [le16s, List.length_cons]
    omega
  | case2 bytes h => simp [le16s]

theorem length_vals_le (L : Byte) (payload : List Byte) : (le16s (payload.take (2 * setCount L))).length ≤ setCount L := by
  have hvals := length_le16s_le (payload.take (2 * setCount L))
  have htake := List.length_take_le (2 * setCount L) payload
  omega

/-- `SetMsg` has 14 channels (R181). -/
@[simp] theorem length_setChannels (L : Byte) (payload : List Byte) : (setChannels L payload).length = Config.nchan := by
  have hvals := length_vals_le L payload
  have hcount : setCount L ≤ Config.nchan := Nat.min_le_right _ _
  simp only [setChannels, List.length_append, List.length_replicate]
  omega

/-- Channels beyond the count of the frame are 0 (R181). -/
theorem setChannels_getD_of_le {k : Nat} (hk : L.toNat / 2 - 2 ≤ k) (payload : List Byte) :
    (setChannels L payload).getD k 0 = 0 := by
  have hvals := length_vals_le L payload
  have hcount : setCount L ≤ k := (Nat.min_le_left _ _).trans hk
  rw [setChannels, List.getD_append_right _ _ _ _ (hvals.trans hcount), List.getD_eq_getElem?_getD,
    List.getElem?_getD_replicate_default_eq]

/-- Settles O51: in every state the pair is one `Decides` lists (`PeeksYield.decodeRun`), since a peek that faults records it
(`peeksYield_fault`). -/
theorem decodeNextReturnsOnlyTheseResults : Obligations.DecodeNextReturnsOnlyTheseResults := by
  intro s t h hfault
  obtain ⟨n, r, hr, hresult⟩ := decides_of_exec_decodeNext h hfault
  rw [hresult]
  cases hr with
  | wait => exact .inl rfl
  | resync _ => exact .inr (.inl rfl)
  | @message L b1 payload hheader _ =>
    obtain ⟨-, hm | hm | hm⟩ | hm := hheader.delivered_cases payload <;> rw [hm]
    · exact .inr (.inr (.inl ⟨_, .inl rfl⟩))
    · exact .inr (.inr (.inl ⟨_, .inr (.inl rfl)⟩))
    · exact .inr (.inr (.inl ⟨_, .inr (.inr rfl)⟩))
    · obtain ⟨hmin, hmax⟩ := badLength_eq_false.mp hheader.length
      exact .inr (.inr (.inr ⟨_, _, rfl, hmin, hmax, length_setChannels L payload, fun k hk => setChannels_getD_of_le hk payload⟩))

end Sys2Proof.Machine

/-! ## decodeNext on the bytes at the front -/

namespace Sys2Proof.Machine

variable {id : InstId} {s : State} {n : Nat} {front rest payload : List Byte} {L b1 : Byte} {I J : Inst}

/-! ### Where the invariant holds it completes -/

/-- From `I` to `J` nothing but the CONSUMER's view of `head` has changed, and `n` elements have been seen. -/
structure Inst.SeenFrom (I : Inst) (n : Nat) (J : Inst) : Prop where
  view  : I.ViewOnly J
  store : J.StoreOk
  seen  : n ≤ J.visible

/-- A read of `head` shows the CONSUMER no less (R62). -/
theorem visible_le_rdHead (hs : (s.inst id).StoreOk) : (s.inst id).visible ≤ ((rdHead id s).2.inst id).visible := by
  rw [rdHead_inst]
  exact hs.visible_le_of_headSeen (rdHead_onTheWay id s)

theorem Inst.SeenFrom.rdHead (h : I.SeenFrom n (s.inst id)) : I.SeenFrom n ((rdHead id s).2.inst id) :=
  ⟨rdHead_viewOnly h.view, storeOk_rdHead h.store, h.seen.trans (visible_le_rdHead h.store)⟩

/-- A peek below what was seen answers, whatever the handoff. -/
theorem peeksYield_seen (id : InstId) (n : Nat) (I : Inst) : PeeksYield id n (I.SeenFrom n) fun _ => False := by
  intro j s hj hs
  have hlen : j < (lenByConsumer id s).1 := by
    rw [lenByConsumer_fst]
    exact hj.trans_le hs.rdHead.seen
  obtain ⟨v, t, hr, hinst, -⟩ := peekRun_of_lt hs.store hlen
  rw [← rdHead_inst] at hinst
  rw [peekByte, hr, Run.bind_ok]
  exact ⟨trivial, hinst ▸ hs.rdHead⟩

theorem decodeRun_completes (hs : (s.inst id).StoreOk) :
    ∃ r t, decodeRun id s = .ok r t ∧ Decides (lenByConsumer id s).1 r ∧
      (s.inst id).SeenFrom (lenByConsumer id s).1 (t.inst id) := by
  have hread : (s.inst id).SeenFrom (lenByConsumer id s).1 ((rdHead id s).2.inst id) :=
    ⟨rdHead_viewOnly ⟨_, rfl⟩, storeOk_rdHead hs, (lenByConsumer_fst id s).le⟩
  have hyields := (peeksYield_seen id _ (s.inst id)).decodeRun hread
  have hsafe := decodeRun_safe hs
  cases hr : decodeRun id s with
  | ok r t =>
    rw [hr] at hyields
    exact ⟨r, t, rfl, hyields⟩
  | raised t =>
    rw [hr] at hyields
    exact hyields.elim
  | stop f =>
    rw [hr] at hsafe
    exact hsafe.elim

/-- A whole `decodeNext`, and the part of it that `service` shares. -/
theorem exec_decodeNext_completes (hinv : s.Inv) (hadm : Admitted .codec s) (hbytes : OnBytes s) :
    ∃ r u, decodeRun s.port.inst (s.setRet s.port none) = .ok r u ∧ Decides (lenByConsumer s.port.inst s).1 r ∧
      Inst.SeenFrom { s.here with cons := { s.here.cons with ret := none } } (lenByConsumer s.port.inst s).1
        (u.inst s.port.inst) ∧
      exec .decodeNext s = .next (returnWith s.port (decodedResult r) u) := by
  have hrole := permits_codec (refusalOf_eq_none.mp hadm).2.1
  obtain ⟨r, u, hr, hdecides, hseen⟩ := decodeRun_completes (storeOk_setRet (storeOk_of_inv hinv s.port.inst) none)
  rw [lenByConsumer_setRet] at hdecides hseen
  rw [inst_setRet_consumer hrole] at hseen
  refine ⟨r, u, hr, hdecides, hseen, ?_⟩
  rw [exec, execDecodeNext, invokedOnBytes_admitted hadm hbytes, State.setRet_port,
    finish_of_ok hr (Run.ChangesOnly.of_decodeRun _ _), State.setRet_port]

/-! ### Under ordered handoff it answers for the front -/

/-- The answer of `decodeNext` to the bytes at the front (R175 to R177). -/
def frontDecision (front : List Byte) : Option Message × Nat :=
  match frontVerdict front with
  | .malformed _ => (none, 1)
  | .empty => (none, 0)
  | .incomplete _ => (none, 0)
  | .good L b1 _ =>
    let r := delivered L b1 (payloadOf (front.take L.toNat))
    (some r.1, r.2)

/-- A front judged good is a whole frame with its checksum. -/
theorem frame_of_frontVerdict_good {acc : Half} (h : frontVerdict front = .good L b1 acc) :
    FrameAtFront L b1 (payloadOf (front.take L.toNat)) front (front.drop L.toNat) ∧ LegalHeader L b1 := by
  match front with
  | [] => cases h
  | [_] =>
    simp only [frontVerdict] at h
    split_ifs at h
  | L' :: b1' :: more =>
    simp only [frontVerdict] at h
    split_ifs at h with hL hlen hcmd hfixed hck
    obtain ⟨rfl, rfl, -⟩ := Verdict.good.inj h
    have hlegal := Bool.eq_false_iff.mpr hL
    exact ⟨.of_trailerOk hlegal (not_lt.mp hlen) hck,
      ⟨hlegal, Bool.eq_false_iff.mpr hcmd, Bool.eq_false_iff.mpr hfixed⟩⟩

/-- A front judged incomplete is shorter than its first byte says. -/
theorem length_lt_of_frontVerdict_incomplete (h : frontVerdict front = .incomplete L) :
    front.length < (front.getD 0 0).toNat := by
  match front with
  | [] => cases h
  | [L'] =>
    simp only [frontVerdict] at h
    split_ifs at h with hL hlen
    · exact hlen
    · obtain ⟨hmin, -⟩ := badLength_eq_false.mp (Bool.eq_false_iff.mpr hL)
      simp only [List.length_singleton, List.getD_cons_zero]
      omega
  | L' :: b1' :: more =>
    simp only [frontVerdict] at h
    split_ifs at h with hL hlen
    exact hlen

theorem eq_nil_of_frontVerdict_empty (h : frontVerdict front = .empty) : front = [] := by
  match front with
  | [] => rfl
  | [_] =>
    simp only [frontVerdict] at h
    split_ifs at h
  | _ :: _ :: _ =>
    simp only [frontVerdict] at h
    split_ifs at h

/-- What a frame at the front delivers. -/
theorem frontDecision_of_frame (h : FrameAtFront L b1 payload front rest) (hheader : LegalHeader L b1) :
    frontDecision front = (some (delivered L b1 payload).1, (delivered L b1 payload).2) := by
  obtain ⟨-, -, -, htake, -⟩ := h.parts
  simp only [frontDecision, frontVerdict_of_frame h hheader.command hheader.fixed, htake, payloadOf_withTrailer]

theorem decodeRun_frontDecision (hinv : s.Inv) (ho : s.here.params.orderedHandoff = true) :
    ∃ t, decodeRun s.port.inst (s.setRet s.port none) =
      .ok (frontDecision (s.here.frontBytes (lenByConsumer s.port.inst s).1)) t := by
  obtain ⟨t, hsync, ht⟩ := snapshot_syncRun hinv ho
  rw [decodeRun, hsync, Run.bind_ok, frontDecision]
  cases hv : frontVerdict (s.here.frontBytes (lenByConsumer s.port.inst s).1) with
  | empty => exact ⟨t, rfl⟩
  | malformed _ => exact ⟨t, rfl⟩
  | incomplete _ => exact ⟨t, rfl⟩
  | good L b1 _ =>
    obtain ⟨u, haccept, -⟩ := ht.acceptRun (frame_of_frontVerdict_good hv).1
    refine ⟨u, ?_⟩
    dsimp only
    rw [haccept, Run.bind_ok]

/-- A whole `decodeNext` answers for the front, and of its instance nothing but the view of `head` and the CONSUMER's registers and
result port changes. -/
theorem exec_decodeNext_front (hinv : s.Inv) (hadm : Admitted .codec s) (hbytes : OnBytes s)
    (ho : s.here.params.orderedHandoff = true) :
    ∃ t, exec .decodeNext s = .next t ∧
      t.result s.port = some (decodedResult (frontDecision (s.here.frontBytes (lenByConsumer s.port.inst s).1))) ∧
      SameElsewhere s t ∧ SameStorage s.here t.here ∧ ConsumerFrame s.here t.here ∧ t.here.cons.k = s.here.cons.k := by
  have hrole := permits_codec (refusalOf_eq_none.mp hadm).2.1
  obtain ⟨r, u, hr, -, ⟨⟨v, hu⟩, -, -⟩, hexec⟩ := exec_decodeNext_completes hinv hadm hbytes
  obtain ⟨u', hfront⟩ := decodeRun_frontDecision hinv ho
  obtain ⟨rfl, -⟩ := Run.ok.inj (hr.symm.trans hfront)
  refine ⟨_, hexec, result_returnWith _ _ _, sameElsewhere_of_exec hexec, ?_⟩
  rw [here_of_exec hexec, returnWith_inst_consumer hrole, hu]
  exact ⟨⟨rfl, rfl, rfl, rfl, rfl⟩, ⟨rfl, rfl, rfl, rfl, rfl, rfl⟩, rfl⟩

/-- Settles O48: the answer goes by the row of the case table the front is in (`frontDecision`, `resyncTable_eq`). -/
theorem decodeNextAnswersByTheFront : Obligations.DecodeNextAnswersByTheFront := by
  intro s hinv hadm hbytes ho front L
  obtain ⟨t, hexec, hresult, helse, hstorage, hframe, hk⟩ := exec_decodeNext_front hinv hadm hbytes ho
  refine ⟨t, hexec, helse, hstorage, hframe, hk, ?_⟩
  change t.result s.port = some (decodedResult (frontDecision front)) at hresult
  rw [hresult, resyncTable_eq]
  cases hv : frontVerdict front with
  | malformed why =>
    have hdecision : frontDecision front = (none, 1) := by rw [frontDecision, hv]
    rw [hdecision]
    exact ⟨fun _ => rfl, nofun, nofun⟩
  | empty =>
    have hdecision : frontDecision front = (none, 0) := by rw [frontDecision, hv]
    have hnil := eq_nil_of_frontVerdict_empty hv
    rw [hdecision, hnil]
    exact ⟨nofun, fun _ _ => rfl, fun _ h2 => absurd h2 (by decide)⟩
  | incomplete L' =>
    have hdecision : frontDecision front = (none, 0) := by rw [frontDecision, hv]
    have hlt : front.length < L := length_lt_of_frontVerdict_incomplete hv
    rw [hdecision]
    exact ⟨nofun, fun _ _ => rfl, fun _ _ hle => absurd hlt (not_lt.mpr hle)⟩
  | good L' b1 acc =>
    obtain ⟨hatFront, hheader⟩ := frame_of_frontVerdict_good hv
    obtain ⟨more, hfront, hlen, -⟩ := hatFront.parts
    obtain ⟨hmin, -⟩ := badLength_eq_false.mp hheader.length
    have hL : L = L'.toNat := congrArg (fun f => (f.getD 0 0).toNat) hfront
    have hdecision := frontDecision_of_frame hatFront hheader
    rw [hheader.delivered_snd, ← hL] at hdecision
    rw [hdecision]
    exact ⟨nofun, fun _ hshort => by omega, fun _ _ _ => ⟨_, rfl⟩⟩

/-! ### A frame's own row -/

/-- The pair a row of R92 delivers (R178 to R184); no other row is a frame to decode. -/
def rowDelivers : Instr → Option (Message × Nat)
  | .fSet L _ payload => some (setResult L payload)
  | .fDiscover a => some (discoverResult a)
  | .fType a => some (typeResult a)
  | .fValue a => some (valueResult a)
  | _ => none

theorem rowDelivers_inboundInstr (L b1 : Byte) (payload : List Byte) :
    rowDelivers (inboundInstr L b1 payload) = some (delivered L b1 payload) := by
  unfold inboundInstr delivered
  split_ifs <;> rfl

/-- With its frame at the front a row of R92 is the same step as `decodeNext` (log entry 13), and delivers its pair. -/
theorem exec_row_at_front {i : Instr} {r : Message × Nat} (hinv : s.Inv) (hadm : Admitted .codec s) (hbytes : OnBytes s)
    (ho : s.here.params.orderedHandoff = true) (hwf : i.wf = true) (hform : formOf i = .inbound)
    (hfront : s.here.frontBytes (lenByConsumer s.port.inst s).1 = encode i ++ rest) (hr : rowDelivers i = some r) :
    ∃ t, exec i s = .next t ∧ exec .decodeNext s = .next t ∧ t.result s.port = some (.decoded (some r.1) r.2) ∧
      SameElsewhere s t ∧ SameStorage s.here t.here ∧ ConsumerFrame s.here t.here ∧ t.here.cons.k = s.here.cons.k := by
  have hdecode := decodeInbound_iff_encode.mpr ⟨hfront, hwf, hform⟩
  obtain ⟨L, b1, payload, hframe, hcmd, hfixed, hi⟩ := decodeInbound_eq_ok.mp hdecode
  rw [← hi, rowDelivers_inboundInstr] at hr
  obtain rfl := Option.some.inj hr
  obtain ⟨t, hexec, hresult, hkept⟩ := exec_decodeNext_front hinv hadm hbytes ho
  rw [frontDecision_of_frame hframe ⟨hframe.legal, hcmd, hfixed⟩] at hresult
  have hsame := decodeNextRunsTheFrameAtTheFront s i rest hinv hadm hbytes ho hdecode
  exact ⟨t, hsame.symm.trans hexec, hexec, hresult, hkept⟩

/-! ### Request frames -/

/-- A frame with its trailer in numbers, where the checksum does not wrap (R84, R150, R153). -/
theorem withTrailer_eq {body : List Byte} (hsum : (body.map BitVec.toNat).sum ≤ 0xFFFF) :
    withTrailer body = body ++
      [BitVec.ofNat 8 (0xFFFF - (body.map BitVec.toNat).sum), BitVec.ofNat 8 ((0xFFFF - (body.map BitVec.toNat).sum) / 256)] := by
  have hlo : lo8 (checksumOf body) = BitVec.ofNat 8 (checksumOf body).toNat := (BitVec.ofNat_toNat 8 _).symm
  have hhi := eq_ofNat_of_toNat (toNat_hi8 (checksumOf body))
  rw [withTrailer, hlo, hhi, toNat_checksumOf_of_sum_le hsum]

theorem toNat_byte1Of (a : Nibble) : ∀ code ∈ [Config.cmdSet, Config.cmdDiscover, Config.cmdType, Config.cmdValue],
    (byte1Of code a).toNat = code.toNat + a.toNat := by
  revert a
  decide

/-- The bytes of a request frame (R178 to R180). -/
theorem withTrailer_request {code : Byte} (hcode : code ∈ [Config.cmdSet, Config.cmdDiscover, Config.cmdType, Config.cmdValue])
    (a : Nibble) :
    let ck := 0xFFFF - 0x04 - (code.toNat + a.toNat)
    withTrailer [4, byte1Of code a] = [4, byte1Of code a, BitVec.ofNat 8 ck, BitVec.ofNat 8 (ck / 256)] := by
  have hsum : ([(4 : Byte), byte1Of code a].map BitVec.toNat).sum = 4 + (code.toNat + a.toNat) := by
    rw [← toNat_byte1Of a code hcode]
    rfl
  have hcode' := code.isLt
  have ha := a.isLt
  rw [withTrailer_eq (by omega), hsum, Nat.sub_sub]
  rfl

/-- Settles O49: the bytes written out are the encoding of the row (`withTrailer_request`), which is the same step as `decodeNext`
(`exec_row_at_front`). -/
theorem requestFramesDeliverTheirRequest : Obligations.RequestFramesDeliverTheirRequest := by
  intro s a i m code rest hinv hadm hbytes ho hrow hfront
  obtain ⟨hwf, hform, hcode, hencode, hdelivers⟩ : i.wf = true ∧ formOf i = .inbound ∧
      code ∈ [Config.cmdSet, Config.cmdDiscover, Config.cmdType, Config.cmdValue] ∧
      encode i = withTrailer [4, byte1Of code a] ∧ rowDelivers i = some (m, 4) := by
    obtain ⟨rfl, rfl, rfl⟩ | ⟨rfl, rfl, rfl⟩ | ⟨rfl, rfl, rfl⟩ := hrow <;> exact ⟨rfl, rfl, by decide, rfl, rfl⟩
  refine exec_row_at_front (rest := rest) hinv hadm hbytes ho hwf hform ?_ hdelivers
  rw [hencode, withTrailer_request hcode]
  exact hfront

/-! ### SET frames -/

theorem le16_eq_ofNat (lo hi : Byte) : le16 lo hi = BitVec.ofNat 16 (lo.toNat + 256 * hi.toNat) := by
  rw [← toNat_le16, BitVec.ofNat_toNat, BitVec.setWidth_eq]

/-- Value `k` of a payload is made of its bytes `2k` and `2k + 1` (R182). -/
theorem le16s_getD (bytes : List Byte) {k : Nat} (hk : 2 * k + 1 < bytes.length) :
    (le16s bytes).getD k 0 = le16 (bytes.getD (2 * k) 0) (bytes.getD (2 * k + 1) 0) := by
  induction bytes using le16s.induct generalizing k with
  | case1 lo hi rest ih =>
    cases k with
    | zero => rfl
    | succ k =>
      rw [List.length_cons, List.length_cons] at hk
      exact ih (by omega)
  | case2 bytes h =>
    match bytes with
    | [] => simp at hk
    | [_] => simp at hk
    | lo :: hi :: rest => exact absurd rfl (h lo hi rest)

/-- The channels a SET frame carries (R182, decision D14). -/
theorem setChannels_getD_of_lt {k : Nat} (hlegal : badLength L = false) (hsize : payload.length = L.toNat - 4)
    (hk : k < L.toNat / 2 - 2) :
    (setChannels L payload).getD k 0 = le16 (payload.getD (2 * k) 0) (payload.getD (2 * k + 1) 0) := by
  have hcount : setCount L = L.toNat / 2 - 2 := by
    obtain ⟨-, hmax⟩ := badLength_eq_false.mp hlegal
    exact Nat.min_eq_left (show L.toNat / 2 - 2 ≤ 14 by omega)
  have htake : (payload.take (2 * setCount L)).length = 2 * setCount L := by
    rw [List.length_take]
    have := two_mul_setCount_le L
    omega
  have hread {j : Nat} (hj : j < 2 * setCount L) : (payload.take (2 * setCount L)).getD j 0 = payload.getD j 0 := by
    rw [List.getD_eq_getElem?_getD, List.getElem?_take_of_lt hj, ← List.getD_eq_getElem?_getD]
  have hvals := length_le16s (setCount L) _ htake
  rw [setChannels, List.getD_append _ _ _ _ (by omega), le16s_getD _ (by omega), hread (by omega), hread (by omega)]

/-- Settles O50: the row is the same step as `decodeNext` (`exec_row_at_front`), and the channels are those of the payload
(`setChannels_getD_of_lt`, `setChannels_getD_of_le`). -/
theorem setFramesDeliverTheirChannels : Obligations.SetFramesDeliverTheirChannels := by
  intro s L a payload rest hinv hadm hbytes ho hwf hfront
  obtain ⟨hlegal, hsize⟩ : badLength L = false ∧ payload.length = L.toNat - 4 := by simpa [Instr.wf] using hwf
  obtain ⟨t, hexec, hdecode, hresult, hkept⟩ := exec_row_at_front hinv hadm hbytes ho hwf rfl hfront rfl
  refine ⟨t, setChannels L payload, hexec, hdecode, hresult, length_setChannels L payload, fun k _ => ?_, hkept⟩
  split
  next hk => rw [setChannels_getD_of_lt hlegal hsize hk, le16_eq_ofNat]
  next hk => exact setChannels_getD_of_le (not_lt.mp hk) payload

end Sys2Proof.Machine

/-! ## service -/

namespace Sys2Proof.Machine

variable {id : InstId} {s : State} {I J : Inst}

/-! ### The elements it takes -/

/-- From `I` to `J` the CONSUMER has taken the `j` oldest elements; nothing but its view of `head` and `tail` has changed. -/
def Inst.Takes (I J : Inst) (j : Nat) : Prop :=
  ∃ view tail, J = { I with headView := view, tail := tail } ∧ J.held = I.held.drop j

theorem Inst.Takes.succ {K : Inst} {j : Nat} (h : I.Takes J 1) (h' : J.Takes K j) : I.Takes K (j + 1) := by
  obtain ⟨_, _, rfl, hheld⟩ := h
  obtain ⟨view, tail, rfl, hheld'⟩ := h'
  refine ⟨view, tail, rfl, ?_⟩
  rw [hheld', hheld, List.drop_drop, Nat.add_comm]

theorem Inst.Takes.LEN_eq {j : Nat} (h : I.Takes J j) (hj : j ≤ I.LEN) : I.LEN = J.LEN + j := by
  obtain ⟨_, _, -, hheld⟩ := h
  have hlen := congrArg List.length hheld
  rw [List.length_drop, Inst.length_held, Inst.length_held] at hlen
  omega

/-- A pop where an element has been seen takes the oldest one, whatever the handoff (R113). -/
theorem popRun_takes {j : Nat} (hs : (s.inst id).StoreOk) (hseen : j + 1 ≤ (s.inst id).visible) :
    ∃ v t, popRun id s = .ok (some v) t ∧ (t.inst id).StoreOk ∧ j ≤ (t.inst id).visible ∧ (s.inst id).Takes (t.inst id) 1 := by
  have hread := visible_le_rdHead hs
  have hs' := storeOk_rdHead hs
  have hne : ((rdHead id s).2.inst id).headView ≠ ((rdHead id s).2.inst id).tail := by
    intro he
    have hzero : ((rdHead id s).2.inst id).visible = 0 := by
      rw [Inst.visible, he]
      exact forward_self hs'.tail_lt
    omega
  have hleft := visible_tail_inc hs' hne
  have hstore := hs'.tailPublished hne
  have hheld := hs'.held_pop (hs'.tail_ne_head hne) (rdHead id s).1 (s.inst id).cons
  rw [rdHead_inst] at hne hread hleft hstore hheld
  obtain ⟨v, t, hr, -⟩ := popRun_of_ne hs hne
  obtain ⟨-, -, hinst⟩ := popRun_eq_ok_some hr
  refine ⟨v, t, hr, ?_⟩
  rw [hinst]
  refine ⟨hstore, ?_, _, _, rfl, (congrArg List.tail hheld).symm.trans List.drop_one.symm⟩
  dsimp only at hleft hread ⊢
  omega

/-- As many pops as elements have been seen take exactly those (R130). -/
theorem discardRun_takes (j : Nat) (hs : (s.inst id).StoreOk) (hseen : j ≤ (s.inst id).visible) :
    ∃ t, discardRun id j s = .ok () t ∧ (s.inst id).Takes (t.inst id) j := by
  induction j generalizing s with
  | zero => exact ⟨s, rfl, _, _, rfl, rfl⟩
  | succ j ih =>
    obtain ⟨v, t, hr, hstore, hleft, htakes⟩ := popRun_takes hs hseen
    obtain ⟨u, hu, hrest⟩ := ih hstore hleft
    refine ⟨u, ?_, htakes.succ hrest⟩
    rw [discardRun, hr, Run.bind_ok, hu]

/-! ### The whole operation -/

/-- A present message is at the sink, and nothing else has changed. -/
theorem inst_handOver (id : InstId) (m : Option Message) (s : State) :
    (handOver id m s).inst id =
      { s.inst id with cons := { (s.inst id).cons with sink := if m.isSome then m else (s.inst id).cons.sink } } := by
  cases m with
  | none => rfl
  | some m => exact State.inst_setInst _ _ _

/-- Settles O53: `service` decides as `decodeNext` does (`exec_decodeNext_completes`) on no more elements than were seen
(`Decides.consumed_le`), so its pops take exactly those (`discardRun_takes`). -/
theorem serviceDiscardsExactlyWhatIsConsumed : Obligations.ServiceDiscardsExactlyWhatIsConsumed := by
  intro s hinv hadm hbytes
  have hrole := permits_codec (refusalOf_eq_none.mp hadm).2.1
  obtain ⟨⟨m, c⟩, u, hr, hdecides, ⟨⟨view, hu⟩, hstore, hseen⟩, hdecode⟩ := exec_decodeNext_completes hinv hadm hbytes
  have hcount : c ≤ ((handOver s.port.inst m u).inst s.port.inst).visible := by
    rw [handOver_visible]
    exact hdecides.consumed_le.trans hseen
  obtain ⟨t, hdiscard, htakes⟩ := discardRun_takes c (storeOk_handOver hstore m) hcount
  have hservice : serviceRun s.port.inst (s.setRet s.port none) = .ok (m, c) t := by
    rw [serviceRun, hr, Run.bind_ok, owed, hdiscard, Run.bind_ok]
  have hexec : exec .service s = .next (returnWith s.port (decodedResult (m, c)) t) := by
    rw [exec, execService, invokedOnBytes_admitted hadm hbytes, State.setRet_port,
      finish_of_ok hservice (Run.ChangesOnly.of_serviceRun _ _), State.setRet_port]
  rw [inst_handOver, hu] at htakes
  have hlen := htakes.LEN_eq (hdecides.consumed_le.trans (lenByConsumer_le_LEN (storeOk_of_inv hinv s.port.inst)))
  obtain ⟨_, _, ht, hheld⟩ := htakes
  rw [ht] at hheld hlen
  refine ⟨_, _, m, c, hdecode, result_returnWith _ _ _, hexec, result_returnWith _ _ _, sameElsewhere_of_exec hexec, ?_⟩
  rw [here_of_exec hexec, returnWith_inst_consumer hrole, ht]
  exact ⟨⟨rfl, rfl, rfl, rfl, rfl, rfl⟩, rfl, rfl, hheld, hlen⟩

end Sys2Proof.Machine

/-! ## The encoder's frames -/

namespace Sys2Proof

open Machine

/-! ### What the encoder composes -/

/-- The length byte holds the length of a frame that fits. -/
theorem toNat_lengthByte {payload : List Byte} (hlen : payload.length ≤ 28) :
    (BitVec.ofNat 8 (payload.length + 4)).toNat = payload.length + 4 := toNat_ofNat_small (by omega)

/-- At most 28 payload bytes make a whole frame of a legal length (R196, R197). -/
theorem frameAtFront_composeFrame (code : Byte) (a : Nibble) {payload : List Byte} (hlen : payload.length ≤ 28) :
    FrameAtFront (BitVec.ofNat 8 (payload.length + 4)) (byte1Of code a) payload (composeFrame code a payload) [] := by
  have hL := toNat_lengthByte hlen
  have hlegal : ¬(payload.length + 4 < Config.minLength ∨ Config.maxLength < payload.length + 4) := by
    rw [Config.minLength, Config.maxLength]
    omega
  refine ⟨badLength_eq_false.mpr (by omega), by omega, ?_⟩
  rw [composeFrame, if_neg hlegal, List.append_nil, frameBody]

/-- Every frame the encoder emits is composed of a code, an address and a payload that fits (R198 to R201). -/
theorem exists_compose_of_outboundFrame {m : Message} {frame : List Byte} (h : outboundFrame m = some frame) :
    ∃ code a payload, payload.length ≤ 28 ∧ composeFrame code a payload = frame := by
  cases m with
  | discoveryResponse a => exact ⟨Config.cmdDiscover, a, [], by simp, Option.some.inj h⟩
  | typeResponse a k w => exact ⟨Config.cmdType, a, [k, w], by simp, Option.some.inj h⟩
  | valueResponseShort a v => exact ⟨Config.cmdValue, a, bytes16 v, by simp [bytes16], Option.some.inj h⟩
  | valueResponseLong a v => exact ⟨Config.cmdValue, a, bytes32 v, by simp [bytes32], Option.some.inj h⟩
  | discoveryRequest a => cases h
  | setMsg channels => cases h
  | typeRequest a => cases h
  | valueRequest a => cases h

/-- A frame is too short for the bytes its checksum covers to wrap it (R154). -/
theorem FrameAtFront.sum_body_le {L b1 : Byte} {payload bytes rest : List Byte} (h : FrameAtFront L b1 payload bytes rest) :
    ((L :: b1 :: payload).map BitVec.toNat).sum ≤ 0xFFFF := by
  have hsum := sum_toNat_le (L :: b1 :: payload)
  have hlen := h.length_eq
  obtain ⟨-, hmax⟩ := badLength_eq_false.mp h.legal
  rw [length_withTrailer] at hlen
  omega

theorem FrameAtFront.eq_withTrailer {L b1 : Byte} {payload bytes : List Byte} (h : FrameAtFront L b1 payload bytes []) :
    bytes = withTrailer (L :: b1 :: payload) := h.bytes.trans (List.append_nil _)

theorem trailerOk_of_frameAtFront {L b1 : Byte} {payload bytes : List Byte} (h : FrameAtFront L b1 payload bytes []) :
    trailerOk bytes = true := by rw [h.eq_withTrailer, trailerOk_withTrailer]

/-- Settles O57: the frame is a body with its trailer (`frameAtFront_composeFrame`), and the sum of the body does not wrap the
checksum (`FrameAtFront.sum_body_le`). -/
theorem emittedFramesCarryTheirChecksum : Obligations.EmittedFramesCarryTheirChecksum := by
  intro m frame h
  obtain ⟨code, a, payload, hlen, rfl⟩ := exists_compose_of_outboundFrame h
  have hframe := frameAtFront_composeFrame code a hlen
  refine ⟨BitVec.ofNat 8 (payload.length + 4) :: byte1Of code a :: payload, ?_, ?_, trailerOk_of_frameAtFront hframe⟩
  · rw [hframe.eq_withTrailer, withTrailer_eq hframe.sum_body_le]
  · rw [hframe.eq_withTrailer, hframe.length_eq, List.headD_cons]

/-! ### The four frames byte by byte -/

/-- A composed frame with its trailer in numbers, `s` the sum of the bytes before it (R196, R203). -/
theorem composeFrame_eq {code : Byte} (hcode : code ∈ [Config.cmdSet, Config.cmdDiscover, Config.cmdType, Config.cmdValue])
    (a : Nibble) {payload : List Byte} (hlen : payload.length ≤ 28) {s : Nat}
    (hs : payload.length + 4 + (code.toNat + a.toNat) + (payload.map BitVec.toNat).sum = s) :
    composeFrame code a payload =
      BitVec.ofNat 8 (payload.length + 4) :: byte1Of code a :: payload ++
        [BitVec.ofNat 8 ((0xFFFF - s) / 256 ^ 0), BitVec.ofNat 8 ((0xFFFF - s) / 256 ^ 1)] := by
  have hframe := frameAtFront_composeFrame code a hlen
  have hsum : ((BitVec.ofNat 8 (payload.length + 4) :: byte1Of code a :: payload).map BitVec.toNat).sum = s := by
    rw [← hs, List.map_cons, List.map_cons, List.sum_cons, List.sum_cons, toNat_lengthByte hlen,
      toNat_byte1Of a code hcode, ← Nat.add_assoc]
  rw [hframe.eq_withTrailer, withTrailer_eq hframe.sum_body_le, hsum, pow_zero, Nat.div_one, pow_one]

/-- Settles O56: each of the four is `composeFrame` of its code and payload (`composeFrame_eq`). -/
theorem outboundFramesAreAsWritten : Obligations.OutboundFramesAreAsWritten := by
  intro a k w v x a8 ck
  refine ⟨⟨?discover, rfl⟩, ?type, ?short, ?long⟩
  case discover =>
    exact composeFrame_eq (code := Config.cmdDiscover) (payload := []) (by decide) a (by simp) rfl
  case type =>
    exact composeFrame_eq (code := Config.cmdType) (payload := [k, w]) (by decide) a (by simp)
      (by simp [Config.cmdType, Nat.add_assoc])
  case short =>
    exact composeFrame_eq (code := Config.cmdValue) (payload := [v.extractLsb' 0 8, v.extractLsb' 8 8]) (by decide) a (by simp)
      (by simp [Config.cmdValue, Nat.add_assoc])
  case long =>
    exact composeFrame_eq (code := Config.cmdValue)
      (payload := [x.extractLsb' 0 8, x.extractLsb' 8 8, x.extractLsb' 16 8, x.extractLsb' 24 8]) (by decide) a (by simp)
      (by simp [Config.cmdValue, Nat.add_assoc])

/-! ### The four frames through the block's own decoder -/

/-- A frame longer than a request, of a request's command, is judged by its fixed length (R86, R96). -/
theorem FrameAtFront.decodeInbound_badFixedLength {L b1 : Byte} {payload bytes rest : List Byte}
    (h : FrameAtFront L b1 payload bytes rest) (hcmd : badCommand b1 = false) (hfixed : badFixedLength L b1 = true) :
    decodeInbound bytes = .reject .badFixedLength := by
  obtain ⟨more, rfl, hlen, -⟩ := h.parts
  simp only [decodeInbound, h.legal, hlen, hcmd, hfixed, Bool.false_eq_true, if_false, if_true]

/-- A frame composed with a payload under a request's code is no request (R86, R96). -/
theorem decodeInbound_composeFrame {code : Byte} (hcode : code ∈ [Config.cmdDiscover, Config.cmdType, Config.cmdValue])
    (a : Nibble) {payload : List Byte} (hne : payload ≠ []) (hlen : payload.length ≤ 28) :
    decodeInbound (composeFrame code a payload) = .reject .badFixedLength := by
  obtain ⟨hcommand, -⟩ := command_address_byte1Of a code (List.mem_cons_of_mem _ hcode)
  have hset : code ≠ Config.cmdSet := by rintro rfl; exact absurd hcode (by decide)
  have hL := toNat_lengthByte hlen
  have hlong := List.length_pos_of_ne_nil hne
  refine (frameAtFront_composeFrame code a hlen).decodeInbound_badFixedLength (badCommand_eq_false.mpr ?_) ?_
  · rw [hcommand]
    simp only [List.mem_cons, List.not_mem_nil, or_false] at hcode
    tauto
  · exact badFixedLength_eq_true.mpr ⟨hcommand.trans_ne hset, by omega⟩

/-- Settles O60: a discovery response is the encoding of the request's row (`decodeInbound_iff_encode`), and the payload of the
others makes them too long (`decodeInbound_composeFrame`). -/
theorem responsesThroughTheOwnDecoder : Obligations.ResponsesThroughTheOwnDecoder := by
  intro a k w v x
  refine ⟨decodeInbound_iff_encode.mpr ⟨rfl, rfl, rfl⟩, decodeInbound_composeFrame (by decide) a (by simp) (by simp),
    decodeInbound_composeFrame (by decide) a (by simp [bytes16]) (by simp [bytes16]),
    decodeInbound_composeFrame (by decide) a (by simp [bytes32]) (by simp [bytes32]), fun frame hframe => ?_⟩
  obtain ⟨m, hm⟩ : ∃ m, outboundFrame m = some frame := by
    simp only [List.mem_cons, List.not_mem_nil, or_false] at hframe
    obtain rfl | rfl | rfl | rfl := hframe
    · exact ⟨.discoveryResponse a, rfl⟩
    · exact ⟨.typeResponse a k w, rfl⟩
    · exact ⟨.valueResponseShort a v, rfl⟩
    · exact ⟨.valueResponseLong a x, rfl⟩
  obtain ⟨code, b, payload, hlen, rfl⟩ := exists_compose_of_outboundFrame hm
  exact trailerOk_of_frameAtFront (frameAtFront_composeFrame code b hlen)

end Sys2Proof

/-! ## encode -/

namespace Sys2Proof.Machine

variable {s : State} {m : Message} {frame : List Byte}

/-- Emission is a load of the frame's bytes (R204). -/
theorem emitFrame_eq_load (hadm : Admitted .producer s) (hbytes : OnBytes s) (frame : List Byte) :
    emitFrame frame s = exec (.load (frame.map elemOf)) s := by
  have hwidth : ∀ v ∈ frame.map elemOf, v < 2 ^ (s.setRet s.port none).here.params.W :=
    OpRules.elemOf_lt (by rwa [State.here, State.setRet_port, State.setRet_params])
  rw [emitFrame, invokedOnBytes_admitted hadm hbytes, exec, execLoad, invoked_admitted hadm, if_neg (not_not.mpr hwidth), emitRun]

/-- `encode` of an outbound variant by the PRODUCER of its target is the emission of its frame (R195, R204). -/
theorem exec_encode_of_outbound (hadm : Admitted .producer s) (hbytes : OnBytes s) (h : outboundFrame m = some frame) :
    exec (.encode m s.port.inst) s = emitFrame frame s := by
  simp only [exec, execEncode, emitFrame, invokedOnBytes_admitted hadm hbytes, State.setRet_port, ne_eq, not_true, if_false, h]

/-- `encode` of a variant with no outward form by the PRODUCER of its target takes the fault of R202. -/
theorem exec_encode_of_unsupported (hadm : Admitted .producer s) (hbytes : OnBytes s) (h : outboundFrame m = none) :
    exec (.encode m s.port.inst) s = .next (raise s.port .unsupportedEncodeVariant (s.setRet s.port none)) := by
  simp only [exec, execEncode, invokedOnBytes_admitted hadm hbytes, State.setRet_port, ne_eq, not_true, if_false, h]

/-- Settles O58: `encode` and the frame's row are both the emission of the frame, which is a load of its bytes
(`exec_load_completes`). -/
theorem encodeAppendsTheFrame : Obligations.EncodeAppendsTheFrame := by
  intro m i frame s hinv hadm hbytes hrow
  obtain ⟨hframe, hi⟩ : outboundFrame m = some frame ∧ exec i s = emitFrame frame s := by
    obtain ⟨a, rfl, rfl, rfl⟩ | ⟨a, k, w, rfl, rfl, rfl⟩ | ⟨a, v, rfl, rfl, rfl⟩ | ⟨a, v, rfl, rfl, rfl⟩ := hrow <;>
      exact ⟨rfl, rfl⟩
  obtain ⟨t, kept, hload, hresult, happ, hkept, hfits⟩ :=
    exec_load_completes (storeOk_of_inv hinv s.port.inst) hadm (OpRules.elemOf_lt (frame := frame) hbytes)
  obtain ⟨keptBytes, hsub, rfl⟩ := List.sublist_map_iff.mp hkept
  have hexec : exec i s = .next t := by rw [hi, emitFrame_eq_load hadm hbytes, hload]
  have hencode : exec (.encode m s.port.inst) s = .next t := by
    rw [exec_encode_of_outbound hadm hbytes hframe, ← hi, hexec]
  rw [← here_of_exec hexec] at happ
  refine ⟨t, keptBytes, hencode, hexec, hresult, sameElsewhere_of_exec hexec, happ.frame, hsub, ?_, fun hview => ?_⟩
  · rw [happ.held, List.map_map]
    rfl
  · refine List.map_injective_iff.mpr (fun b c => BitVec.eq_of_toNat_eq) ?_
    rw [hfits (.inl hview), List.map_take]

theorem raise_inst_producer {p : Port} (hrole : p.role = .producer) (e : ErrorClass) (hfault : (s.inst p.inst).fault = 0) :
    (raise p e s).inst p.inst = { s.inst p.inst with fault := errorCode e, prod := ⟨PRegs.idle, none⟩ } := by
  rw [raise_inst, hrole, if_pos hfault]

theorem result_producer {p : Port} (hrole : p.role = .producer) : s.result p = (s.inst p.inst).prod.ret := by
  rw [State.result, hrole]

/-- Settles O59: such a variant has no outward form, so the target takes the fault and nothing is emitted. -/
theorem encodeOfARequestFaults : Obligations.EncodeOfARequestFaults := by
  intro m s hadm hbytes hm
  have hrole := admitted_producer hadm
  have hfault := (refusalOf_eq_none.mp hadm).1
  have hnone : outboundFrame m = none := by
    obtain ⟨a, rfl | rfl | rfl⟩ | ⟨ch, rfl⟩ := hm <;> rfl
  have hexec := exec_encode_of_unsupported hadm hbytes hnone
  have hinst : (raise s.port .unsupportedEncodeVariant (s.setRet s.port none)).inst s.port.inst =
      { s.here with fault := 6, prod := ⟨PRegs.idle, none⟩ } := by
    rw [raise_inst_producer hrole _ (by rw [State.setRet_fault]; exact hfault), inst_setRet_producer hrole]
    rfl
  refine ⟨_, hexec, ?_, ?_, sameElsewhere_of_exec hexec, ?_⟩
  · rw [here_of_exec hexec, hinst]
  · rw [result_producer hrole, hinst]
  · rw [here_of_exec hexec, hinst]
    exact ⟨⟨rfl, rfl, rfl, rfl, rfl⟩, rfl, rfl, rfl⟩

end Sys2Proof.Machine

/-! ## Refusals -/

namespace Sys2Proof.Machine

variable {i : Instr} {s t : State}

/-! ### Every operation is an invocation -/

/-- The operations of the codec and of the encoder, which need an instance of bytes (R7; log entry 16). -/
abbrev NeedsBytes (i : Instr) : Prop :=
  whoMay i = .codec ∨ formOf i = .outbound ∨ ∃ m target, i = .encode m target

theorem exists_eq_invokedOnBytes (h : NeedsBytes i) (s : State) :
    ∃ body body', exec i s = invokedOnBytes (whoMay i) s body ∧ begin i s = invokedOnBytes (whoMay i) s body' := by
  cases i with
  | fSet _ _ _ | fDiscover _ | fType _ | fValue _ | eDiscoverResp _ | eTypeResp _ _ _ | eValueRespS _ _ | eValueRespL _ _
  | needsResync | decodeNext | service | encode _ _ =>
    simp only [exec, execFSet, execFDiscover, execFType, execFValue, execEDiscoverResp, execETypeResp, execEValueRespS,
      execEValueRespL, execNeedsResync, execDecodeNext, execService, execEncode, begin, acceptFrame, emitFrame, whoMay]
    exact ⟨_, _, rfl, rfl⟩
  | push _ | pop | len | isFull | isEmpty | space | peek _ | clear | load _ | iterNew | iterNext | checksum _ =>
    simp [NeedsBytes, whoMay, formOf] at h

/-- Whole or started, an instruction is an invocation by an agent its row names (R99, R233). -/
theorem exists_eq_invoked (i : Instr) (s : State) :
    ∃ body body', exec i s = invoked (whoMay i) s body ∧ begin i s = invoked (whoMay i) s body' := by
  by_cases hbytes : NeedsBytes i
  · obtain ⟨body, body', hexec, hbegin⟩ := exists_eq_invokedOnBytes hbytes s
    exact ⟨_, _, hexec, hbegin⟩
  · cases i with
    | push _ | pop | len | isFull | isEmpty | space | peek _ | clear | load _ | iterNew | iterNext | checksum _ =>
      simp only [exec, execPush, execPop, execLen, execIsFull, execIsEmpty, execSpace, execPeek, execClear, execLoad, execIterNew,
        execIterNext, execChecksum, begin, lengthQuery, beginQuery, whoMay]
      exact ⟨_, _, rfl, rfl⟩
    | _ => simp [NeedsBytes, whoMay, formOf] at hbytes

/-- What refuses an invocation of its agent refuses the instruction, whole or started. -/
theorem refused_of_refusalOf {r : Refusal} (h : refusalOf (whoMay i) s = some r) :
    exec i s = .refused r ∧ begin i s = .refused r := by
  obtain ⟨body, body', hexec, hbegin⟩ := exists_eq_invoked i s
  rw [hexec, hbegin, invoked, invoked, h]
  exact ⟨rfl, rfl⟩

theorem admitted_of_exec (h : exec i s = .next t) : Admitted (whoMay i) s := by
  obtain ⟨body, -, hexec, -⟩ := exists_eq_invoked i s
  exact (invoked_eq_next.mp (hexec.symm.trans h)).1

theorem onBytes_of_exec (hi : NeedsBytes i) (h : exec i s = .next t) : OnBytes s := by
  obtain ⟨body, -, hexec, -⟩ := exists_eq_invokedOnBytes hi s
  exact (invokedOnBytes_eq_next.mp (hexec.symm.trans h)).2.1

/-! ### The tests of every invocation, in their order (log entry 11) -/

theorem refusalOf_of_fault (w : Who) (h : s.here.fault ≠ 0) : refusalOf w s = some .instanceFaulted := if_pos h

theorem refusalOf_of_role {w : Who} (h0 : s.here.fault = 0) (h : permits w s.port = false ∨ agentBusy s.here s.port.role = true) :
    refusalOf w s = some .roleViolation := by
  rw [refusalOf, if_neg (not_not.mpr h0)]
  obtain h | h := h
  · rw [h]
    rfl
  · rw [h]
    exact ite_self _

theorem refusalOf_of_clearing {w : Who} (h0 : s.here.fault = 0) (hw : permits w s.port = true)
    (hidle : agentBusy s.here s.port.role = false) (h : clearing s.here = true) : refusalOf w s = some .clearWhileActive := by
  rw [refusalOf, if_neg (not_not.mpr h0), hw, hidle, h]
  rfl

/-- Settles O14: the fault is the first test of every invocation. -/
theorem faultedInstanceRefusesEverything : Obligations.FaultedInstanceRefusesEverything :=
  fun i _ h => refused_of_refusalOf (refusalOf_of_fault (whoMay i) h)

/-! ### The tests of an operation of its own -/

theorem here_setRet_params (s : State) (r : Option Result) : (s.setRet s.port r).here.params = s.here.params := by
  rw [State.here, State.setRet_port, State.setRet_params, State.here]

theorem invokedOnBytes_refuses {w : Who} (hadm : Admitted w s) (hW : s.here.params.W ≠ 8) (body : State → Out) :
    invokedOnBytes w s body = .refused .notByteInstance := by
  rw [invokedOnBytes, invoked_admitted hadm, if_pos (by rwa [here_setRet_params])]

/-- `clear` is refused while the PRODUCER is busy (R223). -/
theorem clear_refused (hadm : Admitted .consumer s) (hbusy : prodBusy s.here = true) :
    exec .clear s = .refused .clearWhileActive ∧ begin .clear s = .refused .clearWhileActive := by
  have hbusy' : prodBusy (s.setRet s.port none).here = true := by
    rwa [State.here, State.setRet_port, inst_setRet_consumer (admitted_consumer hadm).1]
  constructor
  · rw [exec, execClear, invoked_admitted hadm, if_pos hbusy']
  · rw [begin, invoked_admitted hadm, if_pos hbusy']

/-- Settles O16: `clear` asks whether the PRODUCER is busy, and every invocation whether a `clear` is in progress. -/
theorem clearIsRefusedWhileActive : Obligations.ClearIsRefusedWhileActive := by
  refine ⟨fun s => clear_refused, fun i s h0 hw hrole hidle hclear => refused_of_refusalOf ?_⟩
  exact refusalOf_of_clearing h0 hw (by rwa [hrole]) hclear

theorem encode_refused_elsewhere {m : Message} {target : InstId} (hadm : Admitted .producer s) (hbytes : OnBytes s)
    (h : target ≠ s.port.inst) :
    exec (.encode m target) s = .refused .roleViolation ∧ begin (.encode m target) s = .refused .roleViolation := by
  have hport : (s.setRet s.port none).port.inst ≠ target := by rw [State.setRet_port]; exact h.symm
  rw [exec, execEncode, begin, invokedOnBytes_admitted hadm hbytes, invokedOnBytes_admitted hadm hbytes, if_pos hport, if_pos hport]
  exact ⟨rfl, rfl⟩

theorem push_refused_wide {v : Elem} (hadm : Admitted .producer s) (h : 2 ^ s.here.params.W ≤ v) :
    exec (.push v) s = .refused .operandWidth ∧ begin (.push v) s = .refused .operandWidth := by
  have hwide : ¬v < 2 ^ (s.setRet s.port none).here.params.W := by rw [here_setRet_params]; exact not_lt.mpr h
  constructor
  · rw [exec, execPush, invoked_admitted hadm, if_pos hwide]
  · rw [begin, invoked_admitted hadm, if_pos hwide]

theorem load_refused_wide {vs : List Elem} {v : Elem} (hadm : Admitted .producer s) (hv : v ∈ vs)
    (h : 2 ^ s.here.params.W ≤ v) :
    exec (.load vs) s = .refused .operandWidth ∧ begin (.load vs) s = .refused .operandWidth := by
  have hwide : ¬∀ v ∈ vs, v < 2 ^ (s.setRet s.port none).here.params.W := by
    rw [here_setRet_params]
    exact fun hall => not_lt.mpr h (hall v hv)
  constructor
  · rw [exec, execLoad, invoked_admitted hadm, if_pos hwide]
  · rw [begin, invoked_admitted hadm, if_pos hwide]

theorem peek_refused_wide {k : Nat} (hadm : Admitted .consumer s) (h : 2 ^ s.here.params.CW ≤ k) :
    exec (.peek k) s = .refused .operandWidth ∧ begin (.peek k) s = .refused .operandWidth := by
  have hwide : ¬k < 2 ^ (s.setRet s.port none).here.params.CW := by rw [here_setRet_params]; exact not_lt.mpr h
  constructor
  · rw [exec, execPeek, invoked_admitted hadm, if_pos hwide]
  · rw [begin, invoked_admitted hadm, if_pos hwide]

/-! ### A frame row whose frame is not at the front (log entry 13) -/

/-- Every row of R92 is `acceptFrame`, whole or started. -/
theorem exists_acceptFrame_of_inbound (h : formOf i = .inbound) :
    ∃ L b1 payload r, ∀ s, exec i s = acceptFrame L b1 payload r s ∧ begin i s = acceptFrame L b1 payload r s := by
  cases i with
  | fSet _ _ _ | fDiscover _ | fType _ | fValue _ => exact ⟨_, _, _, _, fun _ => ⟨rfl, rfl⟩⟩
  | _ => cases h

theorem begin_inbound (h : formOf i = .inbound) (s : State) : begin i s = exec i s := by
  obtain ⟨L, b1, payload, r, hrow⟩ := exists_acceptFrame_of_inbound h
  rw [(hrow s).1, (hrow s).2]

/-- A frame row is refused unless the front is judged good with its header and checksum and delivers its pair. -/
theorem acceptFrame_refused {L b1 : Byte} {payload : List Byte} {r : Message × Nat} (hinv : s.Inv) (hadm : Admitted .codec s)
    (hbytes : OnBytes s) (ho : s.here.params.orderedHandoff = true)
    (h : let front := s.here.frontBytes (lenByConsumer s.port.inst s).1
      frontVerdict front = .good L b1 (checksumOf (L :: b1 :: payload)) → delivered L b1 (payloadOf (front.take L.toNat)) ≠ r) :
    acceptFrame L b1 payload r s = .refused .frameNotAtFront := by
  obtain ⟨t, hsync, ht⟩ := snapshot_syncRun hinv ho
  have hrun : ∃ u, frameRun s.port.inst L b1 (checksumOf (L :: b1 :: payload)) r (s.setRet s.port none) = .ok false u := by
    rw [frameRun, hsync, Run.bind_ok]
    split
    next hv =>
      obtain ⟨u, haccept, -⟩ := ht.acceptRun (frame_of_frontVerdict_good hv).1
      exact ⟨u, by rw [haccept, Run.bind_ok, decide_eq_false (h hv)]⟩
    next => exact ⟨t, rfl⟩
  obtain ⟨u, hu⟩ := hrun
  rw [acceptFrame, invokedOnBytes_admitted hadm hbytes, State.setRet_port, hu]

/-- The values of a payload of whole pairs have its bytes. -/
theorem flatMap_bytes16_le16s (m : Nat) (bytes : List Byte) (hbytes : bytes.length = 2 * m) :
    (le16s bytes).flatMap bytes16 = bytes := by
  induction m generalizing bytes with
  | zero =>
    obtain rfl : bytes = [] := List.length_eq_zero_iff.mp hbytes
    rfl
  | succ m ih =>
    match bytes with
    | [] => cases hbytes
    | [_] =>
      rw [List.length_singleton] at hbytes
      omega
    | lo :: hi :: bytes =>
      rw [le16s, List.flatMap_cons, bytes16_le16, ih bytes (by simp at hbytes; omega)]
      rfl

/-- The channels a payload delivers fix the bytes they are made of. -/
theorem take_eq_of_setChannels_eq {L : Byte} {p q : List Byte} (hp : 2 * setCount L ≤ p.length) (hq : 2 * setCount L ≤ q.length)
    (h : setChannels L p = setChannels L q) : p.take (2 * setCount L) = q.take (2 * setCount L) := by
  have hread {r : List Byte} (hr : 2 * setCount L ≤ r.length) :
      ((setChannels L r).take (setCount L)).flatMap bytes16 = r.take (2 * setCount L) := by
    have hlen : (r.take (2 * setCount L)).length = 2 * setCount L := List.length_take_of_le hr
    rw [setChannels, List.take_left' (length_le16s _ _ hlen), flatMap_bytes16_le16s _ _ hlen]
  rw [← hread hp, h, hread hq]

/-- The checksum fixes one last byte. -/
theorem eq_of_checksumOf_append_singleton {body : List Byte} {x y : Byte}
    (h : checksumOf (body ++ [x]) = checksumOf (body ++ [y])) : x = y := by
  have hbytes : x.setWidth 16 = y.setWidth 16 := by
    simpa [checksumOf, List.foldl_append, sub16, BitVec.sub_right_inj] using h
  refine BitVec.eq_of_toNat_eq ?_
  have hnat := congrArg BitVec.toNat hbytes
  have hx := x.isLt
  have hy := y.isLt
  simp only [BitVec.toNat_setWidth] at hnat
  omega

/-- Header, delivered channels and checksum fix every byte of a SET frame, an odd last one through the checksum (log entry 13). -/
theorem payload_eq_of_channels_of_checksum {L b1 : Byte} {p q : List Byte} (hlegal : badLength L = false)
    (hp : p.length = L.toNat - 4) (hq : q.length = L.toNat - 4) (hchannels : setChannels L p = setChannels L q)
    (hck : checksumOf (L :: b1 :: p) = checksumOf (L :: b1 :: q)) : p = q := by
  obtain ⟨hmin, hmax⟩ := badLength_eq_false.mp hlegal
  have hcount : setCount L = L.toNat / 2 - 2 := Nat.min_eq_left (show L.toNat / 2 - 2 ≤ 14 by omega)
  have htake := take_eq_of_setChannels_eq (by omega) (by omega) hchannels
  rw [← List.take_append_drop (2 * setCount L) p, ← List.take_append_drop (2 * setCount L) q, htake] at hck ⊢
  have hdp : (p.drop (2 * setCount L)).length = L.toNat % 2 := by rw [List.length_drop]; omega
  have hdq : (q.drop (2 * setCount L)).length = L.toNat % 2 := by rw [List.length_drop]; omega
  obtain heven | hodd := Nat.mod_two_eq_zero_or_one L.toNat
  · rw [List.eq_nil_of_length_eq_zero (hdp.trans heven), List.eq_nil_of_length_eq_zero (hdq.trans heven)]
  · obtain ⟨x, hx⟩ := List.length_eq_one_iff.mp (hdp.trans hodd)
    obtain ⟨y, hy⟩ := List.length_eq_one_iff.mp (hdq.trans hodd)
    rw [hx, hy] at hck ⊢
    rw [eq_of_checksumOf_append_singleton (body := L :: b1 :: q.take (2 * setCount L)) hck]

/-- Two frames with the same header and checksum that deliver the same pair are the same frame. -/
theorem payload_eq_of_delivered {L b1 : Byte} {p q bytes bytes' rest rest' : List Byte} (hp : FrameAtFront L b1 p bytes rest)
    (hq : FrameAtFront L b1 q bytes' rest') (hheader : LegalHeader L b1) (hdelivered : delivered L b1 p = delivered L b1 q)
    (hck : checksumOf (L :: b1 :: p) = checksumOf (L :: b1 :: q)) : p = q := by
  by_cases hset : commandOf b1 = Config.cmdSet
  · have hresult (payload : List Byte) : delivered L b1 payload = setResult L payload := by
      rw [delivered, hset]
      rfl
    rw [hresult, hresult] at hdelivered
    exact payload_eq_of_channels_of_checksum hp.legal hp.size hq.size
      (Message.setMsg.inj (congrArg Prod.fst hdelivered)) hck
  · rw [(hp.fixed hheader.fixed hset).2, (hq.fixed hheader.fixed hset).2]

/-- A row whose frame does not decode from the front is refused. -/
theorem exec_row_refused (hinv : s.Inv) (hadm : Admitted .codec s) (hbytes : OnBytes s) (ho : s.here.params.orderedHandoff = true)
    (hform : formOf i = .inbound)
    (h : let d := decodeInbound (s.here.frontBytes (lenByConsumer s.port.inst s).1)
      (∃ e, d = .reject e) ∨ i.wf = true ∧ ∀ rest, d ≠ .ok i rest) : exec i s = .refused .frameNotAtFront := by
  have hdecode {L b1 : Byte} {acc : Half} {front : List Byte} (hv : frontVerdict front = .good L b1 acc) :
      decodeInbound front = .ok (inboundInstr L b1 (payloadOf (front.take L.toNat))) (front.drop L.toNat) := by
    obtain ⟨hframe, hheader⟩ := frame_of_frontVerdict_good hv
    exact decodeInbound_eq_ok.mpr ⟨L, b1, _, hframe, hheader.command, hheader.fixed, rfl⟩
  obtain ⟨e, he⟩ | ⟨hwf, hne⟩ := h
  · obtain ⟨L, b1, payload, r, hrow⟩ := exists_acceptFrame_of_inbound hform
    rw [(hrow s).1]
    exact acceptFrame_refused hinv hadm hbytes ho fun hv => nomatch he.symm.trans (hdecode hv)
  · obtain ⟨L, b1, payload, hrow, hcmd, hfixed, rfl⟩ := exists_frame_of_inbound hwf hform []
    rw [exec_inboundInstr hrow hcmd hfixed]
    refine acceptFrame_refused hinv hadm hbytes ho fun hv hdelivered =>
      hne ((s.here.frontBytes (lenByConsumer s.port.inst s).1).drop L.toNat) ?_
    obtain ⟨hframe, hheader⟩ := frame_of_frontVerdict_good hv
    have hck := (Verdict.good.inj ((frontVerdict_of_frame hframe hheader.command hheader.fixed).symm.trans hv)).2.2
    rw [hdecode hv, payload_eq_of_delivered hframe hrow hheader hdelivered hck]

/-- Settles O15: the tests of every invocation, then those of the operation; a frame row needs its own frame at the front, which
header, checksum and delivered values fix (`payload_eq_of_delivered`). -/
theorem invocationsOutsideTheContractAreRefused : Obligations.InvocationsOutsideTheContractAreRefused := by
  refine ⟨fun i s h0 h => refused_of_refusalOf (refusalOf_of_role h0 h), fun m target s => encode_refused_elsewhere,
    fun vs v s hadm hv hwide => ?_, fun k s => peek_refused_wide, fun i s hadm hW hi => ?_,
    fun i s hinv hadm hbytes ho hform h => ?_⟩
  · obtain ⟨hpush, hbeginPush⟩ := push_refused_wide hadm hwide
    obtain ⟨hload, hbeginLoad⟩ := load_refused_wide hadm hv hwide
    exact ⟨hpush, hbeginPush, hload, hbeginLoad⟩
  · obtain ⟨body, body', hexec, hbegin⟩ := exists_eq_invokedOnBytes hi s
    rw [hexec, hbegin, invokedOnBytes_refuses hadm hW, invokedOnBytes_refuses hadm hW]
    exact ⟨rfl, rfl⟩
  · rw [begin_inbound hform]
    have hrefused := exec_row_refused hinv hadm hbytes ho hform h
    exact ⟨hrefused, hrefused⟩

end Sys2Proof.Machine

/-! ## What an operation and a fault leave alone -/

namespace Sys2Proof.Machine

variable {s t : State}

/-- Settles O7: an operation changes the instance of the state's port only, and a micro-step the one it names. -/
theorem operationsLeaveTheOtherInstanceAlone : Obligations.OperationsLeaveTheOtherInstanceAlone := by
  constructor
  · intro i s t h
    obtain ⟨hqueue, hport, hothers, -⟩ := changesOnly_of_next h
    exact ⟨hqueue, hport, hothers⟩
  · intro p s t h
    obtain ⟨hqueue, hport, hothers, -⟩ := (Out.ChangesOnly.of_tick p s).next h
    exact ⟨hqueue, hport, hothers⟩

@[simp] theorem raise_choices (p : Port) (e : ErrorClass) (s : State) : (raise p e s).choices = s.choices := by
  rw [raise]
  split <;> simp

@[simp] theorem raise_draws (p : Port) (e : ErrorClass) (s : State) : (raise p e s).draws = s.draws := by
  rw [raise]
  split <;> simp

/-- Settles O20: the instance is `raise_inst`'s; beyond it nothing changes. -/
theorem takingAFaultWritesOnlyTheFaultRegister : Obligations.TakingAFaultWritesOnlyTheFaultRegister := by
  intro s p e I t
  obtain ⟨hqueue, hport, hothers, -⟩ := State.ChangesOnly.of_raise p e s
  have hchoices := raise_choices p e s
  have hdraws := raise_draws p e s
  have hinst : t.inst p.inst = _ := raise_inst p e s
  cases hrole : p.role with
  | producer =>
    rw [hrole] at hinst
    rw [result_producer hrole, hinst]
    exact ⟨rfl, rfl, rfl, ⟨rfl, rfl, rfl, rfl, rfl⟩, rfl, rfl, rfl, fun _ => rfl, nofun,
      hqueue, hchoices, hdraws, hport, hothers⟩
  | consumer =>
    rw [hrole] at hinst
    rw [result_consumer hrole, hinst]
    exact ⟨rfl, rfl, rfl, ⟨rfl, rfl, rfl, rfl, rfl⟩, rfl, rfl, rfl, nofun, fun _ => rfl,
      hqueue, hchoices, hdraws, hport, hothers⟩

/-- The PRODUCER of a full buffer reads it as full (R63). -/
theorem lenByProducer_of_full {id : InstId} (h : (s.inst id).StoreOk) (hfull : (s.inst id).LEN = (s.inst id).params.N - 1) :
    (lenByProducer id s).1 = (s.inst id).params.N - 1 :=
  le_antisymm (Nat.le_sub_one_of_lt (forward_lt h.N_pos _ _)) (hfull ▸ LEN_le_lenByProducer h)

/-- Settles O27: the PRODUCER reads the full length, so its push is dropped (`Inst.pushed_of_full`). -/
theorem pushOnAFullBufferIsSilent : Obligations.PushOnAFullBufferIsSilent := by
  intro v s t hinv hfull h
  have hs : s.here.StoreOk := storeOk_of_inv hinv s.port.inst
  obtain ⟨hadm, hv⟩ := admitted_of_exec_push h
  obtain ⟨t', hexec, hresult, hinst⟩ := exec_push_completes hadm hs.head_lt hv
  cases h.symm.trans hexec
  have hread : lengthOf s.here.params.N s.here.head (rdTail s.port.inst s).1 = s.here.params.N - 1 :=
    lenByProducer_of_full hs hfull
  rw [here_of_exec h, hinst, Inst.pushed_of_full hread]
  exact ⟨hresult, ⟨rfl, rfl, rfl, rfl, rfl⟩, rfl, rfl, sameElsewhere_of_exec h⟩

end Sys2Proof.Machine

/-! ## Fronts that hold no frame -/

namespace Sys2Proof.Machine

variable {i : Instr} {s t : State} {front : List Byte}

theorem frontDecision_of_resyncTable (h : resyncTable front = true) : frontDecision front = (none, 1) := by
  rw [resyncTable_eq] at h
  cases hv : frontVerdict front with
  | malformed why => rw [frontDecision, hv]
  | empty => rw [hv] at h; cases h
  | incomplete L => rw [hv] at h; cases h
  | good L b1 acc => rw [hv] at h; cases h

/-- Nothing, or less than a first byte of a legal length declares: the codec waits (R177). -/
theorem waits_of_short_front
    (h : front = [] ∨ front.length < (front.getD 0 0).toNat ∧ badLength (front.getD 0 0) = false) :
    resyncTable front = false ∧ frontDecision front = (none, 0) := by
  rw [resyncTable_eq, frontDecision]
  match front, h with
  | [], _ => exact ⟨rfl, rfl⟩
  | L :: more, .inr ⟨hshort, hlegal⟩ =>
    rw [List.getD_cons_zero] at hshort hlegal
    have hv : frontVerdict (L :: more) = .incomplete L := by
      simp only [frontVerdict, hlegal, hshort, Bool.false_eq_true, if_false, if_true]
    rw [hv]
    exact ⟨rfl, rfl⟩

/-- A codec operation whose part changed the view of `head` alone has left everything else, once it has returned. -/
theorem kept_of_exec_returnWith {v : Nat} {r : Result} (hadm : Admitted .codec s) (h : exec i s = .next (returnWith s.port r t))
    (ht : t.inst s.port.inst = { s.here with headView := v, cons := { s.here.cons with ret := none } }) :
    let u := returnWith s.port r t
    SameElsewhere s u ∧ SameStorage s.here u.here ∧ ConsumerFrame s.here u.here ∧ u.here.fault = 0 ∧
      u.here.cons.k = s.here.cons.k ∧ u.here.cons.sink = s.here.cons.sink := by
  obtain ⟨hfault, hrole, -⟩ := refusalOf_eq_none.mp hadm
  refine ⟨sameElsewhere_of_exec h, ?_⟩
  rw [here_of_exec h, returnWith_inst_consumer (permits_codec hrole), ht]
  exact ⟨⟨rfl, rfl, rfl, rfl, rfl⟩, ⟨rfl, rfl, rfl, rfl, rfl, rfl⟩, hfault, rfl, rfl⟩

/-- Settles O52: both operations answer for the front (`resyncTable`, `frontDecision`), and their peeks change the view alone. -/
theorem malformedAndIncompleteFrontsAreRecoverable : Obligations.MalformedAndIncompleteFrontsAreRecoverable := by
  intro s hinv hadm hbytes ho front
  obtain ⟨t, v, hneeds, ht⟩ := exec_needsResync_admitted hinv hadm hbytes ho
  obtain ⟨r, u, hr, -, ⟨⟨w, hu⟩, -, -⟩, hdecode⟩ := exec_decodeNext_completes hinv hadm hbytes
  obtain ⟨u', hfront⟩ := decodeRun_frontDecision hinv ho
  obtain ⟨rfl, -⟩ := Run.ok.inj (hr.symm.trans hfront)
  refine ⟨_, _, hneeds, hdecode, fun hmalformed => ?_, fun hshort => ?_, ?_⟩
  · rw [result_returnWith, result_returnWith, frontDecision_of_resyncTable hmalformed, hmalformed]
    exact ⟨rfl, rfl⟩
  · obtain ⟨htable, hdecision⟩ := waits_of_short_front hshort
    rw [result_returnWith, result_returnWith, hdecision, htable]
    exact ⟨rfl, rfl⟩
  · rintro _ (rfl | rfl)
    · exact kept_of_exec_returnWith hadm hneeds ht
    · exact kept_of_exec_returnWith hadm hdecode hu

end Sys2Proof.Machine

/-! ## The resync loop -/

namespace Sys2Proof.Machine

variable {id : InstId} {i : Instr} {s t : State}

/-! ### A pass of service is over when it has returned -/

theorem popRun_raisedIdle (id : InstId) (s : State) : (popRun id s).RaisedIdle id := by
  obtain ⟨-, -, hr⟩ | ⟨-, -, hr⟩ | ⟨-, hr⟩ := popRun_cases id s <;> rw [hr]
  · exact congrArg consBusy (raise_inst ⟨id, .consumer⟩ .bufferUnderflowOnRead _)
  · trivial
  · cases hread : memRead id (s.inst id).tail (rdHead id s).2 with
    | raised t => exact absurd hread (memRead_ne_raised id _ _ t)
    | ok v t => trivial
    | stop f => trivial

theorem discardRun_raisedIdle (id : InstId) (j : Nat) (s : State) : (discardRun id j s).RaisedIdle id := by
  induction j generalizing s with
  | zero => trivial
  | succ j ih => exact (popRun_raisedIdle id s).bind fun _ t => ih t

theorem decodeRun_raisedIdle (id : InstId) (s : State) : (decodeRun id s).RaisedIdle id := by
  refine (syncRun_raisedIdle id _ _).bind fun v t => ?_
  cases v with
  | good L b1 _ => exact (acceptRun_raisedIdle id L b1 t).then_ok _
  | empty | malformed _ | incomplete _ => trivial

theorem serviceRun_raisedIdle (id : InstId) (s : State) : (serviceRun id s).RaisedIdle id :=
  (decodeRun_raisedIdle id s).bind fun _ _ => (discardRun_raisedIdle id _ _).then_ok _

theorem consBusy_of_exec_service (h : exec .service s = .next t) : consBusy (t.inst s.port.inst) = false := by
  rw [exec, execService, invokedOnBytes_eq_next, State.setRet_port, finish_eq_next] at h
  obtain ⟨hadm, -, ⟨r, u, hrun, rfl⟩ | hrun⟩ := h
  · have hport := Run.ChangesOnly.of_serviceRun s.port.inst (s.setRet s.port none)
    rw [hrun] at hport
    rw [hport.port, State.setRet_port, returnWith_inst_consumer (permits_codec (refusalOf_eq_none.mp hadm).2.1)]
    rfl
  · have hidle := serviceRun_raisedIdle s.port.inst (s.setRet s.port none)
    rw [hrun] at hidle
    exact hidle

/-! ### One pass after another -/

/-- A whole operation keeps the invariant of both instances. -/
theorem inv_of_exec (hs : s.Inv) (h : exec i s = .next t) : t.Inv := by
  refine (State.inv_iff t).mpr fun id => ?_
  by_cases hid : id = s.port.inst
  · exact hid ▸ inv_of_operation ((State.inv_iff s).mp hs s.port.inst) (.inl h)
  · rw [(changesOnly_of_next (.inl h)).others id hid]
    exact (State.inv_iff s).mp hs id

/-- The pair of one pass, and that the codec may be invoked again on the rest of the elements. -/
theorem service_pass (hinv : s.Inv) (hadm : Admitted .codec s) (hbytes : OnBytes s) :
    ∃ t m c, exec .service s = .next t ∧ t.result s.port = some (.decoded m c) ∧ (∃ n, Decides n (m, c)) ∧
      t.here.held = s.here.held.drop c ∧ s.here.LEN = t.here.LEN + c ∧ t.Inv ∧ Admitted .codec t ∧ OnBytes t := by
  obtain ⟨t, d, m, c, hdecode, hd, hexec, hresult, ⟨-, hport, -⟩, ⟨hparams, -, -, hfault, -⟩, -, -, hheld, hlen⟩ :=
    serviceDiscardsExactlyWhatIsConsumed s hinv hadm hbytes
  obtain ⟨r, u, -, hdecides, -, hdecode'⟩ := exec_decodeNext_completes hinv hadm hbytes
  cases hdecode.symm.trans hdecode'
  rw [result_returnWith] at hd
  obtain rfl : r = (m, c) := by
    obtain ⟨hm, hc⟩ := Result.decoded.inj (Option.some.inj hd)
    exact Prod.ext hm hc
  obtain ⟨hs, hcodec, -⟩ := refusalOf_eq_none.mp hadm
  have hidle : consBusy t.here = false := by
    rw [here_of_exec hexec]
    exact consBusy_of_exec_service hexec
  refine ⟨t, m, c, hexec, hresult, ⟨_, hdecides⟩, hheld, hlen, inv_of_exec hinv hexec, ?_, ?_⟩
  · refine refusalOf_eq_none.mpr ⟨hfault.trans hs, by rw [hport]; exact hcodec, ?_, clearing_of_idle hidle⟩
    rw [hport, permits_codec hcodec]
    exact hidle
  · rw [OnBytes, hparams]
    exact hbytes

/-- What is answered is a wait, a resync pass, or a message of at least 4 bytes (R185). -/
theorem Decides.cases_of_length {n c : Nat} {m : Option Message} (h : Decides n (m, c)) :
    (m, c) = (none, 0) ∨ (m, c) = (none, 1) ∨ ∃ msg, m = some msg ∧ 4 ≤ c := by
  cases h with
  | wait => exact .inl rfl
  | resync => exact .inr (.inl rfl)
  | message payload hheader hlen =>
    obtain ⟨hmin, -⟩ := badLength_eq_false.mp hheader.length
    exact .inr (.inr ⟨_, rfl, hmin.trans_eq (hheader.delivered_snd payload).symm⟩)

/-- Settles O54, by induction on the true length, which every resync pass takes one from (`service_pass`). -/
theorem resyncLoopEndsWithinLenPasses : Obligations.ResyncLoopEndsWithinLenPasses := by
  intro s hinv hadm hbytes
  induction hn : s.here.LEN using Nat.strong_induction_on generalizing s with
  | _ n ih =>
    obtain ⟨t, m, c, hexec, hresult, ⟨_, hdecides⟩, hheld, hlen, hinv', hadm', hbytes'⟩ := service_pass hinv hadm hbytes
    obtain hpair | hpair | ⟨msg, rfl, hc⟩ := hdecides.cases_of_length
    · cases hpair
      exact ⟨0, s, t, _, Nat.zero_le _, rfl, rfl, hexec, hresult, nofun, .inl rfl⟩
    · cases hpair
      have hport := (changesOnly_of_next (.inl hexec)).port
      obtain ⟨k, t', u, r, hk, hpasses, hheld', hrest⟩ := ih t.here.LEN (by omega) t hinv' hadm' hbytes' rfl
      rw [hport] at hrest
      refine ⟨k + 1, t', u, r, by omega, ?_, ?_, hrest⟩
      · simp only [resyncPasses, hexec, hport, hresult, if_true, hpasses]
      · rw [hheld', hheld, List.drop_drop, Nat.add_comm]
    · exact ⟨0, s, t, _, Nat.zero_le _, rfl, rfl, hexec, hresult, nofun, .inr ⟨msg, c, rfl, hc⟩⟩

end Sys2Proof.Machine

/-! ## Faults of whole operations

Of the operations, `pop`, `peek` and `encode` alone can leave their instance faulted (`CallerError`). The others complete and keep
the fault register, as the rules of each say; the codec's peeks are below a length it has seen, so none of them faults. -/

namespace Sys2Proof.Machine

variable {id : InstId} {i : Instr} {s t : State} {n : Nat}

/-- The operations that record a fault, and its code (R27, R215). -/
inductive CallerError : Instr → BitVec 4 → Prop where
  | pop : CallerError .pop 4
  | peek (k : Nat) : CallerError (.peek k) 5
  | encode (m : Message) (target : InstId) (h : outboundFrame m = none) : CallerError (.encode m target) 6

/-! ### Operations on the buffer -/

theorem fault_of_exec_push {v : Elem} (hinv : s.Inv) (h : exec (.push v) s = .next t) : t.here.fault = s.here.fault := by
  obtain ⟨hadm, hv⟩ := admitted_of_exec_push h
  have hs : s.here.StoreOk := storeOk_of_inv hinv s.port.inst
  obtain ⟨t', hexec, -, -, ⟨-, -, hfault, -⟩, -⟩ := pushStoresUnlessFull v s hadm hs.head_lt hv
  cases h.symm.trans hexec
  exact hfault

theorem fault_of_exec_load {vs : List Elem} (hinv : s.Inv) (h : exec (.load vs) s = .next t) :
    t.here.fault = s.here.fault := by
  obtain ⟨hadm, hvs⟩ := admitted_of_exec_load h
  obtain ⟨t', kept, hexec, -, -, ⟨-, -, hfault, -⟩, -⟩ := loadAppendsASubsequence vs s hinv hadm hvs
  cases h.symm.trans hexec
  exact hfault

theorem fault_of_lengthQuery {result : Nat → Result} (h : lengthQuery result s = .next t) :
    (t.inst s.port.inst).fault = s.here.fault := by
  obtain ⟨t', hquery, -, hproducer, hconsumer⟩ := lengthQuery_completes (invoked_eq_next.mp h).1 result
  cases h.symm.trans hquery
  cases hrole : s.port.role with
  | producer => rw [hproducer hrole]
  | consumer => rw [hconsumer hrole]

theorem fault_of_exec_pop (hinv : s.Inv) (h : exec .pop s = .next t) :
    t.here.fault = s.here.fault ∨ CallerError .pop t.here.fault := by
  have hadm : Admitted .consumer s := admitted_of_exec h
  by_cases hempty : (rdHead s.port.inst s).1 = s.here.tail
  · obtain ⟨t', hexec, -, -, -, -, -, habort, hnone⟩ := popOfAnEmptyBuffer s hadm hempty
    cases h.symm.trans hexec
    cases hpolicy : s.here.params.popEmptyPolicy with
    | abort =>
      rw [(habort hpolicy).1]
      exact .inr .pop
    | noElement => exact .inl ((hnone hpolicy).1.trans (admitted_consumer hadm).2.symm)
  · obtain ⟨t', v, hexec, -, -, ⟨-, -, -, hfault, -⟩, -⟩ := popReturnsTheOldestElement s hinv hadm hempty
    cases h.symm.trans hexec
    exact .inl hfault

theorem fault_of_exec_peek {k : Nat} (hinv : s.Inv) (h : exec (.peek k) s = .next t) :
    t.here.fault = s.here.fault ∨ CallerError (.peek k) t.here.fault := by
  have hadm : Admitted .consumer s := admitted_of_exec h
  by_cases hk : k < (lenByConsumer s.port.inst s).1
  · obtain ⟨t', v, hexec, -, -, -, ⟨-, -, -, hfault, -⟩, -⟩ := peekReturnsTheElementAtAnOffset k s hinv hadm hk
    cases h.symm.trans hexec
    exact .inl hfault
  · have hwidth : k < 2 ^ s.here.params.CW := by
      by_contra hwide
      exact nomatch h.symm.trans (peek_refused_wide hadm (not_lt.mp hwide)).1
    obtain ⟨t', hexec, hfault, -⟩ := peekBeyondTheLengthFaults k s hadm hwidth (not_lt.mp hk)
    cases h.symm.trans hexec
    rw [hfault]
    exact .inr (.peek k)

theorem fault_of_exec_clear (h : exec .clear s = .next t) : t.here.fault = s.here.fault := by
  have hadm : Admitted .consumer s := admitted_of_exec h
  obtain ⟨-, -, hidle, -⟩ := refusalOf_eq_none.mp hadm
  rw [(admitted_consumer hadm).1] at hidle
  have hprod : prodBusy s.here = false :=
    Bool.eq_false_iff.mpr fun hbusy => nomatch h.symm.trans (clear_refused hadm hbusy).1
  obtain ⟨t', hexec, -, -, -, -, -, -, -, -, hfault, -⟩ := clearEmptiesTheBuffer s hadm ⟨hprod, hidle⟩
  cases h.symm.trans hexec
  exact hfault

theorem fault_of_exec_iterNew (h : exec .iterNew s = .next t) : t.here.fault = s.here.fault := by
  obtain ⟨t', hexec, -, -, -, ⟨-, -, -, -, hfault⟩, -⟩ := iterNewStartsAtTheOldest s (admitted_of_exec h)
  cases h.symm.trans hexec
  exact hfault

theorem fault_of_exec_iterNext (hinv : s.Inv) (h : exec .iterNext s = .next t) : t.here.fault = s.here.fault := by
  obtain ⟨hnone, hsome⟩ := iterNextYieldsTheElementOrEnd s hinv (admitted_of_exec h)
  cases hk : s.here.cons.k with
  | none => exact nomatch h.symm.trans (hnone hk)
  | some k =>
    obtain ⟨t', hexec, -, -, ⟨-, -, -, hfault, -⟩, -⟩ := hsome k hk
    cases h.symm.trans hexec
    exact hfault

theorem fault_of_exec_checksum {bytes : List Byte} (h : exec (.checksum bytes) s = .next t) :
    t.here.fault = s.here.fault := by
  obtain ⟨t', hexec, -, -, ⟨-, -, -, -, hfault⟩, -⟩ := checksumIsTheRunningSubtraction bytes s (admitted_of_exec h)
  cases h.symm.trans hexec
  exact hfault

/-! ### The encoder -/

theorem fault_of_emitFrame {frame : List Byte} (hinv : s.Inv) (h : emitFrame frame s = .next t) :
    t.here.fault = s.here.fault := by
  obtain ⟨hadm, hbytes, -⟩ := invokedOnBytes_eq_next.mp h
  exact fault_of_exec_load hinv ((emitFrame_eq_load hadm hbytes frame).symm.trans h)

theorem fault_of_exec_encode {m : Message} {target : InstId} (hinv : s.Inv) (h : exec (.encode m target) s = .next t) :
    t.here.fault = s.here.fault ∨ CallerError (.encode m target) t.here.fault := by
  have hadm : Admitted .producer s := admitted_of_exec h
  have hbytes : OnBytes s := onBytes_of_exec (.inr (.inr ⟨m, target, rfl⟩)) h
  obtain rfl : target = s.port.inst := by
    by_contra hne
    exact nomatch h.symm.trans (encode_refused_elsewhere hadm hbytes hne).1
  cases hm : outboundFrame m with
  | some frame => exact .inl (fault_of_emitFrame hinv ((exec_encode_of_outbound hadm hbytes hm).symm.trans h))
  | none =>
    have hraise := h.symm.trans (exec_encode_of_unsupported hadm hbytes hm)
    have hfault : ((s.setRet s.port none).inst s.port.inst).fault = 0 := by
      rw [State.setRet_fault]
      exact fault_eq_zero_of_next (.inl h)
    rw [here_of_exec h]
    cases hraise
    rw [raise_inst_producer (admitted_producer hadm) _ hfault]
    exact .inr (.encode m _ hm)

/-! ### The codec -/

/-- A read of `head` shows the elements whose number it answers. -/
theorem seenFrom_rdHead (h : (s.inst id).StoreOk) :
    (s.inst id).SeenFrom (lenByConsumer id s).1 ((rdHead id s).2.inst id) :=
  ⟨rdHead_viewOnly ⟨_, rfl⟩, storeOk_rdHead h, (lenByConsumer_fst id s).le⟩

theorem Inst.SeenFrom.fault {I J : Inst} (h : I.SeenFrom n J) : J.fault = I.fault := by
  obtain ⟨v, rfl⟩ := h.view
  rfl

theorem resyncRun_yields (h : (s.inst id).StoreOk) :
    (resyncRun id s).Yields id ((s.inst id).SeenFrom (lenByConsumer id s).1) (fun _ => False) fun _ => True :=
  ((peeksYield_seen id _ _).syncRun (seenFrom_rdHead h)).bind fun _ _ _ ht => ⟨trivial, ht⟩

theorem frameRun_yields (L b1 : Byte) (ck : Half) (r : Message × Nat) (h : (s.inst id).StoreOk) :
    (frameRun id L b1 ck r s).Yields id ((s.inst id).SeenFrom (lenByConsumer id s).1) (fun _ => False) fun _ => True := by
  refine ((peeksYield_seen id _ _).syncRun (seenFrom_rdHead h)).bind fun v t hv ht => ?_
  split
  next hgood =>
    subst hgood
    obtain ⟨hheader, hlen⟩ := hv
    exact ((peeksYield_seen id _ _).acceptRun hheader.length hlen b1 ht).bind fun _ _ _ hu => ⟨trivial, hu⟩
  next => exact ⟨trivial, ht⟩

theorem returnWith_fault (p : Port) (r : Result) (s : State) :
    ((returnWith p r s).inst p.inst).fault = (s.inst p.inst).fault := by
  rw [returnWith_inst]
  cases p.role <;> rfl

theorem fault_of_exec_needsResync (hinv : s.Inv) (h : exec .needsResync s = .next t) :
    (t.inst s.port.inst).fault = s.here.fault := by
  have hs : ((s.setRet s.port none).inst s.port.inst).StoreOk := storeOk_setRet (storeOk_of_inv hinv s.port.inst) none
  have hyields := resyncRun_yields hs
  have hport := Run.ChangesOnly.of_resyncRun s.port.inst (s.setRet s.port none)
  rw [exec, execNeedsResync, invokedOnBytes_eq_next, State.setRet_port, finish_eq_next] at h
  obtain ⟨-, -, ⟨a, u, hrun, rfl⟩ | hrun⟩ := h <;> rw [hrun] at hyields hport
  · rw [hport.port, State.setRet_port, returnWith_fault, hyields.2.fault, State.setRet_fault]
    rfl
  · exact hyields.elim

theorem fault_of_acceptFrame {L b1 : Byte} {payload : List Byte} {r : Message × Nat} (hinv : s.Inv)
    (h : acceptFrame L b1 payload r s = .next t) : (t.inst s.port.inst).fault = s.here.fault := by
  obtain ⟨-, -, hbody⟩ := invokedOnBytes_eq_next.mp h
  have hs : ((s.setRet s.port none).inst s.port.inst).StoreOk := storeOk_setRet (storeOk_of_inv hinv s.port.inst) none
  have hyields := frameRun_yields L b1 (checksumOf (L :: b1 :: payload)) r hs
  have hport := Run.ChangesOnly.of_frameRun s.port.inst L b1 (checksumOf (L :: b1 :: payload)) r (s.setRet s.port none)
  rw [State.setRet_port] at hbody
  split at hbody
  next u hrun =>
    cases hbody
    rw [hrun] at hyields hport
    rw [hport.port, State.setRet_port, returnWith_fault, hyields.2.fault, State.setRet_fault]
    rfl
  next => cases hbody
  next u hrun =>
    rw [hrun] at hyields
    exact hyields.elim
  next => cases hbody

theorem fault_of_exec_decodeNext (hinv : s.Inv) (h : exec .decodeNext s = .next t) :
    (t.inst s.port.inst).fault = s.here.fault := by
  obtain ⟨r, u, -, -, hseen, hexec⟩ := exec_decodeNext_completes hinv (admitted_of_exec h) (onBytes_of_exec (.inl rfl) h)
  cases h.symm.trans hexec
  rw [returnWith_fault, hseen.fault]

theorem fault_of_exec_service (hinv : s.Inv) (h : exec .service s = .next t) : t.here.fault = s.here.fault := by
  obtain ⟨t', -, -, -, -, -, hexec, -, -, ⟨-, -, -, hfault, -⟩, -⟩ :=
    serviceDiscardsExactlyWhatIsConsumed s hinv (admitted_of_exec h) (onBytes_of_exec (.inl rfl) h)
  cases h.symm.trans hexec
  exact hfault

/-! ### Every operation -/

theorem fault_of_exec (hinv : s.Inv) (h : exec i s = .next t) :
    t.here.fault = s.here.fault ∨ CallerError i t.here.fault := by
  have hhere := here_of_exec h
  cases i with
  | fSet _ _ _ | fDiscover _ | fType _ | fValue _ => exact .inl (hhere ▸ fault_of_acceptFrame hinv h)
  | eDiscoverResp _ | eTypeResp _ _ _ | eValueRespS _ _ | eValueRespL _ _ => exact .inl (fault_of_emitFrame hinv h)
  | len => exact .inl (hhere ▸ fault_of_lengthQuery h)
  | isFull => exact .inl (hhere ▸ fault_of_lengthQuery (result := fun n => .bit (fullAt s.here.params.N n)) h)
  | isEmpty => exact .inl (hhere ▸ fault_of_lengthQuery (result := fun n => .bit (emptyAt n)) h)
  | space => exact .inl (hhere ▸ fault_of_lengthQuery (result := fun n => .num (spaceAt s.here.params.N n)) h)
  | push _ => exact .inl (fault_of_exec_push hinv h)
  | load _ => exact .inl (fault_of_exec_load hinv h)
  | clear => exact .inl (fault_of_exec_clear h)
  | iterNew => exact .inl (fault_of_exec_iterNew h)
  | iterNext => exact .inl (fault_of_exec_iterNext hinv h)
  | checksum _ => exact .inl (fault_of_exec_checksum h)
  | needsResync => exact .inl (hhere ▸ fault_of_exec_needsResync hinv h)
  | decodeNext => exact .inl (hhere ▸ fault_of_exec_decodeNext hinv h)
  | service => exact .inl (fault_of_exec_service hinv h)
  | pop => exact fault_of_exec_pop hinv h
  | peek _ => exact fault_of_exec_peek hinv h
  | encode _ _ => exact fault_of_exec_encode hinv h

end Sys2Proof.Machine

/-! ## Faults of starts and of micro-steps -/

namespace Sys2Proof.Machine

variable {id : InstId} {i : Instr} {s t : State} {I : Inst}

/-! ### A start that faults is an operation that faults -/

/-- Where the invariant holds an agent always has a next micro-step (`tick_safe`); none is ever refused. -/
theorem exists_tick_eq_next {p : Port} (hinv : (s.inst p.inst).Inv) : ∃ t, tick p s = .next t := by
  have hsafe := tick_safe hinv
  cases htick : tick p s with
  | next t => exact ⟨t, rfl⟩
  | fault f =>
    rw [htick] at hsafe
    exact hsafe.elim
  | refused r =>
    rw [tick] at htick
    split at htick
    · have hstep := producerStep_of_tick p.inst s
      rw [htick] at hstep
      cases hstep
    · have hstep := consumerStep_of_tick p.inst s
      rw [htick] at hstep
      cases hstep

/-- Micro-steps keep a fault that is recorded (R225). -/
theorem ticks_keep_fault {p : Port} (k : Nat) (hinv : (s.inst p.inst).Inv) (hfault : (s.inst p.inst).fault ≠ 0) :
    ∃ t, ticks p k s = .next t ∧ (t.inst p.inst).fault = (s.inst p.inst).fault := by
  induction k generalizing s with
  | zero => exact ⟨s, rfl, rfl⟩
  | succ k ih =>
    obtain ⟨u, hu⟩ := exists_tick_eq_next hinv
    have hkept : (u.inst p.inst).fault = (s.inst p.inst).fault := (faultFrom_of_tick hu).resolve_right fun h => hfault h.1
    obtain ⟨t, ht, hsame⟩ := ih (inv_of_tick hinv hu) (hkept ▸ hfault)
    exact ⟨t, by rw [ticks, hu]; exact ht, hsame.trans hkept⟩

theorem here_of_begin (h : begin i s = .next t) : t.here = t.inst s.port.inst := by
  rw [State.here, (changesOnly_of_next (.inr h)).port]

/-- The whole operation then ends with the same fault. -/
theorem exec_of_begin_faulted (hinv : s.Inv) (h : begin i s = .next t) (hfault : t.here.fault ≠ 0) :
    ∃ u, exec i s = .next u ∧ u.here.fault = t.here.fault := by
  rw [here_of_begin h] at hfault ⊢
  obtain ⟨k, hk⟩ := microSteps_comeTo_operation i s
  obtain ⟨u, hticks, hsame⟩ :=
    ticks_keep_fault k (inv_of_operation ((State.inv_iff s).mp hinv s.port.inst) (.inr h)) hfault
  have hexec : exec i s = .next u := by
    rw [← hk k le_rfl, h]
    exact hticks
  exact ⟨u, hexec, by rw [here_of_exec hexec, hsame]⟩

/-- A pop and a peek only set registers when they are started. -/
theorem fault_of_begin_pop_or_peek (hi : i = .pop ∨ ∃ k, i = .peek k) (h : begin i s = .next t) :
    t.here.fault = s.here.fault := by
  obtain ⟨R, rfl⟩ : ∃ R, t = (s.setRet s.port none).setCRegs s.port.inst R := by
    obtain rfl | ⟨k, rfl⟩ := hi <;> rw [begin, invoked_eq_next, State.setRet_port] at h <;> obtain ⟨-, h⟩ := h
    · cases h
      exact ⟨_, rfl⟩
    · split at h
      · cases h
      · cases h
        exact ⟨_, rfl⟩
  rw [here_of_begin h, State.inst_setCRegs]
  exact State.setRet_fault s s.port none

/-! ### Micro-steps of the CONSUMER -/

/-- At these micro-steps the CONSUMER takes a fault: of a pop that has seen no element, and of a peek at or beyond the length it
read (R114, R122). -/
inductive Inst.TakesFault (I : Inst) : ErrorClass → Prop where
  | underflow (hcpc : I.cons.regs.cpc = .C3) (hempty : I.cons.regs.c_h = I.cons.regs.c_t) :
      I.TakesFault .bufferUnderflowOnRead
  | range (hcpc : I.cons.regs.cpc = .K2) (hlen : lengthOf I.params.N I.cons.regs.c_h I.cons.regs.c_t ≤ I.cons.regs.c_i) :
      I.TakesFault .indexOutOfRange

/-- In the next state, if any, the fault register is as it was, or a fault of `TakesFault` was taken and nothing else done. -/
def Out.FaultsOnlyAs (id : InstId) (s : State) (o : Out) : Prop :=
  ∀ t, o = .next t → (t.inst id).fault = (s.inst id).fault ∨
    ∃ e, (s.inst id).TakesFault e ∧ t = raise ⟨id, .consumer⟩ e s

/-- A part that kept the fault register, and then an update of the CONSUMER alone. -/
theorem Out.UpdatesConsumer.faultsOnlyAs {u : State} {o : Out} (ho : Out.UpdatesConsumer id u o)
    (hu : (u.inst id).fault = (s.inst id).fault) : o.FaultsOnlyAs id s := by
  obtain ⟨t, c, rfl, ht⟩ := ho
  rintro _ ⟨⟩
  rw [ht]
  exact .inl hu

open Out.UpdatesConsumer in
theorem tickConsumer_faultsOnlyAs (id : InstId) (s : State) : (tickConsumer id s).FaultsOnlyAs id s := by
  have hread : ((rdHead id s).2.inst id).fault = (s.inst id).fault := by rw [rdHead_inst]
  dsimp only [tickConsumer]
  cases hcpc : (s.inst id).cons.regs.cpc with
  | idle =>
    rintro _ ⟨⟩
    exact .inl rfl
  | C1 | L1 => exact (of_goC _ _ s).faultsOnlyAs rfl
  | C2 | K1 => exact (of_goC _ _ _).faultsOnlyAs hread
  | C3 =>
    dsimp only
    split
    next hempty =>
      cases (s.inst id).params.popEmptyPolicy with
      | abort =>
        rintro _ ⟨⟩
        exact .inr ⟨_, .underflow hcpc hempty, rfl⟩
      | noElement => exact (of_popDone _ _ _ s).faultsOnlyAs rfl
    next => exact (of_goC _ _ s).faultsOnlyAs rfl
  | C4 =>
    dsimp only
    split
    next v t hr => exact (of_goC _ _ t).faultsOnlyAs (by rw [memRead_eq_ok hr id])
    next t hr => exact absurd hr (memRead_ne_raised _ _ _ t)
    next => exact fun _ h => nomatch h
  | C5 =>
    refine (of_popDone id _ _ _).faultsOnlyAs ?_
    rw [inst_publishTail]
  | K2 =>
    dsimp only
    split
    next hlen =>
      rintro _ ⟨⟩
      exact .inr ⟨_, .range hcpc hlen, rfl⟩
    next => exact (of_goC _ _ s).faultsOnlyAs rfl
  | K3 =>
    dsimp only
    split
    next v t hr => exact (of_peekDone _ _ _ t).faultsOnlyAs (by rw [memRead_eq_ok hr id])
    next t hr => exact absurd hr (memRead_ne_raised _ _ _ t)
    next => exact fun _ h => nomatch h
  | L2 => exact (of_lenDone _ _ _ _).faultsOnlyAs hread
  | CL => exact (of_returnC _ _ (clearCursors id s)).faultsOnlyAs (by rw [inst_clearCursors])
  | X => exact (of_localStep _ _ s).faultsOnlyAs rfl

theorem fault_of_tickProducer (h : tickProducer id s = .next t) : (t.inst id).fault = (s.inst id).fault := by
  have hstep := producerStep_of_tick id s
  rw [h] at hstep
  cases hstep with
  | kept ht | slotWritten _ ht | headPublished _ ht => rw [ht]

/-! ### They are those of a pop and of a peek -/

/-- The codec peeks below the length it has read (R160, R189). -/
theorem CRegs.InPhase.offset_lt {R : CRegs} (h : R.InPhase) (hcpc : R.cpc.start = .K1) : R.c_i < R.n := by
  have hX : R.cpc.start ≠ .X := hcpc ▸ nofun
  cases hp : R.phase <;> simp only [CRegs.InPhase, hp] at h
  case S1 =>
    obtain ⟨-, hi, hn⟩ := h
    omega
  case S3 =>
    obtain ⟨-, hi, -, hlegal, hwhole⟩ := h
    have := four_le_of_legal hlegal
    omega
  case S4 =>
    obtain ⟨-, -, ⟨-, hwhole⟩, hi, -⟩ := h
    exact hi.trans_le hwhole
  case DEC =>
    obtain ⟨h, -⟩ | ⟨-, ⟨hheader, hwhole⟩, hcnt, hi, hlt⟩ := h
    · exact absurd h hX
    · have hfour := four_le_of_legal (headerOk_iff.mp hheader).1
      have hcount := two_mul_setCount_le R.L
      rw [hcnt] at hlt
      omega
  case S2 | S5 | DONE => exact absurd h.1 hX

/-- At `C3` and `K2` the CONSUMER has read both cursors (R114, R122). -/
theorem cursors_of_consumerOk (h : I.consumerOk = true) (hcpc : I.cons.regs.cpc = .C3 ∨ I.cons.regs.cpc = .K2) :
    I.cons.regs.c_t = I.tail ∧ I.cons.regs.c_h = I.headView := by
  obtain hcpc | hcpc := hcpc <;> simpa [Inst.consumerOk, hcpc] using h

/-- A pop of `service` is covered by the length seen, so one that finds nothing is a pop of its own. -/
theorem CRegs.OnTask.task_of_empty {R : CRegs} (h : R.OnTask 0) (hcpc : R.cpc.start = .C1) : R.task = .pop := by
  cases h with
  | pop htask _ => exact htask
  | discard _ _ hpos hleft => omega
  | codec _ _ hphase => obtain h | h := hphase.start_eq <;> rw [hcpc] at h <;> cases h
  | idle h | peek _ h | clear _ h | query _ h | iterLen _ h | iterPeek _ h _ | codecLen _ h =>
    rw [hcpc] at h
    cases h

/-- An iteration and the codec peek below the length seen, so a peek beyond it is a peek of its own. -/
theorem CRegs.OnTask.task_of_beyond {R : CRegs} {v : Nat} (h : R.OnTask v) (hcpc : R.cpc.start = .K1) (hi : v ≤ R.c_i) :
    R.task = .peek := by
  cases h with
  | peek htask _ => exact htask
  | iterPeek _ _ hlt => omega
  | codec _ hseen hphase =>
    have := hphase.offset_lt hcpc
    omega
  | idle h | pop _ h | clear _ h | query _ h | iterLen _ h | codecLen _ h | discard _ h _ _ =>
    rw [hcpc] at h
    cases h

theorem Inst.TakesFault.task {e : ErrorClass} (h : I.TakesFault e) (hinv : I.Inv) (hok : I.codecOk = true) :
    I.cons.regs.task = .pop ∧ e = .bufferUnderflowOnRead ∨ I.cons.regs.task = .peek ∧ e = .indexOutOfRange := by
  obtain ⟨hs, -, hconsumer⟩ := I.inv_iff.mp hinv
  have htask := onTask_of_codecOk hok
  cases h with
  | underflow hcpc hempty =>
    obtain ⟨ht, hh⟩ := cursors_of_consumerOk hconsumer (.inl hcpc)
    have hvisible : I.visible = 0 := by
      rw [Inst.visible, ← hh, hempty, ht]
      exact forward_self hs.tail_lt
    rw [hvisible] at htask
    exact .inl ⟨htask.task_of_empty (by rw [hcpc]; rfl), rfl⟩
  | range hcpc hlen =>
    obtain ⟨ht, hh⟩ := cursors_of_consumerOk hconsumer (.inr hcpc)
    rw [ht, hh] at hlen
    exact .inr ⟨htask.task_of_beyond (by rw [hcpc]; rfl) hlen, rfl⟩

theorem fault_of_tickConsumer (hinv : (s.inst id).Inv) (hok : (s.inst id).codecOk = true) (h : tickConsumer id s = .next t) :
    (t.inst id).fault = (s.inst id).fault ∨ (s.inst id).cons.regs.task = .pop ∧ (t.inst id).fault = 4 ∨
      (s.inst id).cons.regs.task = .peek ∧ (t.inst id).fault = 5 := by
  obtain hkept | ⟨e, htakes, rfl⟩ := tickConsumer_faultsOnlyAs id s t h
  · exact .inl hkept
  · have hinst := raise_inst ⟨id, .consumer⟩ e s
    dsimp only at hinst
    by_cases h0 : (s.inst id).fault = 0
    · rw [if_pos h0] at hinst
      rw [hinst]
      obtain ⟨htask, rfl⟩ | ⟨htask, rfl⟩ := htakes.task hinv hok
      · exact .inr (.inl ⟨htask, rfl⟩)
      · exact .inr (.inr ⟨htask, rfl⟩)
    · rw [if_neg h0] at hinst
      rw [hinst]
      exact .inl rfl

/-! ### The callers' errors -/

theorem callerError_of_exec (hinv : s.Inv) (h : exec i s = .next t) (hfault : t.here.fault ≠ 0) :
    CallerError i t.here.fault :=
  (fault_of_exec hinv h).resolve_left fun hkept => hfault (hkept.trans (fault_eq_zero_of_next (.inl h)))

/-- A start that faults is that of an `encode` (log entry 9). -/
theorem callerError_of_begin (hinv : s.Inv) (h : begin i s = .next t) (hfault : t.here.fault ≠ 0) :
    CallerError i t.here.fault ∧ i ≠ .pop ∧ ∀ k, i ≠ .peek k := by
  obtain ⟨u, hexec, hsame⟩ := exec_of_begin_faulted hinv h hfault
  have hstart (hi : i = .pop ∨ ∃ k, i = .peek k) : False :=
    hfault ((fault_of_begin_pop_or_peek hi h).trans (fault_eq_zero_of_next (.inr h)))
  have hcaller := callerError_of_exec hinv hexec (hsame ▸ hfault)
  exact ⟨hsame ▸ hcaller, fun hi => hstart (.inl hi), fun k hi => hstart (.inr ⟨k, hi⟩)⟩

theorem CallerError.cases {code : BitVec 4} (h : CallerError i code) :
    i = .pop ∧ code = 4 ∨ (∃ k, i = .peek k ∧ code = 5) ∨
      ∃ m target, i = .encode m target ∧ outboundFrame m = none ∧ code = 6 := by
  cases h with
  | pop => exact .inl ⟨rfl, rfl⟩
  | peek k => exact .inr (.inl ⟨k, rfl, rfl⟩)
  | encode m target hm => exact .inr (.inr ⟨m, target, rfl, hm, rfl⟩)

/-- Settles O13: whole operations by `fault_of_exec`, starts because the operation then ends with the same fault
(`exec_of_begin_faulted`), micro-steps by `fault_of_tickConsumer`. -/
theorem onlyCallerErrorsFaultTheBlock : Obligations.OnlyCallerErrorsFaultTheBlock := by
  refine ⟨fun s t i hinv h hfault => (callerError_of_exec hinv h hfault).cases, fun s t i hinv h hfault => ?_,
    fun s t p hinv h hchange => ?_⟩
  · obtain ⟨hcaller, hpop, hpeek⟩ := callerError_of_begin hinv h hfault
    obtain ⟨hi, -⟩ | ⟨k, hi, -⟩ | hencode := hcaller.cases
    · exact absurd hi hpop
    · exact absurd hi (hpeek k)
    · exact hencode
  · obtain ⟨hhere, hok⟩ := (codecInv_iff s).mp hinv p.inst
    rw [tick] at h
    cases hrole : p.role with
    | producer =>
      rw [hrole] at h
      exact absurd (fault_of_tickProducer h) hchange
    | consumer =>
      rw [hrole] at h
      exact ⟨rfl, (fault_of_tickConsumer hhere hok h).resolve_left hchange⟩

end Sys2Proof.Machine

/-! ## Reset

What the reset event leaves of an instance (70_reset_and_hazards.md R250, R251). -/

namespace Sys2Proof.Machine

/-- Settles O21: the reset input leaves its instance as constructed (`inst_resetInst`) and the other one alone
(`inst_resetInst_ne`). -/
theorem resetLeavesTheInstanceEmptyAndIdle : Obligations.ResetLeavesTheInstanceEmptyAndIdle := by
  intro s id q hqueue
  refine ⟨resetInst id { s with queue := q }, step_of_queue hqueue, ?_⟩
  rw [inst_resetInst, State.inst_queue]
  exact ⟨rfl, rfl, rfl, rfl, rfl, rfl, rfl, rfl, fun _ => rfl, rfl,
    fun id' hid => (inst_resetInst_ne _ hid).trans (State.inst_queue s q id')⟩

end Sys2Proof.Machine

/-! ## A load within the space the PRODUCER saw

The PRODUCER's view of `tail` only ever overstates what is held, so room it saw once is room for the pushes that follow, whatever
their own reads answer (R63, R258, R261). -/

namespace Sys2Proof.Machine

variable {id : InstId} {s t : State} {v : Elem} {vs : List Elem}

/-- A stored element is one more that the PRODUCER takes for held. -/
theorem Inst.StoreOk.producerLength_pushed {I : Inst} (h : I.StoreOk) {w : Nat} (hw : OnTheWay I.params.N I.tailView I.tail w)
    (hroom : lengthOf I.params.N I.head w ≠ I.params.N - 1) :
    (I.pushed v w).producerLength = lengthOf I.params.N I.head w + 1 := by
  obtain ⟨-, ⟨-, -, -, hview⟩, -⟩ := h.tailSeen hw
  rw [Inst.pushed_of_room hroom]
  exact forward_inc_right hview h.head_lt hroom

/-- A load that fits into what the PRODUCER takes for free appends every element. -/
theorem loadRun_appends_all (hs : (s.inst id).StoreOk) (hvs : ∀ v ∈ vs, v < 2 ^ (s.inst id).params.W)
    (hfits : (s.inst id).producerLength + vs.length ≤ (s.inst id).params.N - 1) :
    ∃ u, loadRun id vs s = .ok () u ∧ (s.inst id).Appends (u.inst id) vs := by
  induction vs generalizing s with
  | nil => exact ⟨s, rfl, hs, ⟨rfl, rfl, rfl, rfl, rfl⟩, (List.append_nil _).symm⟩
  | cons v vs ih =>
    have hread := rdTail_onTheWay id s
    have hle : lengthOf (s.inst id).params.N (s.inst id).head (rdTail id s).1 ≤ (s.inst id).producerLength :=
      hs.producerLength_le_of_tailSeen hread
    rw [List.length_cons] at hfits
    have hroom : lengthOf (s.inst id).params.N (s.inst id).head (rdTail id s).1 ≠ (s.inst id).params.N - 1 := by omega
    obtain ⟨t, hpush, ht⟩ := pushRun_pushed v hs.head_lt
    have hone := hs.appends_pushed (hvs v List.mem_cons_self) hread
    have hlen := hs.producerLength_pushed (v := v) hread hroom
    rw [if_neg hroom] at hone
    rw [← ht] at hone hlen
    obtain ⟨hparams, -⟩ := hone.frame
    obtain ⟨u, hload, hrest⟩ := ih hone.store (fun w hw => hparams ▸ hvs w (List.mem_cons_of_mem v hw))
      (by rw [hparams]; omega)
    exact ⟨u, by rw [loadRun_cons, hpush, Run.bind_ok, hload], hone.trans hrest⟩

/-- A whole load that fits into what the PRODUCER takes for free loses nothing. -/
theorem held_of_exec_load (hs : s.here.StoreOk) (h : exec (.load vs) s = .next t)
    (hfits : s.here.producerLength + vs.length ≤ s.here.params.N - 1) : t.here.held = s.here.held ++ vs.map some := by
  obtain ⟨hadm, hvs⟩ := admitted_of_exec_load h
  have hrole := admitted_producer hadm
  have hinst := inst_setRet_producer (s := s) hrole none
  obtain ⟨u, hload, happ⟩ := loadRun_appends_all (vs := vs) (storeOk_setRet hs none) (by rw [hinst]; exact hvs)
    (by rw [hinst]; exact hfits)
  have hhere := here_of_exec h
  rw [exec, execLoad, invoked_eq_next, State.setRet_port] at h
  obtain ⟨-, h⟩ := h
  split at h
  next => cases h
  rw [finish_of_ok hload (Run.ChangesOnly.of_loadRun _ _ _), State.setRet_port] at h
  cases h
  rw [hinst] at happ
  rw [hhere, returnWith_inst_producer hrole]
  exact happ.held

/-- What a `space` of the PRODUCER answers goes by what it then takes for held (R120), and storage is as before. -/
theorem space_of_exec {space : Nat} (hrole : s.port.role = .producer) (h : exec .space s = .next t)
    (hresult : t.result s.port = some (.num space)) :
    space = t.here.params.N - t.here.producerLength ∧ t.here.held = s.here.held := by
  obtain ⟨t', hexec, hnum, hproducer, -⟩ := lengthQuery_completes (admitted_of_exec h) fun n => .num (spaceAt s.here.params.N n)
  cases h.symm.trans hexec
  rw [here_of_exec h, hproducer hrole]
  rw [hresult, lenBy_of_producer hrole] at hnum
  exact ⟨Result.num.inj (Option.some.inj hnum), rfl⟩

/-- Settles O36: the space the PRODUCER saw is what it still takes for free (`space_of_exec`), so every push of the load finds room
(`held_of_exec_load`). -/
theorem loadWithinSpaceLosesNothing : Obligations.LoadWithinSpaceLosesNothing := by
  intro vs s t u space hinv hrole hspace hresult hlen hload
  obtain ⟨rfl, hheld⟩ := space_of_exec hrole hspace hresult
  rw [← hheld]
  exact held_of_exec_load (storeOk_of_inv (inv_of_exec hinv hspace) t.port.inst) hload (by omega)

end Sys2Proof.Machine

/-! ## A declared length the buffer cannot hold -/

namespace Sys2Proof.Machine

variable {s u : State}

/-- What is held goes by the storage. -/
theorem SameStorage.held_eq {I J : Inst} (h : SameStorage I J) : J.held = I.held := by
  obtain ⟨hparams, hslots, hhead, htail, -⟩ := h
  have hat : J.heldAt = I.heldAt := funext fun i => by simp only [Inst.heldAt, hparams, hslots, htail]
  simp only [Inst.held, Inst.LEN, hparams, hhead, htail, hat]

/-- The byte at offset 0 is the same however much of the front is seen. -/
theorem frontBytes_getD_zero (I : Inst) {n : Nat} (hn : 0 < n) : (I.frontBytes n).getD 0 0 = (I.frontBytes 1).getD 0 0 := by
  simp [Inst.frontBytes, hn]

/-- Where the decoder waits there is nothing to hand over and nothing to discard: `service` is `decodeNext` (R177, R187). -/
theorem exec_service_of_wait (hadm : Admitted .codec s) (hbytes : OnBytes s)
    (hwait : decodeRun s.port.inst (s.setRet s.port none) = .ok (none, 0) u) : exec .service s = exec .decodeNext s := by
  have hservice : serviceRun s.port.inst (s.setRet s.port none) = .ok (none, 0) u := by
    rw [serviceRun, hwait]
    rfl
  rw [exec, exec, execService, execDecodeNext, invokedOnBytes_admitted hadm hbytes, invokedOnBytes_admitted hadm hbytes,
    State.setRet_port, hservice, hwait]

/-- Settles O55: fewer bytes are visible than the front byte declares, so the decoder waits (`waits_of_short_front`), and a `service`
that waits leaves storage as it is (`exec_service_of_wait`, `exec_decodeNext_front`). -/
theorem oversizeFrameStallsDecoding : Obligations.OversizeFrameStallsDecoding := by
  rintro s hinv hadm hbytes ho hseen ⟨hmin, hmax, hover⟩
  have hs : s.here.StoreOk := storeOk_of_inv hinv s.port.inst
  have hvisible : (lenByConsumer s.port.inst s).1 ≤ s.here.LEN := lenByConsumer_le_LEN hs
  have hcapacity := hs.LEN_lt
  have hdecision : frontDecision (s.here.frontBytes (lenByConsumer s.port.inst s).1) = (none, 0) := by
    refine (waits_of_short_front (.inr ?_)).2
    rw [frontBytes_getD_zero s.here hseen]
    refine ⟨?_, badLength_eq_false.mpr ⟨hmin, hmax⟩⟩
    rw [Inst.frontBytes, List.length_map, List.length_range]
    omega
  obtain ⟨u, hwait⟩ := decodeRun_frontDecision hinv ho
  obtain ⟨t, hexec, hresult, -, hstorage, -⟩ := exec_decodeNext_front hinv hadm hbytes ho
  rw [hdecision] at hwait hresult
  exact ⟨t, (exec_service_of_wait hadm hbytes hwait).trans hexec, hresult, hstorage.held_eq, hstorage⟩

end Sys2Proof.Machine
